-- ==== Sys2Proof/Word.lean ====
section
/-! DEFINITION. The word types of the SC8: bytes of its links, 32-bit digests and volume ids. -/

namespace Sys2Proof

/-- One byte of a link, of a volume or of the repair buffer. -/
abbrev Byte := BitVec 8

/-- A digest: `S2 × 65,536 + S1` as 32 bits (R7). -/
abbrev Digest := BitVec 32

/-- A volume id, the 32-bit value written in a volume's label (section 0.4). -/
abbrev VolumeId := BitVec 32

/-- One of the eight drive ports P0 to P7 (section 0.4). -/
abbrev PortId := Fin 8

/-- One of the sixteen job slots (R63). -/
abbrev SlotId := Fin 16

end Sys2Proof
end

