-- ==== Sys2Proof/Config.lean ====
section
/-! DEFINITION. What the part fixes (capacities, R175) and the values the manual leaves open. -/

namespace Sys2Proof.Config

/-- FREE VALUE. R172: "Two notices posted by one event, such as a MARGIN and a DEFECT_FOUND caused by
the taking of one reply, may also enter in either order." The n-th such choice takes the notice at
position `noticeOrder n` (modulo the number waiting). No body: nothing can evaluate it. Safe (log 5). -/
opaque noticeOrder : Nat → Nat

/-- FREE VALUE. The bytes that the 5-byte cursor field of R192 holds for the cursor of a verify that has read
the last block of a volume of `2^40` blocks. The cursor is then `2^40` (R80), which the field cannot carry, and
R192 gives a meaning to 0 for a volume's block count alone. No body: nothing can evaluate it. Safe (log 34). -/
opaque cursorPastTop : Nat → Nat

/-- Catalogue entries (R20, R175). -/
def catalogueCapacity : Nat := 512
/-- Job slots (R63, R175). -/
def jobSlots : Nat := 16
/-- Defect records (R97, R175). -/
def defectCapacity : Nat := 256
/-- Notices in the notice queue (R172, R175). -/
def noticeCapacity : Nat := 32
/-- Requests in the request input queue (R166, R175). -/
def requestCapacity : Nat := 4
/-- Overflow replies waiting in the reply list (R167). -/
def overflowCapacity : Nat := 8
/-- Bytes of a block (section 0.4, R175). -/
def blockBytes : Nat := 4096
/-- Bytes of the repair buffer (section 6.1, R175). -/
def bufferBytes : Nat := 67108864
/-- The largest payload of a frame (R163, R175). -/
def largestPayload : Nat := 1024
/-- The number of blocks an address can name, `2^40` (section 0.4). -/
def blockLimit : Nat := 2 ^ 40
/-- The largest value of a 32-bit counter or minute value. -/
def word32Max : Nat := 4294967295
/-- The largest value of a 16-bit count or id. -/
def word16Max : Nat := 65535

end Sys2Proof.Config
end

