-- ==== Sys2Proof/Syntax.lean ====
section
/-! DEFINITION. The commands of the SC8: one constructor for each row of spec/opcode_table.json. -/

namespace Sys2Proof

/-- A byte as it arrives on the control link: `stop` is the level of its stop bit, and a byte with its
stop bit low is a bad byte (R162). -/
structure RxByte where
  data : Byte
  stop : Bool
  deriving DecidableEq, Repr

/-- How the writing of a store came to its end (R185). -/
inductive StoreFinish where
  /-- The read-back is complete, and its bytes equal the snapshot or not. -/
  | readBack (equal : Bool)
  /-- The nonvolatile memory reported a write error. -/
  | writeError
  deriving DecidableEq, Repr

/-- The commands. A request row carries no operand: it is RQH's execution of the request at the front
of the unexecuted requests, whose bytes the request input queue holds (R166; log 1). -/
inductive Instr where
  | powerOnResetAssert
  | powerOnResetRelease
  | resetPinAssert
  | resetPinRelease
  | startUpEnd
  | receiveFrame (bytes : List RxByte)
  | badByteInHunt
  | gapTimerExpiry
  | frameSent
  | unknownRequest
  | identify
  | status
  | setMode
  | setTime
  | setNotices
  | reset
  | portConfig
  | portStatus
  | portOnline
  | marginRead
  | addReel
  | editReel
  | removeReel
  | readReel
  | listReels
  | freezeReel
  | lockReel
  | unlockReel
  | lockAll
  | unlockAll
  | convert
  | startScrub
  | startVerify
  | suspendJob
  | resumeJob
  | abortJob
  | jobStatus
  | setPatrol
  | readDefects
  | removeDefect
  | retryDefect
  | store
  | restoreFactory
  | storeEnds (finish : StoreFinish)
  | minuteExpiry
  | driveReply (port : PortId) (reply : List Byte)
  | commandTimeout (port : PortId)
  | readyRise (port : PortId)
  | readyFall (port : PortId)
  | mediaRise (port : PortId)
  | mediaFall (port : PortId)
  | wprotRise (port : PortId)
  | wprotFall (port : PortId)
  | faultRise (port : PortId)
  | faultFall (port : PortId)
  | gntRise (port : PortId)
  | gntFall (port : PortId)
  | yldRise (port : PortId)
  | yldFall (port : PortId)
  deriving DecidableEq, Repr

end Sys2Proof
end

