-- ==== Sys2Proof/Decode.lean ====
section
/-! DEFINITION. The decoder over the rows of spec/opcode_table.json that give bits: there are none. -/

namespace Sys2Proof

/-- No row of spec/opcode_table.json gives bits ("fields": [] and no "fixed" in every row), so no word
spells a command. -/
def decodeTableWord (_nbits _w : Nat) : Option Instr := none

end Sys2Proof
end

