-- ==== Sys2Proof/Machine/State.lean ====
section
/-! DEFINITION. The state of the SC8, owner by owner (Table 0-2), its stops, and the state right after
reset. All of it is plain data. -/

namespace Sys2Proof.Machine

open Sys2Proof

/-! ### Timecodes and the catalogue (chapters 1 and 2) -/

/-- Frame rate codes (Table 0-3). -/
inductive RateCode where
  | f24 | f25 | f30n | f30d
  deriving DecidableEq, Repr

/-- A timecode, four bytes of two packed BCD digits (section 1.5, R193). -/
structure Timecode where
  hh : Byte
  mm : Byte
  ss : Byte
  ff : Byte
  deriving DecidableEq, Repr

/-- The two copies of a reel. -/
inductive CopyId where
  | a | b
  deriving DecidableEq, Repr

/-- Whether a copy can be reached now (R26). It is derived, never held. -/
inductive Presence where
  | present | absent | outOfBounds | portOffline
  deriving DecidableEq, Repr

/-- A copy descriptor (Table 2-2). `lastScrub = none` is NEVER. -/
structure CopyDesc where
  port : PortId
  volumeId : VolumeId
  firstFrameBlock : Nat
  manifestBlock : Nat
  lastScrub : Option Nat
  repairedCount : Nat
  lostCount : Nat
  deriving DecidableEq, Repr

/-- The stored fields of a catalogue entry (Table 2-1). -/
structure StoredEntry where
  reel : Nat
  name : List Byte
  rate : RateCode
  start : Timecode
  frameCount : Nat
  frameBytes : Nat
  intervalDays : Nat
  frozen : Bool
  copyA : CopyDesc
  copyB : Option CopyDesc
  deriving DecidableEq, Repr

/-- A catalogue entry: its stored fields and its volatile repair lock (Table 2-1). -/
structure Entry extends StoredEntry where
  locked : Bool
  deriving DecidableEq, Repr

/-! ### Drive ports (chapters 1, 3 and 7) -/

/-- Port states (section 3.6). -/
inductive PortState where
  | normal | recovery | offline
  deriving DecidableEq, Repr

/-- Why a port is OFFLINE (R54). -/
inductive OfflineCause where
  | start | fault | escalation
  deriving DecidableEq, Repr

/-- Grant states (Table 3-4). -/
inductive GrantState where
  | idle | requesting | granted | releasing
  deriving DecidableEq, Repr

/-- Volume states (R56). -/
inductive VolumeState where
  | noMedia
  | labelRead
  | unlabelled
  | mounted (id : VolumeId) (blocks : Nat)
  deriving DecidableEq, Repr

/-- The form of a read (R9); a frame form carries its byte limit, the reel's frame_bytes. -/
inductive ReadForm where
  | frame (limit : Nat)
  | blockCheck
  | pass
  deriving DecidableEq, Repr

/-- What a drive command moves: a READ in one of its forms, or a WRITE with its data (R40). -/
inductive Transfer where
  | read (form : ReadForm)
  | write (data : List Byte)
  deriving DecidableEq, Repr

/-- A claim: a drive command a claimant wants issued (section 3.5). -/
structure Claim where
  transfer : Transfer
  address : Nat
  blocks : Nat
  deriving DecidableEq, Repr

/-- The three claimants of a port (section 3.5). -/
inductive Claimant where
  | label | rpu | job
  deriving DecidableEq, Repr

/-- The outstanding command of a port: its claim, its tag (`false` is 0), its claimant (`none` for an
orphan, R50) and the timeout it was started with, in units of 100 ms (R42). -/
structure Outstanding where
  claim : Claim
  tag : Bool
  claimant : Option Claimant
  timeout : Nat
  deriving DecidableEq, Repr

/-- One Bool for each status line: a level (`true` is high) or a delta flag (R44). -/
structure Lines where
  ready : Bool
  media : Bool
  wprot : Bool
  fault : Bool
  deriving DecidableEq, Repr

/-- The four status lines (Table 3-3). -/
inductive Line where
  | ready | media | wprot | fault
  deriving DecidableEq, Repr

/-- The five settings of a port: the command timeout (R61) and the margin settings (Table 7-2). -/
structure PortSettings where
  timeout : Nat
  threshold : Nat
  hysteresis : Nat
  debounce : Nat
  filterShift : Nat
  deriving DecidableEq, Repr

/-- Margin states (R141, R142). -/
inductive MarginState where
  | steady | low
  deriving DecidableEq, Repr

/-- The running state of a margin monitor (Table 7-1). -/
structure Margin where
  windowSum : Nat
  windowBlocks : Nat
  seeded : Bool
  raw : Nat
  baseline : Nat
  difference : Nat
  state : MarginState
  debounceCount : Nat
  deriving DecidableEq, Repr

/-- A digest engine (section 1.4): IDLE (`form = none`) or SUMMING in a form, the two sums, the bytes
taken, a byte that opens a word and waits for its partner, and the stored-check bytes of block-check
form. -/
structure DigestEngine where
  form : Option ReadForm
  s1 : Nat
  s2 : Nat
  taken : Nat
  half : Option Byte
  check : List Byte
  deriving DecidableEq, Repr

/-- One drive port: port controller, digest engine and margin monitor (Table 3-1, sections 1.4, 7.1). -/
structure Port where
  state : PortState
  cause : Option OfflineCause
  grant : GrantState
  req : Bool
  gnt : Bool
  yld : Bool
  lines : Lines
  delta : Lines
  volume : VolumeState
  outstanding : Option Outstanding
  nextTag : Bool
  labelClaim : Bool
  rpuClaim : Option Claim
  jobClaim : Option Claim
  reissue : Option (Claimant × Claim)
  settings : PortSettings
  margin : Margin
  engine : DigestEngine
  deriving DecidableEq, Repr

/-! ### Defects (chapter 5) -/

/-- Record kinds (Table 5-2). -/
inductive DefectKind where
  | mismatch | unreadable | manifest | block
  deriving DecidableEq, Repr

/-- The stored thing a finding or record concerns (Table 5-2). For a frame or a manifest block it is
the record's key (R99). -/
inductive Place where
  | frame (reel : Nat) (copy : CopyId) (index : Nat)
  | manifest (reel : Nat) (copy : CopyId) (index : Nat)
  | block (address : Nat)
  deriving DecidableEq, Repr

/-- Where a finding came from (Table 5-1). -/
inductive FindingOrigin where
  | requested | patrol | verify
  deriving DecidableEq, Repr

/-- A finding as JBU hands it to DFL (R77). -/
structure Finding where
  kind : DefectKind
  port : PortId
  place : Place
  expected : Option Digest
  found : Option Digest
  origin : FindingOrigin
  deriving DecidableEq, Repr

/-- Record states (Table 5-3). -/
inductive DefectState where
  | held | pending | repairing | repaired | lost | repairFailed | noted
  deriving DecidableEq, Repr

/-- Outcome details (Table 5-1). -/
inductive OutcomeDetail where
  | sourceMismatch | sourceUnreadable | sourceManifestUnsound | writeFailed | readbackMismatch
  | noReference | writeProtected
  deriving DecidableEq, Repr

/-- A defect record (Table 5-1). `minute = none` is NOT_SET. -/
structure Record where
  id : Nat
  kind : DefectKind
  state : DefectState
  port : PortId
  place : Place
  expected : Option Digest
  found : Option Digest
  origin : FindingOrigin
  seen : Nat
  attempts : Nat
  detail : Option OutcomeDetail
  minute : Option Nat
  deriving DecidableEq, Repr

/-- What DFL holds: records in creation order (R97), the stall order (R104) and the id counter (R101). -/
structure Dfl where
  records : List Record
  stallOrder : List SlotId
  nextId : Nat
  deriving DecidableEq, Repr

/-! ### Jobs (chapter 4) -/

/-- Job kinds (R65). -/
inductive JobKind where
  | reelScrub | rangeScrub | volumeVerify
  deriving DecidableEq, Repr

/-- Job origins (Table 4-1). -/
inductive JobOrigin where
  | requested | patrol
  deriving DecidableEq, Repr

/-- Job states (Table 4-2). -/
inductive JobState where
  | queued | running | suspending | suspended | yielded | stalled | waitMedia | done | aborted | failed
  deriving DecidableEq, Repr

/-- End reasons (Table 4-1). -/
inductive EndReason where
  | complete | aborted | portOffline
  deriving DecidableEq, Repr

/-- The reel copy a scrub examines. -/
structure Target where
  reel : Nat
  copy : CopyId
  deriving DecidableEq, Repr

/-- A loaded manifest block: its index and its 1,023 slot values (R74). -/
structure LoadedManifest where
  index : Nat
  slots : List Digest
  deriving DecidableEq, Repr

/-- A verify read being settled (R82): the offsets whose findings are not yet formed, and how many
offsets the read's list had. -/
structure Settling where
  remaining : List Nat
  total : Nat
  deriving DecidableEq, Repr

/-- A job context (Table 4-1). -/
structure Job where
  id : Nat
  kind : JobKind
  origin : JobOrigin
  target : Option Target
  port : PortId
  volume : Option (VolumeId × Nat)
  rangeStart : Nat
  rangeEnd : Option Nat
  cursor : Nat
  manifest : Option LoadedManifest
  finding : Option Finding
  settling : Option Settling
  good : Nat
  defective : Nat
  unchecked : Nat
  blocksRead : Nat
  blocksUnreadable : Nat
  sinceResume : Nat
  resumedEver : Bool
  sequence : Nat
  state : JobState
  endReason : Option EndReason
  endOrder : Option Nat
  deriving DecidableEq, Repr

/-- What JBU holds: sixteen slots (R63), the counters of R64, R69 and R67, and the order in which
waiting jobs entered WAIT_MEDIA (R85). -/
structure Jbu where
  slots : Vector (Option Job) 16
  nextId : Nat
  sequence : Nat
  endOrder : Nat
  waitOrder : List SlotId
  deriving DecidableEq, Repr

/-! ### Repair (chapter 6) -/

/-- RPU phases (Table 6-1). -/
inductive RpuPhase where
  | idle | reference | source | write | readback
  deriving DecidableEq, Repr

/-- The source or the target of a repair: a copy and the port its descriptor names (R116). -/
structure RpuEnd where
  copy : CopyId
  port : PortId
  deriving DecidableEq, Repr

/-- What RPU holds (Table 6-1). Its claim is held where its port holds it. `buffer` is the content of
the repair buffer from its first byte. -/
structure Rpu where
  phase : RpuPhase
  record : Option Nat
  source : Option RpuEnd
  target : Option RpuEnd
  filled : Bool
  sourceCheck : Option Digest
  holds : Vector Bool 8
  buffer : List Byte
  deriving DecidableEq, Repr

/-! ### Patrol and the archive clock (chapter 8) -/

/-- What PTS holds (Table 8-1). -/
structure Pts where
  clock : Nat
  clockSet : Bool
  timerRunning : Bool
  enabled : Bool
  deriving DecidableEq, Repr

/-! ### The stored image (chapter 10) -/

/-- The fields of an image (Table 10-2), its check apart. -/
structure Image where
  mark : List Byte
  generation : Nat
  settings : Vector PortSettings 8
  mask : Byte
  patrolEnabled : Bool
  autoRun : Bool
  entryCount : Nat
  entries : List StoredEntry
  deriving DecidableEq, Repr

/-- What a slot holds: nothing since manufacture, an image with its stored check, or bytes that are no
image, as a writing that was cut off leaves them (R183). -/
inductive SlotContent where
  | blank
  | image (img : Image) (check : Digest)
  | unreadable
  deriving DecidableEq, Repr

/-- The condition of a slot as last judged (R183). -/
inductive SlotCondition where
  | blank
  | valid (generation : Nat)
  | invalid
  deriving DecidableEq, Repr

/-- An image slot. -/
structure ImageSlot where
  content : SlotContent
  condition : SlotCondition
  deriving DecidableEq, Repr

/-- What started a store (R184). -/
inductive StoreCause where
  | store | freezeReel | restoreFactory
  deriving DecidableEq, Repr

/-- A store in progress (R184 step 5); its generation stands in the snapshot. -/
structure StoreJob where
  snapshot : Image
  slot : Fin 2
  cause : StoreCause
  deriving DecidableEq, Repr

/-- What SIU holds: the two slots and the store state (`none` is IDLE). -/
structure Siu where
  slots : Vector ImageSlot 2
  store : Option StoreJob
  deriving DecidableEq, Repr

/-! ### The control link (chapter 9) -/

/-- The receive framer's phase with the frame in progress (Table 9-2). The gap timer runs in every
phase but HUNT (R164). -/
inductive Framer where
  | hunt
  | length (got : List Byte)
  | body (len : Nat) (got : List Byte)
  | check (body : List Byte) (got : List Byte)
  deriving DecidableEq, Repr

/-- A request in the request input queue (R166); `replied` says that its reply has been formed. -/
structure Request where
  kind : Byte
  tag : Byte
  payload : List Byte
  replied : Bool
  deriving DecidableEq, Repr

/-- Reply statuses (Table 9-4). -/
inductive Status where
  | ok | accepted | ignored | busy | wrongMode | unknownRequest | badLength | badArgument | badTimecode
  | outOfReel | noSuchReel | reelExists | catalogueFull | frozen | reelBusy | samePort | noSlot
  | noSuchJob | notRunning | notSuspended | tooSoon | portOffline | noSuchDefect | notTerminal
  | timeNotSet
  deriving DecidableEq, Repr

/-- Who formed a reply: RQH, or LKU by the overflow path (R167). -/
inductive ReplySource where
  | ordinary | overflow
  deriving DecidableEq, Repr

/-- A formed reply (R168). `resets` marks the OK reply of a RESET, after which the warm reset takes
effect (R190). -/
structure Reply where
  source : ReplySource
  kind : Byte
  tag : Byte
  status : Status
  payload : List Byte
  resets : Bool
  deriving DecidableEq, Repr

/-- Notice kinds (Table 9-5). -/
inductive NoticeKind where
  | startup | jobEnd | jobWait | defectFound | defectResolved | portEvent | margin | storeEnd
  deriving DecidableEq, Repr

/-- A notice as posted (R173). -/
structure Notice where
  kind : NoticeKind
  payload : List Byte
  deriving DecidableEq, Repr

/-- What the transmitter is sending (R171). -/
inductive Sending where
  | reply (r : Reply)
  | notice (n : Notice)
  deriving DecidableEq, Repr

/-- What LKU holds (Table 9-1), and `posted`, the model's own list of the notices that the step in
hand has posted and the notice queue has not yet taken (log 5). -/
structure Link where
  framer : Framer
  linkError : Bool
  queue : List Request
  replies : List Reply
  notices : List Notice
  noticesLost : Bool
  sending : Option Sending
  posted : List Notice
  deriving DecidableEq, Repr

/-! ### Modes and resets (chapter 10) -/

/-- Operating modes (R178). -/
inductive Mode where
  | starting | setup | run
  deriving DecidableEq, Repr

/-- Reset kinds (R188). -/
inductive ResetKind where
  | powerOn | pin | request
  deriving DecidableEq, Repr

/-! ### The whole part -/

/-- The whole state of the part, and the queue of the commands that wait for it. -/
structure State where
  /-- RQH: operating mode (R178). -/
  mode : Mode
  /-- RQH: notice enable mask (R174). -/
  mask : Byte
  /-- RQH: auto-run (R181). -/
  autoRun : Bool
  /-- RQH: a RESET's reply has been formed, so no further request is executed (R190). -/
  resetAsked : Bool
  /-- LKU. -/
  link : Link
  /-- CAT: the entries, in ascending order of reel number (log 20). -/
  cat : List Entry
  /-- JBU. -/
  jbu : Jbu
  /-- PC0 to PC7, DGE0 to DGE7, MGM0 to MGM7. -/
  ports : Vector Port 8
  /-- DFL. -/
  dfl : Dfl
  /-- RPU. -/
  rpu : Rpu
  /-- PTS. -/
  pts : Pts
  /-- SIU. -/
  siu : Siu
  /-- The supply is below its working level: a power-on reset is asserted (R189). -/
  supplyLow : Bool
  /-- The RESET pin is asserted (R189). -/
  resetPin : Bool
  /-- The kind of the reset last asserted (R189). -/
  resetKind : ResetKind
  /-- Start-up has taken steps 2 to 4 of R187 since the last reset. -/
  portsSet : Bool
  /-- The model's own counter of free values taken (log 5). -/
  freeCount : Nat
  /-- The commands waiting for the part, first in, first out. -/
  pending : List Instr
  deriving DecidableEq, Repr

/-- No event stops the part: a wrong request gets a status, a failing drive a port state (log 28).
No command raises a fault, so the type has no constructor. -/
inductive Fault where
  deriving DecidableEq, Repr

/-- Why a command has no meaning in this model. -/
inductive Refusal where
  /-- Raised by `exec` for a row of the table that has no meaning yet; no arm raises it now. Safe. -/
  | notModelled (mnemonic : String)
  deriving DecidableEq, Repr

/-! ### The state right after reset -/

/-- All four lines low, or no delta flag set. -/
def Lines.allLow : Lines := ⟨false, false, false, false⟩

/-- Factory defaults of a port's settings (Table 10-3). -/
def PortSettings.factory : PortSettings :=
  { timeout := 100, threshold := 400, hysteresis := 100, debounce := 3, filterShift := 4 }

/-- A margin monitor after a reset (R149). -/
def Margin.cleared : Margin :=
  { windowSum := 0, windowBlocks := 0, seeded := false, raw := 0, baseline := 0, difference := 0,
    state := .steady, debounceCount := 0 }

/-- A digest engine in IDLE with no bytes taken (R10). S1 and S2 as R9 starts them: DESIGN CHOICE
(log 19). -/
def DigestEngine.idle : DigestEngine :=
  { form := none, s1 := 1, s2 := 0, taken := 0, half := none, check := [] }

/-- A port whose running state a reset has cleared and start-up has not yet set, with its input lines
low. State, cause and grant state: DESIGN CHOICE (log 7). -/
def Port.cleared : Port :=
  { state := .normal, cause := none, grant := .idle, req := false, gnt := false, yld := false,
    lines := Lines.allLow, delta := Lines.allLow, volume := .noMedia, outstanding := none,
    nextTag := false, labelClaim := false, rpuClaim := none, jobClaim := none, reissue := none,
    settings := PortSettings.factory, margin := Margin.cleared, engine := DigestEngine.idle }

/-- LKU as a reset leaves it (R177). -/
def Link.cleared : Link :=
  { framer := .hunt, linkError := false, queue := [], replies := [], notices := [],
    noticesLost := false, sending := none, posted := [] }

/-- JBU as a reset leaves it (R96). -/
def Jbu.cleared : Jbu :=
  { slots := Vector.replicate 16 none, nextId := 1, sequence := 0, endOrder := 0, waitOrder := [] }

/-- DFL as a reset leaves it (R115). -/
def Dfl.cleared : Dfl := { records := [], stallOrder := [], nextId := 1 }

/-- RPU as a reset leaves it (R135); the buffer holds no bytes: DESIGN CHOICE (log 23). -/
def Rpu.cleared : Rpu :=
  { phase := .idle, record := none, source := none, target := none, filled := false,
    sourceCheck := none, holds := Vector.replicate 8 false, buffer := [] }

/-- The part at the moment a power-on reset has been released (R187 step 1): STARTING, LKU in its reset
state, the clock 0 and not set. Input lines low, image slots BLANK, settings at their factory
defaults until start-up loads them: DESIGN CHOICE (log 7). -/
def State.reset : State :=
  { mode := .starting, mask := 0xFF#8, autoRun := false, resetAsked := false,
    link := Link.cleared, cat := [], jbu := Jbu.cleared, ports := Vector.replicate 8 Port.cleared,
    dfl := Dfl.cleared, rpu := Rpu.cleared,
    pts := { clock := 0, clockSet := false, timerRunning := false, enabled := false },
    siu := { slots := Vector.replicate 2 ⟨.blank, .blank⟩, store := none },
    supplyLow := false, resetPin := false, resetKind := .powerOn, portsSet := false,
    freeCount := 0, pending := [] }

end Sys2Proof.Machine
end

