-- ==== Sys2Proof/Machine/Operands.lean ====
section
/-! DEFINITION. The encodings of chapter 11: little-endian fields, packed BCD, code tables, and the
operand forms of the requests (Tables 11-2 to 11-4). -/

namespace Sys2Proof.Machine

open Sys2Proof

/-! ### Fields (R192) -/

/-- The `n` bytes of a little-endian field (R192); a value that does not fit keeps its low bytes. -/
def le : Nat → Nat → List Byte
  | 0, _ => []
  | n + 1, v => BitVec.ofNat 8 v :: le n (v / 256)

/-- The value of a little-endian field (R192). -/
def unle : List Byte → Nat
  | [] => 0
  | b :: bs => b.toNat + 256 * unle bs

/-- The bytes of a payload at `offset`, `size` of them. -/
def slice (payload : List Byte) (offset size : Nat) : List Byte :=
  (payload.drop offset).take size

/-- The little-endian field of a payload at `offset`, `size` bytes wide. -/
def field (payload : List Byte) (offset size : Nat) : Nat :=
  unle (slice payload offset size)

/-- The byte of a payload at `offset`. -/
def byteAt (payload : List Byte) (offset : Nat) : Byte := payload.getD offset 0#8

/-- One byte. -/
def u8 (v : Nat) : List Byte := [BitVec.ofNat 8 v]

/-- A flag as a byte: 1 when it holds (R193). -/
def flagByte (b : Bool) : List Byte := u8 b.toNat

/-- The characters of a text field. -/
def ascii (s : List Nat) : List Byte := s.map (BitVec.ofNat 8)

/-- A text field of `n` bytes, padded with `pad`. -/
def padded (n : Nat) (pad : Byte) (bs : List Byte) : List Byte :=
  bs.take n ++ List.replicate (n - bs.length) pad

/-- Bit `i` of a flag byte (R193). -/
def bit (i : Nat) (b : Bool) : Nat := if b then 2 ^ i else 0

/-! ### Timecodes and rate codes (R193) -/

/-- The four bytes of a timecode, as stored (R193). -/
def Timecode.bytes (t : Timecode) : List Byte := [t.hh, t.mm, t.ss, t.ff]

/-- The timecode at `offset` of a payload (R193). -/
def timecodeAt (payload : List Byte) (offset : Nat) : Timecode :=
  ⟨byteAt payload offset, byteAt payload (offset + 1), byteAt payload (offset + 2),
    byteAt payload (offset + 3)⟩

/-- Rate codes (Table 11-9). -/
def RateCode.code : RateCode → Nat
  | .f24 => 1 | .f25 => 2 | .f30n => 3 | .f30d => 4

/-- The rate a code names, if any (Table 11-9, R193). -/
def RateCode.ofCode : Nat → Option RateCode
  | 1 => some .f24 | 2 => some .f25 | 3 => some .f30n | 4 => some .f30d | _ => none

/-! ### Code tables (Tables 11-9 and 11-11) -/

def CopyId.code : CopyId → Nat
  | .a => 0 | .b => 1

/-- The copy a byte names (Table 11-9). -/
def CopyId.ofCode : Nat → Option CopyId
  | 0 => some .a | 1 => some .b | _ => none

/-- A copy byte of a message with no presence byte; 0xFF is "no copy" (R192; log 22). -/
def copyByte : Option CopyId → List Byte
  | some c => u8 c.code
  | none => [0xFF#8]

def Presence.code : Presence → Nat
  | .present => 0 | .absent => 1 | .outOfBounds => 2 | .portOffline => 3

def PortState.code : PortState → Nat
  | .normal => 0 | .recovery => 1 | .offline => 2

def offlineCauseCode : Option OfflineCause → Nat
  | none => 0 | some .start => 1 | some .fault => 2 | some .escalation => 3

def GrantState.code : GrantState → Nat
  | .idle => 0 | .requesting => 1 | .granted => 2 | .releasing => 3

def VolumeState.code : VolumeState → Nat
  | .noMedia => 0 | .labelRead => 1 | .unlabelled => 2 | .mounted _ _ => 3

/-- Volume id and block count as sent: zero unless MOUNTED (Table 11-8 Note 2), and 0 for `2^40`
(R192). -/
def VolumeState.bytes : VolumeState → List Byte
  | .mounted v n => le 4 v.toNat ++ le 5 n
  | _ => le 4 0 ++ le 5 0

def MarginState.code : MarginState → Nat
  | .steady => 0 | .low => 1

def JobKind.code : JobKind → Nat
  | .reelScrub => 1 | .rangeScrub => 2 | .volumeVerify => 3

def JobOrigin.code : JobOrigin → Nat
  | .requested => 1 | .patrol => 2

def JobState.code : JobState → Nat
  | .queued => 1 | .running => 2 | .suspending => 3 | .suspended => 4 | .yielded => 5
  | .stalled => 6 | .waitMedia => 7 | .done => 8 | .aborted => 9 | .failed => 10

def endReasonCode : Option EndReason → Nat
  | none => 0 | some .complete => 1 | some .aborted => 2 | some .portOffline => 3

def DefectKind.code : DefectKind → Nat
  | .mismatch => 1 | .unreadable => 2 | .manifest => 3 | .block => 4

def DefectState.code : DefectState → Nat
  | .held => 1 | .pending => 2 | .repairing => 3 | .repaired => 4 | .lost => 5
  | .repairFailed => 6 | .noted => 7

def FindingOrigin.code : FindingOrigin → Nat
  | .requested => 1 | .patrol => 2 | .verify => 3

def outcomeDetailCode : Option OutcomeDetail → Nat
  | none => 0 | some .sourceMismatch => 1 | some .sourceUnreadable => 2
  | some .sourceManifestUnsound => 3 | some .writeFailed => 4 | some .readbackMismatch => 5
  | some .noReference => 6 | some .writeProtected => 7

def RpuPhase.code : RpuPhase → Nat
  | .idle => 0 | .reference => 1 | .source => 2 | .write => 3 | .readback => 4

def ResetKind.code : ResetKind → Nat
  | .powerOn => 1 | .pin => 2 | .request => 3

def SlotCondition.code : SlotCondition → Nat
  | .blank => 0 | .valid _ => 1 | .invalid => 2

def StoreCause.code : StoreCause → Nat
  | .store => 1 | .freezeReel => 2 | .restoreFactory => 3

/-- Mode codes (Table 11-9). STARTING has none and is never sent: no STATUS is answered there. -/
def Mode.code : Mode → Nat
  | .starting => 0 | .setup => 1 | .run => 2

/-- Status codes (Table 11-11). -/
def Status.code : Status → Nat
  | .ok => 0x00 | .accepted => 0x01 | .ignored => 0x02 | .busy => 0x03 | .wrongMode => 0x10
  | .unknownRequest => 0x11 | .badLength => 0x12 | .badArgument => 0x13 | .badTimecode => 0x14
  | .outOfReel => 0x15 | .noSuchReel => 0x20 | .reelExists => 0x21 | .catalogueFull => 0x22
  | .frozen => 0x23 | .reelBusy => 0x24 | .samePort => 0x25 | .noSlot => 0x30 | .noSuchJob => 0x31
  | .notRunning => 0x32 | .notSuspended => 0x33 | .tooSoon => 0x34 | .portOffline => 0x40
  | .noSuchDefect => 0x41 | .notTerminal => 0x42 | .timeNotSet => 0x43

/-- Whether a reply of this status carries the payload of its request's rule (R168). -/
def Status.carriesPayload : Status → Bool
  | .ok | .accepted | .ignored => true
  | _ => false

/-- The number of a notice kind: its kind byte is 0xC0 plus it (Table 9-5). -/
def NoticeKind.index : NoticeKind → Nat
  | .startup => 0 | .jobEnd => 1 | .jobWait => 2 | .defectFound => 3 | .defectResolved => 4
  | .portEvent => 5 | .margin => 6 | .storeEnd => 7

/-- The levels or flags of the four lines as a byte (Table 11-8 Note 1). -/
def Lines.byte (l : Lines) : List Byte :=
  u8 (bit 0 l.ready + bit 1 l.media + bit 2 l.wprot + bit 3 l.fault)

/-! ### Drive links (Table 11-12) -/

/-- The statuses of a drive reply (R41). -/
inductive DriveStatus where
  | good | mediumError | notReady | writeProtected | driveError
  deriving DecidableEq, Repr

/-- The status a byte names; 0x05 or more names none (Table 11-12 Note 1). -/
def DriveStatus.ofByte (b : Byte) : Option DriveStatus :=
  match b.toNat with
  | 0 => some .good
  | 1 => some .mediumError
  | 2 => some .notReady
  | 3 => some .writeProtected
  | 4 => some .driveError
  | _ => none

/-- A reply on a drive link as it is read from its bytes: the fields of Table 11-12 and the data that follows
them (R41). -/
structure DriveReply where
  tag : Byte
  status : Byte
  corrected : Nat
  offsets : List Nat
  data : List Byte
  deriving DecidableEq, Repr

/-- `n` little-endian 2-byte fields that follow one another (Table 11-12, R192). -/
def fields16 : Nat → List Byte → List Nat
  | 0, _ => []
  | n + 1, bytes => unle (bytes.take 2) :: fields16 n (bytes.drop 2)

/-- The reply that bytes spell (Table 11-12): tag, status, corrected-symbol count, list length, list, and the
data after them. None where the record itself is not whole: such a reply has not arrived yet (R41). -/
def DriveReply.ofBytes (bytes : List Byte) : Option DriveReply :=
  let n := field bytes 4 2
  if 6 + 2 * n ≤ bytes.length then
    some { tag := byteAt bytes 0, status := byteAt bytes 1, corrected := field bytes 2 2,
           offsets := fields16 n (bytes.drop 6), data := bytes.drop (6 + 2 * n) }
  else none

/-- The bytes of a reply (Table 11-12). -/
def DriveReply.bytes (r : DriveReply) : List Byte :=
  [r.tag, r.status] ++ le 2 r.corrected ++ le 2 r.offsets.length ++ r.offsets.flatMap (le 2) ++ r.data

/-- The command record on the drive link (R40, Table 11-12); write data follows it. -/
def Outstanding.commandRecord (o : Outstanding) : List Byte :=
  match o.claim.transfer with
  | .read _ => u8 1 ++ flagByte o.tag ++ le 5 o.claim.address ++ le 2 o.claim.blocks
  | .write data => u8 2 ++ flagByte o.tag ++ le 5 o.claim.address ++ le 2 o.claim.blocks ++ data

/-! ### Requests (Table 11-2) -/

/-- The thirty-three request kinds (Table 9-7). -/
inductive RequestKind where
  | identify | status | setMode | setTime | setNotices | reset | portConfig | portStatus | portOnline
  | marginRead | addReel | editReel | removeReel | readReel | listReels | freezeReel | lockReel
  | unlockReel | lockAll | unlockAll | convert | startScrub | startVerify | suspendJob | resumeJob
  | abortJob | jobStatus | setPatrol | readDefects | removeDefect | retryDefect | store
  | restoreFactory
  deriving DecidableEq, Repr

/-- Kind codes (Table 11-2). -/
def RequestKind.code : RequestKind → Nat
  | .identify => 0x01 | .status => 0x02 | .setMode => 0x03 | .setTime => 0x04 | .setNotices => 0x05
  | .reset => 0x06 | .portConfig => 0x07 | .portStatus => 0x08 | .portOnline => 0x09
  | .marginRead => 0x0A | .addReel => 0x0B | .editReel => 0x0C | .removeReel => 0x0D
  | .readReel => 0x0E | .listReels => 0x0F | .freezeReel => 0x10 | .lockReel => 0x11
  | .unlockReel => 0x12 | .lockAll => 0x13 | .unlockAll => 0x14 | .convert => 0x15
  | .startScrub => 0x16 | .startVerify => 0x17 | .suspendJob => 0x18 | .resumeJob => 0x19
  | .abortJob => 0x1A | .jobStatus => 0x1B | .setPatrol => 0x1C | .readDefects => 0x1D
  | .removeDefect => 0x1E | .retryDefect => 0x1F | .store => 0x20 | .restoreFactory => 0x21

/-- Whether a kind byte is a request kind: 0x01 to 0x21 (Table 11-2 Note 1). -/
def isRequestKind (kind : Byte) : Bool := decide (1 ≤ kind.toNat) && decide (kind.toNat ≤ 0x21)

/-- Payload lengths (Table 11-2, R169). -/
def RequestKind.length : RequestKind → Nat
  | .identify | .status | .reset | .lockAll | .unlockAll | .store | .restoreFactory => 0
  | .setMode => 2 | .setTime => 4 | .setNotices => 1 | .portConfig => 9
  | .portStatus | .portOnline | .marginRead | .listReels | .startVerify | .setPatrol => 1
  | .addReel | .editReel => 73
  | .removeReel | .readReel | .freezeReel | .lockReel | .unlockReel | .suspendJob | .resumeJob
  | .abortJob | .jobStatus | .readDefects | .removeDefect | .retryDefect => 2
  | .convert => 16 | .startScrub => 20

/-- Whether the mode takes the request (Table 9-7, R170 step 4). -/
def RequestKind.takenIn : RequestKind → Mode → Bool
  | .portConfig, .run | .addReel, .run | .editReel, .run | .removeReel, .run
  | .restoreFactory, .run => false
  | .startScrub, .setup | .startVerify, .setup => false
  | _, .starting => false
  | _, _ => true

/-- The port a byte names; 8 or more names none (R192). -/
def portOfNat (n : Nat) : Option PortId := if h : n < 8 then some ⟨n, h⟩ else none

/-- The location fields of a copy as a request carries them (Table 11-4). -/
structure CopyFields where
  port : Nat
  volumeId : VolumeId
  firstFrameBlock : Nat
  manifestBlock : Nat
  deriving DecidableEq, Repr

/-- An entry as ADD_REEL and EDIT_REEL carry it (Table 11-4). -/
structure EntryFields where
  reel : Nat
  nameLength : Nat
  nameField : List Byte
  rate : Nat
  start : Timecode
  frameCount : Nat
  frameBytes : Nat
  intervalDays : Nat
  copyA : CopyFields
  copyBFlag : Nat
  copyB : CopyFields
  deriving DecidableEq, Repr

/-- The location fields at `offset` (Table 11-4). -/
def copyFieldsAt (p : List Byte) (offset : Nat) : CopyFields :=
  { port := field p offset 1
    volumeId := BitVec.ofNat 32 (field p (offset + 1) 4)
    firstFrameBlock := field p (offset + 5) 5
    manifestBlock := field p (offset + 10) 5 }

/-- The entry of an ADD_REEL or EDIT_REEL payload (Table 11-4). -/
def entryFields (p : List Byte) : EntryFields :=
  { reel := field p 0 2
    nameLength := field p 2 1
    nameField := slice p 3 24
    rate := field p 27 1
    start := timecodeAt p 28
    frameCount := field p 32 4
    frameBytes := field p 36 4
    intervalDays := field p 40 2
    copyA := copyFieldsAt p 42
    copyBFlag := field p 57 1
    copyB := copyFieldsAt p 58 }

end Sys2Proof.Machine
end

