-- ==== Sys2Proof/Machine/Digest.lean ====
section
/-! DEFINITION. The digest (R7, R8), the digest engine of a port (R9, R10) and manifest blocks
(R3 to R6). -/

namespace Sys2Proof.Machine

open Sys2Proof

/-- The modulus of the two sums (R7). -/
def digestModulus : Nat := 65521

/-- The two sums folded over the bytes, two bytes a word, the first the low half (R7); a last odd byte is
a word with a zero high half (R8). -/
def digestSums : List Byte → Nat → Nat → Nat × Nat
  | [], s1, s2 => (s1, s2)
  | [a], s1, s2 =>
    ((s1 + a.toNat) % digestModulus, (s2 + (s1 + a.toNat) % digestModulus) % digestModulus)
  | a :: b :: rest, s1, s2 =>
    digestSums rest ((s1 + (a.toNat + 256 * b.toNat)) % digestModulus)
      ((s2 + (s1 + (a.toNat + 256 * b.toNat)) % digestModulus) % digestModulus)

/-- S2 × 65,536 + S1 (R7). -/
def digestOfSums (s1 s2 : Nat) : Digest := BitVec.ofNat 32 (s2 * 65536 + s1)

/-- The digest of a sequence of bytes (R7, R8). -/
def digest (bytes : List Byte) : Digest :=
  digestOfSums (digestSums bytes 1 0).1 (digestSums bytes 1 0).2

/-- A 32-bit little-endian value. -/
def digestAt (bytes : List Byte) (offset : Nat) : Digest := BitVec.ofNat 32 (field bytes offset 4)

/-! ### The digest engine (section 1.4) -/

/-- Bytes of a block that its check covers (R5). -/
def checkedBytes : Nat := 4092

/-- The byte limit of a form (R9). Pass form keeps no sums. -/
def ReadForm.limit : ReadForm → Nat
  | .frame n => n
  | .blockCheck => checkedBytes
  | .pass => 0

/-- The engine as a READ in this form starts it (R9): SUMMING with S1 = 1, S2 = 0, no bytes taken. -/
def DigestEngine.start (form : ReadForm) : DigestEngine :=
  { form := some form, s1 := 1, s2 := 0, taken := 0, half := none, check := [] }

/-- Fold one 16-bit word into the sums (R7). -/
def DigestEngine.word (e : DigestEngine) (w : Nat) : DigestEngine :=
  { e with
    s1 := (e.s1 + w) % digestModulus
    s2 := (e.s2 + (e.s1 + w) % digestModulus) % digestModulus
    half := none }

/-- Take one byte of reply data (R9): within the byte limit it is folded, beyond it it passes; in
block-check form bytes 4,092 to 4,095 are kept as the stored check. -/
def DigestEngine.byte (e : DigestEngine) (b : Byte) : DigestEngine :=
  match e.form with
  | none => e
  | some form =>
    let e1 := { e with taken := e.taken + 1 }
    if e.taken < form.limit then
      match e.half with
      | none => { e1 with half := some b }
      | some a => e1.word (a.toNat + 256 * b.toNat)
    else
      match form with
      | .blockCheck => if e.check.length < 4 then { e1 with check := e.check ++ [b] } else e1
      | _ => e1

/-- Take the data of a reply, in order (R9). -/
def DigestEngine.feed : List Byte → DigestEngine → DigestEngine
  | [], e => e
  | b :: bs, e => DigestEngine.feed bs (e.byte b)

/-- Complete a half word, as R8 requires. -/
def DigestEngine.complete (e : DigestEngine) : DigestEngine :=
  match e.half with
  | none => e
  | some a => e.word a.toNat

/-- The digest of the bytes folded so far. -/
def DigestEngine.value (e : DigestEngine) : Digest := digestOfSums e.s1 e.s2

/-- What the engine hands the claimant at the end of a reply (R9). -/
inductive EngineResult where
  /-- Pass form, or a reply whose unrecovered list is not empty, or one without data. -/
  | nothing
  /-- Frame form: the digest. -/
  | digest (d : Digest)
  /-- Block-check form: sound or unsound, the slot values, and the stored check. -/
  | block (sound : Bool) (slots : List Digest) (check : Digest)
  deriving DecidableEq, Repr

/-- The slot values of a manifest block from its bytes: 4 bytes each, little-endian (R4). -/
def slotsFrom : Nat → List Byte → List Digest
  | 0, _ => []
  | n + 1, bytes => BitVec.ofNat 32 (unle (bytes.take 4)) :: slotsFrom n (bytes.drop 4)

/-- The 1,023 slots of a manifest block (R4). -/
def manifestSlots (data : List Byte) : List Digest := slotsFrom 1023 data

/-- The engine's result for a reply of `data` whose unrecovered list is empty (R5, R9). -/
def DigestEngine.result (e : DigestEngine) (data : List Byte) : EngineResult :=
  let done := (DigestEngine.feed data e).complete
  match e.form with
  | some (.frame _) => .digest done.value
  | some .blockCheck =>
    let check := BitVec.ofNat 32 (unle done.check)
    .block (decide (check = done.value)) (manifestSlots data) check
  | some .pass => .nothing
  | none => .nothing

/-! ### Frame and manifest geometry (R1, R3) -/

/-- Blocks per frame: frame_bytes over 4,096, rounded up (R1). -/
def blocksPerFrame (frameBytes : Nat) : Nat := (frameBytes + 4095) / 4096

/-- Manifest slots of a block (R3). -/
def slotsPerBlock : Nat := 1023

/-- Length of a manifest area: the frame count over 1,023, rounded up (R3). -/
def manifestLength (frameCount : Nat) : Nat := (frameCount + (slotsPerBlock - 1)) / slotsPerBlock

/-- The first block of frame `f` of a copy (R1). -/
def frameBlock (e : StoredEntry) (c : CopyDesc) (f : Nat) : Nat :=
  c.firstFrameBlock + f * blocksPerFrame e.frameBytes

/-- The number of blocks of a copy's frame area (R1). -/
def frameAreaLength (e : StoredEntry) : Nat := e.frameCount * blocksPerFrame e.frameBytes

/-- The highest block of a copy's frame area (R1). -/
def frameAreaLast (e : StoredEntry) (c : CopyDesc) : Nat :=
  c.firstFrameBlock + frameAreaLength e - 1

/-- The highest block of a copy's manifest area (R3). -/
def manifestAreaLast (e : StoredEntry) (c : CopyDesc) : Nat :=
  c.manifestBlock + manifestLength e.frameCount - 1

/-- The highest block of a copy (R3). -/
def highestBlock (e : StoredEntry) (c : CopyDesc) : Nat :=
  max (frameAreaLast e c) (manifestAreaLast e c)

end Sys2Proof.Machine
end

