-- ==== Sys2Proof/Machine/Flags.lean ====
section
/-! DEFINITION. Conditions and levels that are computed from the state and held nowhere: state classes,
presence (R26), ALERT (R60), and the counts that STATUS reports (R176). -/

namespace Sys2Proof.Machine

open Sys2Proof

/-! ### Access to the owners' state -/

/-- The port controller, engine and monitor of port `p`. -/
def State.port (s : State) (p : PortId) : Port := s.ports[p]

/-- The job context in slot `i`, or FREE. -/
def State.slot (s : State) (i : SlotId) : Option Job := s.jbu.slots[i]

/-- All ports, P0 first. -/
def allPorts : List PortId := [0, 1, 2, 3, 4, 5, 6, 7]

/-- All job slots. -/
def allSlots : List SlotId := [0, 1, 2, 3, 4, 5, 6, 7, 8, 9, 10, 11, 12, 13, 14, 15]

/-- The catalogue entry that carries a reel number (R22). -/
def State.entry (s : State) (reel : Nat) : Option Entry := s.cat.find? (fun e => decide (e.reel = reel))

/-- A copy descriptor of an entry. -/
def StoredEntry.copy (e : StoredEntry) : CopyId → Option CopyDesc
  | .a => some e.copyA
  | .b => e.copyB

/-- The reel's other copy (section 0.4). -/
def CopyId.other : CopyId → CopyId
  | .a => .b
  | .b => .a

/-- The record that carries a defect id. -/
def State.record (s : State) (id : Nat) : Option Record :=
  s.dfl.records.find? (fun r => decide (r.id = id))

/-! ### State classes -/

/-- Active job states: the job holds its port (Table 4-2). -/
def JobState.active : JobState → Bool
  | .running | .suspending | .yielded | .stalled => true
  | _ => false

/-- Terminal job states (Table 4-2). -/
def JobState.terminal : JobState → Bool
  | .done | .aborted | .failed => true
  | _ => false

/-- Terminal record states (Table 5-3). -/
def DefectState.terminal : DefectState → Bool
  | .repaired | .lost | .repairFailed | .noted => true
  | .held | .pending | .repairing => false

/-- The reel and copy a place lies in; none for a block (Table 5-2). -/
def Place.target : Place → Option Target
  | .frame r c _ => some ⟨r, c⟩
  | .manifest r c _ => some ⟨r, c⟩
  | .block _ => none

/-- Whether a record names a reel. -/
def Record.names (r : Record) (reel : Nat) : Bool :=
  match r.place.target with
  | some t => decide (t.reel = reel)
  | none => false

/-! ### Jobs by port -/

/-- The slots of the jobs that satisfy a test, in slot order. -/
def State.slotsWhere (s : State) (f : Job → Bool) : List SlotId :=
  allSlots.filter (fun i => match s.slot i with
    | some j => f j
    | none => false)

/-- The slot of the port's active job (R66). -/
def State.activeSlot (s : State) (p : PortId) : Option SlotId :=
  (s.slotsWhere (fun j => decide (j.port = p) && j.state.active)).head?

/-- The port's active job. -/
def State.activeJob (s : State) (p : PortId) : Option Job := (s.activeSlot p).bind s.slot

/-- Whether job `j` stands ahead of job `k` in a port's queue (R70). -/
def Job.ahead (j k : Job) : Bool :=
  match j.origin, k.origin with
  | .requested, .patrol => true
  | .patrol, .requested => false
  | _, _ => decide (j.sequence < k.sequence)

/-- Of two slots, the one whose job stands ahead; the first where neither does. -/
def State.aheadOf (s : State) (i k : SlotId) : SlotId :=
  match s.slot i, s.slot k with
  | some j, some l => if l.ahead j then k else i
  | _, _ => i

/-- The slots of the port's QUEUED jobs. -/
def State.queuedSlots (s : State) (p : PortId) : List SlotId :=
  s.slotsWhere (fun j => decide (j.port = p) && decide (j.state = .queued))

/-- The first job of a port's queue (R70). -/
def State.queueHead (s : State) (p : PortId) : Option SlotId :=
  match s.queuedSlots p with
  | [] => none
  | i :: rest => some (rest.foldl s.aheadOf i)

/-- Whether a job is non-terminal (Table 4-2). -/
def Job.live (j : Job) : Bool := !j.state.terminal

/-- Non-terminal jobs of the part. -/
def State.liveSlots (s : State) : List SlotId := s.slotsWhere Job.live

/-- Whether some non-terminal job targets a reel, either copy. -/
def State.reelTargeted (s : State) (reel : Nat) : Bool :=
  (s.slotsWhere (fun j => j.live && (match j.target with
    | some t => decide (t.reel = reel)
    | none => false))) != []

/-- Whether some non-terminal job targets a copy of a reel. -/
def State.copyTargeted (s : State) (t : Target) : Bool :=
  (s.slotsWhere (fun j => j.live && decide (j.target = some t))) != []

/-- Whether some defect record, in any state, names a reel (R30, R32). -/
def State.reelRecorded (s : State) (reel : Nat) : Bool :=
  s.dfl.records.any (fun r => r.names reel)

/-! ### Presence (R26) -/

/-- Presence of a copy whose port has this state and volume (Table 2-3). -/
def presenceOn (q : Port) (e : StoredEntry) (c : CopyDesc) : Presence :=
  match q.state with
  | .offline => .portOffline
  | .normal | .recovery =>
    match q.volume with
    | .mounted v n =>
      if v = c.volumeId then (if highestBlock e c < n then .present else .outOfBounds) else .absent
    | .noMedia | .labelRead | .unlabelled => .absent

/-- Presence of a copy, as it stands now (R26). -/
def State.presence (s : State) (e : StoredEntry) (c : CopyDesc) : Presence :=
  presenceOn (s.port c.port) e c

/-- Whether a copy of a catalogued reel exists and is PRESENT. -/
def State.targetPresent (s : State) (t : Target) : Bool :=
  match s.entry t.reel with
  | none => false
  | some e =>
    match e.copy t.copy with
    | none => false
    | some c => decide (s.presence e.toStoredEntry c = .present)

/-- Whether some catalogued copy that names the port is PRESENT. -/
def State.somePresentOn (s : State) (p : PortId) : Bool :=
  s.cat.any (fun e => [CopyId.a, CopyId.b].any (fun k =>
    match e.copy k with
    | some c => decide (c.port = p) && decide (s.presence e.toStoredEntry c = .present)
    | none => false))

/-! ### Resets, ALERT and counts -/

/-- Whether a reset is asserted (R189). -/
def State.resetHeld (s : State) : Bool := s.supplyLow || s.resetPin

/-- LOST records in the list (R114). -/
def State.lostRecords (s : State) : Nat :=
  s.dfl.records.countP (fun r => decide (r.state = .lost))

/-- The ALERT output (R60): asserted while some port is OFFLINE or some record is LOST, and no reset is
asserted. -/
def State.alert (s : State) : Bool :=
  !s.resetHeld
    && (allPorts.any (fun p => decide ((s.port p).state = .offline)) || decide (0 < s.lostRecords))

/-- FREE job slots (R176). -/
def State.freeSlots (s : State) : Nat := allSlots.countP (fun i => (s.slot i).isNone)

/-! ### Ports -/

/-- A port has claims (R46): some claim, or a reissue, is pending. -/
def Port.hasClaims (q : Port) : Bool :=
  q.labelClaim || q.rpuClaim.isSome || q.jobClaim.isSome || q.reissue.isSome

/-- Whether a reissue of this claimant is pending (R51). -/
def Port.reissueOf (q : Port) (c : Claimant) : Bool :=
  match q.reissue with
  | some (d, _) => decide (d = c)
  | none => false

/-- Whether a label read is pending; a pending reissue stands as its claimant's pending claim (R51). -/
def Port.labelPending (q : Port) : Bool := q.labelClaim || q.reissueOf .label

/-- Whether the active job's claim is pending and not issued (R51, R83, R90). -/
def Port.jobPending (q : Port) : Bool := q.jobClaim.isSome || q.reissueOf .job

/-- The active job's command is outstanding. -/
def Port.jobOutstanding (q : Port) : Bool :=
  match q.outstanding with
  | some o => decide (o.claimant = some .job)
  | none => false

/-- The level of a line. -/
def Lines.get (l : Lines) : Line → Bool
  | .ready => l.ready
  | .media => l.media
  | .wprot => l.wprot
  | .fault => l.fault

/-- A line at a new level. -/
def Lines.put (l : Lines) (k : Line) (b : Bool) : Lines :=
  match k with
  | .ready => { l with ready := b }
  | .media => { l with media := b }
  | .wprot => { l with wprot := b }
  | .fault => { l with fault := b }

end Sys2Proof.Machine
end

