-- ==== Sys2Proof/Machine/Timecode.lean ====
section
/-! DEFINITION. The Timecode Unit: validity, counts and conversion (R11 to R16). -/

namespace Sys2Proof.Machine

open Sys2Proof

/-- Labels a second at a rate code (R13): 24, 25 or 30. -/
def RateCode.fps : RateCode → Nat
  | .f24 => 24 | .f25 => 25 | .f30n => 30 | .f30d => 30

/-- Frames in 24 hours (Table 1-5). -/
def RateCode.dayCount : RateCode → Nat
  | .f24 => 2073600 | .f25 => 2160000 | .f30n => 2592000 | .f30d => 2589408

/-- The tens digit of a packed BCD byte. -/
def tens (b : Byte) : Nat := b.toNat / 16

/-- The units digit of a packed BCD byte. -/
def units (b : Byte) : Nat := b.toNat % 16

/-- Both digits are 0 to 9. -/
def bcdOk (b : Byte) : Bool := decide (tens b ≤ 9) && decide (units b ≤ 9)

/-- The value of a packed BCD byte. -/
def bcdValue (b : Byte) : Nat := 10 * tens b + units b

/-- The packed BCD byte of a value below 100. -/
def toBcd (n : Nat) : Byte := BitVec.ofNat 8 (16 * (n / 10) + n % 10)

/-- Whether a timecode names a dropped label at F30D (R12). -/
def Timecode.dropped (t : Timecode) : Bool :=
  decide (bcdValue t.ss = 0) && decide (bcdValue t.ff ≤ 1) && decide (bcdValue t.mm % 10 ≠ 0)

/-- Validity at a rate code (R11, R12). -/
def Timecode.valid (r : RateCode) (t : Timecode) : Bool :=
  bcdOk t.hh && bcdOk t.mm && bcdOk t.ss && bcdOk t.ff
    && decide (bcdValue t.hh ≤ 23) && decide (bcdValue t.mm ≤ 59) && decide (bcdValue t.ss ≤ 59)
    && decide (bcdValue t.ff ≤ r.fps - 1)
    && !(decide (r = .f30d) && t.dropped)

/-- The count of a valid timecode (R13). -/
def Timecode.count (r : RateCode) (t : Timecode) : Nat :=
  let labels := ((bcdValue t.hh * 60 + bcdValue t.mm) * 60 + bcdValue t.ss) * r.fps + bcdValue t.ff
  match r with
  | .f30d =>
    let m := 60 * bcdValue t.hh + bcdValue t.mm
    labels - 2 * (m - m / 10)
  | _ => labels

/-- The labels of a count at F30D: the count with the dropped labels put back (R14). -/
def dropFrameLabels (c : Nat) : Nat :=
  let d := c / 17982
  let m := c % 17982
  if m < 2 then c + 18 * d else c + (18 * d + 2 * ((m - 2) / 1798))

/-- The timecode of a number of labels from 00:00:00:00. -/
def timecodeOfLabels (fps labels : Nat) : Timecode :=
  let seconds := labels / fps
  ⟨toBcd (seconds / 3600), toBcd (seconds / 60 % 60), toBcd (seconds % 60), toBcd (labels % fps)⟩

/-- The timecode of a count (R14). -/
def timecodeOfCount (r : RateCode) (c : Nat) : Timecode :=
  match r with
  | .f30d => timecodeOfLabels 30 (dropFrameLabels c)
  | _ => timecodeOfLabels r.fps c

/-- The remainder that R15 forms for a valid timecode, from a start timecode, modulo the day count: in 0 to day
count − 1, also where the timecode lies before the start. -/
def indexOfTimecode (r : RateCode) (start t : Timecode) : Nat :=
  (((t.count r : Int) - start.count r) % r.dayCount).toNat

/-- The timecode of a frame index (R16). -/
def timecodeOfIndex (r : RateCode) (start : Timecode) (i : Nat) : Timecode :=
  timecodeOfCount r ((start.count r + i) % r.dayCount)

/-- R15 with its two failures: the index of a timecode below `limit`. -/
def timecodeToIndex (r : RateCode) (start t : Timecode) (limit : Nat) : Except Status Nat :=
  if !t.valid r then .error .badTimecode
  else if indexOfTimecode r start t < limit then .ok (indexOfTimecode r start t)
  else .error .outOfReel

end Sys2Proof.Machine
end

