-- ==== Sys2Proof/Machine/Ops.lean ====
section
/-! DEFINITION. The named operations every unit shares: updates of one owner's state, posting and queuing
notices (R172), the transmitter (R171), the frame (R163), and the record and port layouts they send. -/

namespace Sys2Proof.Machine

open Sys2Proof

/-! ### Updates -/

/-- Port `p` replaced. -/
def State.setPort (s : State) (p : PortId) (q : Port) : State :=
  { s with ports := s.ports.set p q }

/-- Port `p` changed. -/
def State.modPort (s : State) (p : PortId) (f : Port → Port) : State := s.setPort p (f (s.port p))

/-- Slot `i` replaced. -/
def State.setSlot (s : State) (i : SlotId) (j : Option Job) : State :=
  { s with jbu := { s.jbu with slots := s.jbu.slots.set i j } }

/-- The job in slot `i`, if any, changed. -/
def State.modJob (s : State) (i : SlotId) (f : Job → Job) : State := s.setSlot i ((s.slot i).map f)

/-- The record with this id, if any, changed in its position (R97). -/
def State.modRecord (s : State) (id : Nat) (f : Record → Record) : State :=
  { s with dfl := { s.dfl with
      records := s.dfl.records.map (fun r => if r.id = id then f r else r) } }

/-- The entry of this reel, if any, changed. -/
def State.modEntry (s : State) (reel : Nat) (f : Entry → Entry) : State :=
  { s with cat := s.cat.map (fun e => if e.reel = reel then f e else e) }

/-- A copy descriptor of an entry changed. -/
def Entry.modCopy (e : Entry) (k : CopyId) (f : CopyDesc → CopyDesc) : Entry :=
  match k with
  | .a => { e with copyA := f e.copyA }
  | .b => { e with copyB := e.copyB.map f }

/-- A copy of a reel changed. -/
def State.modCopy (s : State) (t : Target) (f : CopyDesc → CopyDesc) : State :=
  s.modEntry t.reel (fun e => e.modCopy t.copy f)

/-- A count raised by one, saturating (section 0.4). -/
def saturate (limit n : Nat) : Nat := if n < limit then n + 1 else n

/-! ### Frames (R163) -/

/-- The frame around a body: start byte, length, body, check (R163). -/
def frameOf (body : List Byte) : List Byte :=
  0xA5#8 :: (le 2 body.length ++ body ++ le 4 (digest body).toNat)

/-- A reply's body (R168, R194). -/
def Reply.body (r : Reply) : List Byte :=
  r.kind :: r.tag :: (u8 r.status.code ++ r.payload)

/-- A notice's body (R173): kind, tag 0, payload. -/
def Notice.body (n : Notice) : List Byte :=
  BitVec.ofNat 8 (0xC0 + n.kind.index) :: 0#8 :: n.payload

/-- The bytes of the frame being sent (R163). -/
def Sending.frame : Sending → List Byte
  | .reply r => frameOf r.body
  | .notice n => frameOf n.body

/-! ### The transmitter and the notice queue (R171, R172) -/

/-- A transmit boundary (R171): an IDLE transmitter begins to send the front reply, or else the front
notice, which leaves its list. -/
def Link.transmit (l : Link) : Link :=
  match l.sending with
  | some _ => l
  | none =>
    match l.replies with
    | r :: rest => { l with sending := some (.reply r), replies := rest }
    | [] =>
      match l.notices with
      | n :: rest => { l with sending := some (.notice n), notices := rest }
      | [] => l

/-- A notice taken by the notice queue, or discarded with the notices-lost flag (R172). -/
def Link.enqueueNotice (l : Link) (n : Notice) : Link :=
  if l.notices.length < Config.noticeCapacity then
    ({ l with notices := l.notices ++ [n] }).transmit
  else { l with noticesLost := true }

/-- Whether the mask enables a notice kind (R174). -/
def noticeEnabled (mask : Byte) (k : NoticeKind) : Bool := mask.getLsbD k.index

/-- A block posts a notice (R172): not in STARTING (R188), and only where its kind is enabled. It enters
the queue when the step's posted notices are taken (`takePosted`). -/
def State.post (s : State) (n : Notice) : State :=
  if s.mode = .starting then s
  else if noticeEnabled s.mask n.kind then
    { s with link := { s.link with posted := s.link.posted ++ [n] } }
  else s

/-- The notices posted by one event enter the queue, in either order (R172): while more than one waits,
the free value `Config.noticeOrder` says which is taken next (log 5). -/
def takePostedLoop : Nat → State → State
  | 0, s => s
  | fuel + 1, s =>
    match s.link.posted with
    | [] => s
    | [n] => { s with link := ({ s.link with posted := [] }).enqueueNotice n }
    | n :: m :: rest =>
      let all := n :: m :: rest
      let k := Config.noticeOrder s.freeCount % all.length
      takePostedLoop fuel
        { s with
          freeCount := s.freeCount + 1
          link := ({ s.link with posted := all.eraseIdx k }).enqueueNotice (all.getD k n) }

/-- All posted notices enter the queue. -/
def takePosted (s : State) : State := takePostedLoop s.link.posted.length s

/-! ### Layouts that several units send -/

/-- The parts of a place as a record carries them (Table 11-7): reel, copy, frame index, manifest block
index, block address. Absent parts are zero, and the presence byte tells them apart (R192; log 22). -/
def Place.bytes : Place → List Byte
  | .frame r c i => le 2 r ++ copyByte (some c) ++ le 4 i ++ le 2 0 ++ le 5 0
  | .manifest r c i => le 2 r ++ copyByte (some c) ++ le 4 0 ++ le 2 i ++ le 5 0
  | .block a => le 2 0 ++ u8 0 ++ le 4 0 ++ le 2 0 ++ le 5 a

/-- The presence byte of a record (Table 11-7). -/
def Record.presenceByte (r : Record) : Nat :=
  (match r.place with
    | .frame _ _ _ => bit 0 true + bit 1 true
    | .manifest _ _ _ => bit 0 true + bit 2 true
    | .block _ => bit 3 true)
  + bit 4 r.expected.isSome + bit 5 r.found.isSome + bit 6 r.detail.isSome + bit 7 r.minute.isSome

/-- An optional digest as a field, zero when absent. -/
def digestField : Option Digest → List Byte
  | some d => le 4 d.toNat
  | none => le 4 0

/-- A defect record as it travels (Table 11-7). -/
def Record.bytes (r : Record) : List Byte :=
  le 2 r.id ++ u8 r.kind.code ++ u8 r.state.code ++ u8 r.port.val ++ u8 r.presenceByte
    ++ r.place.bytes ++ digestField r.expected ++ digestField r.found ++ u8 r.origin.code
    ++ u8 r.seen ++ u8 r.attempts ++ u8 (outcomeDetailCode r.detail) ++ le 4 (r.minute.getD 0)

/-- Causes of a PORT_EVENT (Table 11-9). -/
inductive PortEventCause where
  | line | port | volume
  deriving DecidableEq, Repr

def PortEventCause.code : PortEventCause → Nat
  | .line => 1 | .port => 2 | .volume => 3

/-- A PORT_EVENT notice (R44, Table 11-8). -/
def portEvent (p : PortId) (cause : PortEventCause) (q : Port) : Notice :=
  { kind := .portEvent
    payload := u8 p.val ++ u8 cause.code ++ q.lines.byte ++ q.delta.byte ++ u8 q.state.code
      ++ u8 (offlineCauseCode q.cause) ++ u8 q.volume.code ++ q.volume.bytes }

/-- PCn queues a PORT_EVENT that gives the port as it stands (R44). -/
def State.postPortEvent (s : State) (p : PortId) (cause : PortEventCause) : State :=
  s.post (portEvent p cause (s.port p))

end Sys2Proof.Machine
end

