-- ==== Sys2Proof/Machine/Monitor.lean ====
section
/-! DEFINITION. The margin monitor of a port: the window, the baseline, the margin state (R137 to R145). -/

namespace Sys2Proof.Machine

open Sys2Proof

/-- Blocks that close a window (R138). -/
def windowBlockLimit : Nat := 256

/-- The difference at a close (R140). -/
def marginDifference (raw baseline : Nat) : Nat := if baseline < raw then raw - baseline else 0

/-- The baseline after its update (R143): `delta / 2^k` truncated toward zero, and a step of one where
that is zero and delta is not. -/
def baselineStep (k raw baseline : Nat) : Nat :=
  if baseline < raw then baseline + max 1 ((raw - baseline) / 2 ^ k)
  else if raw < baseline then baseline - max 1 ((baseline - raw) / 2 ^ k)
  else baseline

/-- Whether the difference points toward the other margin state (R141, R142). -/
def pointsAway (cfg : PortSettings) (st : MarginState) (difference : Nat) : Bool :=
  match st with
  | .steady => decide (cfg.threshold ≤ difference)
  | .low => decide (difference < cfg.threshold - cfg.hysteresis)

/-- The other margin state. -/
def MarginState.flip : MarginState → MarginState
  | .steady => .low
  | .low => .steady

/-- R141 and R142 with this close's difference: the margin state and debounce count after it. -/
def marginMove (cfg : PortSettings) (st : MarginState) (count difference : Nat) : MarginState × Nat :=
  if pointsAway cfg st difference then
    if cfg.debounce ≤ count + 1 then (st.flip, 0) else (st, count + 1)
  else (st, 0)

/-- A window closes (R138): R139 while seeded is clear, else R140 to R143; the window is then empty. -/
def Margin.close (cfg : PortSettings) (m : Margin) : Margin :=
  let raw := m.windowSum
  if !m.seeded then
    { m with windowSum := 0, windowBlocks := 0, raw := raw, baseline := raw, difference := 0,
             seeded := true }
  else
    let difference := marginDifference raw m.baseline
    let (st, count) := marginMove cfg m.state m.debounceCount difference
    let baseline :=
      if st = .steady ∧ count = 0 then baselineStep cfg.filterShift raw m.baseline else m.baseline
    { m with windowSum := 0, windowBlocks := 0, raw := raw, baseline := baseline,
             difference := difference, state := st, debounceCount := count }

/-- A reply is added to the open window (R137); the window sum saturates. -/
def Margin.add (m : Margin) (corrected blocks : Nat) : Margin :=
  { m with windowSum := min Config.word16Max (m.windowSum + corrected)
           windowBlocks := m.windowBlocks + blocks }

/-- The monitor fed by one reply (R137, R138). -/
def Margin.feed (cfg : PortSettings) (m : Margin) (corrected blocks : Nat) : Margin :=
  let m1 := m.add corrected blocks
  if windowBlockLimit ≤ m1.windowBlocks then m1.close cfg else m1

/-- A MARGIN notice (R144, Table 11-8). -/
def marginNotice (p : PortId) (cfg : PortSettings) (m : Margin) : Notice :=
  { kind := .margin
    payload := u8 p.val ++ u8 m.state.code ++ le 2 m.raw ++ le 2 m.baseline ++ le 2 m.difference
      ++ le 2 cfg.threshold ++ le 2 cfg.hysteresis }

/-- MGMn is fed; it queues MARGIN at a change of the margin state (R144). -/
def State.feedMargin (s : State) (p : PortId) (corrected blocks : Nat) : State :=
  let q := s.port p
  let m := q.margin.feed q.settings corrected blocks
  let s1 := s.setPort p { q with margin := m }
  if m.state = q.margin.state then s1 else s1.post (marginNotice p q.settings m)

/-- A value clamped to a range (section 0.4). -/
def clamp (lo hi n : Nat) : Nat := if n < lo then lo else if hi < n then hi else n

/-- The settings a PORT_CONFIG takes, each clamped (R61, R145): the hysteresis against the threshold
taken. -/
def clampSettings (timeout threshold hysteresis debounce filterShift : Nat) : PortSettings :=
  let t := clamp 1 65535 threshold
  { timeout := clamp 1 6000 timeout
    threshold := t
    hysteresis := clamp 0 (t - 1) hysteresis
    debounce := clamp 1 15 debounce
    filterShift := clamp 0 6 filterShift }

/-- New settings in force; the debounce count becomes 0 (R145, R149). -/
def Port.withSettings (q : Port) (cfg : PortSettings) : Port :=
  { q with settings := cfg, margin := { q.margin with debounceCount := 0 } }

end Sys2Proof.Machine
end

