-- ==== Sys2Proof/Machine/Arbiter.lean ====
section
/-! DEFINITION. Claims, the grant handshake and the port arbiter (R40, R42, R46 to R50, R56). -/

namespace Sys2Proof.Machine

open Sys2Proof

/-- The label read: a one-block READ of block 0 in block-check form (section 3.5). -/
def labelReadClaim : Claim := { transfer := .read .blockCheck, address := 0, blocks := 1 }

/-- Withdraw a claimant's claim (R50): a pending claim or reissue is removed, and an outstanding command
becomes an orphan. -/
def Port.withdraw (q : Port) (c : Claimant) : Port :=
  { q with
    labelClaim := if c = .label then false else q.labelClaim
    rpuClaim := if c = .rpu then none else q.rpuClaim
    jobClaim := if c = .job then none else q.jobClaim
    reissue := if q.reissueOf c then none else q.reissue
    outstanding := q.outstanding.map (fun o =>
      if o.claimant = some c then { o with claimant := none } else o) }

/-- The command boundary's choice (R49): reissue, label read, RPU transfer, job read. The last part of
the answer says that the claim is a reissue. -/
def Port.nextClaim (q : Port) : Option (Claimant × Claim × Bool) :=
  match q.reissue with
  | some (c, claim) => some (c, claim, true)
  | none =>
    if q.labelClaim then some (.label, labelReadClaim, false)
    else match q.rpuClaim with
      | some claim => some (.rpu, claim, false)
      | none => match q.jobClaim with
        | some claim => some (.job, claim, false)
        | none => none

/-- The claim chosen stops being pending (R49). -/
def Port.dropClaim (q : Port) (c : Claimant) (isReissue : Bool) : Port :=
  if isReissue then { q with reissue := none }
  else match c with
    | .label => { q with labelClaim := false }
    | .rpu => { q with rpuClaim := none }
    | .job => { q with jobClaim := none }

/-- PCn issues a command (R40, R42, R9): the tag is next tag, which turns over; the timeout is the
setting as it stands; a READ starts the digest engine. -/
def Port.issue (q : Port) (c : Claimant) (claim : Claim) (isReissue : Bool) : Port :=
  { q.dropClaim c isReissue with
    outstanding := some ⟨claim, q.nextTag, some c, q.settings.timeout⟩
    nextTag := !q.nextTag
    engine := match claim.transfer with
      | .read form => DigestEngine.start form
      | .write _ => q.engine }

/-- Whether issuing this claim counts a write attempt (R125): a WRITE of RPU that is no reissue. -/
def countsAttempt (c : Claimant) (claim : Claim) (isReissue : Bool) : Bool :=
  match c, claim.transfer with
  | .rpu, .write _ => !isReissue
  | _, _ => false

/-- The record in repair gains a write attempt (R125). -/
def State.countAttempt (s : State) : State :=
  match s.rpu.record with
  | some id => s.modRecord id (fun r => { r with attempts := r.attempts + 1 })
  | none => s

/-- What the grant handshake and the arbiter do at port `p` once the events of a step have been taken
(R46, R47, R49): request, drop a request, issue at a command boundary, or release. -/
def State.settlePort (s : State) (p : PortId) : State :=
  let q := s.port p
  if q.state = .offline then s
  else match q.grant with
    | .idle =>
      if q.hasClaims && !q.yld then s.setPort p { q with grant := .requesting, req := true } else s
    | .requesting =>
      if q.hasClaims then s else s.setPort p { q with grant := .idle, req := false }
    | .granted =>
      match q.outstanding with
      | some _ => s
      | none =>
        match q.nextClaim with
        | none => s.setPort p { q with grant := .releasing, req := false }
        | some (c, claim, isReissue) =>
          let s1 := s.setPort p (q.issue c claim isReissue)
          if countsAttempt c claim isReissue then s1.countAttempt else s1
    | .releasing =>
      match q.outstanding with
      | some _ => s
      | none => s.setPort p { q with req := false }

/-- Every port settles (log 6); before start-up has set the ports nothing is issued (R62). -/
def settlePorts (s : State) : State :=
  if s.portsSet then allPorts.foldl State.settlePort s else s

/-- The end of a step's action: ports settle, and the notices it posted enter the notice queue. -/
def settle (s : State) : State := takePosted (settlePorts s)

/-- The outstanding command is finished (R42): none is outstanding and the engine is IDLE. -/
def Port.finish (q : Port) : Port := { q with outstanding := none, engine := DigestEngine.idle }

/-- A label read begins (R56): the volume is LABEL_READ, an outstanding label read that is no orphan
becomes one, and a claim is placed unless one is pending. -/
def Port.beginLabelRead (q : Port) : Port :=
  let q1 := { q with volume := .labelRead }
  if q1.labelPending then q1 else { q1.withdraw .label with labelClaim := true }

/-- A claim of RPU is placed (R128); none is placed on an OFFLINE port (R54). -/
def Port.placeRpu (q : Port) (c : Claim) : Port :=
  if q.state = .offline then q else { q with rpuClaim := some c }

/-- A claim of the active job is placed (R72, R80); none is placed on an OFFLINE port (R54). -/
def Port.placeJob (q : Port) (c : Claim) : Port :=
  if q.state = .offline then q else { q with jobClaim := some c }

/-- GNT falls (R47, R48): REQ drops and the port is IDLE. -/
def Port.loseGrant (q : Port) : Port := { q with grant := .idle, req := false }

end Sys2Proof.Machine
end

