-- ==== Sys2Proof/Machine/Link.lean ====
section
/-! DEFINITION. The receive framer (R162 to R165), the request input queue and the reply list (R166 to
R168), and the generic execution of a request (R170). -/

namespace Sys2Proof.Machine

open Sys2Proof

/-! ### Receiving (R164) -/

/-- A receive error (R164): the frame in progress is discarded, the link-error flag is set, and the framer
is in HUNT. -/
def Link.receiveError (l : Link) : Link := { l with framer := .hunt, linkError := true }

/-- The kind of the reply to a request kind: plus 0x80, modulo 256 (R168). -/
def replyKind (kind : Byte) : Byte := kind + 0x80#8

/-- An overflow reply (R167). -/
def overflowReply (kind tag : Byte) : Reply :=
  { source := .overflow, kind := replyKind kind, tag := tag, status := .busy, payload := [],
    resets := false }

/-- Overflow replies that wait in the reply list (R167). -/
def Link.overflowWaiting (l : Link) : Nat :=
  l.replies.countP (fun r => decide (r.source = .overflow))

/-- A request passes the link check (Table 9-3): it enters the queue, is answered by an overflow reply, or
is a receive overrun. The framer returns to HUNT. -/
def Link.takeRequest (l : Link) (kind tag : Byte) (payload : List Byte) : Link :=
  if l.queue.length < Config.requestCapacity then
    { l with framer := .hunt, queue := l.queue ++ [⟨kind, tag, payload, false⟩] }
  else if l.overflowWaiting < Config.overflowCapacity then
    ({ l with framer := .hunt, replies := l.replies ++ [overflowReply kind tag] }).transmit
  else l.receiveError

/-- The last check byte has been taken (R164): a body whose digest equals the check is a request. A body
has at least two bytes (R163). -/
def Link.judgeFrame (l : Link) (body check : List Byte) : Link :=
  if (digest body).toNat = unle check then
    match body with
    | kind :: tag :: payload => l.takeRequest kind tag payload
    | _ => l.receiveError
  else l.receiveError

/-- The framer takes a byte whose stop bit is high (R164, Table 9-2). -/
def Link.takeByte (l : Link) (b : Byte) : Link :=
  match l.framer with
  | .hunt => if b = 0xA5#8 then { l with framer := .length [] } else l
  | .length [] => { l with framer := .length [b] }
  | .length got =>
    let n := unle (got ++ [b])
    if 2 ≤ n ∧ n ≤ 1026 then { l with framer := .body n [] } else l.receiveError
  | .body n got =>
    if got.length + 1 < n then { l with framer := .body n (got ++ [b]) }
    else { l with framer := .check (got ++ [b]) [] }
  | .check body got =>
    if got.length + 1 < 4 then { l with framer := .check body (got ++ [b]) }
    else l.judgeFrame body (got ++ [b])

/-- A byte arrives from the host (R162): a bad byte sets the link-error flag, and inside a frame it
discards the frame (R164). -/
def Link.receiveByte (l : Link) (b : RxByte) : Link :=
  if b.stop then l.takeByte b.data
  else match l.framer with
    | .hunt => { l with linkError := true }
    | _ => l.receiveError

/-- RECEIVE_FRAME: bytes arrive, one after the other (R164; log 12). While a reset is asserted the part
takes no frame (R189). -/
def execReceiveFrame (bytes : List RxByte) (s : State) : Host.Outcome State Fault Refusal :=
  .next (if s.resetHeld then s else { s with link := bytes.foldl Link.receiveByte s.link })

/-- BAD_BYTE_IN_HUNT: a byte with its stop bit low arrives (R162, R165). -/
def execBadByteInHunt (s : State) : Host.Outcome State Fault Refusal :=
  .next (if s.resetHeld then s else { s with link := s.link.receiveByte ⟨0#8, false⟩ })

/-- GAP_TIMER_EXPIRY: the gap timer expires, which is a receive error; it does not run in HUNT (R164). -/
def execGapTimerExpiry (s : State) : Host.Outcome State Fault Refusal :=
  .next (if s.link.framer = .hunt then s else { s with link := s.link.receiveError })

/-! ### Replies (R166, R168) -/

/-- The request RQH executes next: the front one not yet executed (R166). -/
def Link.nextRequest (l : Link) : Option Request := l.queue.find? (fun r => !r.replied)

/-- The front request not yet executed has had its reply formed; it keeps its place (R166). -/
def markReplied : List Request → List Request
  | [] => []
  | r :: rest => if r.replied then r :: markReplied rest else { r with replied := true } :: rest

/-- The reply of a request (R168): a refusal carries no payload. -/
def Request.reply (r : Request) (st : Status) (payload : List Byte) (resets : Bool) : Reply :=
  { source := .ordinary, kind := replyKind r.kind, tag := r.tag, status := st,
    payload := if st.carriesPayload then payload else [], resets := resets }

/-- RQH forms the reply of the request it has executed (R166): at the back of the reply list, with a
transmit boundary where the transmitter is IDLE (R171). -/
def Link.formReply (l : Link) (st : Status) (payload : List Byte) (resets : Bool) : Link :=
  match l.nextRequest with
  | none => l
  | some r =>
    ({ l with queue := markReplied l.queue,
              replies := l.replies ++ [r.reply st payload resets] }).transmit

/-- The execution of the request in hand ends with its reply. The reply formed once a reset has been asked
for is the RESET's own, since RQH executes no request after it (R190). -/
def State.answer (s : State) (st : Status) (payload : List Byte) : State :=
  { s with link := s.link.formReply st payload s.resetAsked }

/-! ### Execution (R170) -/

/-- What a request's own checks and action come to: a refusal, which changes nothing, or a state with a
status and the fields after it. -/
inductive Action where
  | refuse (st : Status)
  | perform (s : State) (st : Status) (payload : List Byte)

/-- The end of a request's execution (R166, R170). -/
def State.conclude (s : State) : Action → State
  | .refuse st => s.answer st []
  | .perform t st payload => t.answer st payload

/-- The generic checks of a request that RQH takes up (R170), and then its own. -/
def State.runChecks (s : State) (k : RequestKind) (payload : List Byte)
    (act : List Byte → State → Action) : State :=
  if s.mode = .starting then s.answer .busy []
  else if payload.length ≠ k.length then s.answer .badLength []
  else if k.takenIn s.mode = false then s.answer .wrongMode []
  else s.conclude (act payload s)

/-- RQH executes the request at the front of those not executed, if it is of this kind and no RESET has
been answered; else there is no such execution, and nothing changes (log 1). -/
def State.runRequest (s : State) (k : RequestKind) (act : List Byte → State → Action) : State :=
  match s.link.nextRequest with
  | none => s
  | some r =>
    if r.kind.toNat = k.code ∧ s.resetAsked = false then s.runChecks k r.payload act else s

/-- UNKNOWN_REQUEST: a request whose kind is no request kind (R170 steps 1 and 2). -/
def execUnknownRequest (s : State) : Host.Outcome State Fault Refusal :=
  .next (match s.link.nextRequest with
    | none => s
    | some r =>
      if isRequestKind r.kind = false ∧ s.resetAsked = false then
        if s.mode = .starting then s.answer .busy [] else s.answer .unknownRequest []
      else s)

end Sys2Proof.Machine
end

