-- ==== Sys2Proof/Machine/Image.lean ====
section
/-! DEFINITION. The Stored Image Unit: images, slot conditions, the stored image, stores (R182 to R185). -/

namespace Sys2Proof.Machine

open Sys2Proof

/-! ### Catalogue order (R22, R182) -/

/-- An entry put in its place in ascending order of reel number (log 20). -/
def insertEntry (e : Entry) : List Entry → List Entry
  | [] => [e]
  | x :: rest => if e.reel < x.reel then e :: x :: rest else x :: insertEntry e rest

/-! ### Ranges (Tables 2-1, 2-2 and 10-2) -/

/-- A name character (Table 2-1). -/
def nameCharOk (b : Byte) : Bool := decide (0x20 ≤ b.toNat) && decide (b.toNat ≤ 0x7E)

/-- A minute value fits its field. -/
def minuteOk : Option Nat → Bool
  | some t => decide (t ≤ Config.word32Max)
  | none => true

/-- The fields of a copy descriptor lie in their ranges (Table 2-2). -/
def CopyDesc.inRange (c : CopyDesc) : Bool :=
  decide (1 ≤ c.firstFrameBlock) && decide (c.firstFrameBlock < Config.blockLimit)
    && decide (1 ≤ c.manifestBlock) && decide (c.manifestBlock < Config.blockLimit)
    && minuteOk c.lastScrub && decide (c.repairedCount ≤ Config.word16Max)
    && decide (c.lostCount ≤ Config.word16Max)

/-- The stored fields of an entry lie in their ranges (Table 2-1). -/
def StoredEntry.inRange (e : StoredEntry) : Bool :=
  decide (1 ≤ e.reel) && decide (e.reel ≤ Config.word16Max)
    && decide (e.name.length ≤ 24) && e.name.all nameCharOk && e.start.valid e.rate
    && decide (1 ≤ e.frameCount) && decide (e.frameCount ≤ 1000000)
    && decide (1 ≤ e.frameBytes) && decide (e.frameBytes ≤ Config.bufferBytes)
    && decide (1 ≤ e.intervalDays) && decide (e.intervalDays ≤ 3650)
    && e.copyA.inRange && (match e.copyB with | some c => c.inRange | none => true)

/-- The settings of a port lie in their ranges (R61, Table 7-2). -/
def PortSettings.inRange (c : PortSettings) : Bool :=
  decide (1 ≤ c.timeout) && decide (c.timeout ≤ 6000)
    && decide (1 ≤ c.threshold) && decide (c.threshold ≤ Config.word16Max)
    && decide (c.hysteresis < c.threshold) && decide (1 ≤ c.debounce) && decide (c.debounce ≤ 15)
    && decide (c.filterShift ≤ 6)

/-! ### Images (R182, R183) -/

/-- The format mark "NMBRIMG1" (Table 10-2). -/
def imageMark : List Byte := ascii [0x4E, 0x4D, 0x42, 0x52, 0x49, 0x4D, 0x47, 0x31]

/-- A copy descriptor in an image, in the model's layout (log 8). -/
def CopyDesc.imageBytes (c : CopyDesc) : List Byte :=
  u8 c.port.val ++ le 4 c.volumeId.toNat ++ le 5 c.firstFrameBlock ++ le 5 c.manifestBlock
    ++ flagByte c.lastScrub.isSome ++ le 4 (c.lastScrub.getD 0) ++ le 2 c.repairedCount
    ++ le 2 c.lostCount

/-- An entry in an image, in the model's layout (log 8). -/
def StoredEntry.imageBytes (e : StoredEntry) : List Byte :=
  le 2 e.reel ++ u8 e.name.length ++ padded 24 0#8 e.name ++ u8 e.rate.code ++ e.start.bytes
    ++ le 4 e.frameCount ++ le 4 e.frameBytes ++ le 2 e.intervalDays ++ flagByte e.frozen
    ++ e.copyA.imageBytes ++ flagByte e.copyB.isSome
    ++ (match e.copyB with | some c => c.imageBytes | none => [])

/-- The settings of a port in an image, in the model's layout (log 8). -/
def PortSettings.imageBytes (c : PortSettings) : List Byte :=
  le 2 c.timeout ++ le 2 c.threshold ++ le 2 c.hysteresis ++ u8 c.debounce ++ u8 c.filterShift

/-- Every byte of an image before its check (R182): the fields of Table 10-2 in its order, in the model's
layout (log 8). -/
def Image.bytes (m : Image) : List Byte :=
  m.mark ++ le 4 m.generation ++ m.settings.toList.flatMap PortSettings.imageBytes
    ++ [m.mask] ++ flagByte m.patrolEnabled ++ flagByte m.autoRun ++ le 2 m.entryCount
    ++ m.entries.flatMap StoredEntry.imageBytes

/-- The check of an image (R182). -/
def Image.check (m : Image) : Digest := digest m.bytes

/-- Every field of an image lies in its range (R183, Table 10-2): among them as many entries as the entry
count says, and the STARTUP enable set in the mask. -/
def Image.inRange (m : Image) : Bool :=
  decide (1 ≤ m.generation) && decide (m.generation ≤ Config.word32Max)
    && m.settings.toList.all PortSettings.inRange && m.mask.getLsbD 0
    && decide (m.entries.length = m.entryCount) && m.entries.all StoredEntry.inRange

/-- No two entries carry the same reel number (R183). -/
def reelsDistinct : List StoredEntry → Bool
  | [] => true
  | e :: rest => rest.all (fun x => decide (x.reel ≠ e.reel)) && reelsDistinct rest

/-- Whether an image with its stored check is VALID (R183). -/
def Image.valid (m : Image) (check : Digest) : Bool :=
  decide (m.mark = imageMark) && decide (m.entryCount ≤ Config.catalogueCapacity)
    && decide (check = m.check) && m.inRange && reelsDistinct m.entries

/-- SIU judges what a slot holds (R183). -/
def SlotContent.judge : SlotContent → SlotCondition
  | .blank => .blank
  | .image m check => if m.valid check then .valid m.generation else .invalid
  | .unreadable => .invalid

/-- A slot as SIU judges it at start-up (R183). -/
def ImageSlot.judged (x : ImageSlot) : ImageSlot := { x with condition := x.content.judge }

/-! ### The stored image (R183) -/

/-- The generation of a slot in condition VALID. -/
def SlotCondition.generation : SlotCondition → Option Nat
  | .valid g => some g
  | _ => none

/-- The successor of a generation (R183). -/
def generationAfter (g : Nat) : Nat := if g = Config.word32Max then 1 else g + 1

/-- Whether slot 1 is the newer of two VALID slots (R183). -/
def slot1Newer (g0 g1 : Nat) : Bool :=
  if g0 = g1 then false
  else if g1 = generationAfter g0 then true
  else if g0 = generationAfter g1 then false
  else decide (g0 < g1)

/-- The slot that holds the stored image (R183). -/
def Siu.storedSlot (u : Siu) : Option (Fin 2) :=
  match u.slots[0].condition.generation, u.slots[1].condition.generation with
  | some g0, some g1 => if slot1Newer g0 g1 then some 1 else some 0
  | some _, none => some 0
  | none, some _ => some 1
  | none, none => none

/-- The stored image, if a slot is VALID (R183). -/
def Siu.storedImage (u : Siu) : Option Image :=
  match u.storedSlot with
  | none => none
  | some k =>
    match u.slots[k].content with
    | .image m _ => some m
    | _ => none

/-- Start-up reasons (R183). -/
inductive StartReason where
  | loaded | blank | invalid
  deriving DecidableEq, Repr

def StartReason.code : StartReason → Nat
  | .loaded => 1 | .blank => 2 | .invalid => 3

/-- The reason a start-up reports (R183). -/
def Siu.reason (u : Siu) : StartReason :=
  match u.storedSlot with
  | some _ => .loaded
  | none =>
    if u.slots[0].condition = .blank ∧ u.slots[1].condition = .blank then .blank else .invalid

/-- SIU judges both slots (R183). -/
def Siu.judged (u : Siu) : Siu :=
  { u with slots := (u.slots.set 0 u.slots[0].judged).set 1 u.slots[1].judged }

/-! ### Stores (R184, R185) -/

/-- The snapshot of a store (R184 step 1, Table 10-2). -/
def State.snapshot (s : State) (generation : Nat) : Image :=
  { mark := imageMark, generation := generation
    settings := (Vector.replicate 8 PortSettings.factory).set 0 (s.port 0).settings
      |>.set 1 (s.port 1).settings |>.set 2 (s.port 2).settings |>.set 3 (s.port 3).settings
      |>.set 4 (s.port 4).settings |>.set 5 (s.port 5).settings |>.set 6 (s.port 6).settings
      |>.set 7 (s.port 7).settings
    mask := s.mask, patrolEnabled := s.pts.enabled, autoRun := s.autoRun
    entryCount := s.cat.length, entries := s.cat.map Entry.toStoredEntry }

/-- The slot a store writes: the one that does not hold the stored image, or slot 0 (R184 step 2). -/
def Siu.targetSlot (u : Siu) : Fin 2 :=
  match u.storedSlot with
  | some 0 => 1
  | _ => 0

/-- The generation a store writes (R184 step 3). -/
def Siu.newGeneration (u : Siu) : Nat :=
  match u.storedSlot with
  | none => 1
  | some k => generationAfter ((u.slots[k].condition.generation).getD 0)

/-- A store is accepted (R184): snapshot, target slot, generation, the slot marked INVALID, and WRITING. What
the slot holds while it is written is no image (log 8). -/
def State.startStore (s : State) (cause : StoreCause) : State :=
  { s with siu := {
      slots := s.siu.slots.set s.siu.targetSlot ⟨.unreadable, .invalid⟩
      store := some ⟨s.snapshot s.siu.newGeneration, s.siu.targetSlot, cause⟩ } }

/-- The fields of an accepted store's reply: target slot and generation (Table 11-15). -/
def Siu.storeFields (u : Siu) : List Byte := u8 u.targetSlot.val ++ le 4 u.newGeneration

/-- Whether a store ended OK (R185): no write error, and the read-back equals the snapshot. -/
def storeGood : StoreFinish → Bool
  | .readBack equal => equal
  | .writeError => false

/-- A STORE_END notice (R185, Table 11-8). -/
def storeEndNotice (j : StoreJob) (finish : StoreFinish) : Notice :=
  { kind := .storeEnd
    payload := u8 (if storeGood finish then 0 else 1) ++ u8 j.cause.code ++ u8 j.slot.val
      ++ le 4 j.snapshot.generation ++ le 2 j.snapshot.entryCount }

/-- A store ends (R185): OK, the target slot is VALID and holds the image; else it stays INVALID. SIU is
IDLE, and STORE_END is queued. -/
def State.finishStore (s : State) (j : StoreJob) (finish : StoreFinish) : State :=
  let slots := if storeGood finish then
      s.siu.slots.set j.slot ⟨.image j.snapshot j.snapshot.check, .valid j.snapshot.generation⟩
    else s.siu.slots
  ({ s with siu := { slots := slots, store := none } }).post (storeEndNotice j finish)

/-- STORE_ENDS: the write and read-back of a store finish, or the memory reports an error (R185). With no
store in progress nothing happens (log 2). -/
def execStoreEnds (finish : StoreFinish) (s : State) : Host.Outcome State Fault Refusal :=
  .next (match s.siu.store with
    | none => s
    | some j => settle (s.finishStore j finish))

end Sys2Proof.Machine
end

