-- ==== Sys2Proof/Machine/Repair.lean ====
section
/-! DEFINITION. The Repair Unit: choice, the repair steps, results and returns (R116 to R133). -/

namespace Sys2Proof.Machine

open Sys2Proof

/-! ### Results (R127) -/

/-- The repaired and lost counts of a copy, 0 where there is no such copy. -/
def State.copyCounts (s : State) (t : Target) : Nat × Nat :=
  match (s.entry t.reel).bind (fun e => e.copy t.copy) with
  | some c => (c.repairedCount, c.lostCount)
  | none => (0, 0)

/-- A DEFECT_RESOLVED notice (R127, Table 11-8). -/
def defectResolved (s : State) (r : Record) : Notice :=
  let counts := match r.place.target with
    | some t => s.copyCounts t
    | none => (0, 0)
  { kind := .defectResolved
    payload := r.bytes ++ le 2 counts.1 ++ le 2 counts.2 ++ le 2 s.lostRecords }

/-- The target copy's count of a result (R127 step 2). -/
def countResult (st : DefectState) (c : CopyDesc) : CopyDesc :=
  match st with
  | .repaired => { c with repairedCount := saturate Config.word16Max c.repairedCount }
  | .lost => { c with lostCount := saturate Config.word16Max c.lostCount }
  | _ => c

/-- A record takes a result (R127): state and detail, the copy's count, DEFECT_RESOLVED. -/
def State.giveResult (s : State) (id : Nat) (st : DefectState) (detail : Option OutcomeDetail) : State :=
  let s1 := s.modRecord id (fun r => { r with state := st, detail := detail })
  match s1.record id with
  | none => s1
  | some r =>
    let s2 := match r.place.target with
      | some t => s1.modCopy t (countResult st)
      | none => s1
    s2.post (defectResolved s2 r)

/-! ### Claims (R121 to R126, R128) -/

/-- What a record's repair needs of the catalogue. -/
structure RepairView where
  record : Record
  entry : Entry
  source : CopyDesc
  target : CopyDesc

/-- The record in repair with its reel's entry and its two copies (R116). -/
def State.repairView (s : State) : Option RepairView :=
  match s.rpu.record.bind s.record with
  | none => none
  | some r =>
    match r.place.target with
    | none => none
    | some t =>
      match s.entry t.reel with
      | none => none
      | some e =>
        match e.copy t.copy.other, e.copy t.copy with
        | some src, some tgt => some ⟨r, e, src, tgt⟩
        | _, _ => none

/-- The address and block count of the frame or manifest block a record concerns, on a copy (R122,
R123). -/
def placeSpan (e : StoredEntry) (c : CopyDesc) : Place → Nat × Nat
  | .frame _ _ i => (frameBlock e c i, blocksPerFrame e.frameBytes)
  | .manifest _ _ m => (c.manifestBlock + m, 1)
  | .block a => (a, 1)

/-- The form in which that place is read (R122, R123, R126). -/
def placeForm (e : StoredEntry) : Place → ReadForm
  | .frame _ _ _ => .frame e.frameBytes
  | .manifest _ _ _ => .blockCheck
  | .block _ => .blockCheck

/-- The READ of a record's place on a copy. -/
def placeRead (e : StoredEntry) (c : CopyDesc) (pl : Place) : Claim :=
  { transfer := .read (placeForm e pl), address := (placeSpan e c pl).1, blocks := (placeSpan e c pl).2 }

/-- The WRITE of the buffer's first blocks to a record's place on the target copy (R124). -/
def placeWrite (e : StoredEntry) (c : CopyDesc) (pl : Place) (buffer : List Byte) : Claim :=
  { transfer := .write (buffer.take ((placeSpan e c pl).2 * Config.blockBytes))
    address := (placeSpan e c pl).1, blocks := (placeSpan e c pl).2 }

/-- The index of the frame a place names, 0 for any other place. -/
def Place.frameIndex : Place → Nat
  | .frame _ _ i => i
  | _ => 0

/-- RPU places its claim on a port (R128). -/
def State.placeRpuClaim (s : State) (p : PortId) (c : Claim) : State :=
  s.modPort p (fun q => q.placeRpu c)

/-- RPU in a phase. -/
def State.rpuPhase (s : State) (ph : RpuPhase) : State := { s with rpu := { s.rpu with phase := ph } }

/-- RPU enters REFERENCE (R121): the manifest block of the source copy that holds the frame's
reference. -/
def State.enterReference (s : State) : State :=
  match s.repairView with
  | none => s
  | some v =>
    (s.rpuPhase .reference).placeRpuClaim v.source.port
      { transfer := .read .blockCheck
        address := v.source.manifestBlock + v.record.place.frameIndex / slotsPerBlock, blocks := 1 }

/-- RPU enters SOURCE (R122, R123). -/
def State.enterSource (s : State) : State :=
  match s.repairView with
  | none => s
  | some v =>
    (s.rpuPhase .source).placeRpuClaim v.source.port
      (placeRead v.entry.toStoredEntry v.source v.record.place)

/-- RPU enters READBACK (R126). -/
def State.enterReadback (s : State) : State :=
  match s.repairView with
  | none => s
  | some v =>
    (s.rpuPhase .readback).placeRpuClaim v.target.port
      (placeRead v.entry.toStoredEntry v.target v.record.place)

/-- Whether a record needs the reference step (R121). -/
def Record.needsReference (r : Record) : Bool :=
  match r.kind with
  | .mismatch | .unreadable => r.expected.isNone
  | .manifest | .block => false

/-! ### Choice (R117 to R119) -/

/-- RPU takes a record (R116): REPAIRING, detail cleared, source and target fixed, buffer EMPTY; then
REFERENCE or SOURCE (R121). -/
def State.takeRecord (s : State) (r : Record) (t : Target) (src tgt : CopyDesc) : State :=
  let s1 := s.modRecord r.id (fun r => { r with state := .repairing, detail := none })
  let s2 := { s1 with rpu := { s1.rpu with
    record := some r.id, source := some ⟨t.copy.other, src.port⟩, target := some ⟨t.copy, tgt.port⟩,
    filled := false, sourceCheck := none } }
  if r.needsReference then s2.enterReference else s2.enterSource

/-- Whether RPU's hold is set on a port (R120). -/
def State.held (s : State) (p : PortId) : Bool := s.rpu.holds[p]

/-- What a choice makes of a PENDING record (R117, R118, R119). -/
inductive Choice where
  | take (t : Target) (src tgt : CopyDesc)
  | markWriteProtected
  | lost
  | pass

/-- A choice looks at one record (R117, R118, R119). -/
def State.judgeRecord (s : State) (r : Record) : Choice :=
  if r.state ≠ .pending then .pass
  else match r.place.target with
    | none => .pass
    | some t =>
      match s.entry t.reel with
      | none => .pass
      | some e =>
        if e.copyB.isNone then .lost
        else match e.copy t.copy.other, e.copy t.copy with
          | some src, some tgt =>
            if s.presence e.toStoredEntry src = .present ∧ s.presence e.toStoredEntry tgt = .present then
              if (s.port tgt.port).lines.wprot then .markWriteProtected
              else if s.held src.port || s.held tgt.port then .pass
              else .take t src tgt
            else .pass
          | _, _ => .pass

/-- A choice walks the records in position order until it takes one (R117). -/
def State.choose (s : State) : List Record → State
  | [] => s
  | r :: rest =>
    match s.judgeRecord r with
    | .take t src tgt => s.takeRecord r t src tgt
    | .markWriteProtected =>
      State.choose (s.modRecord r.id (fun r => { r with detail := some .writeProtected })) rest
    | .lost => State.choose (s.giveResult r.id .lost (some .sourceUnreadable)) rest
    | .pass => State.choose s rest

/-- RPU makes a choice, provided it is IDLE and the mode is RUN (R117, R134). -/
def rpuChoice (s : State) : State :=
  if s.rpu.phase = .idle ∧ s.mode = .run then s.choose s.dfl.records else s

/-! ### Leaving a record (R116, R127, R132, R133) -/

/-- RPU withdraws its claim from one end of the repair. -/
def State.withdrawRpuAt (s : State) (e : Option RpuEnd) : State :=
  match e with
  | some x => s.modPort x.port (fun q => q.withdraw .rpu)
  | none => s

/-- RPU leaves its record (R116): claim withdrawn, buffer EMPTY, source check forgotten, IDLE. -/
def State.rpuIdle (s : State) : State :=
  let s1 := (s.withdrawRpuAt s.rpu.source).withdrawRpuAt s.rpu.target
  { s1 with rpu := { s1.rpu with
    phase := .idle, record := none, source := none, target := none, filled := false,
    sourceCheck := none } }

/-- The record in repair takes a result; RPU becomes IDLE and makes a choice (R127). -/
def State.endRepair (s : State) (st : DefectState) (detail : Option OutcomeDetail) : State :=
  match s.rpu.record with
  | none => s
  | some id => rpuChoice (s.giveResult id st detail).rpuIdle

/-- The record in repair returns to PENDING or HELD; RPU becomes IDLE and makes a choice (R132, R133).
No notice is queued. -/
def State.returnRecord (s : State) (st : DefectState) (detail : Option OutcomeDetail) : State :=
  match s.rpu.record with
  | none => s
  | some id =>
    rpuChoice (s.modRecord id (fun r => { r with state := st, detail := detail })).rpuIdle

/-- Whether a port is the source port or the target port of the repair in hand. -/
def Rpu.usesPort (r : Rpu) (p : PortId) : Bool :=
  (match r.source with | some x => decide (x.port = p) | none => false)
    || (match r.target with | some x => decide (x.port = p) | none => false)

/-- A media drop or an OFFLINE on a port, as RPU takes it (R54, R58, R132). -/
def State.rpuPortLost (s : State) (p : PortId) : State :=
  if s.rpu.usesPort p then s.returnRecord .pending none else s

/-- RPU's hold on a port is set (R120). -/
def State.setHold (s : State) (p : PortId) (b : Bool) : State :=
  { s with rpu := { s.rpu with holds := s.rpu.holds.set p b } }

/-- An event that clears a port's hold (R120): a choice follows where the hold was set. -/
def State.clearHold (s : State) (p : PortId) : State :=
  if s.held p then rpuChoice (s.setHold p false) else s

/-! ### The repair steps (R121 to R126) -/

/-- The write step (R124). -/
def State.writeStep (s0 : State) : State :=
  let s := s0.rpuPhase .write
  match s.repairView with
  | none => s
  | some v =>
    if 2 ≤ v.record.attempts then s.enterReadback
    else if v.entry.locked then s.returnRecord .held none
    else if (s.port v.target.port).lines.wprot then s.returnRecord .pending (some .writeProtected)
    else s.placeRpuClaim v.target.port
      (placeWrite v.entry.toStoredEntry v.target v.record.place s.rpu.buffer)

/-- The attempt of a WRITE that did not take place is taken back (R125). -/
def State.uncountAttempt (s : State) : State :=
  match s.rpu.record with
  | some id => s.modRecord id (fun r => { r with attempts := r.attempts - 1 })
  | none => s

/-- The outcome of a drive command as it is handed to a claimant (R43): of a READ the status, the
corrected-symbol count, the unrecovered list and what the digest engine formed; of a WRITE the status alone.
`data` and `blocks` are the reply's data, which RPU places in the buffer (R122), and the command's block
count. -/
structure DriveOutcome where
  status : DriveStatus
  corrected : Nat
  offsets : List Nat
  result : EngineResult
  data : List Byte
  blocks : Nat
  deriving DecidableEq, Repr

/-- REFERENCE takes an outcome (R121); `p` is the source port. -/
def State.referenceOutcome (s : State) (p : PortId) (v : RepairView) (o : DriveOutcome) : State :=
  match o.status, o.result with
  | .good, .block true slots _ =>
    (s.modRecord v.record.id (fun r =>
      { r with expected := some (slots.getD (r.place.frameIndex % slotsPerBlock) 0#32) })).enterSource
  | .notReady, _ => (s.setHold p true).returnRecord .pending none
  | _, _ => s.endRepair .repairFailed (some .noReference)

/-- The data of a source read is placed in the buffer from its first byte (R122, R123). -/
def State.placeInBuffer (s : State) (data : List Byte) : State :=
  { s with rpu := { s.rpu with buffer := data ++ s.rpu.buffer.drop data.length } }

/-- The buffer becomes FILLED, and RPU enters WRITE (R122, R123). -/
def State.fillBuffer (s : State) (check : Option Digest) : State :=
  ({ s with rpu := { s.rpu with filled := true, sourceCheck := check } }).writeStep

/-- SOURCE takes an outcome (R122 for a frame, R123 for a manifest block). -/
def State.sourceOutcome (s0 : State) (p : PortId) (v : RepairView) (o : DriveOutcome) : State :=
  let s := s0.placeInBuffer o.data
  match o.status with
  | .notReady => (s.setHold p true).returnRecord .pending none
  | .good =>
    match v.record.place, o.result with
    | .frame _ _ _, .digest d =>
      if v.record.expected = some d then s.fillBuffer none
      else s.endRepair .lost (some .sourceMismatch)
    | _, .block true _ check => s.fillBuffer (some check)
    | _, _ => s.endRepair .lost (some .sourceManifestUnsound)
  | _ =>
    match v.record.place with
    | .frame _ _ _ => s.endRepair .lost (some .sourceUnreadable)
    | _ => s.endRepair .lost (some .sourceManifestUnsound)

/-- WRITE takes an outcome (R125). -/
def State.writeOutcome (s : State) (p : PortId) (v : RepairView) (o : DriveOutcome) : State :=
  match o.status with
  | .good => s.enterReadback
  | .writeProtected => (s.uncountAttempt.setHold p true).returnRecord .pending (some .writeProtected)
  | .notReady => (s.uncountAttempt.setHold p true).returnRecord .pending none
  | _ =>
    if v.record.attempts < 2 then s.writeStep
    else s.endRepair .repairFailed (some .writeFailed)

/-- Whether the target read back matches (R126). -/
def readbackMatches (v : RepairView) (sourceCheck : Option Digest) (o : DriveOutcome) : Bool :=
  match o.status, o.result, v.record.place with
  | .good, .digest d, .frame _ _ _ => decide (v.record.expected = some d)
  | .good, .block true _ check, .manifest _ _ _ => decide (sourceCheck = some check)
  | _, _, _ => false

/-- READBACK takes an outcome (R126). -/
def State.readbackOutcome (s : State) (p : PortId) (v : RepairView) (o : DriveOutcome) : State :=
  if o.status = .notReady then (s.setHold p true).returnRecord .pending none
  else if readbackMatches v s.rpu.sourceCheck o then s.endRepair .repaired none
  else if v.record.attempts < 2 then s.writeStep
  else s.endRepair .repairFailed (some .readbackMismatch)

/-- RPU takes the outcome of its command on port `p` (R121 to R126). -/
def State.rpuOutcome (s : State) (p : PortId) (o : DriveOutcome) : State :=
  match s.repairView with
  | none => s
  | some v =>
    match s.rpu.phase with
    | .idle => s
    | .reference => s.referenceOutcome p v o
    | .source => s.sourceOutcome p v o
    | .write => s.writeOutcome p v o
    | .readback => s.readbackOutcome p v o

/-- RPU is told that its command was cut (R129): the same claim is placed again on the same port, and
the attempt of a WRITE is taken back (R125). -/
def State.rpuCut (s : State) (p : PortId) (c : Claim) : State :=
  let s1 := match c.transfer with
    | .write _ => s.uncountAttempt
    | .read _ => s
  s1.placeRpuClaim p c

end Sys2Proof.Machine
end

