-- ==== Sys2Proof/Machine/Defect.lean ====
section
/-! DEFINITION. The Defect List: ids, findings, locks (R97 to R108). -/

namespace Sys2Proof.Machine

open Sys2Proof

/-- The id after an id: 65,535 is followed by 1 (R64, R101). -/
def nextIdAfter (n : Nat) : Nat := if Config.word16Max ≤ n then 1 else n + 1

/-- The first id from `n` on that is not in use, stepping at most `fuel` times (R64, R101). -/
def freeId (inUse : List Nat) : Nat → Nat → Nat
  | 0, n => n
  | fuel + 1, n => if inUse.contains n then freeId inUse fuel (nextIdAfter n) else n

/-- The ids of the records held (R101). -/
def State.defectIds (s : State) : List Nat := s.dfl.records.map (·.id)

/-- The id a new record takes (R101). -/
def State.newDefectId (s : State) : Nat := freeId s.defectIds s.defectIds.length s.dfl.nextId

/-- The key of a place (R99): a block has none. -/
def Place.hasKey : Place → Bool
  | .block _ => false
  | _ => true

/-- Whether a record is a non-terminal record of this key (R102). -/
def Record.matchesKey (r : Record) (pl : Place) : Bool :=
  pl.hasKey && decide (r.place = pl) && !r.state.terminal

/-- DFL's answers to a finding (R77). -/
inductive Answer where
  | added | duplicate | full
  deriving DecidableEq, Repr

/-- The state a record of this place begins in (R103): NOTED for a block, else by the reel's lock. A reel
that is not catalogued counts as LOCKED; a finding never names one (R99; log 25). -/
def State.createdState (s : State) (pl : Place) : DefectState :=
  match pl.target with
  | none => .noted
  | some t =>
    match s.entry t.reel with
    | some e => if e.locked then .held else .pending
    | none => .held

/-- The archive clock as a reading: none while it is not set (R150). -/
def State.reading (s : State) : Option Nat := if s.pts.clockSet then some s.pts.clock else none

/-- The record a finding makes (R103). -/
def State.newRecord (s : State) (f : Finding) : Record :=
  { id := s.newDefectId, kind := f.kind, state := s.createdState f.place, port := f.port,
    place := f.place, expected := f.expected, found := f.found, origin := f.origin, seen := 1,
    attempts := 0, detail := none, minute := s.reading }

/-- A DEFECT_FOUND notice (R113, Table 11-8). -/
def defectFound (r : Record) (size : Nat) : Notice :=
  { kind := .defectFound, payload := r.bytes ++ le 2 size }

/-- A finding is added (R103): the record at the newest position, DEFECT_FOUND, and RPU told of a record
that begins PENDING. -/
def State.addRecord (s : State) (f : Finding) : State :=
  let r := s.newRecord f
  let s1 := { s with dfl := { s.dfl with records := s.dfl.records ++ [r], nextId := nextIdAfter r.id } }
  let s2 := s1.post (defectFound r s1.dfl.records.length)
  if r.state = .pending then rpuChoice s2 else s2

/-- DFL judges a finding (R102, R103, R104). -/
def State.takeFinding (s : State) (f : Finding) : Answer × State :=
  match s.dfl.records.find? (fun r => r.matchesKey f.place) with
  | some r => (.duplicate, s.modRecord r.id (fun r => { r with seen := saturate 255 r.seen }))
  | none =>
    if s.dfl.records.length < Config.defectCapacity then (.added, s.addRecord f)
    else (.full, s)

/-! ### Repair locks (R37, R38, R107, R108) -/

/-- DFL moves a reel's records on a change of its lock (R107, R108): HELD to PENDING when it opens,
PENDING to HELD when it closes. -/
def moveOnLock (reel : Nat) (locked : Bool) (r : Record) : Record :=
  if r.names reel then
    if locked then (if r.state = .pending then { r with state := .held } else r)
    else (if r.state = .held then { r with state := .pending } else r)
  else r

/-- A reel's lock set, and its records moved where the lock changes (R37). RPU is told afterwards. -/
def State.setLock (s : State) (e : Entry) (locked : Bool) : State :=
  if e.locked = locked then s
  else
    let s1 := s.modEntry e.reel (fun e => { e with locked := locked })
    { s1 with dfl := { s1.dfl with records := s1.dfl.records.map (moveOnLock e.reel locked) } }

/-- Whether unlocking an entry's reel moves some record to PENDING (R107). -/
def State.opensHeld (s : State) (e : Entry) : Bool :=
  e.locked && s.dfl.records.any (fun r => r.names e.reel && decide (r.state = .held))

/-- One reel's lock set by a request (R37); RPU is told of records now PENDING (R100, R107). -/
def State.lockReel (s : State) (e : Entry) (locked : Bool) : State :=
  if !locked && s.opensHeld e then rpuChoice (s.setLock e locked) else s.setLock e locked

/-- The locks of entries set in turn, each with its records. -/
def State.setLocks (s : State) (entries : List Entry) (locked : Bool) : State :=
  entries.foldl (fun t e => t.setLock e locked) s

/-- Every reel's lock set by a request (R38); RPU is told of the records now PENDING, all unlocked together
(R100, R107; log 31). -/
def State.lockEvery (s : State) (locked : Bool) : State :=
  if !locked && s.cat.any s.opensHeld then rpuChoice (s.setLocks s.cat locked)
  else s.setLocks s.cat locked

/-- The entries whose lock a LOCK_ALL or UNLOCK_ALL changes (R38). -/
def State.locksToChange (s : State) (locked : Bool) : Nat :=
  s.cat.countP (fun e => decide (e.locked ≠ locked))

/-- The stall order without a job (R105). -/
def State.leaveStall (s : State) (i : SlotId) : State :=
  { s with dfl := { s.dfl with stallOrder := s.dfl.stallOrder.filter (fun k => decide (k ≠ i)) } }

end Sys2Proof.Machine
end

