-- ==== Sys2Proof/Machine/Job.lean ====
section
/-! DEFINITION. The Job Unit: slots, queues, the frame examination loop and the verify loop (R63 to R86,
R95). -/

namespace Sys2Proof.Machine

open Sys2Proof

/-! ### Notices (R95) -/

/-- The three counts of a job as JOB_END and JOB_STATUS send them (Table 11-8). -/
def Job.counts (j : Job) : List Byte :=
  match j.kind with
  | .volumeVerify => le 5 j.blocksRead ++ le 5 j.blocksUnreadable ++ le 5 0
  | _ => le 5 j.good ++ le 5 j.defective ++ le 5 j.unchecked

/-- Reel and copy of a job, or none (R192). -/
def Job.targetBytes (j : Job) : List Byte :=
  match j.target with
  | some t => le 2 t.reel ++ copyByte (some t.copy)
  | none => le 2 0 ++ copyByte none

/-- The cursor of a job as it is sent (R192). A verify that has read the last block of a volume of `2^40`
blocks has cursor `2^40`, for which the field has no bytes: they are the free value `Config.cursorPastTop`
(log 34). -/
def cursorBytes (cursor : Nat) : List Byte :=
  le 5 (if cursor < Config.blockLimit then cursor else Config.cursorPastTop cursor)

/-- last_scrub of a job's copy, as JOB_END carries it: for a REEL_SCRUB that ended DONE (R95). -/
def State.endScrub (s : State) (j : Job) : Option Nat :=
  match j.kind, j.state, j.target with
  | .reelScrub, .done, some t =>
    ((s.entry t.reel).bind (fun e => e.copy t.copy)).bind (·.lastScrub)
  | _, _, _ => none

/-- A JOB_END notice (R95, Table 11-8). -/
def jobEndNotice (s : State) (j : Job) : Notice :=
  let scrub := s.endScrub j
  { kind := .jobEnd
    payload := le 2 j.id ++ u8 j.kind.code ++ u8 j.origin.code ++ j.targetBytes ++ u8 j.port.val
      ++ u8 j.state.code ++ u8 (endReasonCode j.endReason) ++ cursorBytes j.cursor ++ j.counts
      ++ flagByte scrub.isSome ++ le 4 (scrub.getD 0) }

/-- A JOB_WAIT notice (R95, Table 11-8). -/
def jobWaitNotice (j : Job) : Notice :=
  { kind := .jobWait
    payload := le 2 j.id ++ u8 j.kind.code ++ j.targetBytes ++ u8 j.port.val ++ u8 j.state.code
      ++ cursorBytes j.cursor }

/-- A job enters STALLED, YIELDED or WAIT_MEDIA, and JOB_WAIT is queued (R95). -/
def State.enterWaiting (s : State) (i : SlotId) (st : JobState) : State :=
  let s1 := s.modJob i (fun j => { j with state := st })
  match s1.slot i with
  | some j => s1.post (jobWaitNotice j)
  | none => s1

/-! ### Counters (R64, R67, R69) -/

/-- How many jobs of a class have a lower value than `v`: with one added, the place `v` takes when the
class is renumbered 1 to k (R67, R69). -/
def State.rankBelow (s : State) (cls : Job → Bool) (value : Job → Nat) (v : Nat) : Nat :=
  (s.slotsWhere (fun j => cls j && decide (value j < v))).length

/-- Every job in a slot changed. -/
def State.mapJobs (s : State) (f : Job → Job) : State := allSlots.foldl (fun t i => t.modJob i f) s

/-- Whether a job is QUEUED. -/
def Job.queued (j : Job) : Bool := decide (j.state = .queued)

/-- Renumber the queue sequences when the counter stands at its end (R69). -/
def State.renumberSequences (s : State) : State :=
  if s.jbu.sequence < Config.word32Max then s
  else
    let s1 := s.mapJobs (fun j =>
      if j.queued then { j with sequence := s.rankBelow Job.queued (·.sequence) j.sequence + 1 } else j)
    { s1 with jbu := { s1.jbu with sequence := (s.slotsWhere Job.queued).length } }

/-- The counter of queue sequences moves to its next value, after a renumbering where it stands at its end
(R69). -/
def State.nextSequence (s : State) : State :=
  let s1 := s.renumberSequences
  { s1 with jbu := { s1.jbu with sequence := s1.jbu.sequence + 1 } }

/-- A job as it enters QUEUED with the sequence the counter has just moved to (R69). -/
def State.queuedJob (s : State) (j : Job) : Job := { j with state := .queued, sequence := s.jbu.sequence }

/-- A job in a slot enters QUEUED and takes a new queue sequence (R69). -/
def State.enterQueued (s : State) (i : SlotId) : State :=
  s.nextSequence.modJob i s.nextSequence.queuedJob

/-- Whether a job is terminal. -/
def Job.ended (j : Job) : Bool := j.state.terminal

/-- Renumber the end orders when the counter stands at its end (R67). -/
def State.renumberEnds (s : State) : State :=
  if s.jbu.endOrder < Config.word32Max then s
  else
    let s1 := s.mapJobs (fun j =>
      if j.ended then
        { j with endOrder := some (s.rankBelow Job.ended (fun k => k.endOrder.getD 0)
                                    (j.endOrder.getD 0) + 1) }
      else j)
    { s1 with jbu := { s1.jbu with endOrder := (s.slotsWhere Job.ended).length } }

/-- A job becomes terminal (R67, R68, R95): end reason and end order, JOB_END, and the slot of a PATROL
job freed. -/
def State.endJob (s : State) (i : SlotId) (st : JobState) (reason : EndReason) : State :=
  let s1 := s.renumberEnds
  let n := s1.jbu.endOrder + 1
  let s2 := ({ s1 with jbu := { s1.jbu with endOrder := n } }).modJob i
    (fun j => { j with state := st, endReason := some reason, endOrder := some n })
  match s2.slot i with
  | none => s2
  | some j =>
    let s3 := s2.post (jobEndNotice s2 j)
    match j.origin with
    | .patrol => s3.setSlot i none
    | .requested => s3

/-! ### Waiting for media (R85) and losing work -/

/-- JBU withdraws an active job's claim (R50). -/
def State.withdrawJob (s : State) (j : Job) : State :=
  if j.state.active then s.modPort j.port (fun q => q.withdraw .job) else s

/-- The pending finding and remaining offsets are discarded, and the job leaves the stall order and the
WAIT_MEDIA order (R82, R84, R86, R93). -/
def State.dropWork (s : State) (i : SlotId) : State :=
  let s1 := (s.modJob i (fun j => { j with finding := none, settling := none })).leaveStall i
  { s1 with jbu := { s1.jbu with waitOrder := s1.jbu.waitOrder.filter (fun k => decide (k ≠ i)) } }

/-- A job enters WAIT_MEDIA (R85). -/
def State.enterWaitMedia (s : State) (i : SlotId) : State :=
  match s.slot i with
  | none => s
  | some j =>
    let s1 := ((s.withdrawJob j).dropWork i).modJob i (fun j => { j with manifest := none })
    let s2 := { s1 with jbu := { s1.jbu with waitOrder := s1.jbu.waitOrder ++ [i] } }
    s2.enterWaiting i .waitMedia

/-- A job's copy, or a verify's volume, can be examined now (R71). -/
def State.mediaReady (s : State) (j : Job) : Bool :=
  match j.target with
  | some t => s.targetPresent t
  | none =>
    match (s.port j.port).volume, j.volume with
    | .mounted v n, some (w, m) => decide (v = w) && decide (n = m)
    | .mounted _ _, none => true
    | _, _ => false

/-- A verify is bound to the mounted volume (R79); a bound job never binds again. -/
def Job.bind (j : Job) (vol : VolumeState) : Job :=
  match j.kind, j.volume, vol with
  | .volumeVerify, none, .mounted v n =>
    { j with volume := some (v, n), rangeStart := 1, rangeEnd := some (n - 1), cursor := 1 }
  | _, _, _ => j

/-! ### Boundaries of a scrub (R72 to R77) -/

/-- The entry and copy descriptor a scrub examines. -/
def State.jobCopy (s : State) (j : Job) : Option (Entry × CopyDesc) :=
  match j.target with
  | none => none
  | some t =>
    match s.entry t.reel with
    | none => none
    | some e =>
      match e.copy t.copy with
      | some c => some (e, c)
      | none => none

/-- Whether the manifest block of the cursor is loaded (R72 step 4). -/
def Job.manifestLoaded (j : Job) : Bool :=
  match j.manifest with
  | some m => decide (m.index = j.cursor / slotsPerBlock)
  | none => false

/-- The claim of a scrub at a frame boundary: its manifest block (R74) or frame cursor (R76). -/
def scrubClaim (e : StoredEntry) (c : CopyDesc) (j : Job) : Claim :=
  if j.manifestLoaded then
    { transfer := .read (.frame e.frameBytes), address := frameBlock e c j.cursor,
      blocks := blocksPerFrame e.frameBytes }
  else
    { transfer := .read .blockCheck, address := c.manifestBlock + j.cursor / slotsPerBlock,
      blocks := 1 }

/-- JBU places the active job's claim (R72). -/
def State.placeJobClaim (s : State) (p : PortId) (c : Claim) : State :=
  s.modPort p (fun q => q.placeJob c)

/-- A REEL_SCRUB that ends DONE writes its copy's last_scrub while the clock is set (R73). -/
def State.recordScrub (s : State) (j : Job) : State :=
  match j.kind, j.target, s.reading with
  | .reelScrub, some t, some now => s.modCopy t (fun c => { c with lastScrub := some now })
  | _, _, _ => s

/-- A job whose cursor has passed range end becomes DONE (R73, R80). -/
def State.finishJob (s : State) (i : SlotId) (j : Job) : State :=
  (s.recordScrub j).endJob i .done .complete

/-- Whether the cursor is above range end (R72 step 3, R80 step 3). -/
def Job.pastEnd (j : Job) : Bool :=
  match j.rangeEnd with
  | some e => decide (e < j.cursor)
  | none => false

/-- A frame boundary of a scrub: the first step of R72 that applies. -/
def State.scrubBoundary (s : State) (i : SlotId) (j : Job) : State :=
  if j.state = .suspending then s.modJob i (fun j => { j with state := .suspended })
  else if (s.port j.port).yld then s.enterWaiting i .yielded
  else if j.pastEnd then s.finishJob i j
  else match s.jobCopy j with
    | none => s
    | some (e, c) => s.placeJobClaim j.port (scrubClaim e.toStoredEntry c j)

/-! ### Verify (R79 to R82) -/

/-- The places an address maps to through the copies of an entry that carry the volume id and name the
port (R81). -/
def entryPlaces (p : PortId) (vol : VolumeId) (a : Nat) (e : Entry) : List Place :=
  [CopyId.a, CopyId.b].flatMap (fun k =>
    match e.copy k with
    | none => []
    | some c =>
      if c.port = p ∧ c.volumeId = vol then
        if c.firstFrameBlock ≤ a ∧ a ≤ frameAreaLast e.toStoredEntry c then
          [Place.frame e.reel k ((a - c.firstFrameBlock) / blocksPerFrame e.frameBytes)]
        else if c.manifestBlock ≤ a ∧ a ≤ manifestAreaLast e.toStoredEntry c then
          [Place.manifest e.reel k (a - c.manifestBlock)]
        else []
      else [])

/-- The place of an unrecovered block of a verify (R81). -/
def State.verifyPlace (s : State) (j : Job) (a : Nat) : Place :=
  match j.volume with
  | none => .block a
  | some (v, _) => (s.cat.flatMap (entryPlaces j.port v a)).headD (.block a)

/-- The kind of a verify's finding (R81). -/
def Place.verifyKind : Place → DefectKind
  | .frame _ _ _ => .unreadable
  | .manifest _ _ _ => .manifest
  | .block _ => .block

/-- The finding of an unrecovered offset of the read being settled (R81, R82). -/
def State.verifyFinding (s : State) (j : Job) (offset : Nat) : Finding :=
  let pl := s.verifyPlace j (j.cursor + offset)
  { kind := pl.verifyKind, port := j.port, place := pl, expected := none, found := none,
    origin := .verify }

/-- The block count of a verify's read at the cursor (R80 step 4). -/
def Job.verifyBlocks (j : Job) : Nat := min 256 ((j.rangeEnd.getD 0) + 1 - j.cursor)

/-- The last finding of a verify read has been taken (R82). -/
def Job.settled (j : Job) (total : Nat) : Job :=
  { j with
    blocksRead := j.blocksRead + j.verifyBlocks
    blocksUnreadable := j.blocksUnreadable + total
    cursor := j.cursor + j.verifyBlocks
    settling := none }

/-- The offsets that stay after the finding of `pl` is formed: those of the same frame or manifest block
give no finding of their own (R82). -/
def State.stillRemaining (s : State) (j : Job) (pl : Place) (rest : List Nat) : List Nat :=
  rest.filter (fun o => !(pl.hasKey && decide (s.verifyPlace j (j.cursor + o) = pl)))

/-- A finding meets a full list: the job keeps it and enters STALLED (R77, R84, R104). -/
def State.stallJob (s : State) (i : SlotId) (f : Finding) : State :=
  let s1 := s.modJob i (fun j => { j with finding := some f })
  let s2 := { s1 with dfl := { s1.dfl with stallOrder := s1.dfl.stallOrder ++ [i] } }
  s2.enterWaiting i .stalled

/-- A verify read is settled finding by finding (R82), until the last is taken or one meets a full
list. -/
def State.settleVerify : Nat → State → SlotId → State
  | 0, s, _ => s
  | fuel + 1, s, i =>
    match s.slot i with
    | none => s
    | some j =>
      match j.settling with
      | none => s
      | some st =>
        match st.remaining with
        | [] => s.modJob i (fun j => j.settled st.total)
        | o :: rest =>
          let f := s.verifyFinding j o
          let left := s.stillRemaining j f.place rest
          let s1 := s.modJob i (fun j => { j with settling := some { st with remaining := left } })
          match s1.takeFinding f with
          | (.full, s2) => s2.stallJob i f
          | (_, s2) => State.settleVerify fuel s2 i

/-- The offsets a job still has to settle, with one more for the end of the read. -/
def Job.settlingFuel (j : Job) : Nat :=
  match j.settling with
  | some st => st.remaining.length + 1
  | none => 0

/-- Steps 3 and 4 of a verify's boundary (R80). -/
def State.verifyAdvance (s : State) (i : SlotId) (j : Job) : State :=
  if j.pastEnd then s.finishJob i j
  else s.placeJobClaim j.port
    { transfer := .read .pass, address := j.cursor, blocks := j.verifyBlocks }

/-- A boundary of a verify (R80). -/
def State.verifyBoundary (s : State) (i : SlotId) (j : Job) : State :=
  if (s.port j.port).yld then s.enterWaiting i .yielded
  else
    let s1 := State.settleVerify j.settlingFuel s i
    match s1.slot i with
    | none => s1
    | some j1 => if j1.state = .running then s1.verifyAdvance i j1 else s1

/-- A job at a boundary (R72, R80). -/
def State.boundary (s : State) (i : SlotId) : State :=
  match s.slot i with
  | none => s
  | some j =>
    match j.kind with
    | .volumeVerify => s.verifyBoundary i j
    | _ => s.scrubBoundary i j

/-! ### Activation (R71) -/

/-- The first job of a port's queue becomes active, if the port has no active job, and is checked against
its media (R71); the test is made again while a job goes to WAIT_MEDIA or ends at once. -/
def State.activate : Nat → State → PortId → State
  | 0, s, _ => s
  | fuel + 1, s, p =>
    match s.activeSlot p with
    | some _ => s
    | none =>
      match s.queueHead p with
      | none => s
      | some i =>
        match s.slot i with
        | none => s
        | some j =>
          if s.mediaReady j then
            let s1 := s.modJob i (fun j => { (j.bind (s.port p).volume) with state := .running })
            State.activate fuel (s1.boundary i) p
          else State.activate fuel (s.enterWaitMedia i) p

/-- The activation test of a port (R71): a queue holds at most sixteen jobs (R70). -/
def State.activatePort (s : State) (p : PortId) : State := State.activate Config.jobSlots s p

/-! ### Creation (R64, R67) -/

/-- The job ids in use (R64). -/
def State.jobIds (s : State) : List Nat :=
  allSlots.filterMap (fun i => (s.slot i).map (·.id))

/-- The id a new job takes (R64). -/
def State.newJobId (s : State) : Nat := freeId s.jobIds s.jobIds.length s.jbu.nextId

/-- The id of a job that takes slot `i`: the id of a job reclaimed from the slot is no longer in use (R64, R67). -/
def State.idFor (s : State) (i : SlotId) : Nat := (s.setSlot i none).newJobId

/-- Of two slots, the one whose terminal job ended earlier (R67). -/
def State.earlierEnd (s : State) (i k : SlotId) : SlotId :=
  match s.slot i, s.slot k with
  | some j, some l => if l.endOrder.getD 0 < j.endOrder.getD 0 then k else i
  | _, _ => i

/-- The slot a new job takes (R67): a FREE one (the lowest, log 9), else that of the terminal job that
ended earliest, else none. -/
def State.findSlot (s : State) : Option SlotId :=
  match allSlots.filter (fun i => (s.slot i).isNone) with
  | i :: _ => some i
  | [] =>
    match s.slotsWhere Job.ended with
    | [] => none
    | i :: rest => some (rest.foldl s.earlierEnd i)

/-- A new job's context (R63): cursor at range start, counts 0, nothing loaded or pending. Its state is set as
it enters QUEUED or WAIT_MEDIA, and its queue sequence as it enters QUEUED. R69 gives none to a job that has
never been QUEUED: it holds 0, the model's choice (log 33). -/
def newJob (id : Nat) (kind : JobKind) (origin : JobOrigin) (target : Option Target) (port : PortId)
    (first : Nat) (last : Option Nat) : Job :=
  { id := id, kind := kind, origin := origin, target := target, port := port, volume := none,
    rangeStart := first, rangeEnd := last, cursor := first, manifest := none, finding := none,
    settling := none, good := 0, defective := 0, unchecked := 0, blocksRead := 0,
    blocksUnreadable := 0, sinceResume := 0, resumedEver := false, sequence := 0, state := .queued,
    endReason := none, endOrder := none }

/-- JBU creates a job in a slot (R64, R67): where its media is ready it enters QUEUED, else WAIT_MEDIA
(R88, R89). A job reclaimed from the slot is forgotten. A renumbering of the sequences counts the jobs QUEUED
before this one (R69). -/
def State.createJob (s : State) (i : SlotId) (j : Job) : State :=
  let s1 := { s with jbu := { s.jbu with nextId := nextIdAfter j.id } }
  let b := j.bind (s.port j.port).volume
  if s1.mediaReady j then s1.nextSequence.setSlot i (some (s1.nextSequence.queuedJob b))
  else (s1.setSlot i (some b)).enterWaitMedia i

/-! ### Findings taken (R75, R77, R84) -/

/-- The frames a manifest block without references leaves unchecked, and the cursor after it (R75). -/
def Job.skipManifest (j : Job) (m : Nat) : Job :=
  let last := min (slotsPerBlock * m + (slotsPerBlock - 1)) (j.rangeEnd.getD 0)
  { j with
    unchecked := j.unchecked + (last + 1 - j.cursor)
    cursor := min (slotsPerBlock * (m + 1)) ((j.rangeEnd.getD 0) + 1)
    manifest := none }

/-- A frame examined: the cursor moves on, and frames since resume increases (R76, R77). -/
def Job.nextFrame (j : Job) : Job :=
  { j with cursor := j.cursor + 1, sinceResume := j.sinceResume + 1 }

/-- A job's finding is taken (R77): a scrub counts the frame defective or skips the manifest block
(R75); a verify goes on with its read, which ends when no offset remains (R82). -/
def Job.completeFinding (j : Job) (f : Finding) : Job :=
  match j.kind with
  | .volumeVerify =>
    match j.settling with
    | some st => if st.remaining = [] then j.settled st.total else j
    | none => j
  | _ =>
    match f.place with
    | .manifest _ _ m => j.skipManifest m
    | _ => ({ j with defective := j.defective + 1 }).nextFrame

/-- A scrub hands DFL a finding (R77): taken, it is completed and the job is at a frame boundary; against
a full list the job stalls. -/
def State.scrubFinding (s : State) (i : SlotId) (f : Finding) : State :=
  match s.takeFinding f with
  | (.full, s1) => s1.stallJob i f
  | (_, s1) => (s1.modJob i (fun j => j.completeFinding f)).boundary i

/-- The origin of a job's findings (R77). -/
def Job.findingOrigin (j : Job) : FindingOrigin :=
  match j.kind, j.origin with
  | .volumeVerify, _ => .verify
  | _, .requested => .requested
  | _, .patrol => .patrol

/-- A scrub's finding at its cursor (R75, R76). -/
def Job.scrubFindingAt (j : Job) (t : Target) (kind : DefectKind) (expected found : Option Digest) :
    Finding :=
  { kind := kind, port := j.port
    place := match kind with
      | .manifest => .manifest t.reel t.copy (j.cursor / slotsPerBlock)
      | _ => .frame t.reel t.copy j.cursor
    expected := expected, found := found, origin := j.findingOrigin }

/-- The reference of frame cursor (R76). -/
def Job.reference (j : Job) : Option Digest :=
  j.manifest.map (fun m => m.slots.getD (j.cursor % slotsPerBlock) 0#32)

/-! ### Outcomes (R74, R76, R80) -/

/-- A manifest read's outcome (R74, R75). -/
def State.manifestOutcome (s : State) (i : SlotId) (j : Job) (t : Target) (o : DriveOutcome) : State :=
  match o.status, o.result with
  | .notReady, _ => s.enterWaitMedia i
  | .good, .block true slots _ =>
    (s.modJob i (fun j => { j with manifest := some ⟨j.cursor / slotsPerBlock, slots⟩ })).boundary i
  | _, _ => s.scrubFinding i (j.scrubFindingAt t .manifest none none)

/-- A frame read's outcome (R76). -/
def State.frameOutcome (s : State) (i : SlotId) (j : Job) (t : Target) (o : DriveOutcome) : State :=
  match o.status, o.result with
  | .notReady, _ => s.enterWaitMedia i
  | .good, .digest d =>
    if j.reference = some d then
      (s.modJob i (fun j => ({ j with good := j.good + 1 }).nextFrame)).boundary i
    else s.scrubFinding i (j.scrubFindingAt t .mismatch j.reference (some d))
  | _, _ => s.scrubFinding i (j.scrubFindingAt t .unreadable j.reference none)

/-- A verify read's outcome (R80, R82). -/
def State.verifyOutcome (s : State) (i : SlotId) (o : DriveOutcome) : State :=
  match o.status with
  | .notReady => s.enterWaitMedia i
  | .good =>
    (s.modJob i (fun j => { j with
      blocksRead := j.blocksRead + o.blocks, cursor := j.cursor + o.blocks })).boundary i
  | _ =>
    let s1 := s.modJob i (fun j => { j with settling := some ⟨o.offsets, o.offsets.length⟩ })
    let s2 := State.settleVerify (o.offsets.length + 1) s1 i
    match s2.slot i with
    | none => s2
    | some j => if j.state = .running then s2.boundary i else s2

/-- The active job in slot `i` takes the outcome of its read (R74, R76, R80): a scrub whose manifest
block of the cursor is not loaded was reading it (R72). -/
def State.readOutcome (s : State) (i : SlotId) (o : DriveOutcome) : State :=
  match s.slot i with
  | none => s
  | some j =>
    match j.target with
    | none => s.verifyOutcome i o
    | some t => if j.manifestLoaded then s.frameOutcome i j t o else s.manifestOutcome i j t o

end Sys2Proof.Machine
end

