-- ==== Sys2Proof/Machine/Patrol.lean ====
section
/-! DEFINITION. The Patrol Scheduler: eligibility, due times, choice and evaluation (R147, R156 to R160),
and what follows a job's boundary on its port. -/

namespace Sys2Proof.Machine

open Sys2Proof

/-- Whether a port is eligible for patrol (R158). -/
def State.eligible (s : State) (p : PortId) : Bool :=
  decide (s.mode = .run) && s.pts.enabled && s.pts.clockSet
    && decide ((s.port p).state = .normal) && !(s.port p).yld
    && (s.slotsWhere (fun j => decide (j.port = p) && j.live
          && !decide (j.state = .suspended) && !decide (j.state = .waitMedia))).isEmpty

/-- The effective interval in days (R147). -/
def effectiveInterval (days : Nat) (m : MarginState) : Nat :=
  match m with
  | .steady => days
  | .low => if days / 2 = 0 then 1 else days / 2

/-- The due time of a copy in minutes, with no wrap (R159). -/
def dueTime (e : StoredEntry) (c : CopyDesc) (m : MarginState) : Nat :=
  match c.lastScrub with
  | none => 0
  | some t => t + effectiveInterval e.intervalDays m * 1440

/-- A copy that patrol may choose. -/
structure Candidate where
  target : Target
  due : Nat
  frames : Nat
  deriving DecidableEq, Repr

/-- The candidate a copy of an entry gives on a port, if any (R159). -/
def State.candidateOf (s : State) (p : PortId) (e : Entry) (k : CopyId) : Option Candidate :=
  match e.copy k with
  | none => none
  | some c =>
    let due := dueTime e.toStoredEntry c (s.port p).margin.state
    if decide (c.port = p) && decide (s.presence e.toStoredEntry c = .present)
        && !s.reelTargeted e.reel && decide (due ≤ s.pts.clock)
    then some ⟨⟨e.reel, k⟩, due, e.frameCount⟩ else none

/-- The candidates on a port, in ascending order of reel number, copy A first (R159). -/
def State.candidates (s : State) (p : PortId) : List Candidate :=
  s.cat.flatMap (fun e => [CopyId.a, CopyId.b].filterMap (s.candidateOf p e))

/-- Whether a candidate goes before another: earliest due, then lowest reel number, then copy A (R159). -/
def Candidate.before (a b : Candidate) : Bool :=
  decide (a.due < b.due)
    || (decide (a.due = b.due)
        && (decide (a.target.reel < b.target.reel)
            || (decide (a.target.reel = b.target.reel)
                && decide (a.target.copy = .a) && decide (b.target.copy = .b))))

/-- The candidate patrol chooses (R159). -/
def State.chosen (s : State) (p : PortId) : Option Candidate :=
  match s.candidates p with
  | [] => none
  | c :: rest => some (rest.foldl (fun a b => if b.before a then b else a) c)

/-- PTS evaluates a port (R157, R160): on an eligible port the chosen copy gets a PATROL REEL_SCRUB, where
a slot can be found, and the job becomes active. -/
def State.evaluate (s : State) (p : PortId) : State :=
  if s.eligible p then
    match s.chosen p, s.findSlot with
    | some c, some i =>
      let j := newJob (s.idFor i) .reelScrub .patrol (some c.target) p 0 (some (c.frames - 1))
      (s.createJob i j).activatePort p
    | _, _ => s
  else s

/-- All ports are evaluated, P0 first, each finished before the next begins (R156). -/
def evaluateAll (s : State) : State := allPorts.foldl State.evaluate s

/-- What follows when jobs of a port may have left the active states or entered QUEUED, SUSPENDED,
WAIT_MEDIA or a terminal state: the activation test (R71), then PTS's evaluation (R95, R156; log 15). -/
def State.followUp (s : State) (p : PortId) : State := (s.activatePort p).evaluate p

end Sys2Proof.Machine
end

