-- ==== Sys2Proof/Machine/Reset.lean ====
section
/-! DEFINITION. Resets and start-up (R187 to R191), the end of a frame on the link (R171, R190), and the
minute timer (R151). -/

namespace Sys2Proof.Machine

open Sys2Proof

/-! ### A reset takes effect (R189, R191) -/

/-- A port at a reset (R62): its running state is gone; the levels of its input lines stand. -/
def Port.atReset (q : Port) : Port :=
  { Port.cleared with gnt := q.gnt, yld := q.yld, lines := q.lines }

/-- Every port changed. -/
def State.mapPorts (s : State) (f : PortId → Port → Port) : State :=
  allPorts.foldl (fun t p => t.modPort p (f p)) s

/-- A reset takes effect (R189, R191, Table 10-4): every operation in progress is cut off and all running
state is gone. The image slots, the clock with its set flag, and the levels of the lines stay; a power-on
reset clears the clock as well (R153). -/
def State.resetBy (s : State) (kind : ResetKind) : State :=
  { s.mapPorts (fun _ q => q.atReset) with
    mode := .starting, mask := 0xFF#8, autoRun := false, resetAsked := false, link := Link.cleared,
    cat := [], jbu := Jbu.cleared, dfl := Dfl.cleared, rpu := Rpu.cleared,
    pts := { clock := if kind = .powerOn then 0 else s.pts.clock
             clockSet := if kind = .powerOn then false else s.pts.clockSet
             timerRunning := false, enabled := false },
    siu := { s.siu with store := none }, resetKind := kind, portsSet := false }

/-- POWER_ON_RESET_ASSERT: the supply falls below its working level (R189). -/
def execPowerOnResetAssert (s : State) : Host.Outcome State Fault Refusal :=
  .next (if s.supplyLow then s else { s.resetBy .powerOn with supplyLow := true })

/-- POWER_ON_RESET_RELEASE: the supply has reached its working level. With no reset asserted start-up
begins (R187): step 1 finds LKU as the reset left it. -/
def execPowerOnResetRelease (s : State) : Host.Outcome State Fault Refusal :=
  .next { s with supplyLow := false }

/-- RESET_PIN_ASSERT: a warm reset is asserted (R189). -/
def execResetPinAssert (s : State) : Host.Outcome State Fault Refusal :=
  .next (if s.resetPin then s else { s.resetBy .pin with resetPin := true })

/-- RESET_PIN_RELEASE: the pin is released, and with no reset asserted start-up begins (R187, R189). -/
def execResetPinRelease (s : State) : Host.Outcome State Fault Refusal :=
  .next { s with resetPin := false }

/-! ### The end of a frame (R166, R171, R190) -/

/-- The last byte of a frame has been sent (R166, R171): an ordinary reply's request gives up its place in
the queue, and the transmitter chooses the next frame. -/
def Link.frameSent (l : Link) : Link :=
  match l.sending with
  | none => l
  | some (.notice _) => ({ l with sending := none }).transmit
  | some (.reply r) =>
    match r.source with
    | .ordinary => ({ l with sending := none, queue := l.queue.drop 1 }).transmit
    | .overflow => ({ l with sending := none }).transmit

/-- Whether the frame being sent is the OK reply of a RESET (R190). -/
def Link.sendingResets (l : Link) : Bool :=
  match l.sending with
  | some (.reply r) => r.resets
  | _ => false

/-- FRAME_SENT: the last byte of the frame being sent has gone (R171). After the OK of a RESET the warm reset
takes effect, and start-up begins (R190). -/
def execFrameSent (s : State) : Host.Outcome State Fault Refusal :=
  .next (if s.link.sendingResets then s.resetBy .request
    else { s with link := s.link.frameSent })

/-! ### Start-up (R187) -/

/-- A port as start-up sets it (R62, R149): from its lines as they stand and the settings loaded. -/
def Port.startUp (q : Port) (cfg : PortSettings) : Port :=
  let base : Port := { Port.cleared with
    gnt := q.gnt, yld := q.yld, lines := q.lines, settings := cfg
    state := if q.lines.fault then .offline else .normal
    cause := if q.lines.fault then some .start else none
    grant := if q.gnt then .releasing else .idle }
  if q.lines.media && !q.lines.fault then base.beginLabelRead else base

/-- The settings a start-up gives a port: those of the stored image, or the factory defaults (R187). -/
def startSettings (img : Option Image) (p : PortId) : PortSettings :=
  match img with
  | some m => m.settings[p]
  | none => PortSettings.factory

/-- The catalogue a start-up loads (R39): every entry LOCKED, in ascending order. -/
def startCatalogue (img : Option Image) : List Entry :=
  match img with
  | some m => (m.entries.map (fun e => { e with locked := true : Entry })).foldr insertEntry []
  | none => []

/-- Steps 2 to 4 of start-up (R187): SIU judges the slots and loads the stored image or the factory defaults
(Table 10-3); the ports and monitors are set; locks, lists, slots and RPU are as after every reset. -/
def State.startUpLoad (s : State) : State :=
  let siu := { s.siu.judged with store := none }
  let img := siu.storedImage
  { s.mapPorts (fun p q => q.startUp (startSettings img p)) with
    mask := match img with | some m => m.mask | none => 0xFF#8
    autoRun := match img with | some m => m.autoRun | none => false
    cat := startCatalogue img
    jbu := Jbu.cleared, dfl := Dfl.cleared, rpu := Rpu.cleared, siu := siu
    pts := { s.pts with enabled := match img with | some m => m.patrolEnabled | none => false }
    portsSet := true }

/-- The condition and generation of a slot as STARTUP carries them; the generation is 0 unless VALID. -/
def SlotCondition.bytes (c : SlotCondition) : List Byte :=
  u8 c.code ++ le 4 (c.generation.getD 0)

/-- A port as STARTUP carries it (Table 11-8). -/
def Port.startUpBytes (q : Port) : List Byte :=
  u8 q.state.code ++ u8 (offlineCauseCode q.cause) ++ u8 q.volume.code ++ q.volume.bytes

/-- The slot loaded, 0xFF for none (Table 11-8). -/
def Siu.loadedByte (u : Siu) : List Byte :=
  match u.storedSlot with
  | some k => u8 k.val
  | none => [0xFF#8]

/-- The STARTUP notice (R188, Table 11-8). -/
def startUpNotice (s : State) : Notice :=
  { kind := .startup
    payload := u8 s.resetKind.code ++ u8 s.siu.reason.code ++ s.siu.slots[0].condition.bytes
      ++ s.siu.slots[1].condition.bytes ++ s.siu.loadedByte ++ u8 s.mode.code ++ flagByte s.autoRun
      ++ flagByte s.pts.clockSet ++ le 4 (if s.pts.clockSet then s.pts.clock else 0)
      ++ le 2 s.cat.length ++ allPorts.flatMap (fun p => (s.port p).startUpBytes) }

/-- The mode start-up enters (R181, R187 step 5). -/
def State.startMode (s : State) : Mode :=
  if s.siu.reason = .loaded ∧ s.autoRun = true then .run else .setup

/-- What entering RUN brings (R180): PTS evaluates every port, and RPU makes a choice. -/
def enterRun (s : State) : State := rpuChoice (evaluateAll s)

/-- Steps 5 and 6 of start-up (R187): the mode, STARTUP, the minute timer, and in RUN the evaluation and the
choice. STARTUP enters the notice queue before any other notice (R177). -/
def State.finishStartUp (s : State) : State :=
  let s1 := { s with mode := s.startMode }
  let s2 := takePosted (s1.post (startUpNotice s1))
  let s3 := { s2 with pts := { s2.pts with timerRunning := true } }
  if s3.mode = .run then enterRun s3 else s3

/-- START_UP_END: start-up finishes (R187). It takes steps 2 to 4 unless they have been taken (log 4). -/
def execStartUpEnd (s : State) : Host.Outcome State Fault Refusal :=
  .next (
    if s.mode = .starting ∧ s.resetHeld = false then
      settle (if s.portsSet then s else s.startUpLoad).finishStartUp
    else s)

/-! ### The minute timer (R151) -/

/-- The clock after an expiry (R151). -/
def Pts.expire (p : Pts) : Pts :=
  if p.clockSet then { p with clock := saturate Config.word32Max p.clock } else p

/-- MINUTE_EXPIRY: the minute timer expires (R151); it is halted while a reset is asserted and during
start-up (R153). -/
def execMinuteExpiry (s : State) : Host.Outcome State Fault Refusal :=
  .next (if s.pts.timerRunning then settle (evaluateAll { s with pts := s.pts.expire }) else s)

end Sys2Proof.Machine
end

