-- ==== Sys2Proof/Machine/PartRequests.lean ====
section
/-! DEFINITION. Requests on the part itself, the clock, patrol and the timecode unit: IDENTIFY, STATUS,
SET_MODE, SET_TIME, SET_NOTICES, RESET, SET_PATROL, CONVERT. -/

namespace Sys2Proof.Machine

open Sys2Proof

/-! ### IDENTIFY (R175) -/

/-- The product text "SC8" padded with spaces to 8 characters (R175). -/
def productText : List Byte := padded 8 0x20#8 (ascii [0x53, 0x43, 0x38])

/-- The part's fixed description (R175, Table 11-15). -/
def identifyFields : List Byte :=
  productText ++ u8 2 ++ u8 8 ++ le 2 Config.catalogueCapacity ++ u8 Config.jobSlots
    ++ le 2 Config.defectCapacity ++ u8 Config.noticeCapacity ++ u8 Config.requestCapacity
    ++ le 2 Config.largestPayload ++ le 2 Config.blockBytes ++ le 4 Config.bufferBytes

/-- IDENTIFY's action (R175). -/
def identifyAction (_ : List Byte) (s : State) : Action := .perform s .ok identifyFields

/-- IDENTIFY (R175). -/
def execIdentify (s : State) : Host.Outcome State Fault Refusal :=
  .next (s.runRequest .identify identifyAction)

/-! ### STATUS (R176) -/

/-- The flag byte of STATUS (11.6). -/
def State.statusFlags (s : State) : List Byte :=
  u8 (bit 0 s.link.linkError + bit 1 s.link.noticesLost + bit 2 s.alert + bit 3 s.pts.clockSet
    + bit 4 s.pts.enabled + bit 5 s.siu.store.isSome)

/-- A port as STATUS carries it (11.6). -/
def State.statusPort (s : State) (p : PortId) : List Byte :=
  u8 (s.port p).state.code ++ u8 (s.port p).volume.code ++ u8 (s.port p).margin.state.code
    ++ le 2 (((s.activeJob p).map (·.id)).getD 0)

/-- The fields of STATUS (R176, 11.6). -/
def State.statusFields (s : State) : List Byte :=
  u8 s.mode.code ++ s.statusFlags ++ le 4 (if s.pts.clockSet then s.pts.clock else 0)
    ++ le 2 s.cat.length ++ le 2 s.dfl.records.length ++ le 2 s.lostRecords
    ++ u8 s.dfl.stallOrder.length ++ u8 s.freeSlots ++ u8 s.liveSlots.length
    ++ u8 s.rpu.phase.code ++ le 2 (s.rpu.record.getD 0) ++ allPorts.flatMap s.statusPort

/-- Both link flags clear (R176). -/
def State.clearLinkFlags (s : State) : State :=
  { s with link := { s.link with linkError := false, noticesLost := false } }

/-- STATUS's action (R176). -/
def statusAction (_ : List Byte) (s : State) : Action := .perform s.clearLinkFlags .ok s.statusFields

/-- STATUS (R176). -/
def execStatus (s : State) : Host.Outcome State Fault Refusal :=
  .next (s.runRequest .status statusAction)

/-! ### SET_MODE (R179, R180) -/

/-- The auto-run value a SET_MODE takes (R179): 0 clears, 1 sets, 2 leaves it. -/
def autoRunTaken (byte : Nat) (now : Bool) : Bool :=
  match byte with
  | 0 => false
  | 1 => true
  | _ => now

/-- Whether SET_MODE SETUP from RUN is refused (R179 step 3). -/
def State.leavingRunBlocked (s : State) : Bool :=
  !s.liveSlots.isEmpty || decide (s.rpu.phase ≠ .idle)

/-- SET_MODE's fields: the mode and auto-run taken (Table 11-15). -/
def modeFields (m : Mode) (autoRun : Bool) : List Byte := u8 m.code ++ flagByte autoRun

/-- SET_MODE RUN (R179, R180). -/
def State.setRun (s : State) (autoRun : Bool) : State :=
  let s1 := { s with autoRun := autoRun, mode := .run }
  if s.mode = .run then s1 else settle (enterRun s1)

/-- SET_MODE's action (R179). -/
def setModeAction (p : List Byte) (s : State) : Action :=
  let m := field p 0 1
  let a := field p 1 1
  let autoRun := autoRunTaken a s.autoRun
  if m ≠ 1 ∧ m ≠ 2 then .refuse .badArgument
  else if 2 < a then .refuse .badArgument
  else if m = 1 then
    if s.mode = .run ∧ s.leavingRunBlocked = true then .refuse .busy
    else .perform { s with autoRun := autoRun, mode := .setup } .ok (modeFields .setup autoRun)
  else .perform (s.setRun autoRun) .ok (modeFields .run autoRun)

/-- SET_MODE (R179, R180). -/
def execSetMode (s : State) : Host.Outcome State Fault Refusal :=
  .next (s.runRequest .setMode setModeAction)

/-! ### SET_TIME (R152) -/

/-- The clock set to a value (R152 step 1). -/
def State.setClock (s : State) (v : Nat) : State :=
  { s with pts := { s.pts with clock := v, clockSet := true } }

/-- SET_TIME's action (R152): its fields are the value taken, and the value and flag before. -/
def setTimeAction (p : List Byte) (s : State) : Action :=
  .perform (settle (evaluateAll (s.setClock (field p 0 4)))) .ok
    (le 4 (field p 0 4) ++ le 4 s.pts.clock ++ flagByte s.pts.clockSet)

/-- SET_TIME (R152). -/
def execSetTime (s : State) : Host.Outcome State Fault Refusal :=
  .next (s.runRequest .setTime setTimeAction)

/-! ### SET_NOTICES (R174) -/

/-- The mask taken: the value given with the STARTUP enable set (R174). -/
def maskTaken (b : Byte) : Byte := b ||| 1#8

/-- SET_NOTICES' action (R174). -/
def setNoticesAction (p : List Byte) (s : State) : Action :=
  .perform { s with mask := maskTaken (byteAt p 0) } .ok [maskTaken (byteAt p 0)]

/-- SET_NOTICES (R174). -/
def execSetNotices (s : State) : Host.Outcome State Fault Refusal :=
  .next (s.runRequest .setNotices setNoticesAction)

/-! ### RESET (R190) -/

/-- RESET's action (R190): RQH executes no further request; the reset comes when the reply has been sent. -/
def resetAction (_ : List Byte) (s : State) : Action := .perform { s with resetAsked := true } .ok []

/-- RESET (R190). -/
def execReset (s : State) : Host.Outcome State Fault Refusal :=
  .next (s.runRequest .reset resetAction)

/-! ### SET_PATROL (R154) -/

/-- Patrol enable set to a value (R154). -/
def State.setPatrol (s : State) (b : Bool) : State := { s with pts := { s.pts with enabled := b } }

/-- SET_PATROL's action (R154): a change from clear to set evaluates every port. -/
def setPatrolAction (p : List Byte) (s : State) : Action :=
  let v := field p 0 1
  if 1 < v then .refuse .badArgument
  else if v = 1 then
    if s.pts.clockSet = false then .refuse .timeNotSet
    else if s.pts.enabled then .perform s .ok (u8 1)
    else .perform (settle (evaluateAll (s.setPatrol true))) .ok (u8 1)
  else .perform (s.setPatrol false) .ok (u8 0)

/-- SET_PATROL (R154). -/
def execSetPatrol (s : State) : Host.Outcome State Fault Refusal :=
  .next (s.runRequest .setPatrol setPatrolAction)

/-! ### CONVERT (R18, R19) -/

/-- The entry a request names by its reel number; 0 names none (R22). -/
def State.namedEntry (s : State) (reel : Nat) : Option Entry := if reel = 0 then none else s.entry reel

/-- What a conversion uses (R18): rate, start timecode and limit. -/
structure Conversion where
  rate : RateCode
  start : Timecode
  limit : Nat
  deriving DecidableEq, Repr

/-- Steps 2 to 4 of CONVERT (R18): the reel's rate, start and frame count, or the request's own with the day
count. -/
def State.conversion (s : State) (reel rateByte : Nat) (start : Timecode) : Except Status Conversion :=
  if reel = 0 then
    match RateCode.ofCode rateByte with
    | none => .error .badArgument
    | some r => if start.valid r then .ok ⟨r, start, r.dayCount⟩ else .error .badTimecode
  else match s.entry reel with
    | none => .error .noSuchReel
    | some e => .ok ⟨e.rate, e.start, e.frameCount⟩

/-- CONVERT's fields (R19, Table 11-15). -/
def convertFields (c : Conversion) (index : Nat) (t : Timecode) : List Byte :=
  u8 c.rate.code ++ le 4 index ++ t.bytes ++ le 4 c.limit

/-- CONVERT's action (R18, R19): direction 1 is TO_INDEX, 2 is TO_TIMECODE. -/
def convertAction (p : List Byte) (s : State) : Action :=
  let direction := field p 0 1
  let t := timecodeAt p 8
  let index := field p 12 4
  if direction ≠ 1 ∧ direction ≠ 2 then .refuse .badArgument
  else match s.conversion (field p 1 2) (field p 3 1) (timecodeAt p 4) with
    | .error st => .refuse st
    | .ok c =>
      if direction = 1 then
        match timecodeToIndex c.rate c.start t c.limit with
        | .error st => .refuse st
        | .ok i => .perform s .ok (convertFields c i t)
      else if index < c.limit then
        .perform s .ok (convertFields c index (timecodeOfIndex c.rate c.start index))
      else .refuse .outOfReel

/-- CONVERT (R18, R19). -/
def execConvert (s : State) : Host.Outcome State Fault Refusal :=
  .next (s.runRequest .convert convertAction)

end Sys2Proof.Machine
end

