-- ==== Sys2Proof/Machine/CatalogueRequests.lean ====
section
/-! DEFINITION. Requests on the catalogue and on stores: ADD_REEL, EDIT_REEL, REMOVE_REEL, READ_REEL,
LIST_REELS, FREEZE_REEL, the four lock requests, STORE, RESTORE_FACTORY. -/

namespace Sys2Proof.Machine

open Sys2Proof

/-! ### Areas (R23, R24) -/

/-- A run of blocks: its first and its last block. -/
structure BlockRun where
  first : Nat
  last : Nat
  deriving DecidableEq, Repr

/-- Whether two runs share a block (R23). -/
def BlockRun.shares (a b : BlockRun) : Bool := decide (a.first ≤ b.last) && decide (b.first ≤ a.last)

/-- The frame area of a copy (R1). -/
def frameArea (e : StoredEntry) (c : CopyDesc) : BlockRun := ⟨c.firstFrameBlock, frameAreaLast e c⟩

/-- The manifest area of a copy (R3). -/
def manifestArea (e : StoredEntry) (c : CopyDesc) : BlockRun := ⟨c.manifestBlock, manifestAreaLast e c⟩

/-- The area checks of one copy (R23). -/
def areaOk (e : StoredEntry) (c : CopyDesc) : Bool :=
  decide (1 ≤ c.firstFrameBlock) && decide (1 ≤ c.manifestBlock)
    && decide (highestBlock e c < Config.blockLimit)
    && !(frameArea e c).shares (manifestArea e c)

/-- Whether two copies carry the same volume id and share a block (R24). -/
def copiesOverlap (e : StoredEntry) (c : CopyDesc) (e' : StoredEntry) (c' : CopyDesc) : Bool :=
  decide (c.volumeId = c'.volumeId)
    && ((frameArea e c).shares (frameArea e' c') || (frameArea e c).shares (manifestArea e' c')
      || (manifestArea e c).shares (frameArea e' c') || (manifestArea e c).shares (manifestArea e' c'))

/-- The copies of an entry. -/
def StoredEntry.copies (e : StoredEntry) : List CopyDesc := e.copyA :: e.copyB.toList

/-- The overlap check of R24 for an entry against others, and of its copies against each other. -/
def overlapOk (others : List Entry) (e : StoredEntry) : Bool :=
  e.copies.all (fun c => others.all (fun x =>
      x.toStoredEntry.copies.all (fun c' => !copiesOverlap e c x.toStoredEntry c')))
    && (match e.copyB with
      | some b => !copiesOverlap e e.copyA e b
      | none => true)

/-! ### Checking an entry (R28 steps 4 to 11) -/

/-- The name of an ADD_REEL or EDIT_REEL, if it is allowed (R28 step 4, R193). -/
def nameAsked (f : EntryFields) : Option (List Byte) :=
  if f.nameLength ≤ 24 ∧ (f.nameField.take f.nameLength).all nameCharOk = true
  then some (f.nameField.take f.nameLength) else none

/-- A copy as a new descriptor: NEVER, and counts of 0 (R29). -/
def CopyFields.fresh (c : CopyFields) (port : PortId) : CopyDesc :=
  { port := port, volumeId := c.volumeId, firstFrameBlock := c.firstFrameBlock,
    manifestBlock := c.manifestBlock, lastScrub := none, repairedCount := 0, lostCount := 0 }

/-- The two copies an entry asks for (R28 step 8): the flag is 0 or 1, and each copy given names a port. -/
def copiesAsked (f : EntryFields) : Option (CopyDesc × Option CopyDesc) :=
  match f.copyBFlag, portOfNat f.copyA.port, portOfNat f.copyB.port with
  | 0, some a, _ => some (f.copyA.fresh a, none)
  | 1, some a, some b => some (f.copyA.fresh a, some (f.copyB.fresh b))
  | _, _, _ => none

/-- Whether copy B names copy A's port (R28 step 9). -/
def samePort (a : CopyDesc) : Option CopyDesc → Bool
  | some b => decide (b.port = a.port)
  | none => false

/-- The interval taken (R29). -/
def intervalTaken (n : Nat) : Nat := clamp 1 3650 n

/-- The counts of R28 step 7. -/
def EntryFields.countsOk (f : EntryFields) : Bool :=
  decide (1 ≤ f.frameCount) && decide (f.frameCount ≤ 1000000) && decide (1 ≤ f.frameBytes)
    && decide (f.frameBytes ≤ Config.bufferBytes)

/-- Steps 10 and 11 of R28. -/
def placedOk (others : List Entry) (e : StoredEntry) : Bool :=
  e.copies.all (areaOk e) && overlapOk others e

/-- Steps 4 to 11 of R28: the entry asked for, with new copies, or the status of the first check that
fails. -/
def checkEntry (others : List Entry) (f : EntryFields) : Except Status StoredEntry :=
  match nameAsked f with
  | none => .error .badArgument
  | some name =>
    match RateCode.ofCode f.rate with
    | none => .error .badArgument
    | some rate =>
      if f.start.valid rate = false then .error .badTimecode
      else if f.countsOk = false then .error .badArgument
      else match copiesAsked f with
        | none => .error .badArgument
        | some (a, b) =>
          if samePort a b then .error .samePort
          else
            let e : StoredEntry :=
              { reel := f.reel, name := name, rate := rate, start := f.start,
                frameCount := f.frameCount, frameBytes := f.frameBytes,
                intervalDays := intervalTaken f.intervalDays, frozen := false, copyA := a, copyB := b }
            if placedOk others e then .ok e else .error .badArgument

/-- The fields of an ADD_REEL or EDIT_REEL reply (Table 11-15). -/
def entryTaken (e : StoredEntry) : List Byte := le 2 e.reel ++ le 2 e.intervalDays

/-! ### ADD_REEL (R28, R29) -/

/-- ADD_REEL's action (R28, R29). -/
def addReelAction (p : List Byte) (s : State) : Action :=
  let f := entryFields p
  if f.reel = 0 then .refuse .badArgument
  else if (s.entry f.reel).isSome then .refuse .reelExists
  else if Config.catalogueCapacity ≤ s.cat.length then .refuse .catalogueFull
  else match checkEntry s.cat f with
    | .error st => .refuse st
    | .ok e =>
      .perform { s with cat := insertEntry { e with locked := true } s.cat } .ok (entryTaken e)

/-- ADD_REEL (R28, R29). -/
def execAddReel (s : State) : Host.Outcome State Fault Refusal :=
  .next (s.runRequest .addReel addReelAction)

/-! ### EDIT_REEL (R30, R31) -/

/-- Whether a copy is kept in place by an edit (R31). -/
def keptInPlace (old new : StoredEntry) (c d : CopyDesc) : Bool :=
  decide (c.port = d.port) && decide (c.volumeId = d.volumeId)
    && decide (c.firstFrameBlock = d.firstFrameBlock) && decide (c.manifestBlock = d.manifestBlock)
    && decide (old.frameCount = new.frameCount) && decide (old.frameBytes = new.frameBytes)

/-- A copy of an edited entry: the copy before the edit with its history, or the new one (R31). -/
def settleCopy (old new : StoredEntry) (c d : CopyDesc) : CopyDesc :=
  if keptInPlace old new c d then c else d

/-- An entry after an edit (R31). -/
def editEntry (old : Entry) (new : StoredEntry) : Entry :=
  { new with
    frozen := old.frozen
    copyA := settleCopy old.toStoredEntry new old.copyA new.copyA
    copyB := match old.copyB, new.copyB with
      | some c, some d => some (settleCopy old.toStoredEntry new c d)
      | none, d => d
      | some _, none => none
    locked := old.locked }

/-- Whether records or non-terminal jobs name a reel (R30 step 3, R32 step 3). -/
def State.reelBusy (s : State) (reel : Nat) : Bool := s.reelRecorded reel || s.reelTargeted reel

/-- The entry an editing request may act on (R30 and R32, steps 1 to 3). -/
def State.editable (s : State) (reel : Nat) : Except Status Entry :=
  match s.namedEntry reel with
  | none => .error .noSuchReel
  | some e =>
    if e.frozen then .error .frozen
    else if s.reelBusy reel then .error .reelBusy
    else .ok e

/-- The entries of other reels. -/
def State.otherEntries (s : State) (reel : Nat) : List Entry :=
  s.cat.filter (fun e => decide (e.reel ≠ reel))

/-- EDIT_REEL's action (R30, R31). -/
def editReelAction (p : List Byte) (s : State) : Action :=
  let f := entryFields p
  match s.editable f.reel with
  | .error st => .refuse st
  | .ok old =>
    match checkEntry (s.otherEntries f.reel) f with
    | .error st => .refuse st
    | .ok e => .perform (s.modEntry f.reel (fun _ => editEntry old e)) .ok (entryTaken e)

/-- EDIT_REEL (R30, R31). -/
def execEditReel (s : State) : Host.Outcome State Fault Refusal :=
  .next (s.runRequest .editReel editReelAction)

/-! ### REMOVE_REEL (R32) -/

/-- REMOVE_REEL's action (R32). -/
def removeReelAction (p : List Byte) (s : State) : Action :=
  match s.editable (field p 0 2) with
  | .error st => .refuse st
  | .ok _ => .perform { s with cat := s.otherEntries (field p 0 2) } .ok []

/-- REMOVE_REEL (R32). -/
def execRemoveReel (s : State) : Host.Outcome State Fault Refusal :=
  .next (s.runRequest .removeReel removeReelAction)

/-! ### READ_REEL and LIST_REELS (R33, R34) -/

/-- A copy descriptor as returned (Table 11-6). -/
def State.copyFields (s : State) (e : StoredEntry) (c : CopyDesc) : List Byte :=
  u8 c.port.val ++ le 4 c.volumeId.toNat ++ le 5 c.firstFrameBlock ++ le 5 c.manifestBlock
    ++ flagByte c.lastScrub.isSome ++ le 4 (c.lastScrub.getD 0) ++ le 2 c.repairedCount
    ++ le 2 c.lostCount ++ u8 (s.presence e c).code

/-- READ_REEL's fields (Tables 11-4 and 11-5). -/
def State.reelFields (s : State) (e : Entry) : List Byte :=
  le 2 e.reel ++ u8 e.name.length ++ padded 24 0#8 e.name ++ u8 e.rate.code ++ e.start.bytes
    ++ le 4 e.frameCount ++ le 4 e.frameBytes ++ le 2 e.intervalDays ++ flagByte e.frozen
    ++ flagByte e.locked ++ flagByte e.copyB.isSome ++ s.copyFields e.toStoredEntry e.copyA
    ++ (match e.copyB with
      | some c => s.copyFields e.toStoredEntry c
      | none => List.replicate 25 0#8)

/-- READ_REEL's action (R33). -/
def readReelAction (p : List Byte) (s : State) : Action :=
  match s.namedEntry (field p 0 2) with
  | none => .refuse .noSuchReel
  | some e => .perform s .ok (s.reelFields e)

/-- READ_REEL (R33). -/
def execReadReel (s : State) : Host.Outcome State Fault Refusal :=
  .next (s.runRequest .readReel readReelAction)

/-- The reel numbers on a page of the listing (R34). -/
def State.reelPage (s : State) (page : Nat) : List Nat :=
  ((s.cat.map (·.reel)).drop (64 * page)).take 64

/-- LIST_REELS' action (R34). -/
def listReelsAction (p : List Byte) (s : State) : Action :=
  let page := field p 0 1
  if 8 ≤ page then .refuse .badArgument
  else .perform s .ok
    (le 2 s.cat.length ++ u8 page ++ u8 (s.reelPage page).length
      ++ (s.reelPage page).flatMap (le 2))

/-- LIST_REELS (R34). -/
def execListReels (s : State) : Host.Outcome State Fault Refusal :=
  .next (s.runRequest .listReels listReelsAction)

/-! ### Stores (R35, R184, R186) -/

/-- FREEZE_REEL's action (R35): the frozen mark, then a store whose snapshot has it. -/
def freezeReelAction (p : List Byte) (s : State) : Action :=
  match s.namedEntry (field p 0 2) with
  | none => .refuse .noSuchReel
  | some e =>
    if s.siu.store.isSome then .refuse .busy
    else .perform ((s.modEntry e.reel (fun e => { e with frozen := true })).startStore .freezeReel)
      .accepted s.siu.storeFields

/-- FREEZE_REEL (R35, R184). -/
def execFreezeReel (s : State) : Host.Outcome State Fault Refusal :=
  .next (s.runRequest .freezeReel freezeReelAction)

/-- STORE's action (R184). -/
def storeAction (_ : List Byte) (s : State) : Action :=
  if s.siu.store.isSome then .refuse .busy
  else .perform (s.startStore .store) .accepted s.siu.storeFields

/-- STORE (R184). -/
def execStore (s : State) : Host.Outcome State Fault Refusal :=
  .next (s.runRequest .store storeAction)

/-- Whether some defect record names a reel whose entry is not frozen (R36, R186 step 2). -/
def State.unfrozenRecorded (s : State) : Bool :=
  s.cat.any (fun e => !e.frozen && s.reelRecorded e.reel)

/-- The settings and entries RESTORE_FACTORY leaves (R186 steps 1 to 3). -/
def State.restored (s : State) : State :=
  { s.mapPorts (fun _ q => q.withSettings PortSettings.factory) with
    cat := s.cat.filter (·.frozen)
    mask := 0xFF#8, autoRun := false, pts := { s.pts with enabled := false } }

/-- RESTORE_FACTORY's action (R186). -/
def restoreFactoryAction (_ : List Byte) (s : State) : Action :=
  if s.siu.store.isSome then .refuse .busy
  else if s.unfrozenRecorded then .refuse .reelBusy
  else .perform (s.restored.startStore .restoreFactory) .accepted s.siu.storeFields

/-- RESTORE_FACTORY (R186). -/
def execRestoreFactory (s : State) : Host.Outcome State Fault Refusal :=
  .next (s.runRequest .restoreFactory restoreFactoryAction)

/-! ### Locks (R37, R38) -/

/-- The action of LOCK_REEL and UNLOCK_REEL (R37): the change flag says whether the lock changed. -/
def lockAction (locked : Bool) (p : List Byte) (s : State) : Action :=
  match s.namedEntry (field p 0 2) with
  | none => .refuse .noSuchReel
  | some e =>
    if e.locked = locked then .perform s .ok (flagByte false)
    else .perform (settle (s.lockReel e locked)) .ok (flagByte true)

/-- LOCK_REEL (R37, R108). -/
def execLockReel (s : State) : Host.Outcome State Fault Refusal :=
  .next (s.runRequest .lockReel (lockAction true))

/-- UNLOCK_REEL (R37, R107). -/
def execUnlockReel (s : State) : Host.Outcome State Fault Refusal :=
  .next (s.runRequest .unlockReel (lockAction false))

/-- The action of LOCK_ALL and UNLOCK_ALL (R38): the number of entries whose lock changed. -/
def lockAllAction (locked : Bool) (_ : List Byte) (s : State) : Action :=
  .perform (settle (s.lockEvery locked)) .ok (le 2 (s.locksToChange locked))

/-- LOCK_ALL (R38, R108). -/
def execLockAll (s : State) : Host.Outcome State Fault Refusal :=
  .next (s.runRequest .lockAll (lockAllAction true))

/-- UNLOCK_ALL (R38, R107). -/
def execUnlockAll (s : State) : Host.Outcome State Fault Refusal :=
  .next (s.runRequest .unlockAll (lockAllAction false))

end Sys2Proof.Machine
end

