-- ==== Sys2Proof/Machine/PortEvents.lean ====
section
/-! DEFINITION. Events of a drive port: judging replies, escalation, OFFLINE, labels, media, lines and
grants (R41 to R59, R78, R83, R86). -/

namespace Sys2Proof.Machine

open Sys2Proof

/-! ### OFFLINE (R54, R86) -/

/-- A slot inserted into slots that stand in queue order (R70). -/
def State.insertQueued (s : State) (i : SlotId) : List SlotId → List SlotId
  | [] => [i]
  | k :: rest => if s.aheadOf k i = i then i :: k :: rest else k :: s.insertQueued i rest

/-- The port's queue, first job first (R70). -/
def State.queueOf (s : State) (p : PortId) : List SlotId :=
  (s.queuedSlots p).foldr s.insertQueued []

/-- The non-terminal jobs of a port: the active job, then the queue in its order, then the others by slot
(log 10, log 11). -/
def State.portJobs (s : State) (p : PortId) : List SlotId :=
  s.slotsWhere (fun j => decide (j.port = p) && j.state.active) ++ s.queueOf p
    ++ s.slotsWhere (fun j => decide (j.port = p)
        && (decide (j.state = .suspended) || decide (j.state = .waitMedia)))

/-- A job fails because its port is OFFLINE (R86). -/
def State.failJob (s : State) (i : SlotId) : State :=
  (s.dropWork i).endJob i .failed .portOffline

/-- Steps 1 to 5 of entering OFFLINE (R54). -/
def Port.goOffline (q : Port) (cause : OfflineCause) : Port :=
  { q.finish with
    state := .offline, cause := some cause
    labelClaim := false, rpuClaim := none, jobClaim := none, reissue := none
    req := false, grant := if q.gnt then .releasing else .idle
    volume := .noMedia }

/-- A port enters OFFLINE (R54): its own state, then JBU fails its jobs (R86), RPU returns a record
whose source or target lies on it (R132), and PORT_EVENT is queued. -/
def State.enterOffline (s : State) (p : PortId) (cause : OfflineCause) : State :=
  let s1 := s.modPort p (fun q => q.goOffline cause)
  let s2 := ((s1.portJobs p).foldl State.failJob s1).followUp p
  (s2.rpuPortLost p).postPortEvent p .port

/-! ### Escalation (R51, R52) -/

/-- A port error on the outstanding command (R51, R52): in NORMAL the port goes to RECOVERY and a reissue
is placed unless the command is an orphan; in RECOVERY the port goes OFFLINE. -/
def State.portError (s : State) (p : PortId) : State :=
  let q := s.port p
  match q.outstanding with
  | none => s
  | some o =>
    match q.state with
    | .normal =>
      let q1 := { q.finish with
        state := .recovery
        reissue := match o.claimant with
          | some c => some (c, o.claim)
          | none => q.reissue }
      (s.setPort p q1).postPortEvent p .port
    | .recovery => (s.setPort p q.finish).enterOffline p .escalation
    | .offline => s.setPort p q.finish

/-! ### Labels (R56, R57) -/

/-- The text mark of a label, "NMBRLBL1" (R57, Table 11-13). -/
def labelMark : List Byte := ascii [0x4E, 0x4D, 0x42, 0x52, 0x4C, 0x42, 0x4C, 0x31]

/-- The block count of a label; a field of 0 stands for `2^40` (R192). -/
def labelBlocks (data : List Byte) : Nat :=
  if field data 12 5 = 0 then Config.blockLimit else field data 12 5

/-- The volume state a label read settles in (R57). -/
def labelVolume (o : DriveOutcome) : VolumeState :=
  match o.status, o.result with
  | .good, .block true _ _ =>
    if slice o.data 0 8 = labelMark ∧ 2 ≤ labelBlocks o.data
    then .mounted (BitVec.ofNat 32 (field o.data 8 4)) (labelBlocks o.data) else .unlabelled
  | _, _ => .unlabelled

/-- The jobs that a settled label read releases from WAIT_MEDIA, in the order they entered it (R85). -/
def State.releasedJobs (s : State) (p : PortId) : List SlotId :=
  s.jbu.waitOrder.filter (fun i => match s.slot i with
    | some j => decide (j.port = p) && decide (j.state = .waitMedia) && s.mediaReady j
    | none => false)

/-- A job leaves WAIT_MEDIA for QUEUED; an unbound verify is bound (R79, R85). -/
def State.releaseJob (s : State) (i : SlotId) : State :=
  let s1 := { s with jbu := { s.jbu with
    waitOrder := s.jbu.waitOrder.filter (fun k => decide (k ≠ i)) } }
  match s1.slot i with
  | none => s1
  | some _ => (s1.modJob i (fun j => j.bind (s.port j.port).volume)).enterQueued i

/-- JBU learns of a settled label read: the released jobs enter QUEUED, and the activation test is made
once all of them are (R85). -/
def State.releaseJobs (s : State) (p : PortId) : State :=
  ((s.releasedJobs p).foldl State.releaseJob s).activatePort p

/-- A label read settles (R57): volume state, PORT_EVENT, and RPU's hold on the port clears (R120). Copies
that became PRESENT are reported to JBU first, then to PTS (R27); the copies of a port in LABEL_READ were
all ABSENT before (R26). RPU chooses where a copy became PRESENT or a hold cleared (R117). -/
def State.settleLabel (s : State) (p : PortId) (o : DriveOutcome) : State :=
  let s1 := (s.modPort p (fun q => { q with volume := labelVolume o })).postPortEvent p .volume
  let s2 := (s1.setHold p false).releaseJobs p
  let s3 := if s2.somePresentOn p then s2.evaluate p else s2
  if s.held p || s2.somePresentOn p then rpuChoice s3 else s3

/-! ### Replies (R41, R43) -/

/-- Whether a list of offsets is strictly ascending and below a block count (R41). -/
def offsetsOk (blocks : Nat) : List Nat → Bool
  | [] => true
  | [a] => decide (a < blocks)
  | a :: b :: rest => decide (a < b) && offsetsOk blocks (b :: rest)

/-- A well-formed reply's status, or none where it is malformed (R41). -/
def replyStatus (c : Claim) (r : DriveReply) : Option DriveStatus :=
  match DriveStatus.ofByte r.status, c.transfer with
  | none, _ => none
  | some st, .write _ => if r.data = [] then some st else none
  | some st, .read _ =>
    let carriesData : Bool := decide (st = .good) || decide (st = .mediumError)
    let dataOk : Bool :=
      if carriesData then decide (r.data.length = c.blocks * Config.blockBytes) else decide (r.data = [])
    let listOk : Bool := offsetsOk c.blocks r.offsets
      && !(decide (st = .good) && !r.offsets.isEmpty)
      && !(decide (st = .mediumError) && r.offsets.isEmpty)
    if dataOk && listOk && !decide (st = .writeProtected) then some st else none

/-- The outcome handed to a claimant (R43). A WRITE hands on neither count nor list (R41), and a READ's engine result comes only with an empty list (R9). -/
def outcomeOf (q : Port) (c : Claim) (r : DriveReply) (st : DriveStatus) : DriveOutcome :=
  { status := st
    corrected := match c.transfer with
      | .read _ => r.corrected
      | .write _ => 0
    offsets := match c.transfer with
      | .read _ => r.offsets
      | .write _ => []
    result := match c.transfer with
      | .read _ => if st = .good then q.engine.result r.data else .nothing
      | .write _ => .nothing
    data := r.data
    blocks := c.blocks }

/-- The claimant takes its outcome (R43). -/
def State.handOutcome (s : State) (p : PortId) (c : Option Claimant) (o : DriveOutcome) : State :=
  match c with
  | none => s
  | some .label => s.settleLabel p o
  | some .rpu => s.rpuOutcome p o
  | some .job =>
    match s.activeSlot p with
    | none => s
    | some i => (s.readOutcome i o).followUp p

/-- An outcome taken in RECOVERY returns the port to NORMAL before it is handed on (R43, R52). -/
def State.returnToNormal (s : State) (p : PortId) : State :=
  if (s.port p).state = .recovery then
    (s.modPort p (fun q => { q with state := .normal })).postPortEvent p .port
  else s

/-- Whether a reply feeds the margin monitor (R137): an outcome of a READ, GOOD or MEDIUM_ERROR. -/
def feedsMargin (c : Claim) (st : DriveStatus) : Bool :=
  match c.transfer with
  | .read _ => decide (st = .good) || decide (st = .mediumError)
  | .write _ => false

/-- MGMn is fed by an outcome (R43, R137). -/
def State.feedReply (s : State) (p : PortId) (c : Claim) (r : DriveReply) (st : DriveStatus) : State :=
  if feedsMargin c st then s.feedMargin p r.corrected c.blocks else s

/-- An outcome is taken (R43): the command is finished, a port in RECOVERY returns to NORMAL, the margin
monitor is fed, and the claimant takes the outcome. R43, R137 and R147 do not say whether the monitor is fed
before the claimant takes the outcome, and so which margin state an evaluation by PTS that the outcome brings
reads: the model feeds it first, its own choice (log 32). -/
def State.takeOutcome (s : State) (p : PortId) (o : Outstanding) (r : DriveReply) (st : DriveStatus) :
    State :=
  let s1 := (s.setPort p (s.port p).finish).returnToNormal p
  (s1.feedReply p o.claim r st).handOutcome p o.claimant (outcomeOf (s.port p) o.claim r st)

/-- The reply of the outstanding command is judged (R43, Table 3-2): a malformed one or a DRIVE_ERROR is a
port error; any other is an outcome. -/
def State.takeReply (s : State) (p : PortId) (o : Outstanding) (r : DriveReply) : State :=
  match replyStatus o.claim r with
  | none => s.portError p
  | some .driveError => s.portError p
  | some st => s.takeOutcome p o r st

/-! ### Media (R58, R59) -/

/-- A media drop (R58): JBU sends the port's jobs that are not terminal, SUSPENDED or WAIT_MEDIA to
WAIT_MEDIA, and RPU returns a record whose source or target lies on the port. -/
def State.mediaDrop (s : State) (p : PortId) : State :=
  let drops := (s.portJobs p).filter (fun i => match s.slot i with
    | some j => !decide (j.state = .suspended) && !decide (j.state = .waitMedia)
    | none => false)
  ((drops.foldl State.enterWaitMedia s).followUp p).rpuPortLost p

/-- A label read begins on a port (R56). -/
def State.beginLabel (s : State) (p : PortId) : State := s.modPort p Port.beginLabelRead

/-- MEDIA falls on a port that is not OFFLINE (R58). -/
def State.loseMedia (s : State) (p : PortId) : State :=
  (s.modPort p (fun q => { q.withdraw .label with volume := .noMedia })).mediaDrop p

/-- READY rises with MEDIA high on a port that is not OFFLINE (R59). -/
def State.rereadLabel (s : State) (p : PortId) : State :=
  match (s.port p).volume with
  | .mounted _ _ => (s.beginLabel p).mediaDrop p
  | _ => s.beginLabel p

/-! ### Lines (R44) -/

/-- A line changes level (R44): before start-up has set the port only its level changes (R62); then the
level and its delta flag are recorded, PORT_EVENT with cause LINE is queued, and the line's own rule acts.
A line that has the level already does not change (log 2). -/
def State.lineChange (s : State) (p : PortId) (k : Line) (b : Bool) (act : State → State) : State :=
  if (s.port p).lines.get k = b then s
  else if s.portsSet then
    settle (act ((s.modPort p (fun q => { q with
      lines := q.lines.put k b, delta := q.delta.put k true })).postPortEvent p .line))
  else s.modPort p (fun q => { q with lines := q.lines.put k b })

/-- Whether a port is OFFLINE. -/
def State.isOffline (s : State) (p : PortId) : Bool := decide ((s.port p).state = .offline)

/-- FAULT has risen (R53). -/
def State.faultRisen (s : State) (p : PortId) : State :=
  if s.isOffline p then s.modPort p (fun q => { q with cause := some .fault })
  else s.enterOffline p .fault

/-! ### Grants (R46 to R48, R78, R83) -/

/-- GNT rises (R46): a REQUESTING port is GRANTED; an IDLE port, whose request was dropped, enters
RELEASING with REQ low. -/
def Port.gntRisen (q : Port) : Port :=
  match q.grant with
  | .requesting => { q with gnt := true, grant := .granted }
  | .idle => { q with gnt := true, grant := .releasing, req := false }
  | .granted | .releasing => { q with gnt := true }

/-- The claimant of a cut command is told (R48, R78, R91, R129). -/
def State.tellCut (s : State) (p : PortId) (o : Outstanding) : State :=
  match o.claimant with
  | none => s
  | some .label =>
    if (s.port p).volume = .labelRead then s.modPort p (fun q => { q with labelClaim := true }) else s
  | some .rpu => s.rpuCut p o.claim
  | some .job =>
    match s.activeSlot p with
    | none => s
    | some i =>
      match s.slot i with
      | none => s
      | some j =>
        (if j.state = .suspending then s.modJob i (fun j => { j with state := .suspended })
         else s.enterWaiting i .yielded).followUp p

/-- GNT falls (R47, R48): the port is IDLE with REQ low; an outstanding command is a port error with YLD
low, and is cut with YLD high. -/
def State.gntFallen (s : State) (p : PortId) : State :=
  let q := s.port p
  let s1 := s.setPort p ({ q with gnt := false }).loseGrant
  match q.outstanding with
  | none => s1
  | some o =>
    if q.yld then (s1.modPort p Port.finish).tellCut p o else s1.portError p

/-- YLD rises, as the grant handshake takes it (R46, R47). -/
def Port.yldRisen (q : Port) : Port :=
  match q.grant with
  | .requesting => { q with yld := true, grant := .idle, req := false }
  | .granted => { q with yld := true, grant := .releasing, req := q.outstanding.isSome }
  | .idle | .releasing => { q with yld := true }

/-- YLD rises, as JBU takes it (R83): a RUNNING job whose claim is pending withdraws it and yields. -/
def State.jobYields (s : State) (p : PortId) : State :=
  match s.activeSlot p with
  | none => s
  | some i =>
    match s.slot i with
    | none => s
    | some j =>
      if decide (j.state = .running) && (s.port p).jobPending then
        (s.modPort p (fun q => q.withdraw .job)).enterWaiting i .yielded
      else s

/-- YLD falls, as JBU takes it (R83): a YIELDED job returns to RUNNING at a boundary. -/
def State.jobUnyields (s : State) (p : PortId) : State :=
  match s.activeSlot p with
  | none => s
  | some i =>
    match s.slot i with
    | none => s
    | some j =>
      if j.state = .yielded then
        ((s.modJob i (fun j => { j with state := .running })).boundary i).followUp p
      else s

/-! ### The meanings of the events of a port -/

/-- A reply is taken as the reply of the outstanding command when its tag equals that command's (R41); one with
another tag, or with no command outstanding, is discarded. -/
def State.offerReply (s : State) (p : PortId) (r : DriveReply) : State :=
  match (s.port p).outstanding with
  | none => s
  | some o => if r.tag.toNat = o.tag.toNat then settle (s.takeReply p o r) else s

/-- DRIVE_REPLY: the bytes of a whole reply arrive on the drive link of a port (R41, R43, Table 11-12). Bytes that
end within the record are no reply yet (log 13). -/
def execDriveReply (port : PortId) (reply : List Byte) (s : State) : Host.Outcome State Fault Refusal :=
  .next (match DriveReply.ofBytes reply with
    | none => s
    | some r => s.offerReply port r)

/-- COMMAND_TIMEOUT: the timeout of the outstanding command expires, which is a port error (R42, R51); with
none outstanding none runs (log 2). -/
def execCommandTimeout (port : PortId) (s : State) : Host.Outcome State Fault Refusal :=
  .next (match (s.port port).outstanding with
    | none => s
    | some _ => settle (s.portError port))

/-- READY_RISE (R44, R59). -/
def execReadyRise (port : PortId) (s : State) : Host.Outcome State Fault Refusal :=
  .next (s.lineChange port .ready true (fun t =>
    if (t.port port).lines.media && !t.isOffline port then t.rereadLabel port else t))

/-- READY_FALL: recorded, and no volume state changes (R44, R59). -/
def execReadyFall (port : PortId) (s : State) : Host.Outcome State Fault Refusal :=
  .next (s.lineChange port .ready false id)

/-- MEDIA_RISE (R44, R56). -/
def execMediaRise (port : PortId) (s : State) : Host.Outcome State Fault Refusal :=
  .next (s.lineChange port .media true (fun t =>
    if t.isOffline port then t else t.beginLabel port))

/-- MEDIA_FALL (R44, R58). -/
def execMediaFall (port : PortId) (s : State) : Host.Outcome State Fault Refusal :=
  .next (s.lineChange port .media false (fun t =>
    if t.isOffline port then t else t.loseMedia port))

/-- WPROT_RISE: the port's RPU hold clears (R44, R120). -/
def execWprotRise (port : PortId) (s : State) : Host.Outcome State Fault Refusal :=
  .next (s.lineChange port .wprot true (fun t => t.clearHold port))

/-- WPROT_FALL: the port's RPU hold clears, and RPU makes a choice (R44, R117, R120). -/
def execWprotFall (port : PortId) (s : State) : Host.Outcome State Fault Refusal :=
  .next (s.lineChange port .wprot false (fun t => rpuChoice (t.setHold port false)))

/-- FAULT_RISE (R44, R53). -/
def execFaultRise (port : PortId) (s : State) : Host.Outcome State Fault Refusal :=
  .next (s.lineChange port .fault true (fun t => t.faultRisen port))

/-- FAULT_FALL: recorded, and the port state stays (R44, R53). -/
def execFaultFall (port : PortId) (s : State) : Host.Outcome State Fault Refusal :=
  .next (s.lineChange port .fault false id)

/-- GNT_RISE (R46). Before start-up has set the port only the level changes (R62). -/
def execGntRise (port : PortId) (s : State) : Host.Outcome State Fault Refusal :=
  .next (
    if (s.port port).gnt then s
    else if s.portsSet then settle (s.modPort port Port.gntRisen)
    else s.modPort port (fun q => { q with gnt := true }))

/-- GNT_FALL (R47, R48). -/
def execGntFall (port : PortId) (s : State) : Host.Outcome State Fault Refusal :=
  .next (
    if !(s.port port).gnt then s
    else if s.portsSet then settle (s.gntFallen port)
    else s.modPort port (fun q => { q with gnt := false }))

/-- YLD_RISE (R46, R47, R83). -/
def execYldRise (port : PortId) (s : State) : Host.Outcome State Fault Refusal :=
  .next (
    if (s.port port).yld then s
    else if s.portsSet then settle ((s.modPort port Port.yldRisen).jobYields port)
    else s.modPort port (fun q => { q with yld := true }))

/-- YLD_FALL (R46, R83). -/
def execYldFall (port : PortId) (s : State) : Host.Outcome State Fault Refusal :=
  .next (
    if !(s.port port).yld then s
    else if s.portsSet then
      settle ((s.modPort port (fun q => { q with yld := false })).jobUnyields port)
    else s.modPort port (fun q => { q with yld := false }))

end Sys2Proof.Machine
end

