-- ==== Sys2Proof/Machine/PortRequests.lean ====
section
/-! DEFINITION. Requests on a port: PORT_CONFIG, PORT_STATUS, PORT_ONLINE, MARGIN_READ. -/

namespace Sys2Proof.Machine

open Sys2Proof

/-! ### PORT_CONFIG (R61, R145) -/

/-- The settings a PORT_CONFIG payload asks for, as taken (R61, R145, Table 11-3). -/
def settingsAsked (p : List Byte) : PortSettings :=
  clampSettings (field p 1 2) (field p 3 2) (field p 5 2) (field p 7 1) (field p 8 1)

/-- The five values taken (Table 11-15). -/
def PortSettings.fields (c : PortSettings) : List Byte :=
  le 2 c.timeout ++ le 2 c.threshold ++ le 2 c.hysteresis ++ u8 c.debounce ++ u8 c.filterShift

/-- PORT_CONFIG's action (R61, R145). -/
def portConfigAction (p : List Byte) (s : State) : Action :=
  match portOfNat (field p 0 1) with
  | none => .refuse .badArgument
  | some n =>
    .perform (s.modPort n (fun q => q.withSettings (settingsAsked p))) .ok (settingsAsked p).fields

/-- PORT_CONFIG (R61, R145). -/
def execPortConfig (s : State) : Host.Outcome State Fault Refusal :=
  .next (s.runRequest .portConfig portConfigAction)

/-! ### PORT_STATUS (R45) -/

/-- The outstanding command as PORT_STATUS carries it: a flag, kind, tag, address and count, all zero where
none is outstanding (Table 11-15 Note 1). -/
def outstandingFields : Option Outstanding → List Byte
  | none => u8 0 ++ u8 0 ++ u8 0 ++ le 5 0 ++ le 2 0
  | some o =>
    u8 1 ++ u8 (match o.claim.transfer with | .read _ => 1 | .write _ => 2) ++ flagByte o.tag
      ++ le 5 o.claim.address ++ le 2 o.claim.blocks

/-- PORT_STATUS' fields (R45, Table 11-15). -/
def Port.statusFields (q : Port) : List Byte :=
  q.lines.byte ++ q.delta.byte ++ u8 q.state.code ++ u8 (offlineCauseCode q.cause) ++ u8 q.grant.code
    ++ u8 (bit 0 q.req + bit 1 q.gnt + bit 2 q.yld) ++ u8 q.volume.code ++ q.volume.bytes
    ++ outstandingFields q.outstanding ++ le 2 q.settings.timeout

/-- PORT_STATUS' action (R45): the port's four delta flags clear. -/
def portStatusAction (p : List Byte) (s : State) : Action :=
  match portOfNat (field p 0 1) with
  | none => .refuse .badArgument
  | some n =>
    .perform (s.modPort n (fun q => { q with delta := Lines.allLow })) .ok (s.port n).statusFields

/-- PORT_STATUS (R45). -/
def execPortStatus (s : State) : Host.Outcome State Fault Refusal :=
  .next (s.runRequest .portStatus portStatusAction)

/-! ### PORT_ONLINE (R55) -/

/-- An OFFLINE port with FAULT low is brought back (R55): NORMAL, PORT_EVENT, and a label read where MEDIA
is high. -/
def State.bringOnline (s : State) (n : PortId) : State :=
  let s1 := (s.modPort n (fun q => { q with state := .normal, cause := none })).postPortEvent n .port
  if (s1.port n).lines.media then s1.beginLabel n else s1

/-- PORT_ONLINE's action (R55). -/
def portOnlineAction (p : List Byte) (s : State) : Action :=
  match portOfNat (field p 0 1) with
  | none => .refuse .badArgument
  | some n =>
    if s.isOffline n = false then .perform s .ok []
    else if (s.port n).lines.fault then .refuse .portOffline
    else .perform (settle (s.bringOnline n)) .ok []

/-- PORT_ONLINE (R55). -/
def execPortOnline (s : State) : Host.Outcome State Fault Refusal :=
  .next (s.runRequest .portOnline portOnlineAction)

/-! ### MARGIN_READ (R146) -/

/-- MARGIN_READ's fields (R146, Table 11-15). -/
def Port.marginFields (q : Port) : List Byte :=
  u8 q.margin.state.code ++ flagByte q.margin.seeded ++ le 2 q.margin.raw ++ le 2 q.margin.baseline
    ++ le 2 q.margin.difference ++ u8 q.margin.debounceCount ++ le 2 q.margin.windowSum
    ++ u8 q.margin.windowBlocks ++ le 2 q.settings.threshold ++ le 2 q.settings.hysteresis
    ++ u8 q.settings.debounce ++ u8 q.settings.filterShift

/-- MARGIN_READ's action (R146). -/
def marginReadAction (p : List Byte) (s : State) : Action :=
  match portOfNat (field p 0 1) with
  | none => .refuse .badArgument
  | some n => .perform s .ok (s.port n).marginFields

/-- MARGIN_READ (R146). -/
def execMarginRead (s : State) : Host.Outcome State Fault Refusal :=
  .next (s.runRequest .marginRead marginReadAction)

end Sys2Proof.Machine
end

