-- ==== Sys2Proof/Machine/JobRequests.lean ====
section
/-! DEFINITION. Requests on jobs: START_SCRUB, START_VERIFY, SUSPEND_JOB, RESUME_JOB, ABORT_JOB,
JOB_STATUS. -/

namespace Sys2Proof.Machine

open Sys2Proof

/-! ### START_SCRUB (R87, R88) -/

/-- The range of a START_SCRUB (R87 steps 3 to 5): kind, start and end index, or the status of the first
check that fails. Forms: 0 WHOLE, 1 INDEX, 2 TIMECODE (Table 11-9). -/
def scrubRange (e : StoredEntry) (p : List Byte) : Except Status (JobKind × Nat × Nat) :=
  match field p 3 1 with
  | 0 => .ok (.reelScrub, 0, e.frameCount - 1)
  | 1 =>
    let a := field p 4 4
    let b := field p 8 4
    if e.frameCount ≤ a ∨ e.frameCount ≤ b then .error .outOfReel
    else if b < a then .error .badArgument
    else .ok (.rangeScrub, a, b)
  | 2 =>
    match timecodeToIndex e.rate e.start (timecodeAt p 12) e.frameCount with
    | .error st => .error st
    | .ok a =>
      match timecodeToIndex e.rate e.start (timecodeAt p 16) e.frameCount with
      | .error st => .error st
      | .ok b => if b < a then .error .badArgument else .ok (.rangeScrub, a, b)
  | _ => .error .badArgument

/-- The copy a START_SCRUB names (R87 step 2). -/
def copyAsked (e : StoredEntry) (byte : Nat) : Option (CopyId × CopyDesc) :=
  match CopyId.ofCode byte with
  | none => none
  | some k => (e.copy k).map (fun c => (k, c))

/-- A REQUESTED job is created in a slot (R88, R89), and its port's queue is looked at (R71, R95). -/
def State.startJob (s : State) (i : SlotId) (j : Job) : State :=
  settle ((s.createJob i j).followUp j.port)

/-- START_SCRUB's action (R87, R88). -/
def startScrubAction (p : List Byte) (s : State) : Action :=
  match s.namedEntry (field p 0 2) with
  | none => .refuse .noSuchReel
  | some e =>
    match copyAsked e.toStoredEntry (field p 2 1) with
    | none => .refuse .badArgument
    | some (k, c) =>
      match scrubRange e.toStoredEntry p with
      | .error st => .refuse st
      | .ok (kind, first, last) =>
        if s.copyTargeted ⟨e.reel, k⟩ then .refuse .reelBusy
        else if s.isOffline c.port then .refuse .portOffline
        else match s.findSlot with
          | none => .refuse .noSlot
          | some i =>
            .perform
              (s.startJob i (newJob (s.idFor i) kind .requested (some ⟨e.reel, k⟩) c.port first
                (some last)))
              .accepted (le 2 (s.idFor i))

/-- START_SCRUB (R87, R88). -/
def execStartScrub (s : State) : Host.Outcome State Fault Refusal :=
  .next (s.runRequest .startScrub startScrubAction)

/-! ### START_VERIFY (R89) -/

/-- Whether a non-terminal verify is on a port (R89 step 3). -/
def State.verifyOn (s : State) (n : PortId) : Bool :=
  !(s.slotsWhere (fun j => decide (j.port = n) && j.live && decide (j.kind = .volumeVerify))).isEmpty

/-- START_VERIFY's action (R89): the new job is bound at its creation where the volume is MOUNTED (R79). -/
def startVerifyAction (p : List Byte) (s : State) : Action :=
  match portOfNat (field p 0 1) with
  | none => .refuse .badArgument
  | some n =>
    if s.isOffline n then .refuse .portOffline
    else if s.verifyOn n then .refuse .busy
    else match s.findSlot with
      | none => .refuse .noSlot
      | some i =>
        .perform (s.startJob i (newJob (s.idFor i) .volumeVerify .requested none n 1 none))
          .accepted (le 2 (s.idFor i))

/-- START_VERIFY (R89). -/
def execStartVerify (s : State) : Host.Outcome State Fault Refusal :=
  .next (s.runRequest .startVerify startVerifyAction)

/-! ### Requests that name a job -/

/-- The slot that holds the job of an id, with the job. -/
def State.jobNamed (s : State) (id : Nat) : Option (SlotId × Job) :=
  match s.slotsWhere (fun j => decide (j.id = id)) with
  | [] => none
  | i :: _ => (s.slot i).map (fun j => (i, j))

/-- A RUNNING job is suspended (R90, R91): SUSPENDING while its command is outstanding; else its pending claim
is withdrawn and it enters SUSPENDED. -/
def State.suspend (s : State) (i : SlotId) (j : Job) : State :=
  if (s.port j.port).jobOutstanding then s.modJob i (fun j => { j with state := .suspending })
  else ((s.withdrawJob j).modJob i (fun j => { j with state := .suspended })).followUp j.port

/-- SUSPEND_JOB's action (R90). -/
def suspendJobAction (p : List Byte) (s : State) : Action :=
  match s.jobNamed (field p 0 2) with
  | none => .refuse .noSuchJob
  | some (i, j) =>
    if j.kind = .volumeVerify then .perform s .ignored []
    else if j.state ≠ .running then .refuse .notRunning
    else if j.resumedEver = true ∧ j.sinceResume < 16 then .refuse .tooSoon
    else .perform (settle (s.suspend i j)) .ok []

/-- SUSPEND_JOB (R90, R91). -/
def execSuspendJob (s : State) : Host.Outcome State Fault Refusal :=
  .next (s.runRequest .suspendJob suspendJobAction)

/-- A SUSPENDED job is resumed (R92). -/
def State.resume (s : State) (i : SlotId) (j : Job) : State :=
  ((s.modJob i (fun j => { j with sinceResume := 0, resumedEver := true })).enterQueued i).followUp j.port

/-- RESUME_JOB's action (R92). -/
def resumeJobAction (p : List Byte) (s : State) : Action :=
  match s.jobNamed (field p 0 2) with
  | none => .refuse .noSuchJob
  | some (i, j) =>
    if j.state ≠ .suspended then .refuse .notSuspended
    else .perform (settle (s.resume i j)) .ok []

/-- RESUME_JOB (R92). -/
def execResumeJob (s : State) : Host.Outcome State Fault Refusal :=
  .next (s.runRequest .resumeJob resumeJobAction)

/-- A non-terminal job is aborted (R93). -/
def State.abort (s : State) (i : SlotId) (j : Job) : State :=
  (((s.withdrawJob j).dropWork i).endJob i .aborted .aborted).followUp j.port

/-- ABORT_JOB's action (R93). -/
def abortJobAction (p : List Byte) (s : State) : Action :=
  match s.jobNamed (field p 0 2) with
  | none => .refuse .noSuchJob
  | some (i, j) =>
    if j.state.terminal then .refuse .notRunning
    else .perform (settle (s.abort i j)) .ok []

/-- ABORT_JOB (R93). -/
def execAbortJob (s : State) : Host.Outcome State Fault Refusal :=
  .next (s.runRequest .abortJob abortJobAction)

/-! ### JOB_STATUS (R94) -/

/-- The flag byte of JOB_STATUS (Table 11-15 Note 2). -/
def Job.flags (j : Job) : List Byte :=
  u8 (bit 0 j.rangeEnd.isSome + bit 1 j.manifest.isSome + bit 2 j.finding.isSome + bit 3 j.resumedEver
    + bit 4 j.volume.isSome)

/-- The bound volume of a verify, zero where there is none (R192, R194). -/
def Job.volumeBytes (j : Job) : List Byte :=
  match j.volume with
  | some (v, n) => le 4 v.toNat ++ le 5 n
  | none => le 4 0 ++ le 5 0

/-- The range start as JOB_STATUS sends it; none for an unbound verify (R94). -/
def Job.rangeStartSent (j : Job) : Nat := if j.rangeEnd.isSome then j.rangeStart else 0

/-- JOB_STATUS' fields (R94, Table 11-15). -/
def Job.statusFields (j : Job) : List Byte :=
  le 2 j.id ++ u8 j.kind.code ++ u8 j.origin.code ++ j.targetBytes ++ u8 j.port.val ++ u8 j.state.code
    ++ u8 (endReasonCode j.endReason) ++ j.flags ++ le 5 j.rangeStartSent ++ le 5 (j.rangeEnd.getD 0)
    ++ cursorBytes j.cursor ++ le 4 j.sequence ++ le 2 ((j.manifest.map (·.index)).getD 0) ++ j.counts
    ++ le 4 j.sinceResume ++ j.volumeBytes

/-- JOB_STATUS' action (R94): a terminal job's slot is freed. -/
def jobStatusAction (p : List Byte) (s : State) : Action :=
  match s.jobNamed (field p 0 2) with
  | none => .refuse .noSuchJob
  | some (i, j) =>
    .perform (if j.state.terminal then s.setSlot i none else s) .ok j.statusFields

/-- JOB_STATUS (R94). -/
def execJobStatus (s : State) : Host.Outcome State Fault Refusal :=
  .next (s.runRequest .jobStatus jobStatusAction)

end Sys2Proof.Machine
end

