-- ==== Sys2Proof/Machine/DefectRequests.lean ====
section
/-! DEFINITION. Requests on the defect list: READ_DEFECTS, REMOVE_DEFECT with stall admission (R106),
RETRY_DEFECT. -/

namespace Sys2Proof.Machine

open Sys2Proof

/-- The record a request names by its defect id; 0 names none (R110). -/
def State.namedRecord (s : State) (id : Nat) : Option Record := if id = 0 then none else s.record id

/-! ### READ_DEFECTS (R109) -/

/-- The records from a start position on, at most eight (R109). -/
def State.recordsFrom (s : State) (start : Nat) : List Record := (s.dfl.records.drop start).take 8

/-- READ_DEFECTS' action (R109, 11.5). -/
def readDefectsAction (p : List Byte) (s : State) : Action :=
  let start := field p 0 2
  if 256 ≤ start then .refuse .badArgument
  else .perform s .ok
    (le 2 s.dfl.records.length ++ u8 s.dfl.stallOrder.length ++ le 2 start
      ++ u8 (s.recordsFrom start).length ++ (s.recordsFrom start).flatMap Record.bytes)

/-- READ_DEFECTS (R109). -/
def execReadDefects (s : State) : Host.Outcome State Fault Refusal :=
  .next (s.runRequest .readDefects readDefectsAction)

/-! ### REMOVE_DEFECT and stall admission (R106, R110) -/

/-- The pending finding of the job in a slot. -/
def State.pendingFinding (s : State) (i : SlotId) : Option Finding := (s.slot i).bind (·.finding)

/-- Stall admission (R106): the front job's finding is judged; a duplicate leaves the place free for the
next job, and an added finding ends the admission. The answer lists the jobs admitted, each with its
finding. -/
def State.admitStalled : Nat → State → List (SlotId × Finding) → State × List (SlotId × Finding)
  | 0, s, told => (s, told)
  | fuel + 1, s, told =>
    match s.dfl.stallOrder with
    | [] => (s, told)
    | i :: _ =>
      match s.pendingFinding i with
      | none => State.admitStalled fuel (s.leaveStall i) told
      | some f =>
        match s.takeFinding f with
        | (.full, s1) => (s1, told)
        | (.duplicate, s1) => State.admitStalled fuel (s1.leaveStall i) (told ++ [(i, f)])
        | (.added, s1) => (s1.leaveStall i, told ++ [(i, f)])

/-- An admitted job goes on (R84): its finding is completed; with YLD low it is RUNNING and at a boundary, with
YLD high it is YIELDED. -/
def State.goOn (s : State) (x : SlotId × Finding) : State :=
  match s.slot x.1 with
  | none => s
  | some j =>
    if j.state = .stalled then
      let s1 := s.modJob x.1 (fun j => { (j.completeFinding x.2) with finding := none })
      (if (s1.port j.port).yld then s1.enterWaiting x.1 .yielded
       else (s1.modJob x.1 (fun j => { j with state := .running })).boundary x.1).followUp j.port
    else s

/-- A record leaves the list (R97). -/
def State.dropRecord (s : State) (id : Nat) : State :=
  { s with dfl := { s.dfl with records := s.dfl.records.eraseP (fun r => decide (r.id = id)) } }

/-- What a removal that leaves 255 records brings (R106): admission, and then each admitted job goes on
(log 21). -/
def State.admission (s : State) : State :=
  if s.dfl.records.length = Config.defectCapacity - 1 then
    let r := State.admitStalled s.dfl.stallOrder.length s []
    r.2.foldl State.goOn r.1
  else s

/-- A terminal record is removed (R110): admission, then PTS evaluates the record's port. -/
def State.removeRecord (s : State) (r : Record) : State :=
  settle ((s.dropRecord r.id).admission.evaluate r.port)

/-- REMOVE_DEFECT's action (R110). -/
def removeDefectAction (p : List Byte) (s : State) : Action :=
  match s.namedRecord (field p 0 2) with
  | none => .refuse .noSuchDefect
  | some r =>
    if r.state.terminal then .perform (s.removeRecord r) .ok [] else .refuse .notTerminal

/-- REMOVE_DEFECT (R106, R110). -/
def execRemoveDefect (s : State) : Host.Outcome State Fault Refusal :=
  .next (s.runRequest .removeDefect removeDefectAction)

/-! ### RETRY_DEFECT (R111, R112) -/

/-- Whether a non-terminal record carries the key of a record (R111 step 4). -/
def State.keyLive (s : State) (r : Record) : Bool := s.dfl.records.any (fun x => x.matchesKey r.place)

/-- A record put back into the non-terminal states (R112): HELD or PENDING by its reel's lock, no attempts, no
detail; RPU is told of a record now PENDING. -/
def State.retryRecord (s : State) (r : Record) : State :=
  let st := s.createdState r.place
  let s1 := s.modRecord r.id (fun r => { r with state := st, attempts := 0, detail := none })
  settle (if st = .pending then rpuChoice s1 else s1)

/-- RETRY_DEFECT's action (R111, R112). -/
def retryDefectAction (p : List Byte) (s : State) : Action :=
  match s.namedRecord (field p 0 2) with
  | none => .refuse .noSuchDefect
  | some r =>
    if r.state = .noted then .refuse .badArgument
    else if r.state ≠ .lost ∧ r.state ≠ .repairFailed then .refuse .notTerminal
    else if s.keyLive r then .refuse .reelBusy
    else .perform (s.retryRecord r) .ok (u8 (s.createdState r.place).code)

/-- RETRY_DEFECT (R111, R112). -/
def execRetryDefect (s : State) : Host.Outcome State Fault Refusal :=
  .next (s.runRequest .retryDefect retryDefectAction)

end Sys2Proof.Machine
end

