-- ==== Sys2Proof/Machine/Dispatch.lean ====
section
/-! DEFINITION. The meaning of every command, one arm per constructor of `Instr`. -/

namespace Sys2Proof.Machine

open Sys2Proof

/-- What a command does to the state (everything but the queue of waiting commands). -/
def exec (i : Instr) (s : State) : Host.Outcome State Fault Refusal :=
  match i with
  | .powerOnResetAssert => Sys2Proof.Machine.execPowerOnResetAssert s
  | .powerOnResetRelease => Sys2Proof.Machine.execPowerOnResetRelease s
  | .resetPinAssert => Sys2Proof.Machine.execResetPinAssert s
  | .resetPinRelease => Sys2Proof.Machine.execResetPinRelease s
  | .startUpEnd => Sys2Proof.Machine.execStartUpEnd s
  | .receiveFrame bytes => Sys2Proof.Machine.execReceiveFrame bytes s
  | .badByteInHunt => Sys2Proof.Machine.execBadByteInHunt s
  | .gapTimerExpiry => Sys2Proof.Machine.execGapTimerExpiry s
  | .frameSent => Sys2Proof.Machine.execFrameSent s
  | .unknownRequest => Sys2Proof.Machine.execUnknownRequest s
  | .identify => Sys2Proof.Machine.execIdentify s
  | .status => Sys2Proof.Machine.execStatus s
  | .setMode => Sys2Proof.Machine.execSetMode s
  | .setTime => Sys2Proof.Machine.execSetTime s
  | .setNotices => Sys2Proof.Machine.execSetNotices s
  | .reset => Sys2Proof.Machine.execReset s
  | .portConfig => Sys2Proof.Machine.execPortConfig s
  | .portStatus => Sys2Proof.Machine.execPortStatus s
  | .portOnline => Sys2Proof.Machine.execPortOnline s
  | .marginRead => Sys2Proof.Machine.execMarginRead s
  | .addReel => Sys2Proof.Machine.execAddReel s
  | .editReel => Sys2Proof.Machine.execEditReel s
  | .removeReel => Sys2Proof.Machine.execRemoveReel s
  | .readReel => Sys2Proof.Machine.execReadReel s
  | .listReels => Sys2Proof.Machine.execListReels s
  | .freezeReel => Sys2Proof.Machine.execFreezeReel s
  | .lockReel => Sys2Proof.Machine.execLockReel s
  | .unlockReel => Sys2Proof.Machine.execUnlockReel s
  | .lockAll => Sys2Proof.Machine.execLockAll s
  | .unlockAll => Sys2Proof.Machine.execUnlockAll s
  | .convert => Sys2Proof.Machine.execConvert s
  | .startScrub => Sys2Proof.Machine.execStartScrub s
  | .startVerify => Sys2Proof.Machine.execStartVerify s
  | .suspendJob => Sys2Proof.Machine.execSuspendJob s
  | .resumeJob => Sys2Proof.Machine.execResumeJob s
  | .abortJob => Sys2Proof.Machine.execAbortJob s
  | .jobStatus => Sys2Proof.Machine.execJobStatus s
  | .setPatrol => Sys2Proof.Machine.execSetPatrol s
  | .readDefects => Sys2Proof.Machine.execReadDefects s
  | .removeDefect => Sys2Proof.Machine.execRemoveDefect s
  | .retryDefect => Sys2Proof.Machine.execRetryDefect s
  | .store => Sys2Proof.Machine.execStore s
  | .restoreFactory => Sys2Proof.Machine.execRestoreFactory s
  | .storeEnds finish => Sys2Proof.Machine.execStoreEnds finish s
  | .minuteExpiry => Sys2Proof.Machine.execMinuteExpiry s
  | .driveReply port reply => Sys2Proof.Machine.execDriveReply port reply s
  | .commandTimeout port => Sys2Proof.Machine.execCommandTimeout port s
  | .readyRise port => Sys2Proof.Machine.execReadyRise port s
  | .readyFall port => Sys2Proof.Machine.execReadyFall port s
  | .mediaRise port => Sys2Proof.Machine.execMediaRise port s
  | .mediaFall port => Sys2Proof.Machine.execMediaFall port s
  | .wprotRise port => Sys2Proof.Machine.execWprotRise port s
  | .wprotFall port => Sys2Proof.Machine.execWprotFall port s
  | .faultRise port => Sys2Proof.Machine.execFaultRise port s
  | .faultFall port => Sys2Proof.Machine.execFaultFall port s
  | .gntRise port => Sys2Proof.Machine.execGntRise port s
  | .gntFall port => Sys2Proof.Machine.execGntFall port s
  | .yldRise port => Sys2Proof.Machine.execYldRise port s
  | .yldFall port => Sys2Proof.Machine.execYldFall port s

end Sys2Proof.Machine
end

