-- ==== Sys2Proof/Machine/Step.lean ====
section
/-! DEFINITION. One step: the command at the front of the queue of waiting commands. -/

namespace Sys2Proof.Machine

open Sys2Proof

/-- With no command waiting, the part idles, but for a start-up in progress: once no reset is asserted it
takes steps 2 to 4 of R187 (log 4). -/
def idle (s : State) : State :=
  if s.mode = .starting ∧ s.resetHeld = false ∧ s.portsSet = false then settle s.startUpLoad else s

/-- Take the command at the front of the queue and run its meaning with the queue's rest. -/
def step (s : State) : Host.Outcome State Fault Refusal :=
  match s.pending with
  | [] => .next (idle s)
  | c :: rest => exec c { s with pending := rest }

/-- The state with the command that a word spells at the front of its queue; no word spells one. -/
def State.withFetchWord (s : State) (nbits w : Nat) : State :=
  match decodeTableWord nbits w with
  | some c => { s with pending := c :: s.pending }
  | none => s

end Sys2Proof.Machine
end

