-- ==== Sys2Proof/Safety.lean ====
section
/-! DEFINITION. What every step keeps: the invariants of the link, the ports, the jobs, the defect list, the
catalogue, the clock and the stores, and the conditions under which a request runs. -/

namespace Sys2Proof.Machine

open Sys2Proof

/-! ### The control link (R164, R166, R167, R171, R172) -/

/-- The framer holds what its phase allows (Table 9-2): fewer than two length bytes, fewer body bytes than a
length in range, a whole body with fewer than four check bytes. -/
def Framer.bounded : Framer → Prop
  | .hunt => True
  | .length got => got.length < 2
  | .body n got => 2 ≤ n ∧ n ≤ 1026 ∧ got.length < n
  | .check whole got => 2 ≤ whole.length ∧ whole.length ≤ 1026 ∧ got.length < 4

/-- Requests with their reply formed stand ahead of those without (R166). -/
def repliedFirst : List Request → Prop
  | [] => True
  | r :: rest => (r.replied = false → ∀ x ∈ rest, x.replied = false) ∧ repliedFirst rest

/-- Ordinary replies formed and not yet sent whole: those in the reply list and the one being sent. -/
def Link.ordinaryOwed (l : Link) : Nat :=
  l.replies.countP (fun r => decide (r.source = .ordinary))
    + match l.sending with
      | some (.reply r) => if r.source = .ordinary then 1 else 0
      | _ => 0

/-- The link is sound: capacities hold, each request with a formed reply keeps its place until that reply has
been sent, the transmitter is IDLE only with nothing waiting, and no posted notice is left over. -/
structure Link.Sound (l : Link) : Prop where
  framer : l.framer.bounded
  queue : l.queue.length ≤ Config.requestCapacity
  overflow : l.overflowWaiting ≤ Config.overflowCapacity
  notices : l.notices.length ≤ Config.noticeCapacity
  order : repliedFirst l.queue
  owed : l.ordinaryOwed = l.queue.countP (fun r => r.replied)
  working : l.sending = none → l.replies = [] ∧ l.notices = []
  posted : l.posted = []

/-! ### Ports (R54) -/

/-- Nothing is asked of an OFFLINE port (R54): no command, no claim, REQ low, NO_MEDIA. -/
structure Port.Quiet (q : Port) : Prop where
  command : q.outstanding = none
  claims : q.hasClaims = false
  req : q.req = false
  volume : q.volume = .noMedia

/-- Every OFFLINE port is quiet (R54). -/
def State.OfflineQuiet (s : State) : Prop := ∀ p, (s.port p).state = .offline → (s.port p).Quiet

/-! ### Jobs and repair (R66, R178) -/

/-- Each port has at most one active job (R66). -/
def State.OneActive (s : State) : Prop :=
  ∀ i k j l, s.slot i = some j → s.slot k = some l → j.state.active = true → l.state.active = true →
    j.port = l.port → i = k

/-- Outside RUN every job is terminal and RPU is IDLE (R178). -/
def State.QuietOutsideRun (s : State) : Prop :=
  s.mode ≠ .run → (∀ i j, s.slot i = some j → j.state.terminal = true) ∧ s.rpu.phase = .idle

/-! ### The defect list (R97, R104) -/

/-- The list holds at most 256 records (R97), and 256 while a job is stalled (R104). -/
structure Dfl.Sound (d : Dfl) : Prop where
  capacity : d.records.length ≤ Config.defectCapacity
  stalled : d.stallOrder ≠ [] → d.records.length = Config.defectCapacity

/-! ### The catalogue (R20, R22) -/

/-- Entries in strictly ascending order of reel number: no number twice (R22). -/
def ascending : List Entry → Prop
  | [] => True
  | e :: rest => (∀ x ∈ rest, e.reel < x.reel) ∧ ascending rest

/-- The catalogue is sound: at most 512 entries, reel numbers 1 to 65,535, none twice (R20, R22). -/
structure State.CatSound (s : State) : Prop where
  capacity : s.cat.length ≤ Config.catalogueCapacity
  numbers : ∀ e ∈ s.cat, 1 ≤ e.reel ∧ e.reel ≤ Config.word16Max
  unique : ascending s.cat

/-! ### The clock and the stores (R150, R184) -/

/-- The clock lies in its range, and reads 0 while it is not set (R150). -/
structure Pts.Sound (p : Pts) : Prop where
  range : p.clock ≤ Config.word32Max
  unset : p.clockSet = false → p.clock = 0

/-- While a store is WRITING its target slot is INVALID (R184 step 4). -/
def Siu.Sound (u : Siu) : Prop := ∀ j, u.store = some j → u.slots[j.slot].condition = .invalid

/-! ### When a request runs (R170) -/

/-- RQH takes up request `r` of kind `k`, and its generic checks pass (R170). -/
structure State.Takes (s : State) (k : RequestKind) (r : Request) : Prop where
  front : s.link.nextRequest = some r
  kind : r.kind.toNat = k.code
  length : r.payload.length = k.length
  mode : k.takenIn s.mode = true
  running : s.resetAsked = false

/-- The row of the table that executes a request kind (Table 9-7). -/
def RequestKind.command : RequestKind → Instr
  | .identify => .identify | .status => .status | .setMode => .setMode | .setTime => .setTime
  | .setNotices => .setNotices | .reset => .reset | .portConfig => .portConfig
  | .portStatus => .portStatus | .portOnline => .portOnline | .marginRead => .marginRead
  | .addReel => .addReel | .editReel => .editReel | .removeReel => .removeReel
  | .readReel => .readReel | .listReels => .listReels | .freezeReel => .freezeReel
  | .lockReel => .lockReel | .unlockReel => .unlockReel | .lockAll => .lockAll
  | .unlockAll => .unlockAll | .convert => .convert | .startScrub => .startScrub
  | .startVerify => .startVerify | .suspendJob => .suspendJob | .resumeJob => .resumeJob
  | .abortJob => .abortJob | .jobStatus => .jobStatus | .setPatrol => .setPatrol
  | .readDefects => .readDefects | .removeDefect => .removeDefect | .retryDefect => .retryDefect
  | .store => .store | .restoreFactory => .restoreFactory

/-- Bytes that arrive with their stop bits high. -/
def received (bytes : List Byte) : List RxByte := bytes.map (fun b => ⟨b, true⟩)

/-! ### After a reset (R189, Table 10-4) -/

/-- A port after a reset (R62): REQ low, no command, no claim, next tag 0, NO_MEDIA, delta flags clear, the
monitor cleared, the input lines as they were. -/
structure Port.ResetFrom (q0 q : Port) : Prop where
  req : q.req = false
  command : q.outstanding = none
  claims : q.hasClaims = false
  tag : q.nextTag = false
  volume : q.volume = .noMedia
  delta : q.delta = Lines.allLow
  margin : q.margin = Margin.cleared
  engine : q.engine = DigestEngine.idle
  lines : q.lines = q0.lines
  gnt : q.gnt = q0.gnt
  yld : q.yld = q0.yld

/-- What a reset leaves (R189, R191, Table 10-4): the image slots kept, any store cut off, everything else of
the running state gone. -/
structure State.ResetFrom (s t : State) : Prop where
  mode : t.mode = .starting
  link : t.link = Link.cleared
  cat : t.cat = []
  jobs : ∀ i, t.slot i = none
  counters : t.jbu.nextId = 1 ∧ t.jbu.sequence = 0 ∧ t.jbu.endOrder = 0
  records : t.dfl.records = [] ∧ t.dfl.stallOrder = [] ∧ t.dfl.nextId = 1
  repair : t.rpu.phase = .idle ∧ t.rpu.record = none ∧ t.rpu.filled = false
  holds : ∀ p, t.held p = false
  slots : t.siu.slots = s.siu.slots
  store : t.siu.store = none
  timer : t.pts.timerRunning = false
  ports : ∀ p, Port.ResetFrom (s.port p) (t.port p)

/-! ### All invariants -/

/-- Every invariant above at once. -/
structure State.Sound (s : State) : Prop where
  link : s.link.Sound
  offline : s.OfflineQuiet
  active : s.OneActive
  outside : s.QuietOutsideRun
  defects : s.dfl.Sound
  catalogue : s.CatSound
  clock : s.pts.Sound
  stores : s.siu.Sound

/-! ### Blocks of a copy (R1, R3, R23) -/

/-- A block lies in the frame area of a copy (R1). -/
def inFrameArea (e : StoredEntry) (c : CopyDesc) (n : Nat) : Prop :=
  c.firstFrameBlock ≤ n ∧ n < c.firstFrameBlock + e.frameCount * blocksPerFrame e.frameBytes

/-- A block lies in the manifest area of a copy (R3). -/
def inManifestArea (e : StoredEntry) (c : CopyDesc) (n : Nat) : Prop :=
  c.manifestBlock ≤ n ∧ n < c.manifestBlock + manifestLength e.frameCount

/-- A block lies in the copy area of a copy (section 2.2). -/
def inCopyArea (e : StoredEntry) (c : CopyDesc) (n : Nat) : Prop :=
  inFrameArea e c n ∨ inManifestArea e c n

/-! ### The margin monitor (R144) -/

/-- What a fed reply queues (R144): MARGIN exactly where the margin state changes. -/
def marginQueued (s : State) (p : PortId) (n b : Nat) : Prop :=
  let q := s.port p
  let m := q.margin.feed q.settings n b
  s.feedMargin p n b =
    if m.state = q.margin.state then s.setPort p { q with margin := m }
    else (s.setPort p { q with margin := m }).post (marginNotice p q.settings m)

end Sys2Proof.Machine
end

