-- ==== Sys2Proof/Certificates/Slice0/Obligations.lean ====
section
/-! DEFINITION. The statements for the provers. A derived statement cites sections; a stated one quotes its
rule in OBLIGATIONS.json. -/

section
open Sys2Proof Sys2Proof.Machine

/-! ### The machine -/

/-- A step is the command at the front of the queue, run on the state with the queue's rest. -/
def Obligations.StepRunsFrontCommand : Prop :=
  ∀ (c : Instr) (rest : List Instr) (s : State),
    step { s with pending := c :: rest } = exec c { s with pending := rest }

/-- With no command waiting the part idles; a start-up in progress takes steps 2 to 4 of R187 (the model's
choice, log 4). -/
def Obligations.EmptyQueueIdles : Prop :=
  ∀ s : State, s.pending = [] →
    ((s.mode ≠ .starting ∨ s.resetHeld = true ∨ s.portsSet = true) → step s = .next s) ∧
    (s.mode = .starting → s.resetHeld = false → s.portsSet = false →
      step s = .next (settle s.startUpLoad))

/-- Every command answers a next state with the queue of waiting commands as it was (log 28). -/
def Obligations.EveryCommandAnswers : Prop :=
  ∀ (c : Instr) (s : State), ∃ t, exec c s = .next t ∧ t.pending = s.pending

/-- The state after a power-on reset: as every reset leaves the part, with the clock 0 and not set, and
every invariant holds in it. -/
def Obligations.ResetStateIsSound : Prop :=
  State.reset.ResetFrom State.reset ∧ State.reset.pts.clock = 0 ∧ State.reset.pts.clockSet = false ∧
    State.reset.resetHeld = false ∧ State.reset.alert = false ∧ State.reset.pending = [] ∧
    State.reset.Sound

/-! ### What every step keeps -/

/-- Every step keeps the link sound: capacities, places held until replies are sent, order of requests, an
idle transmitter only with nothing waiting (R164, R166, R167, R171, R172). -/
def Obligations.StepKeepsLinkSound : Prop :=
  ∀ s t : State, s.link.Sound → step s = .next t → t.link.Sound

/-- Every step keeps OFFLINE ports quiet: no command, no claim, REQ low, NO_MEDIA (R54). -/
def Obligations.StepKeepsOfflinePortsQuiet : Prop :=
  ∀ s t : State, s.OfflineQuiet → step s = .next t → t.OfflineQuiet

/-- Every step keeps at most one active job on each port (R66). -/
def Obligations.StepKeepsOneActiveJob : Prop :=
  ∀ s t : State, s.OneActive → step s = .next t → t.OneActive

/-- Every step keeps jobs terminal and RPU IDLE outside RUN (R178). -/
def Obligations.StepKeepsQuietOutsideRun : Prop :=
  ∀ s t : State, s.QuietOutsideRun → step s = .next t → t.QuietOutsideRun

/-- Every step keeps the defect list at 256 records or fewer, and at 256 while a job is stalled (R97,
R104). -/
def Obligations.StepKeepsDefectListSound : Prop :=
  ∀ s t : State, s.dfl.Sound → step s = .next t → t.dfl.Sound

/-- Every step keeps the catalogue at 512 entries or fewer, with reel numbers 1 to 65,535 and no number twice (R20,
R22). The entries stand in ascending order of reel number, which is the model's choice (log 20): R22 gives the
catalogue no order. -/
def Obligations.StepKeepsCatalogueSound : Prop :=
  ∀ s t : State, s.CatSound → step s = .next t → t.CatSound

/-- Every step keeps the clock in its range, and 0 while it is not set (R150), and the target slot of a store in
progress INVALID (R184). -/
def Obligations.StepKeepsClockAndStoreSound : Prop :=
  (∀ s t : State, s.pts.Sound → step s = .next t → t.pts.Sound) ∧
  (∀ s t : State, s.siu.Sound → step s = .next t → t.siu.Sound)

/-! ### The link -/

/-- Received frames (R163, R164): a whole frame with its length and check right, taken in HUNT, passes the link check;
one with a wrong check, or with a length out of range, is discarded and sets the link-error flag. A bad byte
(R162, R165) and a gap outside HUNT set it too; while a reset is asserted no byte is taken (R189). -/
def Obligations.FramesJudged : Prop :=
  (∀ (s : State) (kind tag : Byte) (payload : List Byte),
     s.resetHeld = false → s.link.framer = .hunt → payload.length ≤ 1024 →
     exec (.receiveFrame (received (frameOf (kind :: tag :: payload)))) s =
       .next { s with link := s.link.takeRequest kind tag payload }) ∧
  (∀ s : State, s.resetHeld = false → s.link.framer = .hunt →
     (∀ body check : List Byte, 2 ≤ body.length → body.length ≤ 1026 → check.length = 4 →
       unle check ≠ (digest body).toNat →
       exec (.receiveFrame (received (0xA5#8 :: (le 2 body.length ++ body ++ check)))) s =
         .next { s with link := { s.link with linkError := true } }) ∧
     (∀ n : Nat, n < 65536 → (n < 2 ∨ 1026 < n) →
       exec (.receiveFrame (received (0xA5#8 :: le 2 n))) s =
         .next { s with link := { s.link with linkError := true } })) ∧
  (∀ s : State,
     (s.resetHeld = false → exec .badByteInHunt s =
       .next { s with link := { s.link with framer := .hunt, linkError := true } }) ∧
     (s.link.framer ≠ .hunt → exec .gapTimerExpiry s =
       .next { s with link := { s.link with framer := .hunt, linkError := true } }) ∧
     (s.link.framer = .hunt → exec .gapTimerExpiry s = .next s) ∧
     (s.resetHeld = true → exec .badByteInHunt s = .next s ∧
       ∀ bytes, exec (.receiveFrame bytes) s = .next s))

/-- A request that passes the link check: Table 9-3. -/
def Obligations.RequestTakenByTable93 : Prop :=
  ∀ (l : Link) (kind tag : Byte) (payload : List Byte),
    (l.queue.length < 4 → l.takeRequest kind tag payload =
      { l with framer := .hunt, queue := l.queue ++ [⟨kind, tag, payload, false⟩] }) ∧
    (4 ≤ l.queue.length → l.overflowWaiting < 8 → l.sending ≠ none →
      l.takeRequest kind tag payload =
        { l with framer := .hunt
                 replies := l.replies ++ [⟨.overflow, kind + 0x80#8, tag, .busy, [], false⟩] }) ∧
    (4 ≤ l.queue.length → l.sending = none → l.replies = [] →
      l.takeRequest kind tag payload =
        { l with framer := .hunt
                 sending := some (.reply ⟨.overflow, kind + 0x80#8, tag, .busy, [], false⟩) }) ∧
    (4 ≤ l.queue.length → 8 ≤ l.overflowWaiting → l.takeRequest kind tag payload =
      { l with framer := .hunt, linkError := true })

/-- Forming a reply (R166, R168, R171): the request keeps its place; the reply, with its kind plus 0x80, its
tag and no payload on a refusal, goes to the back of the reply list, or is sent at once. -/
def Obligations.ReplyFormedInOrder : Prop :=
  ∀ (l : Link) (r : Request) (st : Status) (payload : List Byte) (resets : Bool),
    l.nextRequest = some r →
    let p : Reply := ⟨.ordinary, r.kind + 0x80#8, r.tag, st,
      if st = .ok ∨ st = .accepted ∨ st = .ignored then payload else [], resets⟩
    let m := l.formReply st payload resets
    (∃ a b, l.queue = a ++ r :: b ∧ (∀ x ∈ a, x.replied = true) ∧ r.replied = false ∧
      m.queue = a ++ { r with replied := true } :: b) ∧
    (l.sending ≠ none → m = { l with queue := m.queue, replies := l.replies ++ [p] }) ∧
    (l.sending = none → l.replies = [] →
      m = { l with queue := m.queue, sending := some (.reply p) })

/-- The last byte of a frame has gone (R166, R171): an ordinary reply's request gives up the front place, and
the transmitter takes the front reply, else the front notice, else nothing. -/
def Obligations.FrameSentChoosesNext : Prop :=
  ∀ (s : State) (x : Sending), s.link.sending = some x → s.link.sendingResets = false →
    let queue := match x with
      | .reply r => if r.source = .ordinary then s.link.queue.drop 1 else s.link.queue
      | .notice _ => s.link.queue
    (∀ r rest, s.link.replies = r :: rest → exec .frameSent s =
      .next { s with link :=
        { s.link with queue := queue, sending := some (.reply r), replies := rest } }) ∧
    (∀ n rest, s.link.replies = [] → s.link.notices = n :: rest → exec .frameSent s =
      .next { s with link :=
        { s.link with queue := queue, sending := some (.notice n), notices := rest } }) ∧
    (s.link.replies = [] → s.link.notices = [] → exec .frameSent s =
      .next { s with link := { s.link with queue := queue, sending := none } })

/-- Posting a notice (R172): nothing in STARTING or with its kind disabled; else it reaches the queue, or the
notices-lost flag is set at 32. Two notices of one event enter in either order, whatever the free value
(log 5). -/
def Obligations.NoticesQueuedOrLost : Prop :=
  (∀ (s : State) (n : Notice),
    (s.mode = .starting → s.post n = s) ∧
    (s.mask.getLsbD n.kind.index = false → s.post n = s) ∧
    (s.mode ≠ .starting → s.mask.getLsbD n.kind.index = true →
      s.post n = { s with link := { s.link with posted := s.link.posted ++ [n] } })) ∧
  (∀ (l : Link) (n : Notice),
    (l.notices.length < 32 → l.sending ≠ none →
      l.enqueueNotice n = { l with notices := l.notices ++ [n] }) ∧
    (l.sending = none → l.replies = [] → l.notices = [] →
      l.enqueueNotice n = { l with sending := some (.notice n) }) ∧
    (32 ≤ l.notices.length → l.enqueueNotice n = { l with noticesLost := true })) ∧
  (∀ (s : State) (a b : Notice), s.link.posted = [a, b] →
    let l := { s.link with posted := [] }
    (takePosted s).link = (l.enqueueNotice a).enqueueNotice b ∨
      (takePosted s).link = (l.enqueueNotice b).enqueueNotice a)

/-! ### Requests: the generic checks -/

/-- The generic checks (R170), in their order: BUSY in STARTING, UNKNOWN_REQUEST, BAD_LENGTH, WRONG_MODE. A refusal
changes nothing but the link's reply. With no request of the kind at the front, or with a RESET answered (R190),
its execution changes nothing (the model's choice, log 1). -/
def Obligations.GenericChecksInOrder : Prop :=
  (∀ (k : RequestKind) (s : State) (r : Request), s.link.nextRequest = some r → r.kind.toNat = k.code →
     s.resetAsked = false →
     (s.mode = .starting → exec k.command s = .next (s.answer .busy [])) ∧
     (s.mode ≠ .starting → r.payload.length ≠ k.length →
       exec k.command s = .next (s.answer .badLength [])) ∧
     (s.mode ≠ .starting → r.payload.length = k.length → k.takenIn s.mode = false →
       exec k.command s = .next (s.answer .wrongMode []))) ∧
  (∀ (s : State) (r : Request), s.link.nextRequest = some r →
     (r.kind.toNat = 0 ∨ 0x22 ≤ r.kind.toNat) → s.resetAsked = false →
     (s.mode = .starting → exec .unknownRequest s = .next (s.answer .busy [])) ∧
     (s.mode ≠ .starting → exec .unknownRequest s = .next (s.answer .unknownRequest []))) ∧
  (∀ (k : RequestKind) (s : State),
     (s.link.nextRequest = none ∨ s.resetAsked = true ∨
       (∃ r, s.link.nextRequest = some r ∧ r.kind.toNat ≠ k.code)) →
     exec k.command s = .next s)

/-! ### Requests on the part -/

/-- IDENTIFY answers the fixed description (R175); STATUS answers the state as it stands and clears the two link
flags (R176); SET_NOTICES takes every mask with the STARTUP enable set (R174); RESET is answered OK, and no
request is executed after it (R190). Nothing else changes. -/
def Obligations.PartRequestsAnswer : Prop :=
  (∀ (s : State) (r : Request), s.Takes .identify r →
     exec .identify s = .next (s.answer .ok
       [0x53#8, 0x43#8, 0x38#8, 0x20#8, 0x20#8, 0x20#8, 0x20#8, 0x20#8, 2#8, 8#8, 0x00#8, 0x02#8, 16#8,
         0x00#8, 0x01#8, 32#8, 4#8, 0x00#8, 0x04#8, 0x00#8, 0x10#8, 0#8, 0#8, 0#8, 4#8])) ∧
  (∀ (s : State) (r : Request), s.Takes .status r →
     exec .status s = .next (State.answer
       { s with link := { s.link with linkError := false, noticesLost := false } } .ok s.statusFields)) ∧
  (∀ (s : State) (r : Request),
     (s.Takes .setNotices r →
       let mask := byteAt r.payload 0 ||| 1#8
       exec .setNotices s = .next (State.answer { s with mask := mask } .ok [mask]) ∧
         mask.getLsbD 0 = true ∧ ∀ i, 1 ≤ i → mask.getLsbD i = (byteAt r.payload 0).getLsbD i) ∧
     (s.Takes .reset r →
       exec .reset s = .next (State.answer { s with resetAsked := true } .ok [])))

/-- SET_MODE (R179, R180): its checks in order; SETUP is refused BUSY in RUN with a non-terminal job or a
repair; RUN from SETUP evaluates every port and lets RPU choose before the reply. -/
def Obligations.SetModeChecksAndMoves : Prop :=
  ∀ (s : State) (r : Request), s.Takes .setMode r →
    let m := field r.payload 0 1
    let a := field r.payload 1 1
    let auto := if a = 0 then false else if a = 1 then true else s.autoRun
    (m ≠ 1 → m ≠ 2 → exec .setMode s = .next (s.answer .badArgument [])) ∧
    (m = 1 ∨ m = 2 → 2 < a → exec .setMode s = .next (s.answer .badArgument [])) ∧
    (m = 1 → a ≤ 2 → s.mode = .run → (s.liveSlots ≠ [] ∨ s.rpu.phase ≠ .idle) →
      exec .setMode s = .next (s.answer .busy [])) ∧
    (m = 1 → a ≤ 2 → (s.mode = .setup ∨ (s.liveSlots = [] ∧ s.rpu.phase = .idle)) →
      exec .setMode s = .next (State.answer { s with autoRun := auto, mode := .setup } .ok
        (u8 1 ++ flagByte auto))) ∧
    (m = 2 → a ≤ 2 → s.mode = .run →
      exec .setMode s = .next (State.answer { s with autoRun := auto } .ok (u8 2 ++ flagByte auto))) ∧
    (m = 2 → a ≤ 2 → s.mode = .setup →
      exec .setMode s = .next ((settle (rpuChoice (evaluateAll
        { s with autoRun := auto, mode := .run }))).answer .ok (u8 2 ++ flagByte auto)))

/-- SET_TIME sets the clock and its flag and answers the value taken with the value and flag before (R152). The
minute timer advances a set clock by one, saturating, and nothing while halted (R151, R153). SET_PATROL is
refused above 1, and TIME_NOT_SET for 1 with the clock not set (R154). Each evaluates every port where its rule
says so. -/
def Obligations.ClockAndPatrolSet : Prop :=
  (∀ (s : State) (r : Request), s.Takes .setTime r →
     ∃ t, exec .setTime s = .next t ∧
       t = (settle (evaluateAll { s with pts :=
         { s.pts with clock := field r.payload 0 4, clockSet := true } })).answer .ok
           (le 4 (field r.payload 0 4) ++ le 4 s.pts.clock ++ flagByte s.pts.clockSet) ∧
       t.pts = { s.pts with clock := field r.payload 0 4, clockSet := true }) ∧
  (∀ s : State,
     (s.pts.timerRunning = false → exec .minuteExpiry s = .next s) ∧
     (s.pts.timerRunning = true → ∃ t, exec .minuteExpiry s = .next t ∧
       (s.pts.clockSet = false → t.pts = s.pts) ∧
       (s.pts.clockSet = true →
         t.pts = { s.pts with clock := if s.pts.clock < 4294967295 then s.pts.clock + 1
                                       else s.pts.clock }) ∧
       t = settle (evaluateAll { s with pts := t.pts }))) ∧
  (∀ (s : State) (r : Request), s.Takes .setPatrol r →
     let v := field r.payload 0 1
     let on : State := { s with pts := { s.pts with enabled := true } }
     let off : State := { s with pts := { s.pts with enabled := false } }
     (1 < v → exec .setPatrol s = .next (s.answer .badArgument [])) ∧
     (v = 1 → s.pts.clockSet = false → exec .setPatrol s = .next (s.answer .timeNotSet [])) ∧
     (v = 1 → s.pts.clockSet = true → s.pts.enabled = true →
       exec .setPatrol s = .next (s.answer .ok [1#8])) ∧
     (v = 1 → s.pts.clockSet = true → s.pts.enabled = false →
       exec .setPatrol s = .next ((settle (evaluateAll on)).answer .ok [1#8])) ∧
     (v = 0 → exec .setPatrol s = .next (off.answer .ok [0#8])))

/-- CONVERT (R18, R19): its checks in order; then the remainder of R15 for TO_INDEX, or the timecode of R16 for
TO_TIMECODE, with rate, start and limit of the reel named, or with the request's own and the day count for reel
0. No state changes. -/
def Obligations.ConvertAnswers : Prop :=
  ∀ (s : State) (r : Request), s.Takes .convert r →
    let d := field r.payload 0 1
    let n := field r.payload 1 2
    let asked := RateCode.ofCode (field r.payload 3 1)
    let begin' := timecodeAt r.payload 4
    let t := timecodeAt r.payload 8
    let i := field r.payload 12 4
    let refused (st : Status) : Prop := exec .convert s = .next (s.answer st [])
    let converts (rate : RateCode) (start : Timecode) (limit : Nat) : Prop :=
      let index := (((t.count rate : Int) - start.count rate) % rate.dayCount).toNat
      index < rate.dayCount ∧
      (d = 1 → t.valid rate = false → refused .badTimecode) ∧
      (d = 1 → t.valid rate = true → limit ≤ index → refused .outOfReel) ∧
      (d = 1 → t.valid rate = true → index < limit → exec .convert s = .next (s.answer .ok
        (u8 rate.code ++ le 4 index ++ t.bytes ++ le 4 limit))) ∧
      (d = 2 → limit ≤ i → refused .outOfReel) ∧
      (d = 2 → i < limit → exec .convert s = .next (s.answer .ok (u8 rate.code ++ le 4 i
        ++ (timecodeOfCount rate ((start.count rate + i) % rate.dayCount)).bytes ++ le 4 limit)))
    (d ≠ 1 → d ≠ 2 → refused .badArgument) ∧
    ((d = 1 ∨ d = 2) →
      (n ≠ 0 → s.entry n = none → refused .noSuchReel) ∧
      (∀ e, n ≠ 0 → s.entry n = some e → converts e.rate e.start e.frameCount) ∧
      (n = 0 → asked = none → refused .badArgument) ∧
      (∀ rate, n = 0 → asked = some rate → begin'.valid rate = false → refused .badTimecode) ∧
      (∀ rate, n = 0 → asked = some rate → begin'.valid rate = true →
        converts rate begin' rate.dayCount))

/-! ### Requests on ports -/

/-- The three port requests that read or set a port, for each port and for port numbers of 8 or more
(R45, R61, R145, R146). PORT_CONFIG clamps each setting to the nearest value of its range, answers the values taken,
and zeroes the debounce count; PORT_STATUS clears the port's delta flags; MARGIN_READ changes nothing. -/
def Obligations.PortRequestsAnswer : Prop :=
  ∀ (s : State) (r : Request),
    (8 ≤ field r.payload 0 1 →
      (s.Takes .portConfig r → exec .portConfig s = .next (s.answer .badArgument [])) ∧
      (s.Takes .portStatus r → exec .portStatus s = .next (s.answer .badArgument [])) ∧
      (s.Takes .marginRead r → exec .marginRead s = .next (s.answer .badArgument []))) ∧
    (∀ p : PortId, field r.payload 0 1 = p.val →
      (s.Takes .portConfig r →
        let threshold := max 1 (field r.payload 3 2)
        let c : PortSettings :=
          { timeout := max 1 (min 6000 (field r.payload 1 2))
            threshold := threshold
            hysteresis := min (field r.payload 5 2) (threshold - 1)
            debounce := max 1 (min 15 (field r.payload 7 1))
            filterShift := min 6 (field r.payload 8 1) }
        c.inRange = true ∧
        exec .portConfig s = .next ((s.modPort p (fun q => { q with
          settings := c, margin := { q.margin with debounceCount := 0 } })).answer .ok c.fields)) ∧
      (s.Takes .portStatus r → exec .portStatus s =
        .next ((s.modPort p (fun q => { q with delta := ⟨false, false, false, false⟩ })).answer .ok
          (s.port p).statusFields)) ∧
      (s.Takes .marginRead r → exec .marginRead s = .next (s.answer .ok (s.port p).marginFields)))

/-- PORT_ONLINE (R55): refused for a port number of 8 or more and with FAULT high; an OFFLINE port with FAULT low
becomes NORMAL, with a label read where MEDIA is high; any other port is left as it is. -/
def Obligations.PortOnlineBringsBack : Prop :=
  ∀ (s : State) (r : Request), s.Takes .portOnline r →
    (8 ≤ field r.payload 0 1 → exec .portOnline s = .next (s.answer .badArgument [])) ∧
    (∀ p : PortId, field r.payload 0 1 = p.val →
      ((s.port p).state ≠ .offline → exec .portOnline s = .next (s.answer .ok [])) ∧
      ((s.port p).state = .offline → (s.port p).lines.fault = true →
        exec .portOnline s = .next (s.answer .portOffline [])) ∧
      ((s.port p).state = .offline → (s.port p).lines.fault = false →
        ∃ t, exec .portOnline s = .next t ∧ (t.port p).state = .normal ∧ (t.port p).cause = none ∧
          (t.port p).delta = (s.port p).delta ∧ (t.port p).lines = (s.port p).lines ∧
          ((s.port p).lines.media = true → (t.port p).volume = .labelRead) ∧
          ((s.port p).lines.media = false → (t.port p).volume = (s.port p).volume) ∧
          t.cat = s.cat ∧ t.jbu = s.jbu ∧ t.pts = s.pts ∧ t.siu = s.siu ∧ t.mode = s.mode))

/-! ### Requests on the catalogue -/

/-- An entry that passes steps 4 to 11 of R28: its fields lie in their ranges, copy B names another port
(R25), each copy's two areas share no block and lie in 1 to `2^40 - 1` (R23), and no block belongs to it
and to another catalogued copy of the same volume id (R24). -/
def Obligations.CheckedEntryIsPlaced : Prop :=
  ∀ (others : List Entry) (f : EntryFields) (e : StoredEntry), checkEntry others f = .ok e →
    1 ≤ f.reel → f.reel ≤ 65535 →
    (e.reel = f.reel ∧ e.inRange = true ∧ e.frozen = false) ∧
    (∀ b, e.copyB = some b → b.port ≠ e.copyA.port) ∧
    (∀ c ∈ e.copies, ∀ n, (inFrameArea e c n → 1 ≤ n ∧ n < 2 ^ 40 ∧ ¬ inManifestArea e c n) ∧
      (inManifestArea e c n → 1 ≤ n ∧ n < 2 ^ 40)) ∧
    (∀ c ∈ e.copies, ∀ x ∈ others, ∀ c' ∈ x.toStoredEntry.copies, c.volumeId = c'.volumeId →
      1 ≤ x.frameCount → 1 ≤ x.frameBytes →
      ∀ n, inCopyArea e c n → ¬ inCopyArea x.toStoredEntry c' n) ∧
    (∀ b, e.copyB = some b → b.volumeId = e.copyA.volumeId →
      ∀ n, inCopyArea e e.copyA n → ¬ inCopyArea e b n)

/-- ADD_REEL (R28, R29): its checks in order, and the new entry LOCKED, not frozen, with the interval
clamped. Steps 4 to 11, each with its status, stand in the second part: name, rate, start, counts, copies, copy B's
port, the area check of R23, the overlap check of R24. -/
def Obligations.AddReelCreatesEntry : Prop :=
  (∀ (s : State) (r : Request), s.Takes .addReel r →
    let f := entryFields r.payload
    (f.reel = 0 → exec .addReel s = .next (s.answer .badArgument [])) ∧
    (f.reel ≠ 0 → s.entry f.reel ≠ none → exec .addReel s = .next (s.answer .reelExists [])) ∧
    (f.reel ≠ 0 → s.entry f.reel = none → 512 ≤ s.cat.length →
      exec .addReel s = .next (s.answer .catalogueFull [])) ∧
    (f.reel ≠ 0 → s.entry f.reel = none → s.cat.length < 512 →
      (∀ st, checkEntry s.cat f = .error st → exec .addReel s = .next (s.answer st [])) ∧
      (∀ e, checkEntry s.cat f = .ok e →
        exec .addReel s = .next (State.answer
          { s with cat := insertEntry { e with locked := true } s.cat } .ok
            (le 2 f.reel ++ le 2 (max 1 (min 3650 f.intervalDays))))))) ∧
  (∀ (others : List Entry) (f : EntryFields),
    let name := f.nameField.take f.nameLength
    let nameOk := f.nameLength ≤ 24 ∧ ∀ b ∈ name, 0x20 ≤ b.toNat ∧ b.toNat ≤ 0x7E
    let countsOk := 1 ≤ f.frameCount ∧ f.frameCount ≤ 1000000 ∧ 1 ≤ f.frameBytes ∧ f.frameBytes ≤ 67108864
    let copiesOk := f.copyA.port < 8 ∧ (f.copyBFlag = 0 ∨ (f.copyBFlag = 1 ∧ f.copyB.port < 8))
    let refused (st : Status) : Prop := checkEntry others f = .error st
    let frames (e : StoredEntry) (c : CopyDesc) : Nat × Nat :=
      (c.firstFrameBlock, c.firstFrameBlock + e.frameCount * blocksPerFrame e.frameBytes - 1)
    let manifests (e : StoredEntry) (c : CopyDesc) : Nat × Nat :=
      (c.manifestBlock, c.manifestBlock + manifestLength e.frameCount - 1)
    let meet (x y : Nat × Nat) : Prop := x.1 ≤ y.2 ∧ y.1 ≤ x.2
    let areaOk (e : StoredEntry) (c : CopyDesc) : Prop :=
      1 ≤ c.firstFrameBlock ∧ 1 ≤ c.manifestBlock ∧ (frames e c).2 < 2 ^ 40 ∧ (manifests e c).2 < 2 ^ 40 ∧
        ¬ meet (frames e c) (manifests e c)
    let clash (e : StoredEntry) (c : CopyDesc) (x : StoredEntry) (d : CopyDesc) : Prop :=
      c.volumeId = d.volumeId ∧ (meet (frames e c) (frames x d) ∨ meet (frames e c) (manifests x d) ∨
        meet (manifests e c) (frames x d) ∨ meet (manifests e c) (manifests x d))
    (¬ nameOk → refused .badArgument) ∧
    (nameOk → RateCode.ofCode f.rate = none → refused .badArgument) ∧
    (∀ rate, nameOk → RateCode.ofCode f.rate = some rate →
      (f.start.valid rate = false → refused .badTimecode) ∧
      (f.start.valid rate = true → ¬ countsOk → refused .badArgument) ∧
      (f.start.valid rate = true → countsOk → ¬ copiesOk → refused .badArgument) ∧
      (f.start.valid rate = true → countsOk → copiesOk → f.copyBFlag = 1 → f.copyB.port = f.copyA.port →
        refused .samePort) ∧
      (f.start.valid rate = true → countsOk → copiesOk → (f.copyBFlag = 1 → f.copyB.port ≠ f.copyA.port) →
        ∃ e : StoredEntry,
          (e.reel = f.reel ∧ e.name = name ∧ e.rate = rate ∧ e.start = f.start ∧
            e.frameCount = f.frameCount ∧ e.frameBytes = f.frameBytes ∧
            e.intervalDays = max 1 (min 3650 f.intervalDays) ∧ e.frozen = false) ∧
          (let asked (c : CopyDesc) (x : CopyFields) : Prop :=
             c.port.val = x.port ∧ c.volumeId = x.volumeId ∧ c.firstFrameBlock = x.firstFrameBlock ∧
               c.manifestBlock = x.manifestBlock ∧ c.lastScrub = none ∧ c.repairedCount = 0 ∧ c.lostCount = 0
           asked e.copyA f.copyA ∧ (f.copyBFlag = 0 → e.copyB = none) ∧
             (f.copyBFlag = 1 → ∃ b, e.copyB = some b ∧ asked b f.copyB)) ∧
          (let placed : Prop :=
             (areaOk e e.copyA ∧ ∀ b, e.copyB = some b → areaOk e b) ∧
             (∀ c, (c = e.copyA ∨ e.copyB = some c) → ∀ x ∈ others,
               ¬ clash e c x.toStoredEntry x.copyA ∧ ∀ d, x.copyB = some d → ¬ clash e c x.toStoredEntry d) ∧
             (∀ b, e.copyB = some b → ¬ clash e e.copyA e b)
           (placed → checkEntry others f = .ok e) ∧ (¬ placed → refused .badArgument)))))

/-- EDIT_REEL (R30, R31): NO_SUCH_REEL, FROZEN, REEL_BUSY, then the checks of ADD_REEL; the edited entry keeps its
lock and its frozen mark, and a copy keeps its history exactly where nothing of its place and shape
changed. -/
def Obligations.EditReelReplacesEntry : Prop :=
  ∀ (s : State) (r : Request), s.Takes .editReel r →
    let f := entryFields r.payload
    ((f.reel = 0 ∨ s.entry f.reel = none) → exec .editReel s = .next (s.answer .noSuchReel [])) ∧
    (∀ old, f.reel ≠ 0 → s.entry f.reel = some old →
      (old.frozen = true → exec .editReel s = .next (s.answer .frozen [])) ∧
      (old.frozen = false → (s.reelRecorded f.reel = true ∨ s.reelTargeted f.reel = true) →
        exec .editReel s = .next (s.answer .reelBusy [])) ∧
      (old.frozen = false → s.reelRecorded f.reel = false → s.reelTargeted f.reel = false →
        (∀ st, checkEntry (s.cat.filter (fun e => decide (e.reel ≠ f.reel))) f = .error st →
          exec .editReel s = .next (s.answer st [])) ∧
        (∀ e, checkEntry (s.cat.filter (fun e => decide (e.reel ≠ f.reel))) f = .ok e →
          ∃ new : Entry, new.locked = old.locked ∧ new.frozen = old.frozen ∧ new.name = e.name ∧
            new.rate = e.rate ∧ new.start = e.start ∧ new.frameCount = e.frameCount ∧
            new.frameBytes = e.frameBytes ∧ new.intervalDays = e.intervalDays ∧ new.reel = f.reel ∧
            new.copyA = (if keptInPlace old.toStoredEntry e old.copyA e.copyA then old.copyA
              else e.copyA) ∧
            (e.copyB = none → new.copyB = none) ∧ (old.copyB = none → new.copyB = e.copyB) ∧
            (∀ c d, old.copyB = some c → e.copyB = some d →
              new.copyB = some (if keptInPlace old.toStoredEntry e c d then c else d)) ∧
            exec .editReel s = .next ((s.modEntry f.reel (fun _ => new)).answer .ok
              (le 2 f.reel ++ le 2 e.intervalDays)))))

/-- REMOVE_REEL, READ_REEL and LIST_REELS (R32, R33, R34). -/
def Obligations.ReelsRemovedReadListed : Prop :=
  ∀ (s : State) (r : Request),
    let n := field r.payload 0 2
    let page := field r.payload 0 1
    (s.Takes .removeReel r →
      ((n = 0 ∨ s.entry n = none) → exec .removeReel s = .next (s.answer .noSuchReel [])) ∧
      (∀ e, n ≠ 0 → s.entry n = some e →
        (e.frozen = true → exec .removeReel s = .next (s.answer .frozen [])) ∧
        (e.frozen = false → (s.reelRecorded n = true ∨ s.reelTargeted n = true) →
          exec .removeReel s = .next (s.answer .reelBusy [])) ∧
        (e.frozen = false → s.reelRecorded n = false → s.reelTargeted n = false →
          exec .removeReel s = .next (State.answer
            { s with cat := s.cat.filter (fun x => decide (x.reel ≠ n)) } .ok [])))) ∧
    (s.Takes .readReel r →
      ((n = 0 ∨ s.entry n = none) → exec .readReel s = .next (s.answer .noSuchReel [])) ∧
      (∀ e, n ≠ 0 → s.entry n = some e →
        exec .readReel s = .next (s.answer .ok (s.reelFields e)))) ∧
    (s.Takes .listReels r →
      (8 ≤ page → exec .listReels s = .next (s.answer .badArgument [])) ∧
      (page < 8 →
        let nums := ((s.cat.map (fun e => e.reel)).drop (64 * page)).take 64
        exec .listReels s = .next (s.answer .ok
          (le 2 s.cat.length ++ u8 page ++ u8 nums.length ++ nums.flatMap (le 2)))))

/-- The lock requests (R37, R38, R107, R108): the locks change, HELD records of an opened reel become PENDING and
PENDING records of a closed reel HELD, RPU is told of records now PENDING, and the reply says what changed. That
UNLOCK_ALL has RPU choose once, after the records of all reels have moved, is the model's reading (log 31, DEDUCED). -/
def Obligations.LocksMoveRecords : Prop :=
  ∀ (s : State) (r : Request),
    let n := field r.payload 0 2
    let held (x : Record) : Record := if x.state = .pending then { x with state := .held } else x
    let open' (x : Record) : Record := if x.state = .held then { x with state := .pending } else x
    ((n = 0 ∨ s.entry n = none) →
      (s.Takes .lockReel r → exec .lockReel s = .next (s.answer .noSuchReel [])) ∧
      (s.Takes .unlockReel r → exec .unlockReel s = .next (s.answer .noSuchReel []))) ∧
    (∀ e, n ≠ 0 → s.entry n = some e →
      let locked : State := { s with
        cat := s.cat.map (fun x => if x.reel = n then { x with locked := true } else x)
        dfl := { s.dfl with records := s.dfl.records.map (fun x => if x.names n then held x else x) } }
      let unlocked : State := { s with
        cat := s.cat.map (fun x => if x.reel = n then { x with locked := false } else x)
        dfl := { s.dfl with records := s.dfl.records.map (fun x => if x.names n then open' x else x) } }
      (s.Takes .lockReel r →
        (e.locked = true → exec .lockReel s = .next (s.answer .ok [0#8])) ∧
        (e.locked = false → exec .lockReel s = .next ((settle locked).answer .ok [1#8]))) ∧
      (s.Takes .unlockReel r →
        (e.locked = false → exec .unlockReel s = .next (s.answer .ok [0#8])) ∧
        (e.locked = true →
          exec .unlockReel s = .next ((settle
            (if s.dfl.records.any (fun x => x.names n && decide (x.state = .held))
              then rpuChoice unlocked else unlocked)).answer .ok [1#8])))) ∧
    (s.Takes .lockAll r → exec .lockAll s = .next ((settle { s with
        cat := s.cat.map (fun x => { x with locked := true })
        dfl := { s.dfl with records := s.dfl.records.map (fun x =>
          if s.cat.any (fun e => !e.locked && x.names e.reel) then held x else x) } }).answer .ok
            (le 2 (s.cat.countP (fun e => !e.locked))))) ∧
    (s.Takes .unlockAll r →
      let unlocked : State := { s with
        cat := s.cat.map (fun x => { x with locked := false })
        dfl := { s.dfl with records := s.dfl.records.map (fun x =>
          if s.cat.any (fun e => e.locked && x.names e.reel) then open' x else x) } }
      exec .unlockAll s = .next ((settle
        (if s.cat.any (fun e => e.locked && s.dfl.records.any (fun x =>
            x.names e.reel && decide (x.state = .held)))
          then rpuChoice unlocked else unlocked)).answer .ok (le 2 (s.cat.countP (fun e => e.locked)))))

/-! ### Stores -/

/-- The three requests that start a store (R35, R184, R186): refused BUSY while a store is WRITING; else the
snapshot is taken after the request's own changes, and the reply carries the target slot and generation. -/
def Obligations.StoresStarted : Prop :=
  ∀ (s : State) (r : Request),
    let n := field r.payload 0 2
    let fields := u8 s.siu.targetSlot.val ++ le 4 s.siu.newGeneration
    (s.Takes .store r →
      (s.siu.store ≠ none → exec .store s = .next (s.answer .busy [])) ∧
      (s.siu.store = none → exec .store s = .next ((s.startStore .store).answer .accepted fields))) ∧
    (s.Takes .freezeReel r →
      ((n = 0 ∨ s.entry n = none) → exec .freezeReel s = .next (s.answer .noSuchReel [])) ∧
      (∀ e, n ≠ 0 → s.entry n = some e →
        (s.siu.store ≠ none → exec .freezeReel s = .next (s.answer .busy [])) ∧
        (s.siu.store = none → exec .freezeReel s = .next ((State.startStore { s with
          cat := s.cat.map (fun x => if x.reel = n then { x with frozen := true } else x) }
            .freezeReel).answer .accepted fields)))) ∧
    (s.Takes .restoreFactory r →
      (s.siu.store ≠ none → exec .restoreFactory s = .next (s.answer .busy [])) ∧
      (s.siu.store = none → (∃ e ∈ s.cat, e.frozen = false ∧ s.reelRecorded e.reel = true) →
        exec .restoreFactory s = .next (s.answer .reelBusy [])) ∧
      (s.siu.store = none → (∀ e ∈ s.cat, e.frozen = false → s.reelRecorded e.reel = false) →
        ∃ u : State, u.cat = s.cat.filter (fun e => e.frozen) ∧ u.mask = 0xFF#8 ∧ u.autoRun = false ∧
          u.pts = { s.pts with enabled := false } ∧
          (∀ p, u.port p = { s.port p with
            settings := { timeout := 100, threshold := 400, hysteresis := 100, debounce := 3,
                          filterShift := 4 }
            margin := { (s.port p).margin with debounceCount := 0 } }) ∧
          u.siu = s.siu ∧ u.dfl = s.dfl ∧ u.jbu = s.jbu ∧ u.mode = s.mode ∧ u.link = s.link ∧
          exec .restoreFactory s =
            .next ((u.startStore .restoreFactory).answer .accepted fields)))

/-- The stored image among two slots (R183), and a store never touches it (R184): its slot keeps its content and
condition and stays the stored image; the store writes the other slot with the successor of its generation. The
snapshot holds the fields of Table 10-2 as they stand when the store starts. -/
def Obligations.StoredImageChosenAndSpared : Prop :=
  (∀ (s : State) (cause : StoreCause),
     let t := s.startStore cause
     (∀ k g, s.siu.storedSlot = some k → s.siu.slots[k].condition = .valid g →
       t.siu.slots[k] = s.siu.slots[k] ∧ t.siu.storedSlot = some k ∧
       ∃ j, t.siu.store = some j ∧ j.slot ≠ k ∧ j.cause = cause ∧
         j.snapshot.generation = (if g = 4294967295 then 1 else g + 1)) ∧
     (s.siu.storedSlot = none → ∃ j, t.siu.store = some j ∧ j.slot = 0 ∧ j.snapshot.generation = 1 ∧
       t.siu.slots[0].condition = .invalid) ∧
     (∃ j, t.siu.store = some j ∧ j.cause = cause ∧ t.siu.slots[j.slot].condition = .invalid ∧
       j.snapshot.mark = [0x4E#8, 0x4D#8, 0x42#8, 0x52#8, 0x49#8, 0x4D#8, 0x47#8, 0x31#8] ∧
       (∀ p : PortId, j.snapshot.settings[p] = (s.port p).settings) ∧ j.snapshot.mask = s.mask ∧
       j.snapshot.patrolEnabled = s.pts.enabled ∧ j.snapshot.autoRun = s.autoRun ∧
       j.snapshot.entryCount = s.cat.length ∧ j.snapshot.entries = s.cat.map Entry.toStoredEntry) ∧
     t = { s with siu := t.siu }) ∧
  (∀ u : Siu,
     (∀ g0 g1, u.slots[0].condition = .valid g0 → u.slots[1].condition = .valid g1 →
       1 ≤ g0 → g0 ≤ 4294967295 → 1 ≤ g1 → g1 ≤ 4294967295 →
       (g1 = g0 + 1 ∨ (g0 = 4294967295 ∧ g1 = 1) → u.storedSlot = some 1) ∧
       (g0 = g1 + 1 ∨ (g1 = 4294967295 ∧ g0 = 1) → u.storedSlot = some 0) ∧
       (g0 = g1 → u.storedSlot = some 0) ∧
       (g1 + 1 < g0 → ¬ (g0 = 4294967295 ∧ g1 = 1) → u.storedSlot = some 0) ∧
       (g0 + 1 < g1 → ¬ (g1 = 4294967295 ∧ g0 = 1) → u.storedSlot = some 1)) ∧
     (∀ g, u.slots[0].condition = .valid g → (∀ h, u.slots[1].condition ≠ .valid h) →
       u.storedSlot = some 0) ∧
     (∀ g, u.slots[1].condition = .valid g → (∀ h, u.slots[0].condition ≠ .valid h) →
       u.storedSlot = some 1) ∧
     ((∀ h, u.slots[0].condition ≠ .valid h) → (∀ h, u.slots[1].condition ≠ .valid h) →
       u.storedSlot = none))

/-- A store's end (R185): OK makes the target slot VALID with the snapshot; any other end leaves the slots as
they are; STORE_END is queued either way. With no store there is nothing to end (log 2). -/
def Obligations.StoreEnds : Prop :=
  ∀ (s : State) (finish : StoreFinish),
    (s.siu.store = none → exec (.storeEnds finish) s = .next s) ∧
    (∀ j, s.siu.store = some j →
      let notice (result : Nat) : Notice := ⟨.storeEnd, u8 result ++ u8 j.cause.code ++ u8 j.slot.val
        ++ le 4 j.snapshot.generation ++ le 2 j.snapshot.entryCount⟩
      let written (j : StoreJob) : ImageSlot :=
        ⟨.image j.snapshot j.snapshot.check, .valid j.snapshot.generation⟩
      (finish = .readBack true → exec (.storeEnds finish) s = .next (settle (State.post
        { s with siu := { slots := s.siu.slots.set j.slot (written j), store := none } }
        (notice 0)))) ∧
      (finish ≠ .readBack true → exec (.storeEnds finish) s = .next (settle (State.post
        { s with siu := { s.siu with store := none } } (notice 1)))))

/-! ### Resets and start-up -/

/-- The resets (R189, R190, R153): each assertion, and the end of the OK reply of a RESET, leaves the part as a reset
leaves it, with its reset kind; a power-on reset clears the clock, a warm reset keeps it; ALERT is deasserted. A
release changes the level alone, and start-up goes on from there (R187 step 1). Of this the model's own: that the
running state has its reset values from the assertion on, where the spec gives most of them at start-up (log 18,
DESIGN CHOICE); that the kind is that of the reset asserted last, also with the other one held (log 17, DEDUCED);
and that the reply of a RESET is marked, and its end is the reset (log 29, DEDUCED). -/
def Obligations.ResetsTakeEffect : Prop :=
  (∀ s : State,
     (s.supplyLow = false → ∃ t, exec .powerOnResetAssert s = .next t ∧ s.ResetFrom t ∧
       t.resetKind = .powerOn ∧ t.pts.clock = 0 ∧ t.pts.clockSet = false ∧ t.supplyLow = true ∧
       t.resetPin = s.resetPin ∧ t.alert = false) ∧
     (s.resetPin = false → ∃ t, exec .resetPinAssert s = .next t ∧ s.ResetFrom t ∧
       t.resetKind = .pin ∧ t.pts.clock = s.pts.clock ∧ t.pts.clockSet = s.pts.clockSet ∧
       t.resetPin = true ∧ t.supplyLow = s.supplyLow ∧ t.alert = false)) ∧
  (∀ s : State,
     exec .powerOnResetRelease s = .next { s with supplyLow := false } ∧
     exec .resetPinRelease s = .next { s with resetPin := false }) ∧
  (∀ (s : State) (r : Reply), s.link.sending = some (.reply r) → r.resets = true →
     ∃ t, exec .frameSent s = .next t ∧ s.ResetFrom t ∧ t.resetKind = .request ∧
       t.pts.clock = s.pts.clock ∧ t.pts.clockSet = s.pts.clockSet ∧ t.supplyLow = s.supplyLow ∧
       t.resetPin = s.resetPin)

/-- Start-up ends (R181, R187): from the stored image where one exists, with the factory defaults and an empty
catalogue where none does; RUN only for a loaded image with auto-run set. -/
def Obligations.StartUpEnds : Prop :=
  ∀ s : State, s.mode = .starting → s.resetHeld = false →
    (s.portsSet = false →
      let img := s.siu.judged.storedImage
      ∃ t, exec .startUpEnd s = .next t ∧ t.pts.timerRunning = true ∧ t.portsSet = true ∧
        t.pts.clock = s.pts.clock ∧ t.pts.clockSet = s.pts.clockSet ∧
        t.siu.slots = s.siu.judged.slots ∧ t.siu.store = none ∧ t.dfl.records = [] ∧
        t.rpu.phase = .idle ∧ (∀ e ∈ t.cat, e.locked = true) ∧
        (∀ m, img = some m → t.mask = m.mask ∧ t.autoRun = m.autoRun ∧
          t.pts.enabled = m.patrolEnabled ∧ (∀ p, (t.port p).settings = m.settings[p]) ∧
          (∀ e : StoredEntry, e ∈ t.cat.map Entry.toStoredEntry ↔ e ∈ m.entries) ∧
          t.mode = (if m.autoRun then .run else .setup)) ∧
        (img = none → t.mask = 0xFF#8 ∧ t.autoRun = false ∧ t.pts.enabled = false ∧ t.cat = [] ∧
          (∀ p, (t.port p).settings = ⟨100, 400, 100, 3, 4⟩) ∧ t.mode = .setup)) ∧
    (s.portsSet = true → ∃ t, exec .startUpEnd s = .next t ∧ t.pts.timerRunning = true ∧
      t.mode = (if s.siu.reason = .loaded ∧ s.autoRun = true then .run else .setup))

/-- A port as start-up sets it (R62, R149). -/
def Obligations.PortSetAtStartUp : Prop :=
  ∀ (q : Port) (cfg : PortSettings),
    let r := q.startUp cfg
    (r.lines = q.lines ∧ r.delta = ⟨false, false, false, false⟩ ∧ r.gnt = q.gnt ∧ r.yld = q.yld) ∧
    (q.lines.fault = false → r.state = .normal ∧ r.cause = none) ∧
    (q.lines.fault = true → r.state = .offline ∧ r.cause = some .start) ∧
    (r.req = false ∧ r.grant = if q.gnt then .releasing else .idle) ∧
    (r.outstanding = none ∧ r.rpuClaim = none ∧ r.jobClaim = none ∧ r.reissue = none ∧
      r.nextTag = false) ∧
    (q.lines.media = true → q.lines.fault = false → r.volume = .labelRead ∧ r.labelClaim = true) ∧
    (q.lines.media = false ∨ q.lines.fault = true → r.volume = .noMedia ∧ r.labelClaim = false) ∧
    (r.settings = cfg ∧ r.margin = ⟨0, 0, false, 0, 0, 0, .steady, 0⟩ ∧ r.engine.form = none ∧
      r.engine.taken = 0)

/-! ### Digests and timecodes -/

/-- The digest engine (R7, R8, R9): in frame form the digest of the bytes within the byte limit; in block-check
form the soundness of the block, its 1,023 slots and its stored check (R4, R5). Both halves of a digest
are below 65,521, and an odd byte counts as a word with a zero high half. -/
def Obligations.DigestEngineMeasures : Prop :=
  (∀ (n : Nat) (data : List Byte),
    (DigestEngine.feed data (DigestEngine.start (.frame n))).complete.value = digest (data.take n)) ∧
  (∀ data : List Byte, data.length = 4096 →
    (DigestEngine.start .blockCheck).result data =
      .block (decide (digestAt data 4092 = digest (data.take 4092))) (manifestSlots data)
        (digestAt data 4092) ∧
    (manifestSlots data).length = 1023 ∧
    ∀ i, i < 1023 → (manifestSlots data)[i]? = some (digestAt data (4 * i))) ∧
  (∀ data : List Byte, (digest data).toNat % 65536 < 65521 ∧ (digest data).toNat / 65536 < 65521) ∧
  (∀ data : List Byte, data.length % 2 = 1 → digest data = digest (data ++ [0#8]))

/-- Validity of a timecode (R11, R12): digits, ranges, and at F30D no dropped label. -/
def Obligations.TimecodeValidity : Prop :=
  (∀ (r : RateCode) (t : Timecode),
    let value (b : Byte) : Nat := 10 * (b.toNat / 16) + b.toNat % 16
    t.valid r = true ↔
      (∀ b ∈ [t.hh, t.mm, t.ss, t.ff], b.toNat / 16 ≤ 9 ∧ b.toNat % 16 ≤ 9) ∧
      value t.hh ≤ 23 ∧ value t.mm ≤ 59 ∧ value t.ss ≤ 59 ∧
      value t.ff ≤ (match r with | .f24 => 23 | .f25 => 24 | .f30n => 29 | .f30d => 29) ∧
      ¬ (r = .f30d ∧ value t.ss = 0 ∧ value t.ff ≤ 1 ∧ value t.mm % 10 ≠ 0)) ∧
  (Timecode.valid .f30d ⟨0#8, 0x01#8, 0#8, 0#8⟩ = false ∧
    Timecode.valid .f30d ⟨0x12#8, 0x37#8, 0#8, 0x01#8⟩ = false ∧
    Timecode.valid .f30d ⟨0#8, 0x10#8, 0#8, 0#8⟩ = true ∧
    Timecode.valid .f30d ⟨0#8, 0x01#8, 0#8, 0x02#8⟩ = true ∧
    Timecode.valid .f30d ⟨0#8, 0x01#8, 0x01#8, 0#8⟩ = true) ∧
  (∀ r : RateCode, r ≠ .f30d → Timecode.valid r ⟨0#8, 0x01#8, 0#8, 0#8⟩ = true)

/-- The count of a valid timecode (R13). -/
def Obligations.TimecodeCount : Prop :=
  (∀ (r : RateCode) (t : Timecode), t.valid r = true →
    let value (b : Byte) : Nat := 10 * (b.toNat / 16) + b.toNat % 16
    let m := 60 * value t.hh + value t.mm
    (r = .f24 → t.count r = ((value t.hh * 60 + value t.mm) * 60 + value t.ss) * 24 + value t.ff) ∧
    (r = .f25 → t.count r = ((value t.hh * 60 + value t.mm) * 60 + value t.ss) * 25 + value t.ff) ∧
    (r = .f30n → t.count r = ((value t.hh * 60 + value t.mm) * 60 + value t.ss) * 30 + value t.ff) ∧
    (r = .f30d → t.count r + 2 * (m - m / 10) =
      (value t.hh * 3600 + value t.mm * 60 + value t.ss) * 30 + value t.ff) ∧
    t.count r < r.dayCount) ∧
  Timecode.count .f30d ⟨0x23#8, 0x59#8, 0x59#8, 0x29#8⟩ = 2589407

/-- The timecode of a frame index, its failure past the reel, and the round trip (R16). -/
def Obligations.TimecodeRoundTrip : Prop :=
  (∀ (r : RateCode) (start : Timecode) (i : Nat),
    timecodeOfIndex r start i = timecodeOfCount r ((start.count r + i) % r.dayCount)) ∧
  (∀ (s : State) (p : List Byte) (e : Entry), field p 0 1 = 2 → field p 1 2 ≠ 0 →
    s.entry (field p 1 2) = some e → e.frameCount ≤ field p 12 4 →
    convertAction p s = .refuse .outOfReel) ∧
  (∀ (r : RateCode) (c : Nat), c < r.dayCount →
    (timecodeOfCount r c).valid r = true ∧ (timecodeOfCount r c).count r = c) ∧
  (∀ (r : RateCode) (t : Timecode), t.valid r = true → timecodeOfCount r (t.count r) = t) ∧
  (∀ r : RateCode, 1000000 < r.dayCount) ∧
  (∀ (r : RateCode) (start : Timecode) (n i : Nat), start.valid r = true → n ≤ 1000000 → i < n →
    timecodeToIndex r start (timecodeOfIndex r start i) n = .ok i)

/-! ### Ports -/

/-- What an event of a port leaves alone: modes, settings, requests and their order, reel numbers, clock, stores, resets,
and on every other port its state, lines, delta flags, volume, settings and monitor. -/
def Obligations.PortEventsLeaveTheRest : Prop :=
  ∀ (p : PortId) (bytes : List Byte) (c : Instr) (s t : State), s.OfflineQuiet →
    c ∈ [.driveReply p bytes, .commandTimeout p, .readyRise p, .readyFall p, .mediaRise p, .mediaFall p,
      .wprotRise p, .wprotFall p, .faultRise p, .faultFall p, .gntRise p, .gntFall p, .yldRise p, .yldFall p] →
    exec c s = .next t →
    (t.mode = s.mode ∧ t.mask = s.mask ∧ t.autoRun = s.autoRun ∧ t.resetAsked = s.resetAsked ∧
      t.pts = s.pts ∧ t.siu = s.siu ∧ t.supplyLow = s.supplyLow ∧ t.resetPin = s.resetPin ∧
      t.resetKind = s.resetKind ∧ t.portsSet = s.portsSet) ∧
    (t.link.framer = s.link.framer ∧ t.link.linkError = s.link.linkError ∧ t.link.queue = s.link.queue) ∧
    t.cat.map (fun e => e.reel) = s.cat.map (fun e => e.reel) ∧
    (∀ o, o ≠ p → (t.port o).state = (s.port o).state ∧ (t.port o).cause = (s.port o).cause ∧
      (t.port o).gnt = (s.port o).gnt ∧ (t.port o).yld = (s.port o).yld ∧
      (t.port o).lines = (s.port o).lines ∧ (t.port o).delta = (s.port o).delta ∧
      (t.port o).volume = (s.port o).volume ∧ (t.port o).settings = (s.port o).settings ∧
      (t.port o).margin = (s.port o).margin)

/-- The eight line events on a port that start-up has set (R44, R53, R56, R58, R59): the level and its delta flag;
FAULT rising makes the port OFFLINE; MEDIA and READY rising begin a label read; MEDIA falling leaves
NO_MEDIA; the others leave port state and volume alone. The lines of other ports stay. -/
def Obligations.LineEventsTakeEffect : Prop :=
  ∀ (s : State) (p : PortId), s.portsSet = true →
    let q := s.port p
    let after (t : State) (k : Line) (b : Bool) : Prop :=
      (t.port p).lines = q.lines.put k b ∧ (t.port p).delta = q.delta.put k true ∧
        ∀ o, o ≠ p → (t.port o).lines = (s.port o).lines ∧ (t.port o).delta = (s.port o).delta
    let stands (t : State) : Prop := (t.port p).state = q.state ∧ (t.port p).volume = q.volume
    (q.lines.ready = false → ∃ t, exec (.readyRise p) s = .next t ∧ after t .ready true ∧
      (q.lines.media = true → q.state ≠ .offline → (t.port p).volume = .labelRead) ∧
      (q.lines.media = false ∨ q.state = .offline → stands t)) ∧
    (q.lines.ready = true → ∃ t, exec (.readyFall p) s = .next t ∧ after t .ready false ∧ stands t) ∧
    (q.lines.media = false → ∃ t, exec (.mediaRise p) s = .next t ∧ after t .media true ∧
      (q.state ≠ .offline → (t.port p).volume = .labelRead) ∧ (q.state = .offline → stands t)) ∧
    (q.lines.media = true → ∃ t, exec (.mediaFall p) s = .next t ∧ after t .media false ∧
      (q.state ≠ .offline → (t.port p).volume = .noMedia) ∧ (q.state = .offline → stands t)) ∧
    (q.lines.wprot = false → ∃ t, exec (.wprotRise p) s = .next t ∧ after t .wprot true ∧ stands t) ∧
    (q.lines.wprot = true → ∃ t, exec (.wprotFall p) s = .next t ∧ after t .wprot false ∧ stands t) ∧
    (q.lines.fault = false → ∃ t, exec (.faultRise p) s = .next t ∧ after t .fault true ∧
      (t.port p).state = .offline ∧ (t.port p).cause = some .fault) ∧
    (q.lines.fault = true → ∃ t, exec (.faultFall p) s = .next t ∧ after t .fault false ∧ stands t)

/-- GNT rises (R40, R42, R46, R49): a REQUESTING port is GRANTED, and its first claim by R49 (reissue, label read, RPU
transfer, job read) is issued with the next tag and the port's timeout setting; an IDLE port is RELEASING with
REQ low. -/
def Obligations.GrantIssuesTheFirstClaim : Prop :=
  (∀ (s : State) (p : PortId), s.portsSet = true → (s.port p).gnt = false →
     let q := s.port p
     (∀ c claim re, q.grant = .requesting → q.state ≠ .offline → q.outstanding = none →
       q.nextClaim = some (c, claim, re) →
       ∃ t, exec (.gntRise p) s = .next t ∧ (t.port p).grant = .granted ∧ (t.port p).gnt = true ∧
         (t.port p).outstanding = some ⟨claim, q.nextTag, some c, q.settings.timeout⟩ ∧
         (t.port p).nextTag = !q.nextTag) ∧
     (q.grant = .idle → ∃ t, exec (.gntRise p) s = .next t ∧ (t.port p).grant = .releasing ∧
       (t.port p).gnt = true ∧ (t.port p).req = false ∧ (t.port p).outstanding = q.outstanding)) ∧
  (∀ q : Port,
     (∀ c claim, q.reissue = some (c, claim) → q.nextClaim = some (c, claim, true)) ∧
     (q.reissue = none → q.labelClaim = true →
       q.nextClaim = some (.label, ⟨.read .blockCheck, 0, 1⟩, false)) ∧
     (∀ c, q.reissue = none → q.labelClaim = false → q.rpuClaim = some c →
       q.nextClaim = some (.rpu, c, false)) ∧
     (∀ c, q.reissue = none → q.labelClaim = false → q.rpuClaim = none → q.jobClaim = some c →
       q.nextClaim = some (.job, c, false)) ∧
     (q.hasClaims = false → q.nextClaim = none))

/-- GNT falls (R47, R48): with no command outstanding the port is IDLE, or requests again; with YLD low an
outstanding command is a port error with a reissue for its claimant; with YLD high it is cut, the port state
stays, and RPU's claim is placed again. -/
def Obligations.GrantLost : Prop :=
  ∀ (s : State) (p : PortId), s.portsSet = true → (s.port p).gnt = true →
    let q := s.port p
    (q.outstanding = none → (q.hasClaims = false ∨ q.yld = true) →
      ∃ t, exec (.gntFall p) s = .next t ∧ (t.port p).gnt = false ∧ (t.port p).grant = .idle ∧
        (t.port p).req = false ∧ (t.port p).state = q.state) ∧
    (q.outstanding = none → q.hasClaims = true → q.yld = false → q.state ≠ .offline →
      ∃ t, exec (.gntFall p) s = .next t ∧ (t.port p).gnt = false ∧ (t.port p).grant = .requesting ∧
        (t.port p).req = true ∧ (t.port p).state = q.state) ∧
    (∀ o, q.outstanding = some o → q.yld = false → q.state = .normal →
      ∃ t, exec (.gntFall p) s = .next t ∧ (t.port p).outstanding = none ∧ (t.port p).gnt = false ∧
        (t.port p).state = .recovery ∧
        (∀ c, o.claimant = some c → (t.port p).reissue = some (c, o.claim)) ∧
        (o.claimant = none → (t.port p).reissue = q.reissue)) ∧
    (∀ o, q.outstanding = some o → q.yld = true →
      ∃ t, exec (.gntFall p) s = .next t ∧ (t.port p).outstanding = none ∧ (t.port p).gnt = false ∧
        (t.port p).grant = .idle ∧ (t.port p).req = false ∧ (t.port p).state = q.state ∧
        (o.claimant = some .rpu → q.state ≠ .offline → (t.port p).rpuClaim = some o.claim))

/-- YLD rises and falls (R46, R47, R83): a request is dropped, a grant is released with REQ high while a command
is outstanding, and a RUNNING job with its claim pending yields; a YIELDED job goes on when YLD falls. -/
def Obligations.YieldFollowsYld : Prop :=
  ∀ (s : State) (p : PortId), s.portsSet = true →
    let q := s.port p
    (q.yld = false →
      (q.grant = .requesting → ∃ t, exec (.yldRise p) s = .next t ∧ (t.port p).yld = true ∧
        (t.port p).grant = .idle ∧ (t.port p).req = false) ∧
      (q.grant = .granted → ∃ t, exec (.yldRise p) s = .next t ∧ (t.port p).yld = true ∧
        (t.port p).grant = .releasing ∧ (t.port p).req = q.outstanding.isSome ∧
        (t.port p).outstanding.isSome = q.outstanding.isSome) ∧
      (∀ i j, s.activeSlot p = some i → s.slot i = some j → j.state = .running →
        q.jobPending = true →
        ∃ t, exec (.yldRise p) s = .next t ∧ t.slot i = some { j with state := .yielded } ∧
          (t.port p).jobPending = false)) ∧
    (q.yld = true →
      (s.activeSlot p = none → ∃ t, exec (.yldFall p) s = .next t ∧ (t.port p).yld = false ∧
        t.jbu = s.jbu) ∧
      (∀ i j, s.activeSlot p = some i → s.slot i = some j → j.state = .yielded →
        exec (.yldFall p) s = .next (settle ((((s.modPort p (fun q => { q with yld := false })).modJob i
          (fun j => { j with state := .running })).boundary i).followUp p))))

/-- The timeout of the outstanding command expires (R42, R51, R52): a NORMAL port goes to RECOVERY with a
reissue for the claimant, if the command is no orphan; a RECOVERY port goes OFFLINE with cause ESCALATION,
and no job on it stays non-terminal (R54, R86). -/
def Obligations.TimeoutEscalates : Prop :=
  ∀ (s : State) (p : PortId) (o : Outstanding), (s.port p).outstanding = some o →
    ((s.port p).state = .normal → exec (.commandTimeout p) s = .next (settle (State.postPortEvent
      (s.setPort p { s.port p with
        outstanding := none, engine := DigestEngine.idle, state := .recovery
        reissue := match o.claimant with
          | some c => some (c, o.claim)
          | none => (s.port p).reissue }) p .port))) ∧
    ((s.port p).state = .recovery → ∃ t, exec (.commandTimeout p) s = .next t ∧
      (t.port p).state = .offline ∧ (t.port p).cause = some .escalation ∧ (t.port p).Quiet ∧
      ∀ i j, t.slot i = some j → j.port = p → j.state.terminal = true)

/-- Replies (R41, R43, R52). The bytes of a reply spell the fields of Table 11-12; bytes that end within the record
are no reply yet (log 13). A reply with no command outstanding, or with another tag, changes nothing; a malformed
one or a DRIVE_ERROR is a port error. Any other is an outcome: a port in RECOVERY returns to NORMAL, a READ answered
GOOD or MEDIUM_ERROR feeds the monitor, also for an orphan, and the claimant, if any, takes the outcome. That the
monitor is fed before the claimant takes it is the model's choice (log 32). -/
def Obligations.RepliesJudged : Prop :=
  (∀ (s : State) (p : PortId) (bytes : List Byte),
    (DriveReply.ofBytes bytes = none → exec (.driveReply p bytes) s = .next s) ∧
    (∀ r, DriveReply.ofBytes bytes = some r →
      ((s.port p).outstanding = none → exec (.driveReply p bytes) s = .next s) ∧
      (∀ o, (s.port p).outstanding = some o →
        (r.tag.toNat ≠ o.tag.toNat → exec (.driveReply p bytes) s = .next s) ∧
        (r.tag.toNat = o.tag.toNat →
          (replyStatus o.claim r = none ∨ replyStatus o.claim r = some .driveError) →
          exec (.driveReply p bytes) s = .next (settle (s.portError p))) ∧
        (∀ st, r.tag.toNat = o.tag.toNat → replyStatus o.claim r = some st → st ≠ .driveError →
          let done := { s.port p with outstanding := none, engine := DigestEngine.idle }
          let judged : State :=
            if (s.port p).state = .recovery
            then (s.setPort p { done with state := .normal }).postPortEvent p .port
            else s.setPort p done
          let fed : State :=
            match o.claim.transfer, st with
            | .read _, .good | .read _, .mediumError => judged.feedMargin p r.corrected o.claim.blocks
            | _, _ => judged
          let outcome := outcomeOf (s.port p) o.claim r st
          (o.claimant = none → exec (.driveReply p bytes) s = .next (settle fed)) ∧
          (o.claimant = some .label → exec (.driveReply p bytes) s = .next (settle (fed.settleLabel p outcome))) ∧
          (o.claimant = some .rpu → exec (.driveReply p bytes) s = .next (settle (fed.rpuOutcome p outcome))) ∧
          (o.claimant = some .job →
            (s.activeSlot p = none → exec (.driveReply p bytes) s = .next (settle fed)) ∧
            (∀ i, s.activeSlot p = some i →
              exec (.driveReply p bytes) s = .next (settle ((fed.readOutcome i outcome).followUp p)))))))) ∧
  (∀ (tag status : Byte) (corrected : Nat) (offsets : List Nat) (data : List Byte),
    corrected ≤ 65535 → offsets.length ≤ 65535 → (∀ x ∈ offsets, x ≤ 65535) →
    DriveReply.ofBytes ([tag, status] ++ le 2 corrected ++ le 2 offsets.length ++ offsets.flatMap (le 2) ++ data)
      = some { tag := tag, status := status, corrected := corrected, offsets := offsets, data := data }) ∧
  (∀ (c : Claim) (r : DriveReply),
    let read := ∃ form, c.transfer = .read form
    (replyStatus c r = none ↔
      5 ≤ r.status.toNat ∨ (read ∧ r.status.toNat = 0 ∧ r.offsets ≠ []) ∨
        (read ∧ r.status.toNat = 1 ∧ r.offsets = []) ∨
        (read ∧ (¬ r.offsets.Pairwise (· < ·) ∨ ∃ x ∈ r.offsets, c.blocks ≤ x)) ∨
        (read ∧ r.status.toNat = 3) ∨
        (read ∧ r.status.toNat ≤ 1 ∧ r.data.length ≠ c.blocks * 4096) ∨
        ((¬ read ∨ 2 ≤ r.status.toNat) ∧ r.data ≠ [])) ∧
    (∀ st, replyStatus c r = some st →
      r.status.toNat = match st with
        | .good => 0 | .mediumError => 1 | .notReady => 2 | .writeProtected => 3 | .driveError => 4)) ∧
  (∀ (q : Port) (c : Claim) (r : DriveReply) (st : DriveStatus),
    (outcomeOf q c r st).status = st ∧ (outcomeOf q c r st).blocks = c.blocks ∧
    (∀ form, c.transfer = .read form →
      (outcomeOf q c r st).corrected = r.corrected ∧ (outcomeOf q c r st).offsets = r.offsets ∧
        (outcomeOf q c r st).data = r.data ∧
        (outcomeOf q c r st).result = (if st = .good then q.engine.result r.data else .nothing)) ∧
    (∀ w, c.transfer = .write w →
      (outcomeOf q c r st).offsets = [] ∧ (outcomeOf q c r st).result = .nothing))

/-- A label read settles (R57): MOUNTED for a GOOD reply with the mark, a sound block and a block count of 2 or more,
where a field of 0 stands for `2^40` (R192); UNLABELLED for any other outcome. Presence of a copy by Table 2-3
(R26). -/
def Obligations.LabelsAndPresence : Prop :=
  (∀ (s : State) (p : PortId) (bytes : List Byte) (r : DriveReply) (o : Outstanding) (st : DriveStatus),
     DriveReply.ofBytes bytes = some r → (s.port p).outstanding = some o → o.claimant = some .label → r.tag.toNat = o.tag.toNat →
     o.claim = ⟨.read .blockCheck, 0, 1⟩ →
     (s.port p).engine = DigestEngine.start .blockCheck →
     replyStatus o.claim r = some st → st ≠ .driveError →
     let n := if field r.data 12 5 = 0 then 2 ^ 40 else field r.data 12 5
     let good := st = .good ∧
       slice r.data 0 8 = [0x4E#8, 0x4D#8, 0x42#8, 0x52#8, 0x4C#8, 0x42#8, 0x4C#8, 0x31#8] ∧
       digestAt r.data 4092 = digest (r.data.take 4092) ∧ 2 ≤ n
     ∃ t, exec (.driveReply p bytes) s = .next t ∧
       (good → (t.port p).volume = .mounted (BitVec.ofNat 32 (field r.data 8 4)) n) ∧
       (¬ good → (t.port p).volume = .unlabelled)) ∧
  (∀ (q : Port) (e : StoredEntry) (c : CopyDesc),
     (q.state = .offline → presenceOn q e c = .portOffline) ∧
     (q.state ≠ .offline →
       (∀ v n, q.volume = .mounted v n →
         (v = c.volumeId → highestBlock e c < n → presenceOn q e c = .present) ∧
         (v = c.volumeId → n ≤ highestBlock e c → presenceOn q e c = .outOfBounds) ∧
         (v ≠ c.volumeId → presenceOn q e c = .absent)) ∧
       (q.volume = .noMedia ∨ q.volume = .labelRead ∨ q.volume = .unlabelled →
         presenceOn q e c = .absent)))

/-! ### Jobs -/

/-- START_SCRUB (R87, R88): its checks in order, with the range of each form (WHOLE, INDEX, TIMECODE), and a REQUESTED
job on the copy's port, REEL_SCRUB for WHOLE and RANGE_SCRUB for a range. START_VERIFY (R89): its checks in order, and a REQUESTED verify on the port. -/
def Obligations.StartRequestsCreateJobs : Prop :=
  (∀ (s : State) (r : Request), s.Takes .startScrub r →
     let n := field r.payload 0 2
     let form := field r.payload 3 1
     ((n = 0 ∨ s.entry n = none) → exec .startScrub s = .next (s.answer .noSuchReel [])) ∧
     (∀ e, n ≠ 0 → s.entry n = some e →
       (copyAsked e.toStoredEntry (field r.payload 2 1) = none →
         exec .startScrub s = .next (s.answer .badArgument [])) ∧
       (∀ k c, copyAsked e.toStoredEntry (field r.payload 2 1) = some (k, c) →
         let range := scrubRange e.toStoredEntry r.payload
         let first := field r.payload 4 4
         let last := field r.payload 8 4
         let from' := timecodeAt r.payload 12
         let to' := timecodeAt r.payload 16
         let index (t : Timecode) : Nat :=
           (((t.count e.rate : Int) - e.start.count e.rate) % e.rate.dayCount).toNat
         let inReel (t : Timecode) : Prop := t.valid e.rate = true ∧ index t < e.frameCount
         (3 ≤ form → exec .startScrub s = .next (s.answer .badArgument [])) ∧
         (∀ st, range = .error st → exec .startScrub s = .next (s.answer st [])) ∧
         (form = 0 → range = .ok (.reelScrub, 0, e.frameCount - 1)) ∧
         (form = 1 →
           (e.frameCount ≤ first ∨ e.frameCount ≤ last → range = .error .outOfReel) ∧
           (first < e.frameCount → last < e.frameCount → last < first → range = .error .badArgument) ∧
           (first ≤ last → last < e.frameCount → range = .ok (.rangeScrub, first, last))) ∧
         (form = 2 →
           (from'.valid e.rate = false → range = .error .badTimecode) ∧
           (from'.valid e.rate = true → e.frameCount ≤ index from' → range = .error .outOfReel) ∧
           (inReel from' → to'.valid e.rate = false → range = .error .badTimecode) ∧
           (inReel from' → to'.valid e.rate = true → e.frameCount ≤ index to' → range = .error .outOfReel) ∧
           (inReel from' → inReel to' → index to' < index from' → range = .error .badArgument) ∧
           (inReel from' → inReel to' → index from' ≤ index to' →
             range = .ok (.rangeScrub, index from', index to'))) ∧
         (∀ kind a b, scrubRange e.toStoredEntry r.payload = .ok (kind, a, b) →
           (s.copyTargeted ⟨e.reel, k⟩ = true → exec .startScrub s = .next (s.answer .reelBusy [])) ∧
           (s.copyTargeted ⟨e.reel, k⟩ = false →
             ((s.port c.port).state = .offline →
               exec .startScrub s = .next (s.answer .portOffline [])) ∧
             ((s.port c.port).state ≠ .offline → s.findSlot = none →
               exec .startScrub s = .next (s.answer .noSlot [])) ∧
             (∀ i, (s.port c.port).state ≠ .offline → s.findSlot = some i →
               exec .startScrub s = .next ((settle ((s.createJob i
                 (newJob (s.idFor i) kind .requested (some ⟨e.reel, k⟩) c.port a (some b))).followUp
                   c.port)).answer .accepted (le 2 (s.idFor i))))))))) ∧
  (∀ (s : State) (r : Request), s.Takes .startVerify r →
     (8 ≤ field r.payload 0 1 → exec .startVerify s = .next (s.answer .badArgument [])) ∧
     (∀ p : PortId, field r.payload 0 1 = p.val →
       ((s.port p).state = .offline → exec .startVerify s = .next (s.answer .portOffline [])) ∧
       ((s.port p).state ≠ .offline →
         ((∃ i j, s.slot i = some j ∧ j.port = p ∧ j.kind = .volumeVerify ∧ j.state.terminal = false) →
           exec .startVerify s = .next (s.answer .busy [])) ∧
         ((∀ i j, s.slot i = some j → j.port = p → j.kind = .volumeVerify → j.state.terminal = true) →
           (s.findSlot = none → exec .startVerify s = .next (s.answer .noSlot [])) ∧
           (∀ i, s.findSlot = some i →
             exec .startVerify s = .next ((settle ((s.createJob i
               (newJob (s.idFor i) .volumeVerify .requested none p 1 none)).followUp p)).answer
                 .accepted (le 2 (s.idFor i))))))))

/-- A job's creation, its slot and its id (R64, R67, R69). The slot found is a FREE one if there is one, else that of the
terminal job with the lowest end order, else none; it then holds the job, QUEUED with the next queue sequence where
its media is ready and in WAIT_MEDIA, with its JOB_WAIT, otherwise; a job reclaimed from it is forgotten without a
notice; the id is in no other slot. The head of a port's queue (R70) is a QUEUED job of the port that no other stands
ahead of, and there is none only where the port has no QUEUED job. -/
def Obligations.CreatedJobTakesItsPlace : Prop :=
  -- The slot (R67).
  (∀ s : State,
     ((∃ k, s.slot k = none) → ∃ i, s.findSlot = some i ∧ s.slot i = none) ∧
     ((∀ k, s.slot k ≠ none) → (∃ k l, s.slot k = some l ∧ l.state.terminal = true) →
       ∃ i j, s.findSlot = some i ∧ s.slot i = some j ∧ j.state.terminal = true ∧
         ∀ k l a b, s.slot k = some l → l.state.terminal = true → j.endOrder = some a → l.endOrder = some b →
           a ≤ b) ∧
     (s.findSlot = none ↔ ∀ k, ∃ l, s.slot k = some l ∧ l.state.terminal = false)) ∧
  -- The job in its slot (R67, R69).
  ((∀ (s : State) (i : SlotId) (j : Job), s.jbu.sequence < 4294967295 →
     let t := s.createJob i j
     let b := j.bind (s.port j.port).volume
     (s.mediaReady j = true →
       t.slot i = some { b with state := .queued, sequence := s.jbu.sequence + 1 } ∧
         t.jbu.sequence = s.jbu.sequence + 1 ∧ t.link = s.link) ∧
     (s.mediaReady j = false → ∃ x, t.slot i = some x ∧ x.state = .waitMedia ∧ x.id = j.id ∧
       t.link = (s.post (jobWaitNotice x)).link) ∧
     ∀ k, k ≠ i → t.slot k = s.slot k) ∧
  -- Its id (R64).
   (∀ (s : State) (i : SlotId), 1 ≤ s.jbu.nextId → s.jbu.nextId ≤ 65535 →
     (∀ k j, k ≠ i → s.slot k = some j → j.id ≠ s.idFor i) ∧ 1 ≤ s.idFor i ∧ s.idFor i ≤ 65535 ∧
       ((∀ k j, k ≠ i → s.slot k = some j → j.id ≠ s.jbu.nextId) → s.idFor i = s.jbu.nextId))) ∧
  -- The head of a queue (R70).
  (∀ (s : State) (p : PortId),
     (s.queueHead p = none ↔ ∀ k l, s.slot k = some l → l.port = p → l.state ≠ .queued) ∧
     ∀ i, s.queueHead p = some i →
       ∃ j, s.slot i = some j ∧ j.state = .queued ∧ j.port = p ∧
         ∀ k l, s.slot k = some l → l.state = .queued → l.port = p →
           ¬ (l.origin = .requested ∧ j.origin = .patrol) ∧
           ¬ (l.origin = j.origin ∧ l.sequence < j.sequence))

/-- SUSPEND_JOB, RESUME_JOB, ABORT_JOB and JOB_STATUS (R90, R92, R93, R94): their checks in order and what becomes
of the job named. -/
def Obligations.JobRequestsAct : Prop :=
  ∀ (s : State) (r : Request),
    let n := field r.payload 0 2
    (s.jobNamed n = none →
      (s.Takes .suspendJob r → exec .suspendJob s = .next (s.answer .noSuchJob [])) ∧
      (s.Takes .resumeJob r → exec .resumeJob s = .next (s.answer .noSuchJob [])) ∧
      (s.Takes .abortJob r → exec .abortJob s = .next (s.answer .noSuchJob [])) ∧
      (s.Takes .jobStatus r → exec .jobStatus s = .next (s.answer .noSuchJob []))) ∧
    (∀ i j, s.jobNamed n = some (i, j) →
      (s.Takes .suspendJob r →
        (j.kind = .volumeVerify → exec .suspendJob s = .next (s.answer .ignored [])) ∧
        (j.kind ≠ .volumeVerify → j.state ≠ .running →
          exec .suspendJob s = .next (s.answer .notRunning [])) ∧
        (j.kind ≠ .volumeVerify → j.state = .running → j.resumedEver = true → j.sinceResume < 16 →
          exec .suspendJob s = .next (s.answer .tooSoon [])) ∧
        (j.kind ≠ .volumeVerify → j.state = .running →
          (j.resumedEver = false ∨ 16 ≤ j.sinceResume) →
          ((s.port j.port).jobOutstanding = true → exec .suspendJob s = .next ((settle
            (s.setSlot i (some { j with state := .suspending }))).answer .ok [])) ∧
          ((s.port j.port).jobOutstanding = false → ∃ u : State,
            u.slot i = some { j with state := .suspended } ∧ (u.port j.port).jobPending = false ∧
            exec .suspendJob s = .next ((settle (u.followUp j.port)).answer .ok [])))) ∧
      (s.Takes .resumeJob r →
        (j.state ≠ .suspended → exec .resumeJob s = .next (s.answer .notSuspended [])) ∧
        (j.state = .suspended → s.jbu.sequence < 4294967295 → ∃ u : State,
          u.slot i = some { j with state := .queued, sequence := s.jbu.sequence + 1,
                                   sinceResume := 0, resumedEver := true } ∧
          exec .resumeJob s = .next ((settle (u.followUp j.port)).answer .ok []))) ∧
      (s.Takes .abortJob r →
        (j.state.terminal = true → exec .abortJob s = .next (s.answer .notRunning [])) ∧
        (j.state.terminal = false → ∃ u : State,
          (j.origin = .patrol → u.slot i = none) ∧
          (j.origin = .requested → ∃ x, u.slot i = some x ∧ x.state = .aborted ∧
            x.endReason = some .aborted ∧ x.finding = none ∧ x.settling = none ∧
            x.cursor = j.cursor ∧ x.good = j.good ∧ x.defective = j.defective ∧
            x.unchecked = j.unchecked) ∧
          i ∉ u.dfl.stallOrder ∧ u.cat = s.cat ∧
          (j.state.active = true → (u.port j.port).jobPending = false) ∧
          exec .abortJob s = .next ((settle (u.followUp j.port)).answer .ok []))) ∧
      (s.Takes .jobStatus r →
        (j.state.terminal = false → exec .jobStatus s = .next (s.answer .ok j.statusFields)) ∧
        (j.state.terminal = true →
          exec .jobStatus s = .next ((s.setSlot i none).answer .ok j.statusFields))))

/-- The outcomes of the reads of jobs. Two clauses on a whole reply, with YLD low and frames left: a frame read GOOD
(R76, R77, R103, R104) with the digest of its reference is counted good; with another digest it adds a MISMATCH
record and is counted defective, or, against a full list, the job stalls holding the finding. Then, for every state:
what a scrub does with the outcome of a frame or manifest read (R74, R75, R76); what becomes of its finding (R77,
R84); what taking a finding counts (R75, R77); the steps of a frame boundary with the end of the job and last_scrub
(R72, R73); the entry into WAIT_MEDIA (R85); what a verify does with the outcome of its read and with its findings
(R80, R82), settled in one step (log 14, DEDUCED); and the place of a block (R81). -/
def Obligations.FramesSettle : Prop :=
  (∀ (s : State) (p : PortId) (bytes : List Byte) (r : DriveReply) (o : Outstanding) (i : SlotId) (j : Job)
     (t : Target) (d : Digest) (e : Nat),
     DriveReply.ofBytes bytes = some r →
     (s.port p).outstanding = some o → o.claimant = some .job → r.tag.toNat = o.tag.toNat →
     replyStatus o.claim r = some .good → (∃ form, o.claim.transfer = .read form) →
     (s.port p).engine.result r.data = .digest d → (s.port p).yld = false →
     s.activeSlot p = some i → s.slot i = some j → j.port = p → j.state = .running →
     j.target = some t → j.kind ≠ .volumeVerify → j.manifestLoaded = true → j.reference = some d →
     j.rangeEnd = some e → j.cursor < e →
     ∃ u, exec (.driveReply p bytes) s = .next u ∧
       u.slot i = some { j with good := j.good + 1, cursor := j.cursor + 1,
                                sinceResume := j.sinceResume + 1 } ∧
       u.dfl.records.length = s.dfl.records.length ∧ u.cat = s.cat) ∧
  (∀ (s : State) (p : PortId) (bytes : List Byte) (r : DriveReply) (o : Outstanding) (i : SlotId) (j : Job)
     (t : Target) (d : Digest) (e : Nat),
     DriveReply.ofBytes bytes = some r →
     (s.port p).outstanding = some o → o.claimant = some .job → r.tag.toNat = o.tag.toNat →
     replyStatus o.claim r = some .good → (∃ form, o.claim.transfer = .read form) →
     (s.port p).engine.result r.data = .digest d → (s.port p).yld = false →
     s.activeSlot p = some i → s.slot i = some j → j.port = p → j.state = .running →
     j.target = some t → j.kind ≠ .volumeVerify → j.manifestLoaded = true → j.reference ≠ some d →
     j.rangeEnd = some e → j.cursor < e →
     (∀ x ∈ s.dfl.records, x.place = .frame t.reel t.copy j.cursor → x.state.terminal = true) →
     (s.dfl.records.length < 256 → ∃ u x, exec (.driveReply p bytes) s = .next u ∧
       u.slot i = some { j with defective := j.defective + 1, cursor := j.cursor + 1,
                                sinceResume := j.sinceResume + 1 } ∧
       u.dfl.records.length = s.dfl.records.length + 1 ∧ u.dfl.records.getLast? = some x ∧
       x.kind = .mismatch ∧ x.place = .frame t.reel t.copy j.cursor ∧ x.expected = j.reference ∧
       x.found = some d ∧ x.seen = 1 ∧ x.minute = (if s.pts.clockSet then some s.pts.clock else none)) ∧
     (256 ≤ s.dfl.records.length → ∃ u f, exec (.driveReply p bytes) s = .next u ∧
       u.slot i = some { j with state := .stalled, finding := some f } ∧
       f.place = .frame t.reel t.copy j.cursor ∧ f.expected = j.reference ∧ f.found = some d ∧
       u.dfl.records.length = s.dfl.records.length ∧
       u.dfl.stallOrder = s.dfl.stallOrder ++ [i])) ∧
  -- The outcome of a scrub's read (R74, R75, R76).
  (∀ (s : State) (i : SlotId) (j : Job) (t : Target) (o : DriveOutcome),
     s.slot i = some j → j.target = some t → j.kind ≠ .volumeVerify →
     let origin : FindingOrigin := if j.origin = .patrol then .patrol else .requested
     let noReferences : Finding :=
       { kind := .manifest, port := j.port, place := .manifest t.reel t.copy (j.cursor / 1023)
         expected := none, found := none, origin := origin }
     let frame (kind : DefectKind) (expected found : Option Digest) : Finding :=
       { kind := kind, port := j.port, place := .frame t.reel t.copy j.cursor
         expected := expected, found := found, origin := origin }
     (o.status = .notReady → s.readOutcome i o = s.enterWaitMedia i) ∧
     ((∀ m, j.manifest = some m → m.index ≠ j.cursor / 1023) →
       (∀ slots check, o.status = .good → o.result = .block true slots check →
         s.readOutcome i o =
           (s.setSlot i (some { j with manifest := some ⟨j.cursor / 1023, slots⟩ })).boundary i) ∧
       (∀ slots check, o.status = .good → o.result = .block false slots check →
         s.readOutcome i o = s.scrubFinding i noReferences) ∧
       (o.status = .mediumError → s.readOutcome i o = s.scrubFinding i noReferences)) ∧
     (∀ m, j.manifest = some m → m.index = j.cursor / 1023 →
       let reference := m.slots.getD (j.cursor % 1023) 0#32
       (∀ d, o.status = .good → o.result = .digest d →
         (d = reference → s.readOutcome i o = (s.setSlot i (some { j with
           good := j.good + 1, cursor := j.cursor + 1, sinceResume := j.sinceResume + 1 })).boundary i) ∧
         (d ≠ reference → s.readOutcome i o = s.scrubFinding i (frame .mismatch (some reference) (some d)))) ∧
       (o.status = .mediumError →
         s.readOutcome i o = s.scrubFinding i (frame .unreadable (some reference) none)))) ∧
  -- What becomes of a finding (R77, R84), and what its taking counts (R75, R77).
  (∀ (s : State) (i : SlotId) (j : Job) (f : Finding), s.slot i = some j →
     ((s.takeFinding f).1 = .full → s.scrubFinding i f = s.stallJob i f) ∧
     ((s.takeFinding f).1 ≠ .full →
       s.scrubFinding i f = ((s.takeFinding f).2.setSlot i (some (j.completeFinding f))).boundary i) ∧
     (let u := s.stallJob i f
      u.slot i = some { j with state := .stalled, finding := some f } ∧
        u.dfl = { s.dfl with stallOrder := s.dfl.stallOrder ++ [i] } ∧ u.cat = s.cat ∧
        (∀ p, u.port p = s.port p) ∧ (∀ k, k ≠ i → u.slot k = s.slot k) ∧
        u.link = (s.post (jobWaitNotice { j with state := .stalled, finding := some f })).link)) ∧
  (∀ (j : Job) (f : Finding), j.kind ≠ .volumeVerify →
     (∀ n k c, f.place = .frame n k c → j.completeFinding f =
       { j with defective := j.defective + 1, cursor := j.cursor + 1, sinceResume := j.sinceResume + 1 }) ∧
     (∀ n k m e, f.place = .manifest n k m → j.rangeEnd = some e → j.completeFinding f =
       { j with unchecked := j.unchecked + (min (1023 * m + 1022) e + 1 - j.cursor)
                cursor := min (1023 * (m + 1)) (e + 1), manifest := none })) ∧
  -- A frame boundary (R72, R73).
  (∀ (s : State) (i : SlotId) (j : Job), s.slot i = some j → j.kind ≠ .volumeVerify →
     let u := s.boundary i
     (j.state = .suspending → u = s.setSlot i (some { j with state := .suspended })) ∧
     (j.state ≠ .suspending → (s.port j.port).yld = true →
       u = (s.setSlot i (some { j with state := .yielded })).post
         (jobWaitNotice { j with state := .yielded })) ∧
     (∀ e, j.state ≠ .suspending → (s.port j.port).yld = false → j.rangeEnd = some e → e < j.cursor →
       (j.origin = .patrol → u.slot i = none) ∧
       (j.origin = .requested → ∃ n, u.slot i = some { j with
         state := .done, endReason := some .complete, endOrder := some n }) ∧
       (∀ t, j.kind = .reelScrub → j.target = some t → s.pts.clockSet = true →
         u.cat = s.cat.map (fun e => if e.reel ≠ t.reel then e else match t.copy with
           | .a => { e with copyA := { e.copyA with lastScrub := some s.pts.clock } }
           | .b => { e with copyB := e.copyB.map (fun c => { c with lastScrub := some s.pts.clock }) })) ∧
       (j.kind ≠ .reelScrub ∨ s.pts.clockSet = false → u.cat = s.cat) ∧
       u.dfl = s.dfl ∧ (∀ p, u.port p = s.port p)) ∧
     (∀ e t en c, j.state ≠ .suspending → (s.port j.port).yld = false → j.rangeEnd = some e → j.cursor ≤ e →
       j.target = some t → s.entry t.reel = some en → en.copy t.copy = some c →
       let claims (cl : Claim) : Prop := u = s.modPort j.port (fun q =>
         if q.state = .offline then q else { q with jobClaim := some cl })
       ((∀ m, j.manifest = some m → m.index ≠ j.cursor / 1023) →
         claims ⟨.read .blockCheck, c.manifestBlock + j.cursor / 1023, 1⟩) ∧
       (∀ m, j.manifest = some m → m.index = j.cursor / 1023 →
         claims ⟨.read (.frame en.frameBytes), c.firstFrameBlock + j.cursor * blocksPerFrame en.frameBytes,
           blocksPerFrame en.frameBytes⟩))) ∧
  -- Entering WAIT_MEDIA (R85).
  (∀ (s : State) (i : SlotId) (j : Job), s.slot i = some j →
     let u := s.enterWaitMedia i
     u.slot i = some { j with state := .waitMedia, manifest := none, finding := none, settling := none } ∧
       (∀ k, k ≠ i → u.slot k = s.slot k) ∧ u.dfl.records = s.dfl.records ∧ u.cat = s.cat ∧
       u.dfl.stallOrder = s.dfl.stallOrder.filter (fun k => decide (k ≠ i)) ∧
       u.jbu.waitOrder = s.jbu.waitOrder.filter (fun k => decide (k ≠ i)) ++ [i] ∧
       (j.state.active = true →
         (u.port j.port).jobPending = false ∧ (u.port j.port).jobOutstanding = false) ∧
       u.link = (s.post (jobWaitNotice
         { j with state := .waitMedia, manifest := none, finding := none, settling := none })).link) ∧
  -- The outcome of a verify's read (R80, R82).
  (∀ (s : State) (i : SlotId) (j : Job) (o : DriveOutcome) (e : Nat), s.slot i = some j →
     j.kind = .volumeVerify → j.target = none → j.state = .running → j.rangeEnd = some e →
     let n := min 256 (e + 1 - j.cursor)
     let finding (a : Nat) : Finding :=
       { kind := match s.verifyPlace j a with
           | .frame _ _ _ => .unreadable | .manifest _ _ _ => .manifest | .block _ => .block
         port := j.port, place := s.verifyPlace j a, expected := none, found := none, origin := .verify }
     let settled : Job := { j with
       blocksRead := j.blocksRead + n, blocksUnreadable := j.blocksUnreadable + o.offsets.length
       cursor := j.cursor + n, settling := none }
     (o.status = .notReady → s.readOutcome i o = s.enterWaitMedia i) ∧
     (o.status = .good → s.readOutcome i o = (s.setSlot i (some { j with
       blocksRead := j.blocksRead + o.blocks, cursor := j.cursor + o.blocks })).boundary i) ∧
     (o.status = .mediumError → s.dfl.records.length + o.offsets.length ≤ 256 →
       ∃ v : State, s.readOutcome i o = v.boundary i ∧ v.slot i = some settled ∧
         (∀ a ∈ o.offsets, ∃ x ∈ v.dfl.records, x.place = s.verifyPlace j (j.cursor + a)) ∧
         s.dfl.records.length ≤ v.dfl.records.length ∧
         v.dfl.records.length ≤ s.dfl.records.length + o.offsets.length) ∧
     (∀ a rest, o.status = .mediumError → o.offsets = a :: rest → 256 ≤ s.dfl.records.length →
       let f := finding (j.cursor + a)
       (∀ x ∈ s.dfl.records, x.place = f.place → x.state.terminal = true ∨ ∃ b, f.place = .block b) →
       let left := rest.filter (fun b =>
         !(decide (s.verifyPlace j (j.cursor + b) = f.place) && f.place.hasKey))
       ∃ u, s.readOutcome i o = u ∧
         u.slot i = some { j with
           state := .stalled, finding := some f, settling := some ⟨left, o.offsets.length⟩ } ∧
         u.dfl = { s.dfl with stallOrder := s.dfl.stallOrder ++ [i] })) ∧
  -- A boundary of a verify (R80), and what is counted when a stalled verify's finding has been taken (R82, R84).
  (∀ (s : State) (i : SlotId) (j : Job), s.slot i = some j → j.kind = .volumeVerify → j.state = .running →
     let u := s.boundary i
     ((s.port j.port).yld = true →
       u = (s.setSlot i (some { j with state := .yielded })).post (jobWaitNotice { j with state := .yielded })) ∧
     (∀ e, (s.port j.port).yld = false → j.settling = none → j.rangeEnd = some e →
       (e < j.cursor → u.cat = s.cat ∧ u.dfl = s.dfl ∧
         (j.origin = .requested → ∃ n, u.slot i = some { j with
           state := .done, endReason := some .complete, endOrder := some n })) ∧
       (j.cursor ≤ e → u = s.modPort j.port (fun q => if q.state = .offline then q
         else { q with jobClaim := some ⟨.read .pass, j.cursor, min 256 (e + 1 - j.cursor)⟩ }))) ∧
     (∀ st e, (s.port j.port).yld = false → j.settling = some st → j.rangeEnd = some e →
       let n := min 256 (e + 1 - j.cursor)
       (s.dfl.records.length + st.remaining.length ≤ 256 →
         ∃ v : State, u = v.boundary i ∧ v.slot i = some { j with
           blocksRead := j.blocksRead + n, blocksUnreadable := j.blocksUnreadable + st.total
           cursor := j.cursor + n, settling := none }) ∧
       (st.remaining ≠ [] → 256 ≤ s.dfl.records.length →
         (∀ x ∈ s.dfl.records, x.state.terminal = true) →
         ∃ f left, u.slot i = some { j with
             state := .stalled, finding := some f, settling := some ⟨left, st.total⟩ } ∧
           left.length < st.remaining.length ∧ u.dfl.stallOrder = s.dfl.stallOrder ++ [i]))) ∧
  (∀ (j : Job) (f : Finding) (st : Settling) (e : Nat), j.kind = .volumeVerify → j.settling = some st →
     j.rangeEnd = some e →
     let n := min 256 (e + 1 - j.cursor)
     (st.remaining = [] → j.completeFinding f = { j with
       blocksRead := j.blocksRead + n, blocksUnreadable := j.blocksUnreadable + st.total
       cursor := j.cursor + n, settling := none }) ∧
     (st.remaining ≠ [] → j.completeFinding f = j)) ∧
  -- The place of a block (R81).
  (∀ (s : State) (j : Job) (vol : VolumeId) (n a : Nat), j.volume = some (vol, n) →
     let mine (e : Entry) (k : CopyId) (c : CopyDesc) : Prop :=
       e ∈ s.cat ∧ e.copy k = some c ∧ c.port = j.port ∧ c.volumeId = vol
     let inFrames (e : Entry) (c : CopyDesc) : Prop := c.firstFrameBlock ≤ a ∧
       a ≤ c.firstFrameBlock + e.frameCount * blocksPerFrame e.frameBytes - 1
     let inManifests (e : Entry) (c : CopyDesc) : Prop := c.manifestBlock ≤ a ∧
       a ≤ c.manifestBlock + manifestLength e.frameCount - 1
     match s.verifyPlace j a with
     | .frame reel k f => ∃ e c, mine e k c ∧ e.reel = reel ∧ inFrames e c ∧
         f = (a - c.firstFrameBlock) / blocksPerFrame e.frameBytes
     | .manifest reel k m => ∃ e c, mine e k c ∧ e.reel = reel ∧ inManifests e c ∧ m = a - c.manifestBlock
     | .block b => b = a ∧ ∀ e k c, mine e k c → ¬ inFrames e c ∧ ¬ inManifests e c)

/-! ### The defect list -/

/-- DFL judges a finding (R101, R102, R103, R104): a duplicate raises the seen count of the matching record and nothing
else; a new one makes a record at the newest position with the next id not in use, the clock's reading, no detail,
and state NOTED, HELD or PENDING, of which a PENDING one is told to RPU; against 256 records it is full. -/
def Obligations.FindingsJudged : Prop :=
  (∀ (s : State) (f : Finding),
    (∀ x, s.dfl.records.find? (fun x => x.matchesKey f.place) = some x →
      (s.takeFinding f).1 = .duplicate ∧
      (s.takeFinding f).2 = { s with dfl := { s.dfl with records := s.dfl.records.map (fun y =>
        if y.id = x.id then { y with seen := if y.seen < 255 then y.seen + 1 else y.seen } else y) } }) ∧
    (s.dfl.records.find? (fun x => x.matchesKey f.place) = none →
      (256 ≤ s.dfl.records.length → s.takeFinding f = (.full, s)) ∧
      (s.dfl.records.length < 256 → (s.takeFinding f).1 = .added ∧
        let fresh : Record :=
          { id := s.newDefectId, kind := f.kind, state := s.createdState f.place, port := f.port
            place := f.place, expected := f.expected, found := f.found, origin := f.origin, seen := 1
            attempts := 0, detail := none
            minute := if s.pts.clockSet then some s.pts.clock else none }
        let held : State := { s with dfl := { s.dfl with
          records := s.dfl.records ++ [fresh]
          nextId := if s.newDefectId < 65535 then s.newDefectId + 1 else 1 } }
        let queued : State := held.post
          ⟨.defectFound, fresh.bytes ++ le 2 (s.dfl.records.length + 1)⟩
        (s.newRecord f).state = s.createdState f.place ∧ s.newRecord f = fresh ∧
        (s.takeFinding f).2 = (if s.createdState f.place = .pending then rpuChoice queued else queued) ∧
        (∃ x, (s.takeFinding f).2.dfl.records.getLast? = some x ∧
          (s.takeFinding f).2.dfl.records.length = s.dfl.records.length + 1 ∧
          x.id = s.newDefectId ∧ x.kind = f.kind ∧ x.port = f.port ∧ x.place = f.place ∧
          x.expected = f.expected ∧ x.found = f.found ∧ x.origin = f.origin ∧ x.seen = 1 ∧
          x.attempts = 0 ∧ x.minute = (if s.pts.clockSet then some s.pts.clock else none)) ∧
        (s.createdState f.place ≠ .pending ∨ s.mode ≠ .run ∨ s.rpu.phase ≠ .idle →
          ∃ x, (s.takeFinding f).2.dfl.records = s.dfl.records ++ [x] ∧
            x.state = s.createdState f.place ∧ x.detail = none)))) ∧
  (∀ (s : State) (pl : Place),
    (∀ a, pl = .block a → s.createdState pl = .noted) ∧
    (∀ t e, pl.target = some t → s.entry t.reel = some e →
      s.createdState pl = (if e.locked then .held else .pending))) ∧
  (∀ s : State, (∀ y ∈ s.dfl.records, y.id ≠ s.dfl.nextId) → s.newDefectId = s.dfl.nextId)

/-- READ_DEFECTS, REMOVE_DEFECT and RETRY_DEFECT (R109 to R112): their checks in order; a removal takes one record
out and, unless it leaves 255, only the record's port is evaluated; a retry puts the record back to HELD or
PENDING with no attempts and no detail. Stall admission (R106): with 255 records and a job stalled, the front job's
finding is judged; a duplicate goes on to the next job, an added finding ends it; the jobs admitted then go on as R84
gives, after the admission has ended (log 21, DEDUCED). -/
def Obligations.DefectRequestsAct : Prop :=
  (∀ (s : State) (r : Request),
    let n := field r.payload 0 2
    (s.Takes .readDefects r →
      (256 ≤ n → exec .readDefects s = .next (s.answer .badArgument [])) ∧
      (n < 256 →
        let records := (s.dfl.records.drop n).take 8
        exec .readDefects s = .next (s.answer .ok (le 2 s.dfl.records.length
          ++ u8 s.dfl.stallOrder.length ++ le 2 n ++ u8 records.length ++ records.flatMap Record.bytes)))) ∧
    ((n = 0 ∨ s.record n = none) →
      (s.Takes .removeDefect r → exec .removeDefect s = .next (s.answer .noSuchDefect [])) ∧
      (s.Takes .retryDefect r → exec .retryDefect s = .next (s.answer .noSuchDefect []))) ∧
    (∀ x, n ≠ 0 → s.record n = some x →
      (s.Takes .removeDefect r →
        (x.state.terminal = false → exec .removeDefect s = .next (s.answer .notTerminal [])) ∧
        (x.state.terminal = true → ∃ u : State, u.dfl.records = s.dfl.records.erase x ∧
          u.dfl.records.length + 1 = s.dfl.records.length ∧ u.cat = s.cat ∧ u.jbu = s.jbu ∧
          u.dfl.stallOrder = s.dfl.stallOrder ∧
          (u.dfl.records.length ≠ 255 →
            exec .removeDefect s = .next ((settle (u.evaluate x.port)).answer .ok [])) ∧
          (u.dfl.records.length = 255 →
            exec .removeDefect s = .next ((settle (u.admission.evaluate x.port)).answer .ok [])))) ∧
      (s.Takes .retryDefect r →
        (x.state = .noted → exec .retryDefect s = .next (s.answer .badArgument [])) ∧
        (x.state ≠ .noted → x.state ≠ .lost → x.state ≠ .repairFailed →
          exec .retryDefect s = .next (s.answer .notTerminal [])) ∧
        ((x.state = .lost ∨ x.state = .repairFailed) →
          ((∃ y ∈ s.dfl.records, y.matchesKey x.place = true) →
            exec .retryDefect s = .next (s.answer .reelBusy [])) ∧
          ((∀ y ∈ s.dfl.records, y.matchesKey x.place = false) → ∃ u : State,
            u = s.modRecord n (fun y =>
              { y with state := s.createdState x.place, attempts := 0, detail := none }) ∧
            exec .retryDefect s = .next ((settle
              (if s.createdState x.place = .pending then rpuChoice u else u)).answer .ok
                (u8 (s.createdState x.place).code))))))) ∧
  (∀ s : State,
    let leave (u : State) (i : SlotId) : State := { u with dfl := { u.dfl with
      stallOrder := u.dfl.stallOrder.filter (fun k => decide (k ≠ i)) } }
    (s.dfl.records.length ≠ 255 ∨ s.dfl.stallOrder = [] → s.admission = s) ∧
    (s.dfl.records.length = 255 →
      let told := State.admitStalled s.dfl.stallOrder.length s []
      s.admission = told.2.foldl State.goOn told.1) ∧
    (∀ told n, s.dfl.stallOrder = [] → State.admitStalled n s told = (s, told)) ∧
    (∀ i rest j f told n, s.dfl.stallOrder = i :: rest → s.slot i = some j → j.finding = some f →
      ((s.takeFinding f).1 = .added → State.admitStalled (n + 1) s told =
        (leave (s.takeFinding f).2 i, told ++ [(i, f)])) ∧
      ((s.takeFinding f).1 = .duplicate → State.admitStalled (n + 1) s told =
        State.admitStalled n (leave (s.takeFinding f).2 i) (told ++ [(i, f)]))) ∧
    (∀ i rest j f, s.dfl.records.length = 255 → s.dfl.stallOrder = i :: rest → s.slot i = some j →
      j.finding = some f → (s.takeFinding f).1 = .added →
      s.admission = (leave (s.takeFinding f).2 i).goOn (i, f)) ∧
    (∀ i j f, s.slot i = some j → j.state = .stalled →
      let taken : Job := { j.completeFinding f with finding := none }
      ((s.port j.port).yld = true → s.goOn (i, f) =
        ((s.setSlot i (some { taken with state := .yielded })).post
          (jobWaitNotice { taken with state := .yielded })).followUp j.port) ∧
      ((s.port j.port).yld = false → s.goOn (i, f) =
        ((s.setSlot i (some { taken with state := .running })).boundary i).followUp j.port)))

/-! ### Repair -/

/-- A choice (R116 to R121): IDLE and in RUN, RPU walks the records in position order; it passes over those not
PENDING, without both copies PRESENT or with a hold on a port, marks WRITE_PROTECTED one whose target's WPROT is high,
gives LOST to one whose reel has no copy B, and takes the first eligible one, REPAIRING with no detail, into REFERENCE
or SOURCE; in any other mode or phase it takes none. The write step (R124): no write with two attempts made, on a
LOCKED reel, or with WPROT high; else the WRITE of the buffer's first blocks at the target's place. The outcomes of
REFERENCE, SOURCE, WRITE and READBACK (R121 to R126), results and returns (R116, R127, R132, R133). -/
def Obligations.RepairChoosesAndWrites : Prop :=
  (∀ s : State,
     ((s.mode ≠ .run ∨ s.rpu.phase ≠ .idle) → rpuChoice s = s) ∧
     (s.mode = .run → s.rpu.phase = .idle → rpuChoice s = s.choose s.dfl.records) ∧
     (∀ a x b t e src tgt, s.mode = .run → s.rpu.phase = .idle → s.dfl.records = a ++ x :: b →
       (∀ y ∈ a, y.state ≠ .pending) → (∀ y ∈ a ++ b, y.id ≠ x.id) → x.state = .pending →
       x.place.target = some t → s.entry t.reel = some e → e.copyB ≠ none →
       e.copy t.copy.other = some src → e.copy t.copy = some tgt →
       s.presence e.toStoredEntry src = .present → s.presence e.toStoredEntry tgt = .present →
       (s.port tgt.port).lines.wprot = false → s.held src.port = false → s.held tgt.port = false →
       let u := rpuChoice s
       u.dfl.records = a ++ { x with state := .repairing, detail := none } :: b ∧
         u.rpu.record = some x.id ∧ u.rpu.phase ≠ .idle ∧
         u.rpu.filled = false ∧ u.rpu.sourceCheck = none ∧
         u.rpu.source = some ⟨t.copy.other, src.port⟩ ∧ u.rpu.target = some ⟨t.copy, tgt.port⟩ ∧
         (∀ n k i, x.place = .frame n k i → (x.kind = .mismatch ∨ x.kind = .unreadable) → x.expected = none →
           u.rpu.phase = .reference ∧ (u.port src.port).rpuClaim =
             some ⟨.read .blockCheck, src.manifestBlock + i / 1023, 1⟩) ∧
         (∀ n k i, x.place = .frame n k i → x.expected ≠ none →
           u.rpu.phase = .source ∧ (u.port src.port).rpuClaim = some ⟨.read (.frame e.frameBytes),
             src.firstFrameBlock + i * blocksPerFrame e.frameBytes, blocksPerFrame e.frameBytes⟩) ∧
         (∀ n k m, x.place = .manifest n k m → x.kind = .manifest →
           u.rpu.phase = .source ∧ (u.port src.port).rpuClaim =
             some ⟨.read .blockCheck, src.manifestBlock + m, 1⟩))) ∧
  -- The walk of a choice (R117, R118, R119).
  (∀ (s : State) (x : Record) (rest : List Record),
     (x.state ≠ .pending → s.choose (x :: rest) = s.choose rest) ∧
     (∀ t e, x.state = .pending → x.place.target = some t → s.entry t.reel = some e →
       (e.copyB = none → s.choose (x :: rest) =
         (s.giveResult x.id .lost (some .sourceUnreadable)).choose rest) ∧
       (∀ src tgt, e.copyB ≠ none → e.copy t.copy.other = some src → e.copy t.copy = some tgt →
         let present := s.presence e.toStoredEntry src = .present ∧ s.presence e.toStoredEntry tgt = .present
         (¬ present → s.choose (x :: rest) = s.choose rest) ∧
         (present → (s.port tgt.port).lines.wprot = true → s.choose (x :: rest) =
           (s.modRecord x.id (fun y => { y with detail := some .writeProtected })).choose rest) ∧
         (present → (s.port tgt.port).lines.wprot = false →
           (s.held src.port = true ∨ s.held tgt.port = true) → s.choose (x :: rest) = s.choose rest) ∧
         (present → (s.port tgt.port).lines.wprot = false → s.held src.port = false →
           s.held tgt.port = false → s.choose (x :: rest) = s.takeRecord x t src tgt)))) ∧
  -- The write step (R124).
  (∀ (s : State) (v : RepairView), s.repairView = some v →
     let w : State := { s with rpu := { s.rpu with phase := .write } }
     let span := placeSpan v.entry.toStoredEntry v.target v.record.place
     (2 ≤ v.record.attempts → s.writeStep = w.enterReadback) ∧
     (v.record.attempts < 2 → v.entry.locked = true → s.writeStep = w.returnRecord .held none) ∧
     (v.record.attempts < 2 → v.entry.locked = false → (s.port v.target.port).lines.wprot = true →
       s.writeStep = w.returnRecord .pending (some .writeProtected)) ∧
     (v.record.attempts < 2 → v.entry.locked = false → (s.port v.target.port).lines.wprot = false →
       (s.port v.target.port).state ≠ .offline →
       s.writeStep = w.modPort v.target.port (fun q => { q with
         rpuClaim := some ⟨.write (s.rpu.buffer.take (span.2 * 4096)), span.1, span.2⟩ }))) ∧
  -- The outcomes of the four phases (R121 to R126).
  (∀ (s : State) (p : PortId) (v : RepairView) (o : DriveOutcome) (id : Nat),
     s.repairView = some v → s.rpu.record = some id →
     let ends (u : State) (st : DefectState) (detail : Option OutcomeDetail) : State :=
       rpuChoice (u.giveResult id st detail).rpuIdle
     let returns (u : State) (detail : Option OutcomeDetail) : State :=
       rpuChoice (u.modRecord id (fun y => { y with state := .pending, detail := detail })).rpuIdle
     let holds (u : State) : State := { u with rpu := { u.rpu with holds := u.rpu.holds.set p true } }
     let untried : State := s.modRecord id (fun y => { y with attempts := y.attempts - 1 })
     let brought : State :=
       { s with rpu := { s.rpu with buffer := o.data ++ s.rpu.buffer.drop o.data.length } }
     let filled (check : Option Digest) : State :=
       { brought with rpu := { brought.rpu with filled := true, sourceCheck := check } }
     let u := s.rpuOutcome p o
     (s.rpu.phase = .reference →
       (o.status = .notReady → u = returns (holds s) none) ∧
       (∀ n k i slots check, o.status = .good → o.result = .block true slots check →
         v.record.place = .frame n k i →
         ∃ w : State, u = w.enterSource ∧ w = s.modRecord id (fun y =>
           { y with expected := some (slots.getD (y.place.frameIndex % 1023) 0#32) })) ∧
       (∀ slots check, o.status = .good → o.result = .block false slots check →
         u = ends s .repairFailed (some .noReference)) ∧
       (o.status = .mediumError → u = ends s .repairFailed (some .noReference))) ∧
     (s.rpu.phase = .source →
       (o.status = .notReady → u = returns (holds brought) none) ∧
       (∀ n k i, v.record.place = .frame n k i →
         (∀ d, o.status = .good → o.result = .digest d →
           (v.record.expected = some d → u = (filled none).writeStep) ∧
           (v.record.expected ≠ some d → u = ends brought .lost (some .sourceMismatch))) ∧
         (o.status = .mediumError → u = ends brought .lost (some .sourceUnreadable))) ∧
       (∀ n k m, v.record.place = .manifest n k m →
         (∀ slots check, o.status = .good → o.result = .block true slots check →
           u = (filled (some check)).writeStep) ∧
         (∀ slots check, o.status = .good → o.result = .block false slots check →
           u = ends brought .lost (some .sourceManifestUnsound)) ∧
         (o.status = .mediumError → u = ends brought .lost (some .sourceManifestUnsound)))) ∧
     (s.rpu.phase = .write →
       (o.status = .good → u = s.enterReadback) ∧
       (o.status = .mediumError → v.record.attempts < 2 → u = s.writeStep) ∧
       (o.status = .mediumError → 2 ≤ v.record.attempts → u = ends s .repairFailed (some .writeFailed)) ∧
       (o.status = .writeProtected → u = returns (holds untried) (some .writeProtected)) ∧
       (o.status = .notReady → u = returns (holds untried) none)) ∧
     (s.rpu.phase = .readback →
       let matching := o.status = .good ∧
         ((∃ n k i d, v.record.place = .frame n k i ∧ o.result = .digest d ∧ v.record.expected = some d) ∨
          (∃ n k m slots check, v.record.place = .manifest n k m ∧ o.result = .block true slots check ∧
            s.rpu.sourceCheck = some check))
       (o.status = .notReady → u = returns (holds s) none) ∧
       (matching → u = ends s .repaired none) ∧
       (o.status ≠ .notReady → ¬ matching → v.record.attempts < 2 → u = s.writeStep) ∧
       (o.status ≠ .notReady → ¬ matching → 2 ≤ v.record.attempts →
         u = ends s .repairFailed (some .readbackMismatch)))) ∧
  -- Entering SOURCE and READBACK (R122, R123, R126).
  (∀ (s : State) (v : RepairView), s.repairView = some v →
     let place (c : CopyDesc) : Option Claim := match v.record.place with
       | .frame _ _ i => some ⟨.read (.frame v.entry.frameBytes),
           c.firstFrameBlock + i * blocksPerFrame v.entry.frameBytes, blocksPerFrame v.entry.frameBytes⟩
       | .manifest _ _ m => some ⟨.read .blockCheck, c.manifestBlock + m, 1⟩
       | .block _ => none
     let enters (u : State) (ph : RpuPhase) (c : CopyDesc) : Prop := ∀ cl, place c = some cl →
       (s.port c.port).state ≠ .offline →
       u = State.modPort { s with rpu := { s.rpu with phase := ph } } c.port
         (fun q => { q with rpuClaim := some cl })
     enters s.enterSource .source v.source ∧ enters s.enterReadback .readback v.target) ∧
  -- Leaving a record (R116), and what takes it back (R132).
  (∀ s : State,
     (s.rpuIdle.rpu = { s.rpu with
         phase := .idle, record := none, source := none, target := none, filled := false, sourceCheck := none } ∧
       ∀ x, (s.rpu.source = some x ∨ s.rpu.target = some x) →
         (s.rpuIdle.port x.port).rpuClaim = none ∧ (∀ cl, (s.rpuIdle.port x.port).reissue ≠ some (.rpu, cl)) ∧
         ∀ o, (s.rpuIdle.port x.port).outstanding = some o → o.claimant ≠ some .rpu) ∧
     (∀ p id, s.rpu.record = some id →
       let back : State := rpuChoice (s.modRecord id (fun y => { y with state := .pending, detail := none })).rpuIdle
       (∀ x, (s.rpu.source = some x ∨ s.rpu.target = some x) → x.port = p → s.rpuPortLost p = back)) ∧
     (∀ p, (∀ x, s.rpu.source = some x ∨ s.rpu.target = some x → x.port ≠ p) → s.rpuPortLost p = s))

/-- A result (R127): state and detail, the target copy's count, saturating, and DEFECT_RESOLVED. -/
def Obligations.ResultsCounted : Prop :=
  ∀ (s : State) (id : Nat) (x : Record) (t : Target) (e : Entry) (c : CopyDesc) (st : DefectState)
    (detail : Option OutcomeDetail),
    s.record id = some x → x.place.target = some t → s.entry t.reel = some e → e.copy t.copy = some c →
    let u := s.giveResult id st detail
    u.record id = some { x with state := st, detail := detail } ∧
    (∃ e' c', u.entry t.reel = some e' ∧ e'.copy t.copy = some c' ∧
      c'.repairedCount = (if st = .repaired ∧ c.repairedCount < 65535 then c.repairedCount + 1
        else c.repairedCount) ∧
      c'.lostCount = (if st = .lost ∧ c.lostCount < 65535 then c.lostCount + 1 else c.lostCount) ∧
      c'.lastScrub = c.lastScrub) ∧
    (s.mode ≠ .starting → s.mask.getLsbD 4 = true →
      ∃ n : Notice, n.kind = .defectResolved ∧ u.link.posted = s.link.posted ++ [n])

/-! ### The margin monitor -/

/-- Seeding (R139). -/
def Obligations.FirstWindowSeeds : Prop :=
  ∀ (cfg : PortSettings) (m : Margin), m.seeded = false →
    let c := m.close cfg
    (c.baseline = m.windowSum ∧ c.raw = m.windowSum ∧ c.difference = 0 ∧ c.seeded = true) ∧
    (c.state = m.state ∧ c.debounceCount = m.debounceCount) ∧
    (∀ (s : State) (p : PortId) (n b : Nat), (s.port p).margin = m → (s.port p).settings = cfg →
      (s.feedMargin p n b).link = s.link) ∧
    (Margin.cleared.seeded = false ∧ Margin.cleared.state = .steady ∧ Margin.cleared.debounceCount = 0)

/-- The difference at a close (R140), and the reply that closes a window: the one that brings the block count to
256 or more (R138). -/
def Obligations.DifferenceAboveBaseline : Prop :=
  (∀ (cfg : PortSettings) (m : Margin), m.seeded = true →
    let c := m.close cfg
    (m.baseline < m.windowSum → c.difference = m.windowSum - m.baseline) ∧
    (m.windowSum ≤ m.baseline → c.difference = 0) ∧
    c.difference ≤ c.raw ∧ c.raw = m.windowSum ∧
    (m.windowSum ≤ 65535 → c.raw ≤ 65535 ∧ c.difference ≤ 65535) ∧
    ∀ n b, (m.add n b).windowSum ≤ 65535) ∧
  (∀ (cfg : PortSettings) (m : Margin) (n b : Nat),
    (m.windowBlocks + b < 256 → m.feed cfg n b = m.add n b) ∧
    (256 ≤ m.windowBlocks + b → m.feed cfg n b = (m.add n b).close cfg ∧
      (m.feed cfg n b).windowSum = 0 ∧ (m.feed cfg n b).windowBlocks = 0))

/-- Toward LOW (R141). -/
def Obligations.SteadyCountsTowardLow : Prop :=
  (∀ (cfg : PortSettings) (m : Margin), m.seeded = true → m.state = .steady →
    let c := m.close cfg
    (cfg.threshold ≤ c.difference →
      (m.debounceCount + 1 < cfg.debounce →
        c.state = .steady ∧ c.debounceCount = m.debounceCount + 1) ∧
      (cfg.debounce ≤ m.debounceCount + 1 → c.state = .low ∧ c.debounceCount = 0)) ∧
    (c.difference < cfg.threshold → c.state = .steady ∧ c.debounceCount = 0) ∧
    (cfg.debounce = 1 → cfg.threshold ≤ c.difference → c.state = .low)) ∧
  (∀ s p n b, marginQueued s p n b)

/-- Toward STEADY (R142). -/
def Obligations.LowCountsTowardSteady : Prop :=
  (∀ (cfg : PortSettings) (m : Margin), m.seeded = true → m.state = .low →
    let c := m.close cfg
    (c.difference < cfg.threshold - cfg.hysteresis →
      (m.debounceCount + 1 < cfg.debounce → c.state = .low ∧ c.debounceCount = m.debounceCount + 1) ∧
      (cfg.debounce ≤ m.debounceCount + 1 → c.state = .steady ∧ c.debounceCount = 0)) ∧
    (cfg.threshold - cfg.hysteresis ≤ c.difference → c.state = .low ∧ c.debounceCount = 0) ∧
    (cfg.hysteresis < cfg.threshold → 1 ≤ cfg.threshold - cfg.hysteresis)) ∧
  (∀ s p n b, marginQueued s p n b)

/-- The baseline step (R143). -/
def Obligations.BaselineSteps : Prop :=
  ∀ (cfg : PortSettings) (m : Margin), m.seeded = true →
    let c := m.close cfg
    let delta : Int := (c.raw : Int) - m.baseline
    let cut : Int := Int.tdiv delta (2 ^ cfg.filterShift)
    let step : Int := if cut = 0 ∧ 0 < delta then 1 else if cut = 0 ∧ delta < 0 then -1 else cut
    (c.state = .steady → c.debounceCount = 0 → (c.baseline : Int) = m.baseline + step) ∧
    (c.state = .low ∨ c.debounceCount ≠ 0 → c.baseline = m.baseline) ∧
    (m.baseline ≤ c.raw → m.baseline ≤ c.baseline ∧ c.baseline ≤ c.raw) ∧
    (c.raw ≤ m.baseline → c.raw ≤ c.baseline ∧ c.baseline ≤ m.baseline) ∧
    (cfg.filterShift = 0 → c.state = .steady → c.debounceCount = 0 → c.baseline = c.raw)

/-! ### Patrol -/

/-- Due times (R147, R159); eligibility, by R158 and nothing else; the candidates of a port, the copies that R159 names
and no others; the choice: the earliest due, then the lowest reel number, then copy A, and none exactly where there is
no candidate; and an evaluation (R157, R160): nothing on an ineligible port, without a choice or without a slot; else the
chosen copy gets a PATROL REEL_SCRUB of its whole range, which becomes active and is RUNNING. -/
def Obligations.EvaluationChoosesEarliest : Prop :=
  (∀ (e : StoredEntry) (c : CopyDesc) (m : MarginState),
     (c.lastScrub = none → dueTime e c m = 0) ∧
     (∀ t, c.lastScrub = some t →
       (m = .steady → dueTime e c m = t + e.intervalDays * 1440) ∧
       (m = .low → dueTime e c m = t + max 1 (e.intervalDays / 2) * 1440))) ∧
  -- Eligibility (R158).
  (∀ (s : State) (p : PortId), s.eligible p = true ↔
     s.mode = .run ∧ s.pts.enabled = true ∧ s.pts.clockSet = true ∧ (s.port p).state = .normal ∧
       (s.port p).yld = false ∧
       ∀ i j, s.slot i = some j → j.port = p → j.state.terminal = false →
         j.state = .suspended ∨ j.state = .waitMedia) ∧
  -- The candidates (R159).
  (∀ (s : State) (p : PortId) (d : Candidate), d ∈ s.candidates p ↔
     ∃ e ∈ s.cat, ∃ k c, e.copy k = some c ∧ c.port = p ∧
       presenceOn (s.port p) e.toStoredEntry c = .present ∧
       (∀ i j t, s.slot i = some j → j.state.terminal = false → j.target = some t → t.reel ≠ e.reel) ∧
       dueTime e.toStoredEntry c (s.port p).margin.state ≤ s.pts.clock ∧
       d = { target := ⟨e.reel, k⟩, due := dueTime e.toStoredEntry c (s.port p).margin.state
             frames := e.frameCount }) ∧
  -- The choice (R159).
  (∀ (s : State) (p : PortId),
     (s.chosen p = none ↔ ∀ d, d ∉ s.candidates p) ∧
     ∀ c, s.chosen p = some c → c ∈ s.candidates p ∧ c.due ≤ s.pts.clock ∧
       ∀ d ∈ s.candidates p, ¬ (d.due < c.due ∨ (d.due = c.due ∧ (d.target.reel < c.target.reel ∨
         (d.target.reel = c.target.reel ∧ d.target.copy = .a ∧ c.target.copy = .b))))) ∧
  -- The evaluation (R157, R160).
  (∀ (s : State) (p : PortId),
     (s.eligible p = false → s.evaluate p = s) ∧
     ((s.mode ≠ .run ∨ s.pts.enabled = false ∨ s.pts.clockSet = false ∨ (s.port p).state ≠ .normal ∨
       (s.port p).yld = true ∨ s.activeSlot p ≠ none ∨ s.queuedSlots p ≠ []) → s.evaluate p = s) ∧
     (s.chosen p = none ∨ s.findSlot = none → s.evaluate p = s) ∧
     (∀ c i, s.eligible p = true → s.chosen p = some c → s.findSlot = some i →
       let job := newJob (s.idFor i) .reelScrub .patrol (some c.target) p 0 (some (c.frames - 1))
       s.evaluate p = (s.createJob i job).activatePort p ∧
       ((∀ e ∈ s.cat, s.entry e.reel = some e) → s.jbu.sequence < 4294967295 →
         let u := s.evaluate p
         u.slot i = some { job with state := .running, sequence := s.jbu.sequence + 1 } ∧
           (∀ k, k ≠ i → u.slot k = s.slot k) ∧ u.link = s.link ∧ u.cat = s.cat)))

end
end

