-- ==== Sys2Proof/Laws/State.lean ====
section
/-! SUPPORT. What each update of the state leaves alone, field by field, and what it makes of the field it
changes. All of it holds by computation. -/

namespace Sys2Proof.Machine

open Sys2Proof

section fields

variable (s : State)

/-! ### setPort -/

@[simp] theorem State.setPort_mode (p : PortId) (q : Port) :
    (s.setPort p q).mode = s.mode := rfl
@[simp] theorem State.setPort_mask (p : PortId) (q : Port) :
    (s.setPort p q).mask = s.mask := rfl
@[simp] theorem State.setPort_autoRun (p : PortId) (q : Port) :
    (s.setPort p q).autoRun = s.autoRun := rfl
@[simp] theorem State.setPort_resetAsked (p : PortId) (q : Port) :
    (s.setPort p q).resetAsked = s.resetAsked := rfl
@[simp] theorem State.setPort_link (p : PortId) (q : Port) :
    (s.setPort p q).link = s.link := rfl
@[simp] theorem State.setPort_cat (p : PortId) (q : Port) :
    (s.setPort p q).cat = s.cat := rfl
@[simp] theorem State.setPort_jbu (p : PortId) (q : Port) :
    (s.setPort p q).jbu = s.jbu := rfl
@[simp] theorem State.setPort_dfl (p : PortId) (q : Port) :
    (s.setPort p q).dfl = s.dfl := rfl
@[simp] theorem State.setPort_rpu (p : PortId) (q : Port) :
    (s.setPort p q).rpu = s.rpu := rfl
@[simp] theorem State.setPort_pts (p : PortId) (q : Port) :
    (s.setPort p q).pts = s.pts := rfl
@[simp] theorem State.setPort_siu (p : PortId) (q : Port) :
    (s.setPort p q).siu = s.siu := rfl
@[simp] theorem State.setPort_supplyLow (p : PortId) (q : Port) :
    (s.setPort p q).supplyLow = s.supplyLow := rfl
@[simp] theorem State.setPort_resetPin (p : PortId) (q : Port) :
    (s.setPort p q).resetPin = s.resetPin := rfl
@[simp] theorem State.setPort_resetKind (p : PortId) (q : Port) :
    (s.setPort p q).resetKind = s.resetKind := rfl
@[simp] theorem State.setPort_portsSet (p : PortId) (q : Port) :
    (s.setPort p q).portsSet = s.portsSet := rfl
@[simp] theorem State.setPort_freeCount (p : PortId) (q : Port) :
    (s.setPort p q).freeCount = s.freeCount := rfl
@[simp] theorem State.setPort_pending (p : PortId) (q : Port) :
    (s.setPort p q).pending = s.pending := rfl
@[simp] theorem State.setPort_slot (p : PortId) (q : Port) (k : SlotId) :
    (s.setPort p q).slot k = s.slot k := rfl
@[simp] theorem State.setPort_entry (p : PortId) (q : Port) (n : Nat) :
    (s.setPort p q).entry n = s.entry n := rfl
@[simp] theorem State.setPort_record (p : PortId) (q : Port) (n : Nat) :
    (s.setPort p q).record n = s.record n := rfl
@[simp] theorem State.setPort_held (p : PortId) (q : Port) (k : PortId) :
    (s.setPort p q).held k = s.held k := rfl

/-! ### modPort -/

@[simp] theorem State.modPort_mode (p : PortId) (f : Port → Port) :
    (s.modPort p f).mode = s.mode := rfl
@[simp] theorem State.modPort_mask (p : PortId) (f : Port → Port) :
    (s.modPort p f).mask = s.mask := rfl
@[simp] theorem State.modPort_autoRun (p : PortId) (f : Port → Port) :
    (s.modPort p f).autoRun = s.autoRun := rfl
@[simp] theorem State.modPort_resetAsked (p : PortId) (f : Port → Port) :
    (s.modPort p f).resetAsked = s.resetAsked := rfl
@[simp] theorem State.modPort_link (p : PortId) (f : Port → Port) :
    (s.modPort p f).link = s.link := rfl
@[simp] theorem State.modPort_cat (p : PortId) (f : Port → Port) :
    (s.modPort p f).cat = s.cat := rfl
@[simp] theorem State.modPort_jbu (p : PortId) (f : Port → Port) :
    (s.modPort p f).jbu = s.jbu := rfl
@[simp] theorem State.modPort_dfl (p : PortId) (f : Port → Port) :
    (s.modPort p f).dfl = s.dfl := rfl
@[simp] theorem State.modPort_rpu (p : PortId) (f : Port → Port) :
    (s.modPort p f).rpu = s.rpu := rfl
@[simp] theorem State.modPort_pts (p : PortId) (f : Port → Port) :
    (s.modPort p f).pts = s.pts := rfl
@[simp] theorem State.modPort_siu (p : PortId) (f : Port → Port) :
    (s.modPort p f).siu = s.siu := rfl
@[simp] theorem State.modPort_supplyLow (p : PortId) (f : Port → Port) :
    (s.modPort p f).supplyLow = s.supplyLow := rfl
@[simp] theorem State.modPort_resetPin (p : PortId) (f : Port → Port) :
    (s.modPort p f).resetPin = s.resetPin := rfl
@[simp] theorem State.modPort_resetKind (p : PortId) (f : Port → Port) :
    (s.modPort p f).resetKind = s.resetKind := rfl
@[simp] theorem State.modPort_portsSet (p : PortId) (f : Port → Port) :
    (s.modPort p f).portsSet = s.portsSet := rfl
@[simp] theorem State.modPort_freeCount (p : PortId) (f : Port → Port) :
    (s.modPort p f).freeCount = s.freeCount := rfl
@[simp] theorem State.modPort_pending (p : PortId) (f : Port → Port) :
    (s.modPort p f).pending = s.pending := rfl
@[simp] theorem State.modPort_slot (p : PortId) (f : Port → Port) (k : SlotId) :
    (s.modPort p f).slot k = s.slot k := rfl
@[simp] theorem State.modPort_entry (p : PortId) (f : Port → Port) (n : Nat) :
    (s.modPort p f).entry n = s.entry n := rfl
@[simp] theorem State.modPort_record (p : PortId) (f : Port → Port) (n : Nat) :
    (s.modPort p f).record n = s.record n := rfl
@[simp] theorem State.modPort_held (p : PortId) (f : Port → Port) (k : PortId) :
    (s.modPort p f).held k = s.held k := rfl

/-! ### setSlot -/

@[simp] theorem State.setSlot_mode (i : SlotId) (j : Option Job) :
    (s.setSlot i j).mode = s.mode := rfl
@[simp] theorem State.setSlot_mask (i : SlotId) (j : Option Job) :
    (s.setSlot i j).mask = s.mask := rfl
@[simp] theorem State.setSlot_autoRun (i : SlotId) (j : Option Job) :
    (s.setSlot i j).autoRun = s.autoRun := rfl
@[simp] theorem State.setSlot_resetAsked (i : SlotId) (j : Option Job) :
    (s.setSlot i j).resetAsked = s.resetAsked := rfl
@[simp] theorem State.setSlot_link (i : SlotId) (j : Option Job) :
    (s.setSlot i j).link = s.link := rfl
@[simp] theorem State.setSlot_cat (i : SlotId) (j : Option Job) :
    (s.setSlot i j).cat = s.cat := rfl
@[simp] theorem State.setSlot_ports (i : SlotId) (j : Option Job) :
    (s.setSlot i j).ports = s.ports := rfl
@[simp] theorem State.setSlot_dfl (i : SlotId) (j : Option Job) :
    (s.setSlot i j).dfl = s.dfl := rfl
@[simp] theorem State.setSlot_rpu (i : SlotId) (j : Option Job) :
    (s.setSlot i j).rpu = s.rpu := rfl
@[simp] theorem State.setSlot_pts (i : SlotId) (j : Option Job) :
    (s.setSlot i j).pts = s.pts := rfl
@[simp] theorem State.setSlot_siu (i : SlotId) (j : Option Job) :
    (s.setSlot i j).siu = s.siu := rfl
@[simp] theorem State.setSlot_supplyLow (i : SlotId) (j : Option Job) :
    (s.setSlot i j).supplyLow = s.supplyLow := rfl
@[simp] theorem State.setSlot_resetPin (i : SlotId) (j : Option Job) :
    (s.setSlot i j).resetPin = s.resetPin := rfl
@[simp] theorem State.setSlot_resetKind (i : SlotId) (j : Option Job) :
    (s.setSlot i j).resetKind = s.resetKind := rfl
@[simp] theorem State.setSlot_portsSet (i : SlotId) (j : Option Job) :
    (s.setSlot i j).portsSet = s.portsSet := rfl
@[simp] theorem State.setSlot_freeCount (i : SlotId) (j : Option Job) :
    (s.setSlot i j).freeCount = s.freeCount := rfl
@[simp] theorem State.setSlot_pending (i : SlotId) (j : Option Job) :
    (s.setSlot i j).pending = s.pending := rfl
@[simp] theorem State.setSlot_port (i : SlotId) (j : Option Job) (k : PortId) :
    (s.setSlot i j).port k = s.port k := rfl
@[simp] theorem State.setSlot_entry (i : SlotId) (j : Option Job) (n : Nat) :
    (s.setSlot i j).entry n = s.entry n := rfl
@[simp] theorem State.setSlot_record (i : SlotId) (j : Option Job) (n : Nat) :
    (s.setSlot i j).record n = s.record n := rfl
@[simp] theorem State.setSlot_held (i : SlotId) (j : Option Job) (k : PortId) :
    (s.setSlot i j).held k = s.held k := rfl

/-! ### modJob -/

@[simp] theorem State.modJob_mode (i : SlotId) (f : Job → Job) :
    (s.modJob i f).mode = s.mode := rfl
@[simp] theorem State.modJob_mask (i : SlotId) (f : Job → Job) :
    (s.modJob i f).mask = s.mask := rfl
@[simp] theorem State.modJob_autoRun (i : SlotId) (f : Job → Job) :
    (s.modJob i f).autoRun = s.autoRun := rfl
@[simp] theorem State.modJob_resetAsked (i : SlotId) (f : Job → Job) :
    (s.modJob i f).resetAsked = s.resetAsked := rfl
@[simp] theorem State.modJob_link (i : SlotId) (f : Job → Job) :
    (s.modJob i f).link = s.link := rfl
@[simp] theorem State.modJob_cat (i : SlotId) (f : Job → Job) :
    (s.modJob i f).cat = s.cat := rfl
@[simp] theorem State.modJob_ports (i : SlotId) (f : Job → Job) :
    (s.modJob i f).ports = s.ports := rfl
@[simp] theorem State.modJob_dfl (i : SlotId) (f : Job → Job) :
    (s.modJob i f).dfl = s.dfl := rfl
@[simp] theorem State.modJob_rpu (i : SlotId) (f : Job → Job) :
    (s.modJob i f).rpu = s.rpu := rfl
@[simp] theorem State.modJob_pts (i : SlotId) (f : Job → Job) :
    (s.modJob i f).pts = s.pts := rfl
@[simp] theorem State.modJob_siu (i : SlotId) (f : Job → Job) :
    (s.modJob i f).siu = s.siu := rfl
@[simp] theorem State.modJob_supplyLow (i : SlotId) (f : Job → Job) :
    (s.modJob i f).supplyLow = s.supplyLow := rfl
@[simp] theorem State.modJob_resetPin (i : SlotId) (f : Job → Job) :
    (s.modJob i f).resetPin = s.resetPin := rfl
@[simp] theorem State.modJob_resetKind (i : SlotId) (f : Job → Job) :
    (s.modJob i f).resetKind = s.resetKind := rfl
@[simp] theorem State.modJob_portsSet (i : SlotId) (f : Job → Job) :
    (s.modJob i f).portsSet = s.portsSet := rfl
@[simp] theorem State.modJob_freeCount (i : SlotId) (f : Job → Job) :
    (s.modJob i f).freeCount = s.freeCount := rfl
@[simp] theorem State.modJob_pending (i : SlotId) (f : Job → Job) :
    (s.modJob i f).pending = s.pending := rfl
@[simp] theorem State.modJob_port (i : SlotId) (f : Job → Job) (k : PortId) :
    (s.modJob i f).port k = s.port k := rfl
@[simp] theorem State.modJob_entry (i : SlotId) (f : Job → Job) (n : Nat) :
    (s.modJob i f).entry n = s.entry n := rfl
@[simp] theorem State.modJob_record (i : SlotId) (f : Job → Job) (n : Nat) :
    (s.modJob i f).record n = s.record n := rfl
@[simp] theorem State.modJob_held (i : SlotId) (f : Job → Job) (k : PortId) :
    (s.modJob i f).held k = s.held k := rfl

/-! ### modRecord -/

@[simp] theorem State.modRecord_mode (id : Nat) (f : Record → Record) :
    (s.modRecord id f).mode = s.mode := rfl
@[simp] theorem State.modRecord_mask (id : Nat) (f : Record → Record) :
    (s.modRecord id f).mask = s.mask := rfl
@[simp] theorem State.modRecord_autoRun (id : Nat) (f : Record → Record) :
    (s.modRecord id f).autoRun = s.autoRun := rfl
@[simp] theorem State.modRecord_resetAsked (id : Nat) (f : Record → Record) :
    (s.modRecord id f).resetAsked = s.resetAsked := rfl
@[simp] theorem State.modRecord_link (id : Nat) (f : Record → Record) :
    (s.modRecord id f).link = s.link := rfl
@[simp] theorem State.modRecord_cat (id : Nat) (f : Record → Record) :
    (s.modRecord id f).cat = s.cat := rfl
@[simp] theorem State.modRecord_jbu (id : Nat) (f : Record → Record) :
    (s.modRecord id f).jbu = s.jbu := rfl
@[simp] theorem State.modRecord_ports (id : Nat) (f : Record → Record) :
    (s.modRecord id f).ports = s.ports := rfl
@[simp] theorem State.modRecord_rpu (id : Nat) (f : Record → Record) :
    (s.modRecord id f).rpu = s.rpu := rfl
@[simp] theorem State.modRecord_pts (id : Nat) (f : Record → Record) :
    (s.modRecord id f).pts = s.pts := rfl
@[simp] theorem State.modRecord_siu (id : Nat) (f : Record → Record) :
    (s.modRecord id f).siu = s.siu := rfl
@[simp] theorem State.modRecord_supplyLow (id : Nat) (f : Record → Record) :
    (s.modRecord id f).supplyLow = s.supplyLow := rfl
@[simp] theorem State.modRecord_resetPin (id : Nat) (f : Record → Record) :
    (s.modRecord id f).resetPin = s.resetPin := rfl
@[simp] theorem State.modRecord_resetKind (id : Nat) (f : Record → Record) :
    (s.modRecord id f).resetKind = s.resetKind := rfl
@[simp] theorem State.modRecord_portsSet (id : Nat) (f : Record → Record) :
    (s.modRecord id f).portsSet = s.portsSet := rfl
@[simp] theorem State.modRecord_freeCount (id : Nat) (f : Record → Record) :
    (s.modRecord id f).freeCount = s.freeCount := rfl
@[simp] theorem State.modRecord_pending (id : Nat) (f : Record → Record) :
    (s.modRecord id f).pending = s.pending := rfl
@[simp] theorem State.modRecord_port (id : Nat) (f : Record → Record) (k : PortId) :
    (s.modRecord id f).port k = s.port k := rfl
@[simp] theorem State.modRecord_slot (id : Nat) (f : Record → Record) (k : SlotId) :
    (s.modRecord id f).slot k = s.slot k := rfl
@[simp] theorem State.modRecord_entry (id : Nat) (f : Record → Record) (n : Nat) :
    (s.modRecord id f).entry n = s.entry n := rfl
@[simp] theorem State.modRecord_held (id : Nat) (f : Record → Record) (k : PortId) :
    (s.modRecord id f).held k = s.held k := rfl

/-! ### modEntry -/

@[simp] theorem State.modEntry_mode (reel : Nat) (f : Entry → Entry) :
    (s.modEntry reel f).mode = s.mode := rfl
@[simp] theorem State.modEntry_mask (reel : Nat) (f : Entry → Entry) :
    (s.modEntry reel f).mask = s.mask := rfl
@[simp] theorem State.modEntry_autoRun (reel : Nat) (f : Entry → Entry) :
    (s.modEntry reel f).autoRun = s.autoRun := rfl
@[simp] theorem State.modEntry_resetAsked (reel : Nat) (f : Entry → Entry) :
    (s.modEntry reel f).resetAsked = s.resetAsked := rfl
@[simp] theorem State.modEntry_link (reel : Nat) (f : Entry → Entry) :
    (s.modEntry reel f).link = s.link := rfl
@[simp] theorem State.modEntry_jbu (reel : Nat) (f : Entry → Entry) :
    (s.modEntry reel f).jbu = s.jbu := rfl
@[simp] theorem State.modEntry_ports (reel : Nat) (f : Entry → Entry) :
    (s.modEntry reel f).ports = s.ports := rfl
@[simp] theorem State.modEntry_dfl (reel : Nat) (f : Entry → Entry) :
    (s.modEntry reel f).dfl = s.dfl := rfl
@[simp] theorem State.modEntry_rpu (reel : Nat) (f : Entry → Entry) :
    (s.modEntry reel f).rpu = s.rpu := rfl
@[simp] theorem State.modEntry_pts (reel : Nat) (f : Entry → Entry) :
    (s.modEntry reel f).pts = s.pts := rfl
@[simp] theorem State.modEntry_siu (reel : Nat) (f : Entry → Entry) :
    (s.modEntry reel f).siu = s.siu := rfl
@[simp] theorem State.modEntry_supplyLow (reel : Nat) (f : Entry → Entry) :
    (s.modEntry reel f).supplyLow = s.supplyLow := rfl
@[simp] theorem State.modEntry_resetPin (reel : Nat) (f : Entry → Entry) :
    (s.modEntry reel f).resetPin = s.resetPin := rfl
@[simp] theorem State.modEntry_resetKind (reel : Nat) (f : Entry → Entry) :
    (s.modEntry reel f).resetKind = s.resetKind := rfl
@[simp] theorem State.modEntry_portsSet (reel : Nat) (f : Entry → Entry) :
    (s.modEntry reel f).portsSet = s.portsSet := rfl
@[simp] theorem State.modEntry_freeCount (reel : Nat) (f : Entry → Entry) :
    (s.modEntry reel f).freeCount = s.freeCount := rfl
@[simp] theorem State.modEntry_pending (reel : Nat) (f : Entry → Entry) :
    (s.modEntry reel f).pending = s.pending := rfl
@[simp] theorem State.modEntry_port (reel : Nat) (f : Entry → Entry) (k : PortId) :
    (s.modEntry reel f).port k = s.port k := rfl
@[simp] theorem State.modEntry_slot (reel : Nat) (f : Entry → Entry) (k : SlotId) :
    (s.modEntry reel f).slot k = s.slot k := rfl
@[simp] theorem State.modEntry_record (reel : Nat) (f : Entry → Entry) (n : Nat) :
    (s.modEntry reel f).record n = s.record n := rfl
@[simp] theorem State.modEntry_held (reel : Nat) (f : Entry → Entry) (k : PortId) :
    (s.modEntry reel f).held k = s.held k := rfl

/-! ### modCopy -/

@[simp] theorem State.modCopy_mode (t : Target) (f : CopyDesc → CopyDesc) :
    (s.modCopy t f).mode = s.mode := rfl
@[simp] theorem State.modCopy_mask (t : Target) (f : CopyDesc → CopyDesc) :
    (s.modCopy t f).mask = s.mask := rfl
@[simp] theorem State.modCopy_autoRun (t : Target) (f : CopyDesc → CopyDesc) :
    (s.modCopy t f).autoRun = s.autoRun := rfl
@[simp] theorem State.modCopy_resetAsked (t : Target) (f : CopyDesc → CopyDesc) :
    (s.modCopy t f).resetAsked = s.resetAsked := rfl
@[simp] theorem State.modCopy_link (t : Target) (f : CopyDesc → CopyDesc) :
    (s.modCopy t f).link = s.link := rfl
@[simp] theorem State.modCopy_jbu (t : Target) (f : CopyDesc → CopyDesc) :
    (s.modCopy t f).jbu = s.jbu := rfl
@[simp] theorem State.modCopy_ports (t : Target) (f : CopyDesc → CopyDesc) :
    (s.modCopy t f).ports = s.ports := rfl
@[simp] theorem State.modCopy_dfl (t : Target) (f : CopyDesc → CopyDesc) :
    (s.modCopy t f).dfl = s.dfl := rfl
@[simp] theorem State.modCopy_rpu (t : Target) (f : CopyDesc → CopyDesc) :
    (s.modCopy t f).rpu = s.rpu := rfl
@[simp] theorem State.modCopy_pts (t : Target) (f : CopyDesc → CopyDesc) :
    (s.modCopy t f).pts = s.pts := rfl
@[simp] theorem State.modCopy_siu (t : Target) (f : CopyDesc → CopyDesc) :
    (s.modCopy t f).siu = s.siu := rfl
@[simp] theorem State.modCopy_supplyLow (t : Target) (f : CopyDesc → CopyDesc) :
    (s.modCopy t f).supplyLow = s.supplyLow := rfl
@[simp] theorem State.modCopy_resetPin (t : Target) (f : CopyDesc → CopyDesc) :
    (s.modCopy t f).resetPin = s.resetPin := rfl
@[simp] theorem State.modCopy_resetKind (t : Target) (f : CopyDesc → CopyDesc) :
    (s.modCopy t f).resetKind = s.resetKind := rfl
@[simp] theorem State.modCopy_portsSet (t : Target) (f : CopyDesc → CopyDesc) :
    (s.modCopy t f).portsSet = s.portsSet := rfl
@[simp] theorem State.modCopy_freeCount (t : Target) (f : CopyDesc → CopyDesc) :
    (s.modCopy t f).freeCount = s.freeCount := rfl
@[simp] theorem State.modCopy_pending (t : Target) (f : CopyDesc → CopyDesc) :
    (s.modCopy t f).pending = s.pending := rfl
@[simp] theorem State.modCopy_port (t : Target) (f : CopyDesc → CopyDesc) (k : PortId) :
    (s.modCopy t f).port k = s.port k := rfl
@[simp] theorem State.modCopy_slot (t : Target) (f : CopyDesc → CopyDesc) (k : SlotId) :
    (s.modCopy t f).slot k = s.slot k := rfl
@[simp] theorem State.modCopy_record (t : Target) (f : CopyDesc → CopyDesc) (n : Nat) :
    (s.modCopy t f).record n = s.record n := rfl
@[simp] theorem State.modCopy_held (t : Target) (f : CopyDesc → CopyDesc) (k : PortId) :
    (s.modCopy t f).held k = s.held k := rfl

/-! ### setHold -/

@[simp] theorem State.setHold_mode (p : PortId) (b : Bool) :
    (s.setHold p b).mode = s.mode := rfl
@[simp] theorem State.setHold_mask (p : PortId) (b : Bool) :
    (s.setHold p b).mask = s.mask := rfl
@[simp] theorem State.setHold_autoRun (p : PortId) (b : Bool) :
    (s.setHold p b).autoRun = s.autoRun := rfl
@[simp] theorem State.setHold_resetAsked (p : PortId) (b : Bool) :
    (s.setHold p b).resetAsked = s.resetAsked := rfl
@[simp] theorem State.setHold_link (p : PortId) (b : Bool) :
    (s.setHold p b).link = s.link := rfl
@[simp] theorem State.setHold_cat (p : PortId) (b : Bool) :
    (s.setHold p b).cat = s.cat := rfl
@[simp] theorem State.setHold_jbu (p : PortId) (b : Bool) :
    (s.setHold p b).jbu = s.jbu := rfl
@[simp] theorem State.setHold_ports (p : PortId) (b : Bool) :
    (s.setHold p b).ports = s.ports := rfl
@[simp] theorem State.setHold_dfl (p : PortId) (b : Bool) :
    (s.setHold p b).dfl = s.dfl := rfl
@[simp] theorem State.setHold_pts (p : PortId) (b : Bool) :
    (s.setHold p b).pts = s.pts := rfl
@[simp] theorem State.setHold_siu (p : PortId) (b : Bool) :
    (s.setHold p b).siu = s.siu := rfl
@[simp] theorem State.setHold_supplyLow (p : PortId) (b : Bool) :
    (s.setHold p b).supplyLow = s.supplyLow := rfl
@[simp] theorem State.setHold_resetPin (p : PortId) (b : Bool) :
    (s.setHold p b).resetPin = s.resetPin := rfl
@[simp] theorem State.setHold_resetKind (p : PortId) (b : Bool) :
    (s.setHold p b).resetKind = s.resetKind := rfl
@[simp] theorem State.setHold_portsSet (p : PortId) (b : Bool) :
    (s.setHold p b).portsSet = s.portsSet := rfl
@[simp] theorem State.setHold_freeCount (p : PortId) (b : Bool) :
    (s.setHold p b).freeCount = s.freeCount := rfl
@[simp] theorem State.setHold_pending (p : PortId) (b : Bool) :
    (s.setHold p b).pending = s.pending := rfl
@[simp] theorem State.setHold_port (p : PortId) (b : Bool) (k : PortId) :
    (s.setHold p b).port k = s.port k := rfl
@[simp] theorem State.setHold_slot (p : PortId) (b : Bool) (k : SlotId) :
    (s.setHold p b).slot k = s.slot k := rfl
@[simp] theorem State.setHold_entry (p : PortId) (b : Bool) (n : Nat) :
    (s.setHold p b).entry n = s.entry n := rfl
@[simp] theorem State.setHold_record (p : PortId) (b : Bool) (n : Nat) :
    (s.setHold p b).record n = s.record n := rfl

/-! ### rpuPhase -/

@[simp] theorem State.rpuPhase_mode (ph : RpuPhase) :
    (s.rpuPhase ph).mode = s.mode := rfl
@[simp] theorem State.rpuPhase_mask (ph : RpuPhase) :
    (s.rpuPhase ph).mask = s.mask := rfl
@[simp] theorem State.rpuPhase_autoRun (ph : RpuPhase) :
    (s.rpuPhase ph).autoRun = s.autoRun := rfl
@[simp] theorem State.rpuPhase_resetAsked (ph : RpuPhase) :
    (s.rpuPhase ph).resetAsked = s.resetAsked := rfl
@[simp] theorem State.rpuPhase_link (ph : RpuPhase) :
    (s.rpuPhase ph).link = s.link := rfl
@[simp] theorem State.rpuPhase_cat (ph : RpuPhase) :
    (s.rpuPhase ph).cat = s.cat := rfl
@[simp] theorem State.rpuPhase_jbu (ph : RpuPhase) :
    (s.rpuPhase ph).jbu = s.jbu := rfl
@[simp] theorem State.rpuPhase_ports (ph : RpuPhase) :
    (s.rpuPhase ph).ports = s.ports := rfl
@[simp] theorem State.rpuPhase_dfl (ph : RpuPhase) :
    (s.rpuPhase ph).dfl = s.dfl := rfl
@[simp] theorem State.rpuPhase_pts (ph : RpuPhase) :
    (s.rpuPhase ph).pts = s.pts := rfl
@[simp] theorem State.rpuPhase_siu (ph : RpuPhase) :
    (s.rpuPhase ph).siu = s.siu := rfl
@[simp] theorem State.rpuPhase_supplyLow (ph : RpuPhase) :
    (s.rpuPhase ph).supplyLow = s.supplyLow := rfl
@[simp] theorem State.rpuPhase_resetPin (ph : RpuPhase) :
    (s.rpuPhase ph).resetPin = s.resetPin := rfl
@[simp] theorem State.rpuPhase_resetKind (ph : RpuPhase) :
    (s.rpuPhase ph).resetKind = s.resetKind := rfl
@[simp] theorem State.rpuPhase_portsSet (ph : RpuPhase) :
    (s.rpuPhase ph).portsSet = s.portsSet := rfl
@[simp] theorem State.rpuPhase_freeCount (ph : RpuPhase) :
    (s.rpuPhase ph).freeCount = s.freeCount := rfl
@[simp] theorem State.rpuPhase_pending (ph : RpuPhase) :
    (s.rpuPhase ph).pending = s.pending := rfl
@[simp] theorem State.rpuPhase_port (ph : RpuPhase) (k : PortId) :
    (s.rpuPhase ph).port k = s.port k := rfl
@[simp] theorem State.rpuPhase_slot (ph : RpuPhase) (k : SlotId) :
    (s.rpuPhase ph).slot k = s.slot k := rfl
@[simp] theorem State.rpuPhase_entry (ph : RpuPhase) (n : Nat) :
    (s.rpuPhase ph).entry n = s.entry n := rfl
@[simp] theorem State.rpuPhase_record (ph : RpuPhase) (n : Nat) :
    (s.rpuPhase ph).record n = s.record n := rfl

/-! ### placeJobClaim -/

@[simp] theorem State.placeJobClaim_mode (p : PortId) (c : Claim) :
    (s.placeJobClaim p c).mode = s.mode := rfl
@[simp] theorem State.placeJobClaim_mask (p : PortId) (c : Claim) :
    (s.placeJobClaim p c).mask = s.mask := rfl
@[simp] theorem State.placeJobClaim_autoRun (p : PortId) (c : Claim) :
    (s.placeJobClaim p c).autoRun = s.autoRun := rfl
@[simp] theorem State.placeJobClaim_resetAsked (p : PortId) (c : Claim) :
    (s.placeJobClaim p c).resetAsked = s.resetAsked := rfl
@[simp] theorem State.placeJobClaim_link (p : PortId) (c : Claim) :
    (s.placeJobClaim p c).link = s.link := rfl
@[simp] theorem State.placeJobClaim_cat (p : PortId) (c : Claim) :
    (s.placeJobClaim p c).cat = s.cat := rfl
@[simp] theorem State.placeJobClaim_jbu (p : PortId) (c : Claim) :
    (s.placeJobClaim p c).jbu = s.jbu := rfl
@[simp] theorem State.placeJobClaim_dfl (p : PortId) (c : Claim) :
    (s.placeJobClaim p c).dfl = s.dfl := rfl
@[simp] theorem State.placeJobClaim_rpu (p : PortId) (c : Claim) :
    (s.placeJobClaim p c).rpu = s.rpu := rfl
@[simp] theorem State.placeJobClaim_pts (p : PortId) (c : Claim) :
    (s.placeJobClaim p c).pts = s.pts := rfl
@[simp] theorem State.placeJobClaim_siu (p : PortId) (c : Claim) :
    (s.placeJobClaim p c).siu = s.siu := rfl
@[simp] theorem State.placeJobClaim_supplyLow (p : PortId) (c : Claim) :
    (s.placeJobClaim p c).supplyLow = s.supplyLow := rfl
@[simp] theorem State.placeJobClaim_resetPin (p : PortId) (c : Claim) :
    (s.placeJobClaim p c).resetPin = s.resetPin := rfl
@[simp] theorem State.placeJobClaim_resetKind (p : PortId) (c : Claim) :
    (s.placeJobClaim p c).resetKind = s.resetKind := rfl
@[simp] theorem State.placeJobClaim_portsSet (p : PortId) (c : Claim) :
    (s.placeJobClaim p c).portsSet = s.portsSet := rfl
@[simp] theorem State.placeJobClaim_freeCount (p : PortId) (c : Claim) :
    (s.placeJobClaim p c).freeCount = s.freeCount := rfl
@[simp] theorem State.placeJobClaim_pending (p : PortId) (c : Claim) :
    (s.placeJobClaim p c).pending = s.pending := rfl
@[simp] theorem State.placeJobClaim_slot (p : PortId) (c : Claim) (k : SlotId) :
    (s.placeJobClaim p c).slot k = s.slot k := rfl
@[simp] theorem State.placeJobClaim_entry (p : PortId) (c : Claim) (n : Nat) :
    (s.placeJobClaim p c).entry n = s.entry n := rfl
@[simp] theorem State.placeJobClaim_record (p : PortId) (c : Claim) (n : Nat) :
    (s.placeJobClaim p c).record n = s.record n := rfl
@[simp] theorem State.placeJobClaim_held (p : PortId) (c : Claim) (k : PortId) :
    (s.placeJobClaim p c).held k = s.held k := rfl

/-! ### placeRpuClaim -/

@[simp] theorem State.placeRpuClaim_mode (p : PortId) (c : Claim) :
    (s.placeRpuClaim p c).mode = s.mode := rfl
@[simp] theorem State.placeRpuClaim_mask (p : PortId) (c : Claim) :
    (s.placeRpuClaim p c).mask = s.mask := rfl
@[simp] theorem State.placeRpuClaim_autoRun (p : PortId) (c : Claim) :
    (s.placeRpuClaim p c).autoRun = s.autoRun := rfl
@[simp] theorem State.placeRpuClaim_resetAsked (p : PortId) (c : Claim) :
    (s.placeRpuClaim p c).resetAsked = s.resetAsked := rfl
@[simp] theorem State.placeRpuClaim_link (p : PortId) (c : Claim) :
    (s.placeRpuClaim p c).link = s.link := rfl
@[simp] theorem State.placeRpuClaim_cat (p : PortId) (c : Claim) :
    (s.placeRpuClaim p c).cat = s.cat := rfl
@[simp] theorem State.placeRpuClaim_jbu (p : PortId) (c : Claim) :
    (s.placeRpuClaim p c).jbu = s.jbu := rfl
@[simp] theorem State.placeRpuClaim_dfl (p : PortId) (c : Claim) :
    (s.placeRpuClaim p c).dfl = s.dfl := rfl
@[simp] theorem State.placeRpuClaim_rpu (p : PortId) (c : Claim) :
    (s.placeRpuClaim p c).rpu = s.rpu := rfl
@[simp] theorem State.placeRpuClaim_pts (p : PortId) (c : Claim) :
    (s.placeRpuClaim p c).pts = s.pts := rfl
@[simp] theorem State.placeRpuClaim_siu (p : PortId) (c : Claim) :
    (s.placeRpuClaim p c).siu = s.siu := rfl
@[simp] theorem State.placeRpuClaim_supplyLow (p : PortId) (c : Claim) :
    (s.placeRpuClaim p c).supplyLow = s.supplyLow := rfl
@[simp] theorem State.placeRpuClaim_resetPin (p : PortId) (c : Claim) :
    (s.placeRpuClaim p c).resetPin = s.resetPin := rfl
@[simp] theorem State.placeRpuClaim_resetKind (p : PortId) (c : Claim) :
    (s.placeRpuClaim p c).resetKind = s.resetKind := rfl
@[simp] theorem State.placeRpuClaim_portsSet (p : PortId) (c : Claim) :
    (s.placeRpuClaim p c).portsSet = s.portsSet := rfl
@[simp] theorem State.placeRpuClaim_freeCount (p : PortId) (c : Claim) :
    (s.placeRpuClaim p c).freeCount = s.freeCount := rfl
@[simp] theorem State.placeRpuClaim_pending (p : PortId) (c : Claim) :
    (s.placeRpuClaim p c).pending = s.pending := rfl
@[simp] theorem State.placeRpuClaim_slot (p : PortId) (c : Claim) (k : SlotId) :
    (s.placeRpuClaim p c).slot k = s.slot k := rfl
@[simp] theorem State.placeRpuClaim_entry (p : PortId) (c : Claim) (n : Nat) :
    (s.placeRpuClaim p c).entry n = s.entry n := rfl
@[simp] theorem State.placeRpuClaim_record (p : PortId) (c : Claim) (n : Nat) :
    (s.placeRpuClaim p c).record n = s.record n := rfl
@[simp] theorem State.placeRpuClaim_held (p : PortId) (c : Claim) (k : PortId) :
    (s.placeRpuClaim p c).held k = s.held k := rfl

/-! ### leaveStall -/

@[simp] theorem State.leaveStall_mode (i : SlotId) :
    (s.leaveStall i).mode = s.mode := rfl
@[simp] theorem State.leaveStall_mask (i : SlotId) :
    (s.leaveStall i).mask = s.mask := rfl
@[simp] theorem State.leaveStall_autoRun (i : SlotId) :
    (s.leaveStall i).autoRun = s.autoRun := rfl
@[simp] theorem State.leaveStall_resetAsked (i : SlotId) :
    (s.leaveStall i).resetAsked = s.resetAsked := rfl
@[simp] theorem State.leaveStall_link (i : SlotId) :
    (s.leaveStall i).link = s.link := rfl
@[simp] theorem State.leaveStall_cat (i : SlotId) :
    (s.leaveStall i).cat = s.cat := rfl
@[simp] theorem State.leaveStall_jbu (i : SlotId) :
    (s.leaveStall i).jbu = s.jbu := rfl
@[simp] theorem State.leaveStall_ports (i : SlotId) :
    (s.leaveStall i).ports = s.ports := rfl
@[simp] theorem State.leaveStall_rpu (i : SlotId) :
    (s.leaveStall i).rpu = s.rpu := rfl
@[simp] theorem State.leaveStall_pts (i : SlotId) :
    (s.leaveStall i).pts = s.pts := rfl
@[simp] theorem State.leaveStall_siu (i : SlotId) :
    (s.leaveStall i).siu = s.siu := rfl
@[simp] theorem State.leaveStall_supplyLow (i : SlotId) :
    (s.leaveStall i).supplyLow = s.supplyLow := rfl
@[simp] theorem State.leaveStall_resetPin (i : SlotId) :
    (s.leaveStall i).resetPin = s.resetPin := rfl
@[simp] theorem State.leaveStall_resetKind (i : SlotId) :
    (s.leaveStall i).resetKind = s.resetKind := rfl
@[simp] theorem State.leaveStall_portsSet (i : SlotId) :
    (s.leaveStall i).portsSet = s.portsSet := rfl
@[simp] theorem State.leaveStall_freeCount (i : SlotId) :
    (s.leaveStall i).freeCount = s.freeCount := rfl
@[simp] theorem State.leaveStall_pending (i : SlotId) :
    (s.leaveStall i).pending = s.pending := rfl
@[simp] theorem State.leaveStall_port (i : SlotId) (k : PortId) :
    (s.leaveStall i).port k = s.port k := rfl
@[simp] theorem State.leaveStall_slot (i : SlotId) (k : SlotId) :
    (s.leaveStall i).slot k = s.slot k := rfl
@[simp] theorem State.leaveStall_entry (i : SlotId) (n : Nat) :
    (s.leaveStall i).entry n = s.entry n := rfl
@[simp] theorem State.leaveStall_held (i : SlotId) (k : PortId) :
    (s.leaveStall i).held k = s.held k := rfl

end fields

/-! ### Reading back what was written -/

/-- The port just replaced. -/
@[simp] theorem State.port_setPort_same (s : State) (p : PortId) (q : Port) :
    (s.setPort p q).port p = q := by
  simp [State.port, State.setPort]

/-- Any other port. -/
theorem State.port_setPort_ne (s : State) {p k : PortId} (q : Port) (h : k ≠ p) :
    (s.setPort p q).port k = s.port k := by
  have h' : (p : Nat) ≠ k := fun e => h (Fin.ext e.symm)
  simp [State.port, State.setPort, h']

/-- A port after one port is replaced. -/
theorem State.port_setPort (s : State) (p k : PortId) (q : Port) :
    (s.setPort p q).port k = if k = p then q else s.port k := by
  by_cases h : k = p
  · subst h; simp
  · simp [h, State.port_setPort_ne s q h]

/-- The port just changed. -/
@[simp] theorem State.port_modPort_same (s : State) (p : PortId) (f : Port → Port) :
    (s.modPort p f).port p = f (s.port p) := State.port_setPort_same s p _

/-- Any other port. -/
theorem State.port_modPort_ne (s : State) {p k : PortId} (f : Port → Port) (h : k ≠ p) :
    (s.modPort p f).port k = s.port k := State.port_setPort_ne s _ h

/-- A port after one port is changed. -/
theorem State.port_modPort (s : State) (p k : PortId) (f : Port → Port) :
    (s.modPort p f).port k = if k = p then f (s.port p) else s.port k := State.port_setPort s p k _

/-- The slot just replaced. -/
@[simp] theorem State.slot_setSlot_same (s : State) (i : SlotId) (j : Option Job) :
    (s.setSlot i j).slot i = j := by
  simp [State.slot, State.setSlot]

/-- Any other slot. -/
theorem State.slot_setSlot_ne (s : State) {i k : SlotId} (j : Option Job) (h : k ≠ i) :
    (s.setSlot i j).slot k = s.slot k := by
  have h' : (i : Nat) ≠ k := fun e => h (Fin.ext e.symm)
  simp [State.slot, State.setSlot, h']

/-- A slot after one slot is replaced. -/
theorem State.slot_setSlot (s : State) (i k : SlotId) (j : Option Job) :
    (s.setSlot i j).slot k = if k = i then j else s.slot k := by
  by_cases h : k = i
  · subst h; simp
  · simp [h, State.slot_setSlot_ne s j h]

/-- The job just changed. -/
@[simp] theorem State.slot_modJob_same (s : State) (i : SlotId) (f : Job → Job) :
    (s.modJob i f).slot i = (s.slot i).map f := State.slot_setSlot_same s i _

/-- Any other job. -/
theorem State.slot_modJob_ne (s : State) {i k : SlotId} (f : Job → Job) (h : k ≠ i) :
    (s.modJob i f).slot k = s.slot k := State.slot_setSlot_ne s _ h

/-- A slot after one job is changed. -/
theorem State.slot_modJob (s : State) (i k : SlotId) (f : Job → Job) :
    (s.modJob i f).slot k = if k = i then (s.slot i).map f else s.slot k := State.slot_setSlot s i k _

/-- Changing a job moves none of JBU's counters and orders. -/
@[simp] theorem State.modJob_counters (s : State) (i : SlotId) (f : Job → Job) :
    (s.modJob i f).jbu.nextId = s.jbu.nextId ∧ (s.modJob i f).jbu.sequence = s.jbu.sequence ∧
      (s.modJob i f).jbu.endOrder = s.jbu.endOrder ∧ (s.modJob i f).jbu.waitOrder = s.jbu.waitOrder :=
  ⟨rfl, rfl, rfl, rfl⟩

/-- Changing a record keeps the length of the list, the stall order and the id counter. -/
@[simp] theorem State.modRecord_dfl (s : State) (id : Nat) (f : Record → Record) :
    (s.modRecord id f).dfl.records.length = s.dfl.records.length ∧
      (s.modRecord id f).dfl.stallOrder = s.dfl.stallOrder ∧
      (s.modRecord id f).dfl.nextId = s.dfl.nextId :=
  ⟨List.length_map _, rfl, rfl⟩

/-- A hold just written. -/
@[simp] theorem State.held_setHold_same (s : State) (p : PortId) (b : Bool) :
    (s.setHold p b).held p = b := by
  simp [State.held, State.setHold]

/-- Any other hold. -/
theorem State.held_setHold_ne (s : State) {p k : PortId} (b : Bool) (h : k ≠ p) :
    (s.setHold p b).held k = s.held k := by
  have h' : (p : Nat) ≠ k := fun e => h (Fin.ext e.symm)
  simp [State.held, State.setHold, h']

end Sys2Proof.Machine
end

