-- ==== Sys2Proof/Laws/Keeps.lean ====
section
/-! SUPPORT. What the units' own work on jobs, records, repairs and claims leaves alone. `State.Keeps s t` says it
once; every shared operation of JBU, DFL, RPU and PTS has one lemma that says it keeps. -/

namespace Sys2Proof.Machine

open Sys2Proof

/-- What a unit's claims leave alone on a port: all but the pending claims and who claimed the outstanding command;
an OFFLINE port without claims stays so (R54). -/
structure Port.Keeps (q r : Port) : Prop where
  state : r.state = q.state
  cause : r.cause = q.cause
  grant : r.grant = q.grant
  req : r.req = q.req
  gnt : r.gnt = q.gnt
  yld : r.yld = q.yld
  lines : r.lines = q.lines
  delta : r.delta = q.delta
  volume : r.volume = q.volume
  nextTag : r.nextTag = q.nextTag
  settings : r.settings = q.settings
  margin : r.margin = q.margin
  engine : r.engine = q.engine
  command : r.outstanding.isSome = q.outstanding.isSome
  quiet : q.state = .offline → q.hasClaims = false → r.hasClaims = false

theorem Port.Keeps.refl (q : Port) : q.Keeps q :=
  ⟨rfl, rfl, rfl, rfl, rfl, rfl, rfl, rfl, rfl, rfl, rfl, rfl, rfl, rfl, fun _ h => h⟩

theorem Port.Keeps.trans {q r w : Port} (h : q.Keeps r) (k : r.Keeps w) : q.Keeps w :=
  ⟨k.state.trans h.state, k.cause.trans h.cause, k.grant.trans h.grant, k.req.trans h.req,
    k.gnt.trans h.gnt, k.yld.trans h.yld, k.lines.trans h.lines, k.delta.trans h.delta,
    k.volume.trans h.volume, k.nextTag.trans h.nextTag, k.settings.trans h.settings,
    k.margin.trans h.margin, k.engine.trans h.engine, k.command.trans h.command,
    fun a b => k.quiet (h.state.trans a) (h.quiet a b)⟩

/-- Every job in a slot is terminal. -/
def State.AllTerminal (s : State) : Prop := ∀ i j, s.slot i = some j → j.state.terminal = true

/-- What the units' own work leaves alone: modes, settings, the link but for notices just posted, the clock, the
stores, the resets, the reel numbers of the catalogue, the ports but for their claims; and the invariants of the
defect list, of the active jobs, and of what may stand outside RUN. -/
structure State.Keeps (s t : State) : Prop where
  mode : t.mode = s.mode
  mask : t.mask = s.mask
  autoRun : t.autoRun = s.autoRun
  resetAsked : t.resetAsked = s.resetAsked
  link : { t.link with posted := s.link.posted } = s.link
  reels : t.cat.map (fun e => e.reel) = s.cat.map (fun e => e.reel)
  pts : t.pts = s.pts
  siu : t.siu = s.siu
  supplyLow : t.supplyLow = s.supplyLow
  resetPin : t.resetPin = s.resetPin
  resetKind : t.resetKind = s.resetKind
  portsSet : t.portsSet = s.portsSet
  freeCount : t.freeCount = s.freeCount
  pending : t.pending = s.pending
  port : ∀ p, (s.port p).Keeps (t.port p)
  defects : s.dfl.Sound → t.dfl.Sound
  active : s.OneActive → t.OneActive
  jobsOutside : s.mode ≠ .run → s.AllTerminal → t.AllTerminal
  idleOutside : s.mode ≠ .run → s.rpu.phase = .idle → t.rpu.phase = .idle

theorem State.Keeps.refl (s : State) : s.Keeps s :=
  ⟨rfl, rfl, rfl, rfl, rfl, rfl, rfl, rfl, rfl, rfl, rfl, rfl, rfl, rfl, fun _ => Port.Keeps.refl _,
    fun h => h, fun h => h, fun _ h => h, fun _ h => h⟩

theorem State.Keeps.trans {s t u : State} (h : s.Keeps t) (k : t.Keeps u) : s.Keeps u where
  mode := k.mode.trans h.mode
  mask := k.mask.trans h.mask
  autoRun := k.autoRun.trans h.autoRun
  resetAsked := k.resetAsked.trans h.resetAsked
  link := by
    have e : ({ u.link with posted := s.link.posted } : Link)
        = { { u.link with posted := t.link.posted } with posted := s.link.posted } := rfl
    rw [e, k.link, h.link]
  reels := k.reels.trans h.reels
  pts := k.pts.trans h.pts
  siu := k.siu.trans h.siu
  supplyLow := k.supplyLow.trans h.supplyLow
  resetPin := k.resetPin.trans h.resetPin
  resetKind := k.resetKind.trans h.resetKind
  portsSet := k.portsSet.trans h.portsSet
  freeCount := k.freeCount.trans h.freeCount
  pending := k.pending.trans h.pending
  port := fun p => (h.port p).trans (k.port p)
  defects := fun a => k.defects (h.defects a)
  active := fun a => k.active (h.active a)
  jobsOutside := fun m a => k.jobsOutside (h.mode.symm ▸ m) (h.jobsOutside m a)
  idleOutside := fun m a => k.idleOutside (h.mode.symm ▸ m) (h.idleOutside m a)

/-- Work that leaves JBU alone as well. -/
structure State.KeepsJobs (s t : State) : Prop extends State.Keeps s t where
  jbu : t.jbu = s.jbu

theorem State.KeepsJobs.refl (s : State) : s.KeepsJobs s := ⟨State.Keeps.refl s, rfl⟩

theorem State.KeepsJobs.trans {s t u : State} (h : s.KeepsJobs t) (k : t.KeepsJobs u) : s.KeepsJobs u :=
  ⟨h.toKeeps.trans k.toKeeps, k.jbu.trans h.jbu⟩

theorem State.KeepsJobs.slot {s t : State} (h : s.KeepsJobs t) (i : SlotId) : t.slot i = s.slot i := by
  simp [State.slot, h.jbu]

theorem State.oneActive_of_jbu {s t : State} (h : t.jbu = s.jbu) : s.OneActive → t.OneActive := by
  intro a i k j l hi hk
  simp only [State.slot, h] at hi hk
  exact a i k j l hi hk

theorem State.allTerminal_of_jbu {s t : State} (h : t.jbu = s.jbu) : s.AllTerminal → t.AllTerminal := by
  intro a i j hi
  simp only [State.slot, h] at hi
  exact a i j hi

/-! ### Updates of one port -/

/-- Changing one port within its own frame keeps. -/
theorem State.modPort_keeps (s : State) (p : PortId) (f : Port → Port)
    (h : (s.port p).Keeps (f (s.port p))) : s.KeepsJobs (s.modPort p f) where
  mode := rfl
  mask := rfl
  autoRun := rfl
  resetAsked := rfl
  link := rfl
  reels := rfl
  pts := rfl
  siu := rfl
  supplyLow := rfl
  resetPin := rfl
  resetKind := rfl
  portsSet := rfl
  freeCount := rfl
  pending := rfl
  port := fun k => by
    by_cases e : k = p
    · subst e; simpa using h
    · rw [State.port_modPort_ne s f e]; exact Port.Keeps.refl _
  defects := fun a => a
  active := fun a => a
  jobsOutside := fun _ a => a
  idleOutside := fun _ a => a
  jbu := rfl

/-- Withdrawing a claim keeps (R50). -/
theorem Port.withdraw_keeps (q : Port) (c : Claimant) : q.Keeps (q.withdraw c) where
  state := rfl
  cause := rfl
  grant := rfl
  req := rfl
  gnt := rfl
  yld := rfl
  lines := rfl
  delta := rfl
  volume := rfl
  nextTag := rfl
  settings := rfl
  margin := rfl
  engine := rfl
  command := by simp [Port.withdraw]
  quiet := fun _ h => by
    simp only [Port.hasClaims, Bool.or_eq_false_iff, Option.isSome_eq_false_iff,
      Option.isNone_iff_eq_none] at h
    obtain ⟨⟨⟨h1, h2⟩, h3⟩, h4⟩ := h
    simp [Port.hasClaims, Port.withdraw, h1, h2, h3, h4]

/-- Placing a claim of RPU keeps: none is placed on an OFFLINE port (R54). -/
theorem Port.placeRpu_keeps (q : Port) (c : Claim) : q.Keeps (q.placeRpu c) := by
  unfold Port.placeRpu
  split
  · exact Port.Keeps.refl q
  · exact ⟨rfl, rfl, rfl, rfl, rfl, rfl, rfl, rfl, rfl, rfl, rfl, rfl, rfl, rfl,
      fun a => absurd a (by assumption)⟩

/-- Placing a job's claim keeps: none is placed on an OFFLINE port (R54). -/
theorem Port.placeJob_keeps (q : Port) (c : Claim) : q.Keeps (q.placeJob c) := by
  unfold Port.placeJob
  split
  · exact Port.Keeps.refl q
  · exact ⟨rfl, rfl, rfl, rfl, rfl, rfl, rfl, rfl, rfl, rfl, rfl, rfl, rfl, rfl,
      fun a => absurd a (by assumption)⟩

theorem State.placeRpuClaim_keeps (s : State) (p : PortId) (c : Claim) :
    s.KeepsJobs (s.placeRpuClaim p c) := s.modPort_keeps p _ (Port.placeRpu_keeps _ c)

theorem State.placeJobClaim_keeps (s : State) (p : PortId) (c : Claim) :
    s.KeepsJobs (s.placeJobClaim p c) := s.modPort_keeps p _ (Port.placeJob_keeps _ c)

theorem State.withdraw_keeps (s : State) (p : PortId) (c : Claimant) :
    s.KeepsJobs (s.modPort p (fun q => q.withdraw c)) := s.modPort_keeps p _ (Port.withdraw_keeps _ c)

/-! ### Updates of one owner -/

/-- Posting a notice keeps (R172). -/
theorem State.post_keeps (s : State) (n : Notice) : s.KeepsJobs (s.post n) := by
  unfold State.post
  split
  · exact State.KeepsJobs.refl s
  · split
    · exact ⟨⟨rfl, rfl, rfl, rfl, rfl, rfl, rfl, rfl, rfl, rfl, rfl, rfl, rfl, rfl,
        fun _ => Port.Keeps.refl _, fun h => h, fun h => h, fun _ h => h, fun _ h => h⟩, rfl⟩
    · exact State.KeepsJobs.refl s

/-- Changing DFL within its invariant keeps. -/
theorem State.dfl_keeps (s : State) (d : Dfl) (h : s.dfl.Sound → d.Sound) :
    s.KeepsJobs { s with dfl := d } :=
  ⟨⟨rfl, rfl, rfl, rfl, rfl, rfl, rfl, rfl, rfl, rfl, rfl, rfl, rfl, rfl, fun _ => Port.Keeps.refl _,
    h, fun h => h, fun _ h => h, fun _ h => h⟩, rfl⟩

theorem State.modRecord_keeps (s : State) (id : Nat) (f : Record → Record) :
    s.KeepsJobs (s.modRecord id f) :=
  s.dfl_keeps _ (fun h => ⟨by simpa using h.capacity, fun k => by simpa using h.stalled k⟩)

/-- Leaving the stall order keeps (R105). -/
theorem State.leaveStall_keeps (s : State) (i : SlotId) : s.KeepsJobs (s.leaveStall i) :=
  s.dfl_keeps _ (fun h => ⟨h.capacity, fun k => h.stalled (fun e => k (by simp [e]))⟩)

/-- Changing entries but not their reel numbers keeps. -/
theorem State.modEntry_keeps (s : State) (reel : Nat) (f : Entry → Entry)
    (h : ∀ e, (f e).reel = e.reel) : s.KeepsJobs (s.modEntry reel f) :=
  ⟨⟨rfl, rfl, rfl, rfl, rfl,
    by
      simp only [State.modEntry, List.map_map]
      refine List.map_congr_left (fun e _ => ?_)
      simp only [Function.comp]
      split
      · exact h e
      · rfl,
    rfl, rfl, rfl, rfl, rfl, rfl, rfl, rfl, fun _ => Port.Keeps.refl _,
    fun h => h, fun h => h, fun _ h => h, fun _ h => h⟩, rfl⟩

@[simp] theorem Entry.modCopy_reel (e : Entry) (k : CopyId) (f : CopyDesc → CopyDesc) :
    (e.modCopy k f).reel = e.reel := by cases k <;> rfl

theorem State.modCopy_keeps (s : State) (t : Target) (f : CopyDesc → CopyDesc) :
    s.KeepsJobs (s.modCopy t f) := s.modEntry_keeps _ _ (fun e => e.modCopy_reel _ _)

/-- Changing RPU but for leaving IDLE outside RUN keeps. -/
theorem State.rpu_keeps (s : State) (r : Rpu) (h : s.mode ≠ .run → s.rpu.phase = .idle → r.phase = .idle) :
    s.KeepsJobs { s with rpu := r } :=
  ⟨⟨rfl, rfl, rfl, rfl, rfl, rfl, rfl, rfl, rfl, rfl, rfl, rfl, rfl, rfl, fun _ => Port.Keeps.refl _,
    fun h => h, fun h => h, fun _ h => h, h⟩, rfl⟩

theorem State.setHold_keeps (s : State) (p : PortId) (b : Bool) : s.KeepsJobs (s.setHold p b) :=
  s.rpu_keeps _ (fun _ h => h)

/-- RPU may take a phase in RUN, or where it is not IDLE. -/
def State.MayRepair (s : State) : Prop := s.mode = .run ∨ s.rpu.phase ≠ .idle

theorem State.rpuPhase_keeps (s : State) (ph : RpuPhase) (h : s.MayRepair) : s.KeepsJobs (s.rpuPhase ph) :=
  s.rpu_keeps _ (fun m i => absurd h (by simp [State.MayRepair, m, i]))

end Sys2Proof.Machine
end

