-- ==== Sys2Proof/Laws/Repair.lean ====
section
/-! SUPPORT. The Repair Unit's operations keep (`State.KeepsJobs`), and what a result, a choice and a return do. -/

namespace Sys2Proof.Machine

open Sys2Proof

theorem State.MayRepair.of_run {s : State} (h : s.mode = .run) : s.MayRepair := Or.inl h

/-! ### Results and claims -/

theorem State.giveResult_keeps (s : State) (id : Nat) (st : DefectState) (d : Option OutcomeDetail) :
    s.KeepsJobs (s.giveResult id st d) := by
  unfold State.giveResult
  have h1 := s.modRecord_keeps id (fun r => { r with state := st, detail := d })
  dsimp only
  split
  · exact h1
  · split
    · exact (h1.trans (State.modCopy_keeps _ _ _)).trans (State.post_keeps _ _)
    · exact h1.trans (State.post_keeps _ _)

theorem State.enterReference_keeps (s : State) (h : s.MayRepair) : s.KeepsJobs s.enterReference := by
  unfold State.enterReference
  split
  · exact State.KeepsJobs.refl s
  · exact (s.rpuPhase_keeps _ h).trans (State.placeRpuClaim_keeps _ _ _)

theorem State.enterSource_keeps (s : State) (h : s.MayRepair) : s.KeepsJobs s.enterSource := by
  unfold State.enterSource
  split
  · exact State.KeepsJobs.refl s
  · exact (s.rpuPhase_keeps _ h).trans (State.placeRpuClaim_keeps _ _ _)

theorem State.enterReadback_keeps (s : State) (h : s.MayRepair) : s.KeepsJobs s.enterReadback := by
  unfold State.enterReadback
  split
  · exact State.KeepsJobs.refl s
  · exact (s.rpuPhase_keeps _ h).trans (State.placeRpuClaim_keeps _ _ _)

/-! ### Choice (R117) -/

theorem State.takeRecord_keeps (s : State) (r : Record) (t : Target) (src tgt : CopyDesc)
    (h : s.mode = .run) : s.KeepsJobs (s.takeRecord r t src tgt) := by
  unfold State.takeRecord
  have h1 := s.modRecord_keeps r.id (fun r => { r with state := .repairing, detail := none })
  have h2 := h1.trans (State.rpu_keeps _
    { s.rpu with record := some r.id, source := some ⟨t.copy.other, src.port⟩,
                 target := some ⟨t.copy, tgt.port⟩, filled := false, sourceCheck := none }
    (fun _ i => i))
  dsimp only
  split
  · exact h2.trans (State.enterReference_keeps _ (Or.inl h))
  · exact h2.trans (State.enterSource_keeps _ (Or.inl h))

theorem State.choose_keeps (rs : List Record) :
    ∀ s : State, s.mode = .run → s.KeepsJobs (s.choose rs) := by
  induction rs with
  | nil => intro s _; exact State.KeepsJobs.refl s
  | cons r rest ih =>
    intro s h
    unfold State.choose
    split
    · exact s.takeRecord_keeps r _ _ _ h
    · exact (s.modRecord_keeps _ _).trans (ih _ h)
    · have k := s.giveResult_keeps r.id .lost (some .sourceUnreadable)
      exact k.trans (ih _ (k.mode.trans h))
    · exact ih s h

/-- A choice keeps (R117). -/
theorem rpuChoice_keeps (s : State) : s.KeepsJobs (rpuChoice s) := by
  unfold rpuChoice
  split
  · next h => exact State.choose_keeps _ s h.2
  · exact State.KeepsJobs.refl s

/-- A choice does nothing outside RUN, and nothing while a repair is in hand (R117). -/
theorem rpuChoice_eq_self (s : State) (h : s.mode ≠ .run ∨ s.rpu.phase ≠ .idle) : rpuChoice s = s := by
  unfold rpuChoice
  rw [if_neg]
  rintro ⟨a, b⟩
  exact h.elim (fun m => m b) (fun m => m a)

/-! ### Leaving a record (R116, R127, R132, R133) -/

theorem State.withdrawRpuAt_keeps (s : State) (e : Option RpuEnd) : s.KeepsJobs (s.withdrawRpuAt e) := by
  unfold State.withdrawRpuAt
  split
  · exact s.withdraw_keeps _ _
  · exact State.KeepsJobs.refl s

theorem State.rpuIdle_keeps (s : State) : s.KeepsJobs s.rpuIdle := by
  unfold State.rpuIdle
  exact ((s.withdrawRpuAt_keeps _).trans (State.withdrawRpuAt_keeps _ _)).trans
    (State.rpu_keeps _ _ (fun _ _ => rfl))

theorem State.endRepair_keeps (s : State) (st : DefectState) (d : Option OutcomeDetail) :
    s.KeepsJobs (s.endRepair st d) := by
  unfold State.endRepair
  split
  · exact State.KeepsJobs.refl s
  · exact ((s.giveResult_keeps _ _ _).trans (State.rpuIdle_keeps _)).trans (rpuChoice_keeps _)

theorem State.returnRecord_keeps (s : State) (st : DefectState) (d : Option OutcomeDetail) :
    s.KeepsJobs (s.returnRecord st d) := by
  unfold State.returnRecord
  split
  · exact State.KeepsJobs.refl s
  · exact ((s.modRecord_keeps _ _).trans (State.rpuIdle_keeps _)).trans (rpuChoice_keeps _)

theorem State.rpuPortLost_keeps (s : State) (p : PortId) : s.KeepsJobs (s.rpuPortLost p) := by
  unfold State.rpuPortLost
  split
  · exact s.returnRecord_keeps _ _
  · exact State.KeepsJobs.refl s

theorem State.clearHold_keeps (s : State) (p : PortId) : s.KeepsJobs (s.clearHold p) := by
  unfold State.clearHold
  split
  · exact (s.setHold_keeps _ _).trans (rpuChoice_keeps _)
  · exact State.KeepsJobs.refl s

/-! ### The repair steps (R121 to R126) -/

theorem State.writeStep_keeps (s : State) (h : s.MayRepair) : s.KeepsJobs s.writeStep := by
  unfold State.writeStep
  have h1 := s.rpuPhase_keeps .write h
  have m : (s.rpuPhase .write).MayRepair := Or.inr (by simp [State.rpuPhase])
  dsimp only
  split
  · exact h1
  · split
    · exact h1.trans (State.enterReadback_keeps _ m)
    · split
      · exact h1.trans (State.returnRecord_keeps _ _ _)
      · split
        · exact h1.trans (State.returnRecord_keeps _ _ _)
        · exact h1.trans (State.placeRpuClaim_keeps _ _ _)

theorem State.uncountAttempt_keeps (s : State) : s.KeepsJobs s.uncountAttempt := by
  unfold State.uncountAttempt
  split
  · exact s.modRecord_keeps _ _
  · exact State.KeepsJobs.refl s

/-- Taking back an attempt leaves RPU as it is. -/
@[simp] theorem State.uncountAttempt_rpu (s : State) : s.uncountAttempt.rpu = s.rpu := by
  unfold State.uncountAttempt
  split <;> rfl

theorem State.countAttempt_keeps (s : State) : s.KeepsJobs s.countAttempt := by
  unfold State.countAttempt
  split
  · exact s.modRecord_keeps _ _
  · exact State.KeepsJobs.refl s

theorem State.referenceOutcome_keeps (s : State) (p : PortId) (v : RepairView) (o : DriveOutcome)
    (h : s.rpu.phase ≠ .idle) : s.KeepsJobs (s.referenceOutcome p v o) := by
  unfold State.referenceOutcome
  split
  · exact (s.modRecord_keeps _ _).trans (State.enterSource_keeps _ (Or.inr h))
  · exact (s.setHold_keeps _ _).trans (State.returnRecord_keeps _ _ _)
  · exact s.endRepair_keeps _ _

theorem State.placeInBuffer_keeps (s : State) (data : List Byte) : s.KeepsJobs (s.placeInBuffer data) :=
  s.rpu_keeps _ (fun _ h => h)

theorem State.fillBuffer_keeps (s : State) (check : Option Digest) (h : s.MayRepair) :
    s.KeepsJobs (s.fillBuffer check) := by
  unfold State.fillBuffer
  exact (s.rpu_keeps { s.rpu with filled := true, sourceCheck := check } (fun _ i => i)).trans
    (State.writeStep_keeps _ h)

theorem State.sourceOutcome_keeps (s : State) (p : PortId) (v : RepairView) (o : DriveOutcome)
    (h : s.rpu.phase ≠ .idle) : s.KeepsJobs (s.sourceOutcome p v o) := by
  unfold State.sourceOutcome
  have h1 := s.placeInBuffer_keeps o.data
  have m : (s.placeInBuffer o.data).MayRepair := Or.inr h
  refine h1.trans ?_
  generalize s.placeInBuffer o.data = t at m
  dsimp only
  split
  · exact (t.setHold_keeps _ _).trans (State.returnRecord_keeps _ _ _)
  · split
    · split
      · exact t.fillBuffer_keeps _ m
      · exact t.endRepair_keeps _ _
    · exact t.fillBuffer_keeps _ m
    · exact t.endRepair_keeps _ _
  · split <;> exact t.endRepair_keeps _ _

theorem State.writeOutcome_keeps (s : State) (p : PortId) (v : RepairView) (o : DriveOutcome)
    (h : s.rpu.phase ≠ .idle) : s.KeepsJobs (s.writeOutcome p v o) := by
  unfold State.writeOutcome
  split
  · exact s.enterReadback_keeps (Or.inr h)
  · exact (s.uncountAttempt_keeps.trans (State.setHold_keeps _ _ _)).trans (State.returnRecord_keeps _ _ _)
  · exact (s.uncountAttempt_keeps.trans (State.setHold_keeps _ _ _)).trans (State.returnRecord_keeps _ _ _)
  · split
    · exact s.writeStep_keeps (Or.inr h)
    · exact s.endRepair_keeps _ _

theorem State.readbackOutcome_keeps (s : State) (p : PortId) (v : RepairView) (o : DriveOutcome)
    (h : s.rpu.phase ≠ .idle) : s.KeepsJobs (s.readbackOutcome p v o) := by
  unfold State.readbackOutcome
  split
  · exact (s.setHold_keeps _ _).trans (State.returnRecord_keeps _ _ _)
  · split
    · exact s.endRepair_keeps _ _
    · split
      · exact s.writeStep_keeps (Or.inr h)
      · exact s.endRepair_keeps _ _

/-- An outcome that RPU takes keeps (R121 to R126). -/
theorem State.rpuOutcome_keeps (s : State) (p : PortId) (o : DriveOutcome) :
    s.KeepsJobs (s.rpuOutcome p o) := by
  unfold State.rpuOutcome
  split
  · exact State.KeepsJobs.refl s
  · split
    · exact State.KeepsJobs.refl s
    · next e => exact s.referenceOutcome_keeps p _ o (by simp [e])
    · next e => exact s.sourceOutcome_keeps p _ o (by simp [e])
    · next e => exact s.writeOutcome_keeps p _ o (by simp [e])
    · next e => exact s.readbackOutcome_keeps p _ o (by simp [e])

/-- A cut command of RPU keeps (R129). -/
theorem State.rpuCut_keeps (s : State) (p : PortId) (c : Claim) : s.KeepsJobs (s.rpuCut p c) := by
  unfold State.rpuCut
  dsimp only
  split
  · exact s.uncountAttempt_keeps.trans (State.placeRpuClaim_keeps _ _ _)
  · exact s.placeRpuClaim_keeps _ _

end Sys2Proof.Machine
end

