-- ==== Sys2Proof/Laws/Job.lean ====
section
/-! SUPPORT. The operations of the Defect List, the Job Unit and the Patrol Scheduler keep (`State.Keeps`). -/

namespace Sys2Proof.Machine

open Sys2Proof

/-! ### Findings and locks -/

theorem State.addRecord_keeps (s : State) (f : Finding)
    (h : s.dfl.records.length < Config.defectCapacity) : s.KeepsJobs (s.addRecord f) := by
  unfold State.addRecord
  have h1 := s.dfl_keeps { s.dfl with records := s.dfl.records ++ [s.newRecord f]
                                      nextId := nextIdAfter (s.newRecord f).id }
    (fun a => ⟨by simpa using h, fun k => absurd (a.stalled k) (Nat.ne_of_lt h)⟩)
  have h2 := h1.trans (State.post_keeps _ (defectFound (s.newRecord f)
    (s.dfl.records ++ [s.newRecord f]).length))
  dsimp only
  split
  · exact h2.trans (rpuChoice_keeps _)
  · exact h2

/-- Judging a finding keeps (R102, R103, R104). -/
theorem State.takeFinding_keeps (s : State) (f : Finding) : s.KeepsJobs (s.takeFinding f).2 := by
  unfold State.takeFinding
  split
  · exact s.modRecord_keeps _ _
  · split
    · next h => exact s.addRecord_keeps f h
    · exact State.KeepsJobs.refl s

/-- A finding meets a full list only with 256 records in it, and then nothing changes (R104). -/
theorem State.takeFinding_full {s t : State} {f : Finding} (h : s.takeFinding f = (.full, t)) :
    t = s ∧ Config.defectCapacity ≤ s.dfl.records.length := by
  unfold State.takeFinding at h
  split at h
  · simp at h
  · split at h
    · simp at h
    · next _ k => exact ⟨(Prod.mk.inj h).2.symm, Nat.le_of_not_lt k⟩

theorem State.setLock_keeps (s : State) (e : Entry) (b : Bool) : s.KeepsJobs (s.setLock e b) := by
  unfold State.setLock
  split
  · exact State.KeepsJobs.refl s
  · exact (s.modEntry_keeps e.reel (fun e => { e with locked := b }) (fun _ => rfl)).trans
      (State.dfl_keeps _ _ (fun h => ⟨by simpa using h.capacity, fun k => by simpa using h.stalled k⟩))

theorem State.setLocks_keeps (b : Bool) (l : List Entry) :
    ∀ s : State, s.KeepsJobs (s.setLocks l b) := by
  unfold State.setLocks
  induction l with
  | nil => exact fun s => State.KeepsJobs.refl s
  | cons e rest ih => exact fun s => (s.setLock_keeps e b).trans (ih _)

theorem State.lockReel_keeps (s : State) (e : Entry) (b : Bool) : s.KeepsJobs (s.lockReel e b) := by
  unfold State.lockReel
  split
  · exact (s.setLock_keeps _ _).trans (rpuChoice_keeps _)
  · exact s.setLock_keeps _ _

theorem State.lockEvery_keeps (s : State) (b : Bool) : s.KeepsJobs (s.lockEvery b) := by
  unfold State.lockEvery
  split
  · exact (State.setLocks_keeps _ _ s).trans (rpuChoice_keeps _)
  · exact State.setLocks_keeps _ _ s

/-! ### Tame changes of a job -/

/-- A change of a job that makes no inactive job active and no terminal job live. -/
structure Job.Tame (j k : Job) : Prop where
  port : k.port = j.port
  active : k.state.active = true → j.state.active = true
  terminal : j.state.terminal = true → k.state.terminal = true

theorem Job.Tame.same {j k : Job} (hp : k.port = j.port) (hs : k.state = j.state) : j.Tame k :=
  ⟨hp, fun h => hs ▸ h, fun h => by rw [hs]; exact h⟩

theorem JobState.terminal_of_active {st : JobState} (h : st.active = true) : st.terminal = false := by
  cases st <;> simp_all [JobState.active, JobState.terminal]

theorem JobState.active_of_terminal {st : JobState} (h : st.terminal = true) : st.active = false := by
  cases st <;> simp_all [JobState.active, JobState.terminal]

theorem Job.Tame.ofActive {j k : Job} (hp : k.port = j.port) (h : j.state.active = true) : j.Tame k :=
  ⟨hp, fun _ => h, fun t => by simp [JobState.terminal_of_active h] at t⟩

theorem Job.Tame.ofLive {j k : Job} (hp : k.port = j.port) (h : j.state.terminal = false)
    (ha : k.state.active = false) : j.Tame k :=
  ⟨hp, fun t => by simp [ha] at t, fun t => by simp [h] at t⟩

theorem Job.Tame.ofEnd {j k : Job} (hp : k.port = j.port) (h : k.state.terminal = true) : j.Tame k :=
  ⟨hp, fun t => by simp [JobState.active_of_terminal h] at t, fun _ => h⟩

/-- Changing JBU tamely keeps. -/
theorem State.jbu_keeps (s : State) (b : Jbu)
    (h : ∀ (k : SlotId) l', b.slots[k] = some l' → ∃ l, s.slot k = some l ∧ l.Tame l') :
    s.Keeps { s with jbu := b } where
  mode := rfl
  mask := rfl
  autoRun := rfl
  resetAsked := rfl
  link := rfl
  reels := rfl
  pts := rfl
  siu := rfl
  supplyLow := rfl
  resetPin := rfl
  resetKind := rfl
  portsSet := rfl
  freeCount := rfl
  pending := rfl
  port := fun _ => Port.Keeps.refl _
  defects := fun a => a
  active := fun a i k j l hi hk ai ak hp => by
    obtain ⟨j0, hj0, tj⟩ := h i j hi
    obtain ⟨l0, hl0, tl⟩ := h k l hk
    exact a i k j0 l0 hj0 hl0 (tj.active ai) (tl.active ak) (by rw [← tj.port, ← tl.port, hp])
  jobsOutside := fun _ a i j hi => by
    obtain ⟨j0, hj0, tj⟩ := h i j hi
    exact tj.terminal (a i j0 hj0)
  idleOutside := fun _ a => a

/-- Changing one job tamely keeps. -/
theorem State.modJob_keeps (s : State) (i : SlotId) (f : Job → Job)
    (h : ∀ j, s.slot i = some j → j.Tame (f j)) : s.Keeps (s.modJob i f) := by
  refine s.jbu_keeps _ (fun k l' hk => ?_)
  have hk' : (s.modJob i f).slot k = some l' := hk
  by_cases e : k = i
  · subst e
    rw [State.slot_modJob_same] at hk'
    obtain ⟨l, hl, rfl⟩ := Option.map_eq_some_iff.mp hk'
    exact ⟨l, hl, h l hl⟩
  · rw [State.slot_modJob_ne s f e] at hk'
    exact ⟨l', hk', Job.Tame.same rfl rfl⟩

/-- Freeing a slot keeps. -/
theorem State.freeSlot_keeps (s : State) (i : SlotId) : s.Keeps (s.setSlot i none) := by
  refine s.jbu_keeps _ (fun k l' hk => ?_)
  have hk' : (s.setSlot i none).slot k = some l' := hk
  by_cases e : k = i
  · subst e; simp at hk'
  · rw [State.slot_setSlot_ne s _ e] at hk'
    exact ⟨l', hk', Job.Tame.same rfl rfl⟩

/-- Changing JBU's counters and orders keeps. -/
theorem State.counters_keeps (s : State) (b : Jbu) (h : b.slots = s.jbu.slots) :
    s.Keeps { s with jbu := b } :=
  s.jbu_keeps _ (fun k l' hk => ⟨l', by rw [h] at hk; exact hk, Job.Tame.same rfl rfl⟩)

/-! ### All jobs at once -/

theorem State.foldJobs_keeps (f : Job → Job) (h : ∀ j : Job, j.Tame (f j)) (l : List SlotId) :
    ∀ s : State, s.Keeps (l.foldl (fun t i => t.modJob i f) s) := by
  induction l with
  | nil => exact fun s => State.Keeps.refl s
  | cons i rest ih => exact fun s => (s.modJob_keeps i f (fun j _ => h j)).trans (ih _)

theorem State.mapJobs_keeps (s : State) (f : Job → Job) (h : ∀ j : Job, j.Tame (f j)) :
    s.Keeps (s.mapJobs f) := State.foldJobs_keeps f h allSlots s

theorem State.slot_foldJobs (f : Job → Job) (k : SlotId) (l : List SlotId) :
    ∀ s : State, l.Nodup →
      (l.foldl (fun t i => t.modJob i f) s).slot k = if k ∈ l then (s.slot k).map f else s.slot k := by
  induction l with
  | nil => intro s _; simp
  | cons i rest ih =>
    intro s hn
    obtain ⟨hi, hr⟩ := List.nodup_cons.mp hn
    rw [List.foldl_cons, ih _ hr]
    by_cases e : k = i
    · subst e
      simp [hi]
    · simp [e, State.slot_modJob_ne s f e]

/-- Every slot after every job is changed. -/
@[simp] theorem State.slot_mapJobs (s : State) (f : Job → Job) (k : SlotId) :
    (s.mapJobs f).slot k = (s.slot k).map f := by
  unfold State.mapJobs
  rw [State.slot_foldJobs f k allSlots s (by decide), if_pos]
  revert k
  decide

/-! ### Where a job stands -/

/-- The job in a slot is active. -/
def State.ActiveAt (s : State) (i : SlotId) : Prop := ∃ j, s.slot i = some j ∧ j.state.active = true

/-- A job in a slot, if any, is not terminal. -/
def State.LiveAt (s : State) (i : SlotId) : Prop := ∀ j, s.slot i = some j → j.state.terminal = false

theorem State.ActiveAt.live {s : State} {i : SlotId} (h : s.ActiveAt i) : s.LiveAt i := by
  intro j hj
  obtain ⟨k, hk, a⟩ := h
  rw [hk] at hj
  cases hj
  exact JobState.terminal_of_active a

theorem State.ActiveAt.ofSlot {s t : State} {i : SlotId} (h : s.ActiveAt i) (e : t.slot i = s.slot i) :
    t.ActiveAt i := by
  unfold State.ActiveAt
  rw [e]
  exact h

/-- A job changed but for its state is as active as it was. -/
theorem State.ActiveAt.modJob {s : State} {i : SlotId} (h : s.ActiveAt i) (f : Job → Job)
    (hf : ∀ j, s.slot i = some j → (f j).state = j.state) : (s.modJob i f).ActiveAt i := by
  obtain ⟨j, hj, a⟩ := h
  exact ⟨f j, by simp [hj], by rw [hf j hj]; exact a⟩

theorem State.mem_slotsWhere {s : State} {f : Job → Bool} {i : SlotId} (h : i ∈ s.slotsWhere f) :
    ∃ j, s.slot i = some j ∧ f j = true := by
  unfold State.slotsWhere at h
  have h2 := (List.mem_filter.mp h).2
  split at h2
  · next j hj => exact ⟨j, hj, h2⟩
  · simp at h2

theorem mem_allSlots (i : SlotId) : i ∈ allSlots := by
  revert i
  decide

theorem mem_allPorts (p : PortId) : p ∈ allPorts := by
  revert p
  decide

theorem State.slotsWhere_mem {s : State} {f : Job → Bool} {i : SlotId} {j : Job}
    (h : s.slot i = some j) (hf : f j = true) : i ∈ s.slotsWhere f := by
  unfold State.slotsWhere
  exact List.mem_filter.mpr ⟨mem_allSlots i, by simp [h, hf]⟩

/-- The active slot of a port holds an active job of the port (R66). -/
theorem State.activeSlot_spec {s : State} {p : PortId} {i : SlotId} (h : s.activeSlot p = some i) :
    ∃ j, s.slot i = some j ∧ j.port = p ∧ j.state.active = true := by
  unfold State.activeSlot at h
  obtain ⟨j, hj, hf⟩ := State.mem_slotsWhere (List.mem_of_mem_head? h)
  simp only [Bool.and_eq_true, decide_eq_true_eq] at hf
  exact ⟨j, hj, hf.1, hf.2⟩

theorem State.activeSlot_activeAt {s : State} {p : PortId} {i : SlotId} (h : s.activeSlot p = some i) :
    s.ActiveAt i := by
  obtain ⟨j, hj, _, a⟩ := State.activeSlot_spec h
  exact ⟨j, hj, a⟩

/-- A port without an active slot has no active job. -/
theorem State.activeSlot_none {s : State} {p : PortId} (h : s.activeSlot p = none) {i : SlotId} {j : Job}
    (hj : s.slot i = some j) (hp : j.port = p) : j.state.active = false := by
  unfold State.activeSlot at h
  by_contra a
  have m := State.slotsWhere_mem (f := fun j => decide (j.port = p) && j.state.active) hj
    (by simp [hp, a])
  rw [List.head?_eq_none_iff] at h
  simp [h] at m

theorem State.aheadOf_mem (s : State) (i k : SlotId) : s.aheadOf i k = i ∨ s.aheadOf i k = k := by
  unfold State.aheadOf
  split
  · split <;> simp
  · simp

theorem State.foldl_aheadOf_mem (s : State) (l : List SlotId) :
    ∀ i, l.foldl s.aheadOf i = i ∨ l.foldl s.aheadOf i ∈ l := by
  induction l with
  | nil => intro i; simp
  | cons k rest ih =>
    intro i
    rw [List.foldl_cons]
    rcases ih (s.aheadOf i k) with h | h
    · rcases s.aheadOf_mem i k with e | e
      · rw [h, e]; exact Or.inl rfl
      · rw [h, e]; exact Or.inr (by simp)
    · exact Or.inr (List.mem_cons_of_mem _ h)

/-- The head of a port's queue is a QUEUED job of the port (R70). -/
theorem State.queueHead_queued {s : State} {p : PortId} {i : SlotId} (h : s.queueHead p = some i) :
    ∃ j, s.slot i = some j ∧ j.port = p ∧ j.state = .queued := by
  unfold State.queueHead at h
  split at h
  · simp at h
  · next k rest e =>
    have m : i ∈ s.queuedSlots p := by
      rw [e]
      rcases s.foldl_aheadOf_mem rest k with h' | h'
      · simp [← Option.some.inj h, h']
      · exact List.mem_cons_of_mem _ (Option.some.inj h ▸ h')
    obtain ⟨j, hj, hf⟩ := State.mem_slotsWhere m
    simp only [Bool.and_eq_true, decide_eq_true_eq] at hf
    exact ⟨j, hj, hf.1, hf.2⟩

/-! ### Waiting, queuing and ending -/

theorem State.enterWaiting_keeps (s : State) (i : SlotId) (st : JobState)
    (h : ∀ j, s.slot i = some j → j.Tame { j with state := st }) : s.Keeps (s.enterWaiting i st) := by
  unfold State.enterWaiting
  have h1 := s.modJob_keeps i (fun j => { j with state := st }) h
  dsimp only
  split
  · exact h1.trans (State.post_keeps _ _).toKeeps
  · exact h1

theorem State.enterWaiting_active_keeps (s : State) (i : SlotId) (st : JobState) (h : s.ActiveAt i) :
    s.Keeps (s.enterWaiting i st) :=
  s.enterWaiting_keeps i st (fun j hj => by
    obtain ⟨k, hk, a⟩ := h
    rw [hk] at hj
    cases hj
    exact Job.Tame.ofActive rfl a)

theorem State.renumberSequences_keeps (s : State) : s.Keeps s.renumberSequences := by
  unfold State.renumberSequences
  split
  · exact State.Keeps.refl s
  · dsimp only
    refine (s.mapJobs_keeps (fun j => if j.queued then
      { j with sequence := s.rankBelow Job.queued (·.sequence) j.sequence + 1 } else j) (fun j => ?_)).trans
      (State.counters_keeps _ _ rfl)
    split <;> exact Job.Tame.same rfl rfl

theorem State.renumberEnds_keeps (s : State) : s.Keeps s.renumberEnds := by
  unfold State.renumberEnds
  split
  · exact State.Keeps.refl s
  · dsimp only
    refine (s.mapJobs_keeps (fun j => if j.ended then
      { j with endOrder := some (s.rankBelow Job.ended (fun k => k.endOrder.getD 0)
                                  (j.endOrder.getD 0) + 1) } else j) (fun j => ?_)).trans
      (State.counters_keeps _ _ rfl)
    split <;> exact Job.Tame.same rfl rfl

/-- Renumbering leaves every job's state as it was. -/
theorem State.renumberSequences_slot (s : State) (i : SlotId) (j : Job)
    (h : s.renumberSequences.slot i = some j) : ∃ k, s.slot i = some k ∧ j.state = k.state ∧ j.port = k.port := by
  unfold State.renumberSequences at h
  split at h
  · exact ⟨j, h, rfl, rfl⟩
  · have e : ∀ (t : State) (n : Nat),
        ({ t with jbu := { t.jbu with sequence := n } } : State).slot i = t.slot i := fun _ _ => rfl
    dsimp only at h
    rw [e, State.slot_mapJobs] at h
    obtain ⟨k, hk, e⟩ := Option.map_eq_some_iff.mp h
    refine ⟨k, hk, ?_⟩
    subst e
    split <;> exact ⟨rfl, rfl⟩

/-- The counter of queue sequences moves on (R69). -/
theorem State.nextSequence_keeps (s : State) : s.Keeps s.nextSequence := by
  unfold State.nextSequence
  exact s.renumberSequences_keeps.trans (State.counters_keeps s.renumberSequences
    { s.renumberSequences.jbu with sequence := s.renumberSequences.jbu.sequence + 1 } rfl)

/-- Moving the counter leaves every job's state and port as they were. -/
theorem State.nextSequence_slot (s : State) (i : SlotId) (j : Job) (h : s.nextSequence.slot i = some j) :
    ∃ k, s.slot i = some k ∧ j.state = k.state ∧ j.port = k.port :=
  s.renumberSequences_slot i j h

/-- A counter below its end moves on by one, and nothing else changes (R69). -/
theorem State.nextSequence_of_lt {s : State} (h : s.jbu.sequence < Config.word32Max) :
    s.nextSequence = { s with jbu := { s.jbu with sequence := s.jbu.sequence + 1 } } := by
  simp [State.nextSequence, State.renumberSequences, h]

/-- A live job enters QUEUED (R69). -/
theorem State.enterQueued_keeps (s : State) (i : SlotId) (h : s.LiveAt i) : s.Keeps (s.enterQueued i) := by
  unfold State.enterQueued
  refine s.nextSequence_keeps.trans (State.modJob_keeps _ _ _ (fun j hj => ?_))
  obtain ⟨k, hk, e, _⟩ := s.nextSequence_slot i j hj
  exact Job.Tame.ofLive rfl (by rw [e]; exact h k hk) rfl

/-- A job becomes terminal (R67). -/
theorem State.endJob_keeps (s : State) (i : SlotId) (st : JobState) (r : EndReason)
    (h : st.terminal = true) : s.Keeps (s.endJob i st r) := by
  unfold State.endJob
  dsimp only
  have h2 := (s.renumberEnds_keeps.trans (State.counters_keeps s.renumberEnds
      { s.renumberEnds.jbu with endOrder := s.renumberEnds.jbu.endOrder + 1 } rfl)).trans
    (State.modJob_keeps _ i (fun j => { j with
        state := st, endReason := some r, endOrder := some (s.renumberEnds.jbu.endOrder + 1) })
      (fun j _ => Job.Tame.ofEnd rfl h))
  split
  · exact h2
  · split
    · exact (h2.trans (State.post_keeps _ _).toKeeps).trans (State.freeSlot_keeps _ _)
    · exact h2.trans (State.post_keeps _ _).toKeeps

theorem State.withdrawJob_keeps (s : State) (j : Job) : s.KeepsJobs (s.withdrawJob j) := by
  unfold State.withdrawJob
  split
  · exact s.withdraw_keeps _ _
  · exact State.KeepsJobs.refl s

theorem State.dropWork_keeps (s : State) (i : SlotId) : s.Keeps (s.dropWork i) := by
  unfold State.dropWork
  exact ((s.modJob_keeps i (fun j => { j with finding := none, settling := none })
      (fun _ _ => Job.Tame.same rfl rfl)).trans (State.leaveStall_keeps _ i).toKeeps).trans
    (State.counters_keeps _ _ rfl)

theorem State.dropWork_slot (s : State) (i k : SlotId) :
    (s.dropWork i).slot k =
      if k = i then (s.slot i).map (fun j => { j with finding := none, settling := none }) else s.slot k :=
  State.slot_modJob s i k _

/-- A live job enters WAIT_MEDIA (R85). -/
theorem State.enterWaitMedia_keeps (s : State) (i : SlotId) (h : s.LiveAt i) :
    s.Keeps (s.enterWaitMedia i) := by
  unfold State.enterWaitMedia
  split
  · exact State.Keeps.refl s
  · next j hj =>
    dsimp only
    have h1 := ((s.withdrawJob_keeps j).toKeeps.trans (State.dropWork_keeps _ i)).trans
      (State.modJob_keeps _ i (fun j => { j with manifest := none }) (fun _ _ => Job.Tame.same rfl rfl))
    have hs : ∀ k, (((s.withdrawJob j).dropWork i).modJob i (fun j => { j with manifest := none })).slot i
        = some k → k.state.terminal = false := fun k hk => by
      rw [State.slot_modJob_same, State.dropWork_slot, if_pos rfl, (s.withdrawJob_keeps j).slot, hj] at hk
      cases hk
      exact h j hj
    generalize ((s.withdrawJob j).dropWork i).modJob i (fun j => { j with manifest := none }) = s1 at h1 hs
    refine (h1.trans (State.counters_keeps s1 { s1.jbu with waitOrder := s1.jbu.waitOrder ++ [i] } rfl)).trans
      (State.enterWaiting_keeps _ i _ (fun k hk => Job.Tame.ofLive rfl (hs k hk) rfl))

/-- After a job's entry into WAIT_MEDIA every live slot is still live. -/
theorem State.enterWaiting_live {s : State} {i k : SlotId} {st : JobState} (hst : st.terminal = false)
    (h : k ≠ i → s.LiveAt k) : (s.enterWaiting i st).LiveAt k := by
  have key : ∀ j, (s.modJob i (fun j => { j with state := st })).slot k = some j → j.state.terminal = false := by
    intro j hj
    by_cases e : k = i
    · subst e
      rw [State.slot_modJob_same] at hj
      obtain ⟨l, _, rfl⟩ := Option.map_eq_some_iff.mp hj
      exact hst
    · rw [State.slot_modJob_ne s _ e] at hj
      exact h e j hj
  intro j hj
  unfold State.enterWaiting at hj
  dsimp only at hj
  split at hj
  · rw [(State.post_keeps _ _).slot] at hj
    exact key j hj
  · exact key j hj

theorem State.enterWaitMedia_live (s : State) (i k : SlotId) (h : s.LiveAt k) :
    (s.enterWaitMedia i).LiveAt k := by
  unfold State.enterWaitMedia
  split
  · exact h
  · next j hj =>
    refine State.enterWaiting_live rfl (fun e l hl => ?_)
    have hl' : (((s.withdrawJob j).dropWork i).modJob i (fun j => { j with manifest := none })).slot k
        = some l := hl
    rw [State.slot_modJob_ne _ _ e, State.dropWork_slot, if_neg e, (s.withdrawJob_keeps j).slot] at hl'
    exact h l hl'

/-! ### Boundaries (R72, R80) -/

theorem State.recordScrub_keeps (s : State) (j : Job) : s.KeepsJobs (s.recordScrub j) := by
  unfold State.recordScrub
  split
  · exact s.modCopy_keeps _ _
  · exact State.KeepsJobs.refl s

theorem State.finishJob_keeps (s : State) (i : SlotId) (j : Job) : s.Keeps (s.finishJob i j) :=
  (s.recordScrub_keeps j).toKeeps.trans (State.endJob_keeps _ _ _ _ rfl)

theorem State.scrubBoundary_keeps (s : State) (i : SlotId) (j : Job) (h : s.ActiveAt i) :
    s.Keeps (s.scrubBoundary i j) := by
  unfold State.scrubBoundary
  split
  · refine s.modJob_keeps i _ (fun k hk => ?_)
    exact Job.Tame.ofLive rfl (h.live k hk) rfl
  · split
    · exact s.enterWaiting_active_keeps i _ h
    · split
      · exact s.finishJob_keeps i j
      · split
        · exact State.Keeps.refl s
        · exact (s.placeJobClaim_keeps _ _).toKeeps

/-- An active job stalls against a full list (R84, R104). -/
theorem State.stallJob_keeps (s : State) (i : SlotId) (f : Finding)
    (hl : Config.defectCapacity ≤ s.dfl.records.length) (h : s.ActiveAt i) : s.Keeps (s.stallJob i f) := by
  unfold State.stallJob
  have h1 := s.modJob_keeps i (fun j => { j with finding := some f }) (fun _ _ => Job.Tame.same rfl rfl)
  have a1 := h.modJob (fun j => { j with finding := some f }) (fun _ _ => rfl)
  generalize hs1 : s.modJob i (fun j => { j with finding := some f }) = s1 at h1 a1
  have hl1 : Config.defectCapacity ≤ s1.dfl.records.length := by subst hs1; exact hl
  exact (h1.trans (s1.dfl_keeps { s1.dfl with stallOrder := s1.dfl.stallOrder ++ [i] }
      (fun a => ⟨a.capacity, fun _ => Nat.le_antisymm a.capacity hl1⟩)).toKeeps).trans
    (State.enterWaiting_active_keeps _ i _ a1)

theorem Job.settled_same (j : Job) (n : Nat) :
    (j.settled n).port = j.port ∧ (j.settled n).state = j.state := ⟨rfl, rfl⟩

/-- Settling a verify read keeps (R82). -/
theorem State.settleVerify_keeps (fuel : Nat) :
    ∀ (s : State) (i : SlotId), s.ActiveAt i → s.Keeps (State.settleVerify fuel s i) := by
  induction fuel with
  | zero => exact fun s _ _ => State.Keeps.refl s
  | succ n ih =>
    intro s i h
    unfold State.settleVerify
    split
    · exact State.Keeps.refl s
    · next j hj =>
      split
      · exact State.Keeps.refl s
      · next st hst =>
        split
        · exact s.modJob_keeps i _ (fun _ _ => Job.Tame.same rfl rfl)
        · next o rest _ =>
          dsimp only
          generalize hw : (fun j : Job => ({ j with settling := some { st with
            remaining := s.stillRemaining j (s.verifyFinding j o).place rest } } : Job)) = w
          generalize s.stillRemaining j (s.verifyFinding j o).place rest = left
          have k1 := s.modJob_keeps i (fun j => { j with settling := some { st with remaining := left } })
            (fun _ _ => Job.Tame.same rfl rfl)
          have a1 := h.modJob (fun j => { j with settling := some { st with remaining := left } })
            (fun _ _ => rfl)
          generalize s.modJob i (fun j => { j with settling := some { st with remaining := left } }) = s1
            at k1 a1
          have k2 := s1.takeFinding_keeps (s.verifyFinding j o)
          split
          · next s2 e =>
            obtain ⟨e2, hl⟩ := State.takeFinding_full e
            subst e2
            exact k1.trans (State.stallJob_keeps _ i _ hl a1)
          · next a s2 _ e =>
            rw [e] at k2
            exact (k1.trans k2.toKeeps).trans (ih _ i (a1.ofSlot (k2.slot i)))

theorem State.verifyAdvance_keeps (s : State) (i : SlotId) (j : Job) : s.Keeps (s.verifyAdvance i j) := by
  unfold State.verifyAdvance
  split
  · exact s.finishJob_keeps i j
  · exact (s.placeJobClaim_keeps _ _).toKeeps

theorem State.verifyBoundary_keeps (s : State) (i : SlotId) (j : Job) (h : s.ActiveAt i) :
    s.Keeps (s.verifyBoundary i j) := by
  unfold State.verifyBoundary
  split
  · exact s.enterWaiting_active_keeps i _ h
  · dsimp only
    have k := State.settleVerify_keeps j.settlingFuel s i h
    split
    · exact k
    · split
      · exact k.trans (State.verifyAdvance_keeps _ _ _)
      · exact k

/-- An active job's boundary keeps (R72, R80). -/
theorem State.boundary_keeps (s : State) (i : SlotId) (h : s.ActiveAt i) : s.Keeps (s.boundary i) := by
  unfold State.boundary
  split
  · exact State.Keeps.refl s
  · split
    · exact s.verifyBoundary_keeps i _ h
    · exact s.scrubBoundary_keeps i _ h

/-- An active job is changed but for its state, and is then at a boundary. -/
theorem State.modJob_boundary_keeps (s : State) (i : SlotId) (f : Job → Job) (h : s.ActiveAt i)
    (hf : ∀ j : Job, (f j).port = j.port ∧ (f j).state = j.state) :
    s.Keeps ((s.modJob i f).boundary i) :=
  (s.modJob_keeps i f (fun j _ => Job.Tame.same (hf j).1 (hf j).2)).trans
    (State.boundary_keeps _ i (h.modJob f (fun j _ => (hf j).2)))

/-! ### Activation and creation (R71, R64) -/

@[simp] theorem Job.bind_port (j : Job) (v : VolumeState) : (j.bind v).port = j.port := by
  unfold Job.bind
  split <;> rfl

@[simp] theorem Job.bind_state (j : Job) (v : VolumeState) : (j.bind v).state = j.state := by
  unfold Job.bind
  split <;> rfl

/-- A QUEUED job of a port that has no active job becomes RUNNING (R71). -/
theorem State.start_keeps (s : State) (p : PortId) (i : SlotId) (j : Job) (f : Job → Job)
    (ha : s.activeSlot p = none) (hj : s.slot i = some j) (hp : j.port = p) (hq : j.state = .queued)
    (hf : (f j).port = j.port) : s.Keeps (s.modJob i f) where
  mode := rfl
  mask := rfl
  autoRun := rfl
  resetAsked := rfl
  link := rfl
  reels := rfl
  pts := rfl
  siu := rfl
  supplyLow := rfl
  resetPin := rfl
  resetKind := rfl
  portsSet := rfl
  freeCount := rfl
  pending := rfl
  port := fun _ => Port.Keeps.refl _
  defects := fun a => a
  active := fun a k m l n hk hm al an hpp => by
    have none' : ∀ (x : SlotId) (y : Job), x ≠ i → (s.modJob i f).slot x = some y →
        y.port = p → y.state.active = false := fun x y hx hy hyp => by
      rw [State.slot_modJob_ne s f hx] at hy
      exact State.activeSlot_none ha hy hyp
    have at' : ∀ y, (s.modJob i f).slot i = some y → y.port = p := fun y hy => by
      rw [State.slot_modJob_same, hj] at hy
      cases hy
      rw [hf, hp]
    by_cases e1 : k = i
    · by_cases e2 : m = i
      · rw [e1, e2]
      · subst e1
        have := none' m n e2 hm (hpp ▸ at' l hk)
        simp [this] at an
    · by_cases e2 : m = i
      · subst e2
        have := none' k l e1 hk (hpp.trans (at' n hm))
        simp [this] at al
      · rw [State.slot_modJob_ne s f e1] at hk
        rw [State.slot_modJob_ne s f e2] at hm
        exact a k m l n hk hm al an hpp
  jobsOutside := fun _ a => by
    have := a i j hj
    simp [hq, JobState.terminal] at this
  idleOutside := fun _ a => a

/-- The activation test keeps (R71). -/
theorem State.activate_keeps (fuel : Nat) : ∀ (s : State) (p : PortId), s.Keeps (State.activate fuel s p) := by
  induction fuel with
  | zero => exact fun s _ => State.Keeps.refl s
  | succ n ih =>
    intro s p
    unfold State.activate
    split
    · exact State.Keeps.refl s
    · next ha =>
      split
      · exact State.Keeps.refl s
      · next i hi =>
        split
        · exact State.Keeps.refl s
        · next j hj =>
          obtain ⟨j', hj', hp, hq⟩ := State.queueHead_queued hi
          rw [hj] at hj'
          cases hj'
          split
          · dsimp only
            have k1 := s.start_keeps p i j (fun j => { (j.bind (s.port p).volume) with state := .running })
              ha hj hp hq (by simp)
            have a1 : (s.modJob i (fun j => { (j.bind (s.port p).volume) with state := .running })).ActiveAt i :=
              ⟨_, by rw [State.slot_modJob_same, hj]; rfl, rfl⟩
            exact (k1.trans (State.boundary_keeps _ i a1)).trans (ih _ p)
          · refine (s.enterWaitMedia_keeps i (fun k hk => ?_)).trans (ih _ p)
            rw [hj] at hk
            cases hk
            simp [hq, JobState.terminal]

theorem State.activatePort_keeps (s : State) (p : PortId) : s.Keeps (s.activatePort p) :=
  State.activate_keeps _ s p

/-- Placing an inactive job in a slot keeps: only a part in RUN does (R178). -/
theorem State.placeJob_keeps (s : State) (i : SlotId) (j : Job) (hm : s.mode = .run)
    (hj : j.state.active = false) : s.Keeps (s.setSlot i (some j)) := by
  refine ⟨rfl, rfl, rfl, rfl, rfl, rfl, rfl, rfl, rfl, rfl, rfl, rfl, rfl, rfl,
    fun _ => Port.Keeps.refl _, fun a => a, fun a x y l n hx hy al an hp => ?_,
    fun m => absurd hm m, fun _ a => a⟩
  have other : ∀ (x : SlotId) (l : Job), (s.setSlot i (some j)).slot x = some l →
      l.state.active = true → s.slot x = some l := fun x l hx al => by
    by_cases e : x = i
    · subst e
      rw [State.slot_setSlot_same] at hx
      cases hx
      simp [hj] at al
    · rw [State.slot_setSlot_ne _ _ e] at hx
      exact hx
  exact a x y l n (other x l hx al) (other y n hy an) al an hp

/-- Creating a job keeps: only a part in RUN creates one (R178). -/
theorem State.createJob_keeps (s : State) (i : SlotId) (j : Job) (hm : s.mode = .run)
    (hj : j.state = .queued) : s.Keeps (s.createJob i j) := by
  unfold State.createJob
  dsimp only
  have k := State.counters_keeps s { s.jbu with nextId := nextIdAfter j.id } rfl
  split
  · have k2 := k.trans (State.nextSequence_keeps _)
    exact k2.trans (State.placeJob_keeps _ i _ (k2.mode.trans hm) rfl)
  · have b : (j.bind (s.port j.port).volume).state = .queued := (Job.bind_state _ _).trans hj
    refine (k.trans (State.placeJob_keeps _ i _ hm (by rw [b]; rfl))).trans
      (State.enterWaitMedia_keeps _ i (fun l hl => ?_))
    rw [State.slot_setSlot_same] at hl
    cases hl
    rw [b]
    rfl

/-! ### Findings taken, and outcomes (R74 to R77, R80) -/

theorem Job.completeFinding_same (j : Job) (f : Finding) :
    (j.completeFinding f).port = j.port ∧ (j.completeFinding f).state = j.state := by
  unfold Job.completeFinding
  split
  · split
    · split <;> exact ⟨rfl, rfl⟩
    · exact ⟨rfl, rfl⟩
  · split <;> exact ⟨rfl, rfl⟩

/-- A finding of an active scrub keeps (R77). -/
theorem State.scrubFinding_keeps (s : State) (i : SlotId) (f : Finding) (h : s.ActiveAt i) :
    s.Keeps (s.scrubFinding i f) := by
  unfold State.scrubFinding
  have k := s.takeFinding_keeps f
  split
  · next s1 e =>
    obtain ⟨e1, hl⟩ := State.takeFinding_full e
    subst e1
    exact State.stallJob_keeps _ i f hl h
  · next a s1 _ e =>
    rw [e] at k
    have a1 := h.ofSlot (k.slot i)
    exact (k.toKeeps.trans (State.modJob_keeps _ i (fun j => j.completeFinding f)
      (fun j _ => Job.Tame.same (j.completeFinding_same f).1 (j.completeFinding_same f).2))).trans
      (State.boundary_keeps _ i (a1.modJob _ (fun j _ => (j.completeFinding_same f).2)))

theorem State.manifestOutcome_keeps (s : State) (i : SlotId) (j : Job) (t : Target) (o : DriveOutcome)
    (h : s.ActiveAt i) : s.Keeps (s.manifestOutcome i j t o) := by
  unfold State.manifestOutcome
  split
  · exact s.enterWaitMedia_keeps i h.live
  · exact s.modJob_boundary_keeps i _ h (fun _ => ⟨rfl, rfl⟩)
  · exact s.scrubFinding_keeps i _ h

theorem State.frameOutcome_keeps (s : State) (i : SlotId) (j : Job) (t : Target) (o : DriveOutcome)
    (h : s.ActiveAt i) : s.Keeps (s.frameOutcome i j t o) := by
  unfold State.frameOutcome
  split
  · exact s.enterWaitMedia_keeps i h.live
  · split
    · exact s.modJob_boundary_keeps i _ h (fun _ => ⟨rfl, rfl⟩)
    · exact s.scrubFinding_keeps i _ h
  · exact s.scrubFinding_keeps i _ h

theorem State.verifyOutcome_keeps (s : State) (i : SlotId) (o : DriveOutcome) (h : s.ActiveAt i) :
    s.Keeps (s.verifyOutcome i o) := by
  unfold State.verifyOutcome
  split
  · exact s.enterWaitMedia_keeps i h.live
  · exact s.modJob_boundary_keeps i _ h (fun _ => ⟨rfl, rfl⟩)
  · dsimp only
    have k1 := s.modJob_keeps i (fun j => { j with settling := some ⟨o.offsets, o.offsets.length⟩ })
      (fun _ _ => Job.Tame.same rfl rfl)
    have a1 := h.modJob (fun j => { j with settling := some ⟨o.offsets, o.offsets.length⟩ }) (fun _ _ => rfl)
    have k2 := k1.trans (State.settleVerify_keeps (o.offsets.length + 1) _ i a1)
    split
    · exact k2
    · next j hj =>
      split
      · next e => exact k2.trans (State.boundary_keeps _ i ⟨j, hj, by simp [e, JobState.active]⟩)
      · exact k2

/-- The outcome of an active job's read keeps (R74, R76, R80). -/
theorem State.readOutcome_keeps (s : State) (i : SlotId) (o : DriveOutcome) (h : s.ActiveAt i) :
    s.Keeps (s.readOutcome i o) := by
  unfold State.readOutcome
  split
  · exact State.Keeps.refl s
  · split
    · exact s.verifyOutcome_keeps i o h
    · split
      · exact s.frameOutcome_keeps i _ _ o h
      · exact s.manifestOutcome_keeps i _ _ o h

/-! ### Patrol (R156 to R160) -/

theorem newJob_state (id : Nat) (k : JobKind) (o : JobOrigin) (t : Option Target) (p : PortId) (a : Nat)
    (b : Option Nat) : (newJob id k o t p a b).state = .queued := rfl

/-- An eligible port is found in RUN only (R158). -/
theorem State.eligible_run {s : State} {p : PortId} (h : s.eligible p = true) : s.mode = .run := by
  unfold State.eligible at h
  simp only [Bool.and_eq_true, decide_eq_true_eq] at h
  exact h.1.1.1.1.1

/-- An evaluation keeps (R157). -/
theorem State.evaluate_keeps (s : State) (p : PortId) : s.Keeps (s.evaluate p) := by
  unfold State.evaluate
  split
  · next h =>
    split
    · exact (s.createJob_keeps _ _ (State.eligible_run h) rfl).trans (State.activatePort_keeps _ _)
    · exact State.Keeps.refl s
  · exact State.Keeps.refl s

/-- Evaluating every port keeps (R156). -/
theorem evaluateAll_keeps (s : State) : s.Keeps (evaluateAll s) := by
  unfold evaluateAll
  generalize allPorts = l
  induction l generalizing s with
  | nil => exact State.Keeps.refl s
  | cons p rest ih => exact (s.evaluate_keeps p).trans (ih _)

/-- What follows a boundary keeps (R71, R95). -/
theorem State.followUp_keeps (s : State) (p : PortId) : s.Keeps (s.followUp p) :=
  (s.activatePort_keeps p).trans (State.evaluate_keeps _ p)

end Sys2Proof.Machine
end

