-- ==== Sys2Proof/Laws/Choice.lean ====
section
/-! SUPPORT. What the choices choose: the slot of a new job (R67), the head of a port's queue (R70), and the copy that
patrol scrubs (R158, R159). -/

namespace Sys2Proof.Machine

open Sys2Proof

/-- A fold that keeps the better of two ends with a member that no member is better than. -/
theorem foldl_least {α : Type} (better : α → α → Bool) (pick : α → α → α) (ok : α → Prop)
    (hpick : ∀ a b, ok a → ok b → pick a b = if better b a then b else a)
    (htrans : ∀ a b c, ok a → ok b → ok c → better b a = true → better c b = true → better c a = true)
    (hneg : ∀ a b c, ok a → ok b → ok c → better b a = false → better c b = false → better c a = false)
    (hirr : ∀ a, better a a = false) (l : List α) :
    ∀ a, ok a → (∀ x ∈ l, ok x) →
      l.foldl pick a ∈ a :: l ∧ ∀ x ∈ a :: l, better x (l.foldl pick a) = false := by
  induction l with
  | nil => intro a _ _; simpa using hirr a
  | cons b rest ih =>
    intro a ha hl
    have hb : ok b := hl b (by simp)
    have hr : ∀ x ∈ rest, ok x := fun x hx => hl x (by simp [hx])
    rw [List.foldl_cons, hpick a b ha hb]
    cases hab : better b a
    · obtain ⟨m, h⟩ := ih a ha hr
      simp only [Bool.false_eq_true, if_false]
      have hm : ok (rest.foldl pick a) := by
        rcases List.mem_cons.mp m with e | e
        · rw [e]; exact ha
        · exact hr _ e
      refine ⟨?_, fun x hx => ?_⟩
      · rcases List.mem_cons.mp m with e | e
        · rw [e]; simp
        · simp [e]
      · rcases List.mem_cons.mp hx with e | e
        · exact h x (by simp [e])
        · rcases List.mem_cons.mp e with e | e
          · rw [e]
            exact hneg _ a b hm ha hb (h a (by simp)) hab
          · exact h x (by simp [e])
    · obtain ⟨m, h⟩ := ih b hb hr
      simp only [if_true]
      have hm : ok (rest.foldl pick b) := by
        rcases List.mem_cons.mp m with e | e
        · rw [e]; exact hb
        · exact hr _ e
      refine ⟨List.mem_cons_of_mem _ m, fun x hx => ?_⟩
      rcases List.mem_cons.mp hx with e | e
      · rw [e]
        by_contra hc
        have := htrans _ a b hm ha hb (by simpa using hc) hab
        rw [h b (by simp)] at this
        simp at this
      · exact h x e

/-! ### The head of a queue (R70) -/

/-- A port has no QUEUED job exactly where its queue has no head. -/
theorem State.queueHead_none_iff (s : State) (p : PortId) :
    s.queueHead p = none ↔ ∀ k l, s.slot k = some l → l.port = p → l.state ≠ .queued := by
  unfold State.queueHead
  constructor
  · intro h k l hl hp hq
    have m : k ∈ s.queuedSlots p := State.slotsWhere_mem hl (by simp [hp, hq])
    split at h
    · next e => rw [e] at m; simp at m
    · simp at h
  · intro h
    split
    · rfl
    · next i rest e =>
      have m : i ∈ s.queuedSlots p := by rw [e]; simp
      obtain ⟨l, hl, hf⟩ := State.mem_slotsWhere m
      simp only [Bool.and_eq_true, decide_eq_true_eq] at hf
      exact absurd hf.2 (h i l hl hf.1)

/-! ### The slot of a new job (R67) -/

/-- A FREE slot is found where there is one. -/
theorem State.findSlot_free {s : State} (h : ∃ k, s.slot k = none) :
    ∃ i, s.findSlot = some i ∧ s.slot i = none := by
  obtain ⟨k, hk⟩ := h
  have m : k ∈ allSlots.filter (fun i => (s.slot i).isNone) :=
    List.mem_filter.mpr ⟨mem_allSlots k, by simp [hk]⟩
  unfold State.findSlot
  split
  · next i rest e =>
    have hi : i ∈ allSlots.filter (fun i => (s.slot i).isNone) := by rw [e]; simp
    exact ⟨i, rfl, by simpa using (List.mem_filter.mp hi).2⟩
  · next e => rw [e] at m; simp at m

/-- With no FREE slot, the terminal job of lowest end order gives up its slot. -/
theorem State.findSlot_reclaim {s : State} (h : ∀ k, s.slot k ≠ none)
    (ht : ∃ k l, s.slot k = some l ∧ l.state.terminal = true) :
    ∃ i j, s.findSlot = some i ∧ s.slot i = some j ∧ j.state.terminal = true ∧
      ∀ k l, s.slot k = some l → l.state.terminal = true → j.endOrder.getD 0 ≤ l.endOrder.getD 0 := by
  obtain ⟨k, l, hk, hl⟩ := ht
  have hfree : allSlots.filter (fun i => (s.slot i).isNone) = [] :=
    List.filter_eq_nil_iff.mpr (fun i _ => by simpa using h i)
  have m : k ∈ s.slotsWhere Job.ended := State.slotsWhere_mem hk hl
  unfold State.findSlot
  rw [hfree]
  dsimp only
  cases e : s.slotsWhere Job.ended with
  | nil => rw [e] at m; simp at m
  | cons i rest =>
    have hok : ∀ x ∈ i :: rest, ∃ j, s.slot x = some j ∧ j.state.terminal = true :=
      fun x hx => State.mem_slotsWhere (f := Job.ended) (by rw [e]; exact hx)
    let order (x : SlotId) : Nat := ((s.slot x).bind (·.endOrder)).getD 0
    obtain ⟨hm, hb⟩ := foldl_least (fun a b => decide (order a < order b)) s.earlierEnd
      (fun x => ∃ j, s.slot x = some j ∧ j.state.terminal = true)
      (fun a b ⟨j, hj, _⟩ ⟨l, hl, _⟩ => by simp [State.earlierEnd, order, hj, hl])
      (fun a b c _ _ _ h1 h2 => by simp only [decide_eq_true_eq] at *; omega)
      (fun a b c _ _ _ h1 h2 => by simp only [decide_eq_false_iff_not] at *; omega)
      (fun a => by simp) rest i (hok i (by simp)) (fun x hx => hok x (by simp [hx]))
    obtain ⟨j, hj, htj⟩ := hok _ hm
    refine ⟨_, j, rfl, hj, htj, fun k l hk hl => ?_⟩
    have := hb k (by rw [← e]; exact State.slotsWhere_mem hk hl)
    simp only [decide_eq_false_iff_not, Nat.not_lt, order, hj, hk, Option.bind_some] at this
    exact this

/-- No slot is found exactly where every slot holds a job that has not ended. -/
theorem State.findSlot_none_iff (s : State) :
    s.findSlot = none ↔ ∀ k, ∃ l, s.slot k = some l ∧ l.state.terminal = false := by
  constructor
  · intro h
    have hfull : ∀ k, s.slot k ≠ none := fun k hk => by
      obtain ⟨i, hi, _⟩ := State.findSlot_free ⟨k, hk⟩
      rw [h] at hi
      simp at hi
    intro k
    obtain ⟨l, hl⟩ := Option.ne_none_iff_exists'.mp (hfull k)
    refine ⟨l, hl, ?_⟩
    by_contra ht
    obtain ⟨i, j, hi, _⟩ := State.findSlot_reclaim hfull ⟨k, l, hl, by simpa using ht⟩
    rw [h] at hi
    simp at hi
  · intro h
    have hfree : allSlots.filter (fun i => (s.slot i).isNone) = [] :=
      List.filter_eq_nil_iff.mpr (fun i _ => by obtain ⟨l, hl, _⟩ := h i; simp [hl])
    have hended : s.slotsWhere Job.ended = [] := by
      refine List.eq_nil_iff_forall_not_mem.mpr (fun i hi => ?_)
      obtain ⟨j, hj, hf⟩ := State.mem_slotsWhere hi
      obtain ⟨l, hl, ht⟩ := h i
      rw [hj] at hl
      cases hl
      simp [Job.ended, ht] at hf
    unfold State.findSlot
    rw [hfree, hended]

/-- A job created with its media ready: QUEUED in its slot with the next sequence, and nothing else but the counters
(R64, R67, R69). -/
theorem State.createJob_ready {s : State} {j : Job} (i : SlotId) (h : s.jbu.sequence < 4294967295)
    (hm : s.mediaReady j = true) : s.createJob i j =
      ({ s with jbu := { s.jbu with nextId := nextIdAfter j.id, sequence := s.jbu.sequence + 1 } } : State).setSlot i
        (some { j.bind (s.port j.port).volume with state := .queued, sequence := s.jbu.sequence + 1 }) := by
  have hr : ({ s with jbu := { s.jbu with nextId := nextIdAfter j.id } } : State).renumberSequences =
      { s with jbu := { s.jbu with nextId := nextIdAfter j.id } } := by
    unfold State.renumberSequences
    exact if_pos h
  have hm' : ({ s with jbu := { s.jbu with nextId := nextIdAfter j.id } } : State).mediaReady j = true := hm
  unfold State.createJob
  dsimp only
  rw [if_pos hm']
  unfold State.nextSequence
  rw [hr]
  rfl

/-! ### Patrol (R158, R159) -/

/-- A port is eligible under the six conditions of R158. -/
theorem State.eligible_iff (s : State) (p : PortId) : s.eligible p = true ↔
    s.mode = .run ∧ s.pts.enabled = true ∧ s.pts.clockSet = true ∧ (s.port p).state = .normal ∧
      (s.port p).yld = false ∧
      ∀ i j, s.slot i = some j → j.port = p → j.state.terminal = false →
        j.state = .suspended ∨ j.state = .waitMedia := by
  unfold State.eligible
  simp only [Bool.and_eq_true, decide_eq_true_eq, Bool.not_eq_true', List.isEmpty_iff, and_assoc]
  refine and_congr_right fun _ => and_congr_right fun _ => and_congr_right fun _ => and_congr_right fun _ =>
    and_congr_right fun _ => ⟨fun h i j hj hp ht => ?_, fun h => ?_⟩
  · by_contra hs
    have m := State.slotsWhere_mem (f := fun j => decide (j.port = p) && j.live
      && !decide (j.state = .suspended) && !decide (j.state = .waitMedia)) hj
      (by simpa [hp, Job.live, ht] using hs)
    rw [h] at m
    simp at m
  · refine List.eq_nil_iff_forall_not_mem.mpr (fun i hi => ?_)
    obtain ⟨j, hj, hf⟩ := State.mem_slotsWhere hi
    simp only [Bool.and_eq_true, decide_eq_true_eq, Bool.not_eq_true', decide_eq_false_iff_not, Job.live] at hf
    rcases h i j hj hf.1.1.1 hf.1.1.2 with e | e
    · exact hf.1.2 e
    · exact hf.2 e

/-- A reel is targeted by a non-terminal job, or by none. -/
theorem State.reelTargeted_eq_false_iff (s : State) (reel : Nat) : s.reelTargeted reel = false ↔
    ∀ i j t, s.slot i = some j → j.state.terminal = false → j.target = some t → t.reel ≠ reel := by
  unfold State.reelTargeted
  rw [bne_eq_false_iff_eq]
  constructor
  · intro h i j t hj ht htarget e
    have m := State.slotsWhere_mem (f := fun j => j.live && (match j.target with
      | some t => decide (t.reel = reel)
      | none => false)) hj (by simp [Job.live, ht, htarget, e])
    have n : i ∈ ([] : List SlotId) := by
      rw [← h]
      exact m
    simp at n
  · intro h
    refine List.eq_nil_iff_forall_not_mem.mpr (fun i hi => ?_)
    obtain ⟨j, hj, hf⟩ := State.mem_slotsWhere hi
    simp only [Bool.and_eq_true, Job.live, Bool.not_eq_true'] at hf
    cases ht : j.target with
    | none => rw [ht] at hf; simp at hf
    | some t => rw [ht] at hf; exact h i j t hj hf.1 ht (by simpa using hf.2)

/-- The candidates of a port: the copies that name it, are PRESENT and due, of reels that no job targets (R159). -/
theorem State.mem_candidates (s : State) (p : PortId) (d : Candidate) : d ∈ s.candidates p ↔
    ∃ e ∈ s.cat, ∃ k c, e.copy k = some c ∧ c.port = p ∧
      presenceOn (s.port p) e.toStoredEntry c = .present ∧
      (∀ i j t, s.slot i = some j → j.state.terminal = false → j.target = some t → t.reel ≠ e.reel) ∧
      dueTime e.toStoredEntry c (s.port p).margin.state ≤ s.pts.clock ∧
      d = { target := ⟨e.reel, k⟩, due := dueTime e.toStoredEntry c (s.port p).margin.state
            frames := e.frameCount } := by
  have key : ∀ (e : Entry) (k : CopyId), s.candidateOf p e k = some d ↔
      ∃ c, e.copy k = some c ∧ c.port = p ∧ presenceOn (s.port p) e.toStoredEntry c = .present ∧
        (∀ i j t, s.slot i = some j → j.state.terminal = false → j.target = some t → t.reel ≠ e.reel) ∧
        dueTime e.toStoredEntry c (s.port p).margin.state ≤ s.pts.clock ∧
        d = { target := ⟨e.reel, k⟩, due := dueTime e.toStoredEntry c (s.port p).margin.state
              frames := e.frameCount } := by
    intro e k
    unfold State.candidateOf
    cases hc : e.copy k with
    | none => simp
    | some c =>
      simp only [Option.some.injEq, exists_eq_left', ← s.reelTargeted_eq_false_iff]
      by_cases hp : c.port = p
      · subst hp
        constructor
        · intro h
          split at h
          · next hc' =>
            simp only [Bool.and_eq_true, decide_eq_true_eq, Bool.not_eq_true', State.presence] at hc'
            exact ⟨rfl, of_decide_eq_true hc'.1.1.2, hc'.1.2, hc'.2, (Option.some.inj h).symm⟩
          · simp at h
        · rintro ⟨_, h1, h2, h3, rfl⟩
          rw [if_pos]
          simp only [Bool.and_eq_true, decide_eq_true_eq, Bool.not_eq_true', State.presence]
          exact ⟨⟨⟨trivial, decide_eq_true h1⟩, h2⟩, h3⟩
      · simp [hp]
  unfold State.candidates
  simp only [List.mem_flatMap, List.mem_filterMap, key]
  refine exists_congr fun e => and_congr_right fun _ => exists_congr fun k => ?_
  have hk : k ∈ [CopyId.a, CopyId.b] := by cases k <;> simp
  simp [hk]

/-- Nothing is chosen exactly where there is no candidate (R159). -/
theorem State.chosen_none_iff (s : State) (p : PortId) : s.chosen p = none ↔ ∀ d, d ∉ s.candidates p := by
  unfold State.chosen
  cases s.candidates p with
  | nil => simp
  | cons c rest =>
    refine ⟨fun h => ?_, fun h => absurd (List.mem_cons_self ..) (h c)⟩
    simp at h

/-- The candidate chosen is one that no other goes before (R159). -/
theorem State.chosen_spec {s : State} {p : PortId} {c : Candidate} (h : s.chosen p = some c) :
    c ∈ s.candidates p ∧ ∀ d ∈ s.candidates p, d.before c = false := by
  unfold State.chosen at h
  cases e : s.candidates p with
  | nil => rw [e] at h; simp at h
  | cons x rest =>
    rw [e] at h
    obtain rfl := Option.some.inj h
    have hcopy : ∀ k : CopyId, k = .a ∨ k = .b := fun k => by cases k <;> simp
    refine foldl_least Candidate.before _ (fun _ => True) (fun _ _ _ _ => rfl) ?_ ?_ ?_ rest x trivial
      (fun _ _ => trivial)
    · intro a b c _ _ _
      rcases hcopy a.target.copy with ha | ha <;> rcases hcopy b.target.copy with hb | hb <;>
        rcases hcopy c.target.copy with hc | hc <;>
        · simp [Candidate.before, ha, hb, hc]
          omega
    · intro a b c _ _ _
      rcases hcopy a.target.copy with ha | ha <;> rcases hcopy b.target.copy with hb | hb <;>
        rcases hcopy c.target.copy with hc | hc <;>
        · simp [Candidate.before, ha, hb, hc]
          omega
    · intro a
      rcases hcopy a.target.copy with ha | ha <;> simp [Candidate.before, ha]

end Sys2Proof.Machine
end

