-- ==== Sys2Proof/Laws/Data.lean ====
section
/-! SUPPORT. Fields, drive replies, digests and timecodes: lengths, ranges and what is read back. -/

namespace Sys2Proof.Machine

open Sys2Proof

/-! ### Little-endian fields (R192) -/

@[simp] theorem le_length (n v : Nat) : (le n v).length = n := by
  induction n generalizing v with
  | zero => rfl
  | succ n ih => simp [le, ih]

/-- A field read back: the value it was made of, modulo its width. -/
theorem unle_le (n v : Nat) : unle (le n v) = v % 256 ^ n := by
  induction n generalizing v with
  | zero => simp [le, unle, Nat.mod_one]
  | succ n ih =>
    simp only [le, unle, ih, BitVec.toNat_ofNat]
    rw [show (256 : Nat) ^ (n + 1) = 256 * 256 ^ n from Nat.pow_succ', Nat.mod_mul]

/-- A field that holds its value is read back whole. -/
theorem unle_le_of_lt {n v : Nat} (h : v < 256 ^ n) : unle (le n v) = v := by
  rw [unle_le, Nat.mod_eq_of_lt h]

/-- The range of a field. -/
theorem unle_lt (bs : List Byte) : unle bs < 256 ^ bs.length := by
  induction bs with
  | nil => simp [unle]
  | cons b rest ih =>
    have hb : b.toNat < 256 := b.isLt
    simp only [unle, List.length_cons, Nat.pow_succ]
    omega

/-- The range of a field of a payload. -/
theorem field_lt (p : List Byte) (offset size : Nat) : field p offset size < 256 ^ size := by
  refine Nat.lt_of_lt_of_le (unle_lt _) (Nat.pow_le_pow_right (by decide) ?_)
  simp only [slice]
  exact List.length_take_le _ _

@[simp] theorem u8_length (v : Nat) : (u8 v).length = 1 := rfl

@[simp] theorem flagByte_length (b : Bool) : (flagByte b).length = 1 := rfl

/-! ### Drive replies (R41, Table 11-12) -/

/-- Fields read back from the bytes they were sent as. -/
theorem fields16_flatMap (l : List Nat) (rest : List Byte) (h : ∀ x ∈ l, x ≤ 65535) :
    fields16 l.length (l.flatMap (le 2) ++ rest) = l := by
  induction l with
  | nil => rfl
  | cons x l ih =>
    have hx : x < 256 ^ 2 := by have := h x (by simp); omega
    have e : (x :: l).flatMap (le 2) ++ rest = le 2 x ++ (l.flatMap (le 2) ++ rest) := by simp
    rw [e]
    simp only [List.length_cons, fields16]
    rw [List.take_left' (le_length 2 x), List.drop_left' (le_length 2 x), unle_le_of_lt hx,
      ih (fun y hy => h y (by simp [hy]))]

/-- The length of a list of fields. -/
theorem flatMap_le_length (n : Nat) (l : List Nat) : (l.flatMap (le n)).length = n * l.length := by
  induction l with
  | nil => rfl
  | cons x l ih => simp [ih, Nat.mul_succ, Nat.add_comm]

/-- A reply is read back from its bytes, whatever follows the record (Table 11-12). -/
theorem DriveReply.ofBytes_bytes (r : DriveReply) (hc : r.corrected ≤ 65535) (hl : r.offsets.length ≤ 65535)
    (ho : ∀ x ∈ r.offsets, x ≤ 65535) : DriveReply.ofBytes r.bytes = some r := by
  obtain ⟨tag, status, corrected, offsets, data⟩ := r
  dsimp only at hc hl ho
  have h2 : field (DriveReply.bytes ⟨tag, status, corrected, offsets, data⟩) 2 2 = corrected := by
    show unle ((le 2 corrected ++ _ ++ _ ++ _).take 2) = _
    rw [List.append_assoc, List.append_assoc, List.take_left' (le_length 2 _), unle_le_of_lt (by omega)]
  have h4 : field (DriveReply.bytes ⟨tag, status, corrected, offsets, data⟩) 4 2 = offsets.length := by
    show unle ((le 2 offsets.length ++ _ ++ _).take 2) = _
    rw [List.append_assoc, List.take_left' (le_length 2 _), unle_le_of_lt (by omega)]
  have h6 : (DriveReply.bytes ⟨tag, status, corrected, offsets, data⟩).drop 6 = offsets.flatMap (le 2) ++ data := rfl
  have hlen : (DriveReply.bytes ⟨tag, status, corrected, offsets, data⟩).length = 6 + 2 * offsets.length + data.length := by
    simp only [DriveReply.bytes, List.length_append, flatMap_le_length, le_length, List.length_cons, List.length_nil]
  unfold DriveReply.ofBytes
  rw [h2, h4, h6, if_pos (by rw [hlen]; omega)]
  have h7 : (DriveReply.bytes ⟨tag, status, corrected, offsets, data⟩).drop (6 + 2 * offsets.length) = data := by
    rw [← List.drop_drop, h6, List.drop_left' (by rw [flatMap_le_length])]
  rw [h7, fields16_flatMap offsets data ho]
  rfl

/-- The offsets of a well-formed list: strictly ascending, each below the block count (R41). -/
theorem offsetsOk_iff (n : Nat) (l : List Nat) : offsetsOk n l = true ↔ l.Pairwise (· < ·) ∧ ∀ x ∈ l, x < n := by
  induction l with
  | nil => simp [offsetsOk]
  | cons a l ih =>
    cases l with
    | nil => simp [offsetsOk]
    | cons b rest =>
      simp only [offsetsOk, Bool.and_eq_true, decide_eq_true_eq, ih]
      constructor
      · rintro ⟨h, hp, hb⟩
        have hall : ∀ x ∈ b :: rest, a < x := by
          intro x hx
          rcases List.mem_cons.mp hx with rfl | hx
          · exact h
          · exact Nat.lt_trans h ((List.pairwise_cons.mp hp).1 x hx)
        refine ⟨List.pairwise_cons.mpr ⟨hall, hp⟩, fun x hx => ?_⟩
        rcases List.mem_cons.mp hx with rfl | hx
        · exact Nat.lt_trans h (hb b (by simp))
        · exact hb x hx
      · rintro ⟨hp, hb⟩
        obtain ⟨h1, h2⟩ := List.pairwise_cons.mp hp
        exact ⟨h1 b (by simp), h2, fun x hx => hb x (by simp [hx])⟩

/-! ### Digests (R7, R8) -/

/-- Both sums stay below the modulus. -/
theorem digestSums_lt : ∀ (bytes : List Byte) (a b : Nat), a < digestModulus → b < digestModulus →
    (digestSums bytes a b).1 < digestModulus ∧ (digestSums bytes a b).2 < digestModulus
  | [], _, _, ha, hb => ⟨ha, hb⟩
  | [_], _, _, _, _ => ⟨Nat.mod_lt _ (by decide), Nat.mod_lt _ (by decide)⟩
  | _ :: _ :: rest, _, _, _, _ =>
    digestSums_lt rest _ _ (Nat.mod_lt _ (by decide)) (Nat.mod_lt _ (by decide))

/-- A last odd byte counts as a word with a zero high half (R8). -/
theorem digestSums_odd : ∀ (bytes : List Byte) (a b : Nat), bytes.length % 2 = 1 →
    digestSums (bytes ++ [0#8]) a b = digestSums bytes a b
  | [], _, _, h => by simp at h
  | [x], _, _, _ => by simp [digestSums]
  | x :: y :: rest, _, _, h => by
    simp only [List.cons_append, digestSums]
    exact digestSums_odd rest _ _ (by simp only [List.length_cons] at h; omega)

/-! ### Packed BCD (R193) -/

/-- The value of the packed BCD byte of a value below 100. -/
theorem bcdValue_toBcd : ∀ n, n < 100 → bcdValue (toBcd n) = n ∧ bcdOk (toBcd n) = true := by
  decide

/-! ### Clamping (section 0.4) -/

/-- A clamped value lies in its range. -/
theorem clamp_range {lo hi : Nat} (h : lo ≤ hi) (n : Nat) : lo ≤ clamp lo hi n ∧ clamp lo hi n ≤ hi := by
  unfold clamp
  split
  · exact ⟨Nat.le_refl _, h⟩
  · split
    · exact ⟨h, Nat.le_refl _⟩
    · omega

/-- A value in the range is taken as it is. -/
theorem clamp_self {lo hi n : Nat} (h1 : lo ≤ n) (h2 : n ≤ hi) : clamp lo hi n = n := by
  unfold clamp
  rw [if_neg (Nat.not_lt.mpr h1), if_neg (Nat.not_lt.mpr h2)]

end Sys2Proof.Machine
end

