-- ==== Sys2Proof/Laws/Link.lean ====
section
/-! SUPPORT. The control link: the transmitter, the notice queue, replies and received bytes keep the link sound. -/

namespace Sys2Proof.Machine

open Sys2Proof

/-! ### The transmitter (R171) -/

/-- With the transmitter at work a transmit boundary does nothing. -/
theorem Link.transmit_busy {l : Link} (h : l.sending ≠ none) : l.transmit = l := by
  unfold Link.transmit
  split
  · rfl
  · next e => exact absurd e h

/-- An IDLE transmitter takes the front reply. -/
theorem Link.transmit_reply {l : Link} {r : Reply} {rest : List Reply} (h : l.sending = none)
    (hr : l.replies = r :: rest) : l.transmit = { l with sending := some (.reply r), replies := rest } := by
  simp [Link.transmit, h, hr]

/-- With no reply waiting an IDLE transmitter takes the front notice. -/
theorem Link.transmit_notice {l : Link} {n : Notice} {rest : List Notice} (h : l.sending = none)
    (hr : l.replies = []) (hn : l.notices = n :: rest) :
    l.transmit = { l with sending := some (.notice n), notices := rest } := by
  simp [Link.transmit, h, hr, hn]

/-- With nothing waiting an IDLE transmitter stays IDLE. -/
theorem Link.transmit_idle {l : Link} (h : l.sending = none) (hr : l.replies = []) (hn : l.notices = []) :
    l.transmit = l := by
  simp [Link.transmit, h, hr, hn]

/-- A transmit boundary touches only the reply list, the notice queue and the frame being sent. -/
theorem Link.transmit_frame (l : Link) :
    l.transmit.framer = l.framer ∧ l.transmit.linkError = l.linkError ∧ l.transmit.queue = l.queue ∧
      l.transmit.noticesLost = l.noticesLost ∧ l.transmit.posted = l.posted := by
  unfold Link.transmit
  split
  · exact ⟨rfl, rfl, rfl, rfl, rfl⟩
  · split
    · exact ⟨rfl, rfl, rfl, rfl, rfl⟩
    · split <;> exact ⟨rfl, rfl, rfl, rfl, rfl⟩

/-- A link that is sound but perhaps for an IDLE transmitter with something waiting, and for posted notices. -/
structure Link.Fit (l : Link) : Prop where
  framer : l.framer.bounded
  queue : l.queue.length ≤ Config.requestCapacity
  overflow : l.overflowWaiting ≤ Config.overflowCapacity
  notices : l.notices.length ≤ Config.noticeCapacity
  order : repliedFirst l.queue
  owed : l.ordinaryOwed = l.queue.countP (fun r => r.replied)

theorem Link.Sound.fit {l : Link} (h : l.Sound) : l.Fit :=
  ⟨h.framer, h.queue, h.overflow, h.notices, h.order, h.owed⟩

/-- A transmit boundary leaves the transmitter at work wherever something waits. -/
theorem Link.transmit_working (l : Link) :
    l.transmit.sending = none → l.transmit.replies = [] ∧ l.transmit.notices = [] := by
  unfold Link.transmit
  split
  · next x e => intro h; simp [e] at h
  · split
    · intro h; simp at h
    · split
      · intro h; simp at h
      · next hn => intro _; exact ⟨by assumption, hn⟩

/-- A transmit boundary keeps a fit link, and makes it sound once no notice is posted. -/
theorem Link.Fit.transmit {l : Link} (h : l.Fit) : l.transmit.Fit := by
  obtain ⟨hf, _, hq, _, _⟩ := l.transmit_frame
  refine ⟨by rw [hf]; exact h.framer, by rw [hq]; exact h.queue, ?_, ?_, by rw [hq]; exact h.order, ?_⟩
  · refine Nat.le_trans ?_ h.overflow
    unfold Link.transmit Link.overflowWaiting
    split
    · exact Nat.le_refl _
    · split
      · next e => simp [e, List.countP_cons]
      · next e => split <;> simp [e]
  · refine Nat.le_trans ?_ h.notices
    unfold Link.transmit
    split
    · exact Nat.le_refl _
    · split
      · exact Nat.le_refl _
      · split
        · next e => simp [e]
        · exact Nat.le_refl _
  · rw [hq, ← h.owed]
    unfold Link.transmit Link.ordinaryOwed
    split
    · rfl
    · next e =>
      split
      · next r rest er => simp [e, er, List.countP_cons]
      · next er => split <;> simp [e, er]

theorem Link.Fit.sound {l : Link} (h : l.Fit) (w : l.sending = none → l.replies = [] ∧ l.notices = [])
    (hp : l.posted = []) : l.Sound :=
  ⟨h.framer, h.queue, h.overflow, h.notices, h.order, h.owed, w, hp⟩

theorem Link.Fit.transmit_sound {l : Link} (h : l.Fit) (hp : l.posted = []) : l.transmit.Sound :=
  h.transmit.sound l.transmit_working (by rw [l.transmit_frame.2.2.2.2, hp])

/-! ### Notices (R172) -/

/-- A notice taken by the queue, or lost, keeps a fit link; what is posted stays. -/
theorem Link.Fit.enqueueNotice {l : Link} (h : l.Fit) (n : Notice) : (l.enqueueNotice n).Fit := by
  unfold Link.enqueueNotice
  split
  · next c =>
    exact Link.Fit.transmit ⟨h.framer, h.queue, h.overflow, by simpa using c, h.order, h.owed⟩
  · exact ⟨h.framer, h.queue, h.overflow, h.notices, h.order, h.owed⟩

theorem Link.enqueueNotice_posted (l : Link) (n : Notice) : (l.enqueueNotice n).posted = l.posted := by
  unfold Link.enqueueNotice
  split
  · exact (Link.transmit_frame _).2.2.2.2
  · rfl

theorem Link.enqueueNotice_working (l : Link) (n : Notice)
    (w : l.sending = none → l.replies = [] ∧ l.notices = []) :
    (l.enqueueNotice n).sending = none →
      (l.enqueueNotice n).replies = [] ∧ (l.enqueueNotice n).notices = [] := by
  unfold Link.enqueueNotice
  split
  · exact Link.transmit_working _
  · exact w

/-- What taking the posted notices leaves of the state: the link and the count of free values change, nothing
else; and the link is sound again, with nothing posted. -/
theorem takePostedLoop_spec (fuel : Nat) : ∀ s : State, s.link.posted.length ≤ fuel → s.link.Fit →
    (s.link.sending = none → s.link.replies = [] ∧ s.link.notices = []) →
    takePostedLoop fuel s =
      { s with link := (takePostedLoop fuel s).link, freeCount := (takePostedLoop fuel s).freeCount } ∧
    (takePostedLoop fuel s).link.Sound := by
  induction fuel with
  | zero =>
    intro s hl h w
    exact ⟨rfl, h.sound w (List.length_eq_zero_iff.mp (Nat.le_zero.mp hl))⟩
  | succ n ih =>
    intro s hl h w
    unfold takePostedLoop
    split
    · next e => exact ⟨rfl, h.sound w e⟩
    · next m e =>
      have hf : ({ s.link with posted := [] } : Link).Fit :=
        ⟨h.framer, h.queue, h.overflow, h.notices, h.order, h.owed⟩
      exact ⟨rfl, (hf.enqueueNotice m).sound (Link.enqueueNotice_working _ m w)
        (Link.enqueueNotice_posted _ m)⟩
    · next a b rest e =>
      dsimp only
      have hk : Config.noticeOrder s.freeCount % (a :: b :: rest).length < (a :: b :: rest).length :=
        Nat.mod_lt _ (by simp)
      generalize Config.noticeOrder s.freeCount % (a :: b :: rest).length = k at hk
      generalize (a :: b :: rest).getD k a = m
      have hf : ({ s.link with posted := (a :: b :: rest).eraseIdx k } : Link).Fit :=
        ⟨h.framer, h.queue, h.overflow, h.notices, h.order, h.owed⟩
      have hn : (({ s.link with posted := (a :: b :: rest).eraseIdx k } : Link).enqueueNotice
          m).posted.length ≤ n := by
        rw [Link.enqueueNotice_posted]
        dsimp only
        rw [e] at hl
        rw [List.length_eraseIdx, if_pos hk]
        omega
      have hw := Link.enqueueNotice_working { s.link with posted := (a :: b :: rest).eraseIdx k } m w
      have := ih { s with freeCount := s.freeCount + 1
                          link := ({ s.link with posted := (a :: b :: rest).eraseIdx k }).enqueueNotice m }
        hn (hf.enqueueNotice m) hw
      exact ⟨this.1, this.2⟩

/-- Taking the posted notices (R172): the link and the count of free values change, nothing else; a link that was
sound but for posted notices is sound. -/
theorem takePosted_spec (s : State) (h : ({ s.link with posted := [] } : Link).Sound) :
    takePosted s = { s with link := (takePosted s).link, freeCount := (takePosted s).freeCount } ∧
      (takePosted s).link.Sound :=
  takePostedLoop_spec _ s (Nat.le_refl _)
    ⟨h.framer, h.queue, h.overflow, h.notices, h.order, h.owed⟩ h.working

/-- Taking the posted notices changes the link and the count of free values, nothing else. -/
theorem takePostedLoop_frame (fuel : Nat) : ∀ s : State,
    takePostedLoop fuel s =
      { s with link := (takePostedLoop fuel s).link, freeCount := (takePostedLoop fuel s).freeCount } := by
  induction fuel with
  | zero => exact fun s => rfl
  | succ n ih =>
    intro s
    unfold takePostedLoop
    split
    · rfl
    · rfl
    · exact ih _

theorem takePosted_frame (s : State) :
    takePosted s = { s with link := (takePosted s).link, freeCount := (takePosted s).freeCount } :=
  takePostedLoop_frame _ s

/-! ### Replies (R166) -/

/-- Forming a reply touches the request queue, the reply list, and, through a transmit boundary, the frame being
sent and the notice queue. -/
theorem Link.formReply_frame (l : Link) (st : Status) (p : List Byte) (r : Bool) :
    (l.formReply st p r).framer = l.framer ∧ (l.formReply st p r).linkError = l.linkError ∧
      (l.formReply st p r).noticesLost = l.noticesLost ∧ (l.formReply st p r).posted = l.posted := by
  unfold Link.formReply
  split
  · exact ⟨rfl, rfl, rfl, rfl⟩
  · obtain ⟨a, b, _, d, e⟩ := Link.transmit_frame
      { l with queue := markReplied l.queue, replies := l.replies ++ [Request.reply ‹_› st p r] }
    exact ⟨a, b, d, e⟩

theorem markReplied_length (q : List Request) : (markReplied q).length = q.length := by
  induction q with
  | nil => rfl
  | cons r rest ih =>
    unfold markReplied
    split
    · simp [ih]
    · simp

theorem repliedFirst_all {q : List Request} (h : ∀ x ∈ q, x.replied = false) : repliedFirst q := by
  induction q with
  | nil => trivial
  | cons r rest ih =>
    exact ⟨fun _ x hx => h x (List.mem_cons_of_mem _ hx), ih (fun x hx => h x (List.mem_cons_of_mem _ hx))⟩

theorem markReplied_first {q : List Request} (h : repliedFirst q) : repliedFirst (markReplied q) := by
  induction q with
  | nil => trivial
  | cons r rest ih =>
    unfold markReplied
    split
    · next e => exact ⟨fun k => by simp [e] at k, ih h.2⟩
    · next e =>
      exact ⟨fun k => by simp at k, repliedFirst_all (h.1 (by simpa using e))⟩

theorem markReplied_count {q : List Request} (h : q.find? (fun r => !r.replied) ≠ none) :
    (markReplied q).countP (fun r => r.replied) = q.countP (fun r => r.replied) + 1 := by
  induction q with
  | nil => simp at h
  | cons r rest ih =>
    unfold markReplied
    split
    · next e =>
      rw [List.find?_cons] at h
      simp only [e, Bool.not_true] at h
      simp [e, ih h]
    · next e => simp [e]

/-- A reply formed keeps the link sound (R166). -/
theorem Link.Sound.formReply {l : Link} (h : l.Sound) (st : Status) (p : List Byte) (r : Bool) :
    (l.formReply st p r).Sound := by
  unfold Link.formReply
  split
  · exact h
  · next q e =>
    have e' : l.queue.find? (fun r => !r.replied) ≠ none := by
      rw [← Link.nextRequest.eq_1, e]; simp
    refine Link.Fit.transmit_sound ⟨h.framer, ?_, ?_, h.notices, markReplied_first h.order, ?_⟩ h.posted
    · simpa [markReplied_length] using h.queue
    · have := h.overflow
      simpa [Link.overflowWaiting, Request.reply] using this
    · have := h.owed
      simp only [Link.ordinaryOwed, List.countP_append, markReplied_count e'] at this ⊢
      rw [← this]
      simp only [Request.reply, List.countP_cons, List.countP_nil]
      simp
      omega

/-! ### Frames received (R164) -/

theorem Link.Sound.receiveError {l : Link} (h : l.Sound) : l.receiveError.Sound :=
  ⟨trivial, h.queue, h.overflow, h.notices, h.order, h.owed, h.working, h.posted⟩

theorem repliedFirst_snoc {q : List Request} (h : repliedFirst q) (x : Request) (hx : x.replied = false) :
    repliedFirst (q ++ [x]) := by
  induction q with
  | nil => exact ⟨fun _ y hy => by simp at hy, trivial⟩
  | cons r rest ih =>
    refine ⟨fun k y hy => ?_, ih h.2⟩
    rcases List.mem_append.mp hy with m | m
    · exact h.1 k y m
    · rw [List.mem_singleton.mp m]; exact hx

/-- A request that passes the link check keeps the link sound (Table 9-3). -/
theorem Link.Sound.takeRequest {l : Link} (h : l.Sound) (kind tag : Byte) (p : List Byte) :
    (l.takeRequest kind tag p).Sound := by
  unfold Link.takeRequest
  split
  · next c =>
    refine ⟨trivial, by simpa using c, h.overflow, h.notices, repliedFirst_snoc h.order _ rfl, ?_,
      h.working, h.posted⟩
    have := h.owed
    simpa [Link.ordinaryOwed] using this
  · split
    · next c =>
      refine Link.Fit.transmit_sound ⟨trivial, h.queue, ?_, h.notices, h.order, ?_⟩ h.posted
      · simp only [Link.overflowWaiting, List.countP_append] at c ⊢
        simp [overflowReply]
        omega
      · have := h.owed
        simpa [Link.ordinaryOwed, overflowReply] using this
    · exact h.receiveError

theorem Link.Sound.judgeFrame {l : Link} (h : l.Sound) (body check : List Byte) :
    (l.judgeFrame body check).Sound := by
  unfold Link.judgeFrame
  split
  · split
    · exact h.takeRequest _ _ _
    · exact h.receiveError
  · exact h.receiveError

theorem Link.Sound.framed {l : Link} (h : l.Sound) {f : Framer} (hf : f.bounded) :
    ({ l with framer := f } : Link).Sound :=
  ⟨hf, h.queue, h.overflow, h.notices, h.order, h.owed, h.working, h.posted⟩

theorem Link.Sound.takeByte {l : Link} (h : l.Sound) (b : Byte) : (l.takeByte b).Sound := by
  have hf := h.framer
  unfold Link.takeByte
  split
  · split
    · exact h.framed (by simp [Framer.bounded])
    · exact h
  · exact h.framed (by simp [Framer.bounded])
  · dsimp only
    split
    · next c => exact h.framed ⟨c.1, c.2, by simp; omega⟩
    · exact h.receiveError
  · next n got e =>
    rw [e] at hf
    obtain ⟨h1, h2, h3⟩ := hf
    split
    · next c => exact h.framed ⟨h1, h2, by simpa using c⟩
    · next c => exact h.framed ⟨by simp; omega, by simp; omega, by simp⟩
  · next body got e =>
    rw [e] at hf
    obtain ⟨h1, h2, h3⟩ := hf
    split
    · next c => exact h.framed ⟨h1, h2, by simpa using c⟩
    · exact h.judgeFrame _ _

/-- A received byte keeps the link sound (R162, R164). -/
theorem Link.Sound.receiveByte {l : Link} (h : l.Sound) (b : RxByte) : (l.receiveByte b).Sound := by
  unfold Link.receiveByte
  split
  · exact h.takeByte _
  · split
    · exact ⟨h.framer, h.queue, h.overflow, h.notices, h.order, h.owed, h.working, h.posted⟩
    · exact h.receiveError

/-- A run of received bytes keeps the link sound. -/
theorem Link.Sound.receiveBytes (bytes : List RxByte) :
    ∀ {l : Link}, l.Sound → (bytes.foldl Link.receiveByte l).Sound := by
  induction bytes with
  | nil => exact fun h => h
  | cons b rest ih => exact fun h => ih (h.receiveByte b)

end Sys2Proof.Machine
end

