-- ==== Sys2Proof/Laws/Settle.lean ====
section
/-! SUPPORT. The end of a step: what the ports' settling and the queuing of notices leave alone. -/

namespace Sys2Proof.Machine

open Sys2Proof

/-- What a port's own grant handshake leaves alone (R46, R47, R49). -/
structure Port.Settles (q r : Port) : Prop where
  state : r.state = q.state
  cause : r.cause = q.cause
  gnt : r.gnt = q.gnt
  yld : r.yld = q.yld
  lines : r.lines = q.lines
  delta : r.delta = q.delta
  volume : r.volume = q.volume
  settings : r.settings = q.settings
  margin : r.margin = q.margin
  offline : q.state = .offline → r = q

theorem Port.Settles.refl (q : Port) : q.Settles q :=
  ⟨rfl, rfl, rfl, rfl, rfl, rfl, rfl, rfl, rfl, fun _ => rfl⟩

theorem Port.Settles.trans {q r w : Port} (h : q.Settles r) (k : r.Settles w) : q.Settles w :=
  ⟨k.state.trans h.state, k.cause.trans h.cause, k.gnt.trans h.gnt, k.yld.trans h.yld,
    k.lines.trans h.lines, k.delta.trans h.delta, k.volume.trans h.volume, k.settings.trans h.settings,
    k.margin.trans h.margin, fun a => (k.offline (h.state.trans a)).trans (h.offline a)⟩

/-- What the settling of ports leaves alone: everything but the ports' handshakes and commands, and the attempts
counted in the record in repair (R125). -/
structure State.Settles (s t : State) : Prop where
  mode : t.mode = s.mode
  mask : t.mask = s.mask
  autoRun : t.autoRun = s.autoRun
  resetAsked : t.resetAsked = s.resetAsked
  cat : t.cat = s.cat
  jbu : t.jbu = s.jbu
  rpu : t.rpu = s.rpu
  pts : t.pts = s.pts
  siu : t.siu = s.siu
  supplyLow : t.supplyLow = s.supplyLow
  resetPin : t.resetPin = s.resetPin
  resetKind : t.resetKind = s.resetKind
  portsSet : t.portsSet = s.portsSet
  pending : t.pending = s.pending
  size : t.dfl.records.length = s.dfl.records.length
  stallOrder : t.dfl.stallOrder = s.dfl.stallOrder
  nextId : t.dfl.nextId = s.dfl.nextId
  port : ∀ p, (s.port p).Settles (t.port p)

theorem State.Settles.refl (s : State) : s.Settles s :=
  ⟨rfl, rfl, rfl, rfl, rfl, rfl, rfl, rfl, rfl, rfl, rfl, rfl, rfl, rfl, rfl, rfl, rfl,
    fun _ => Port.Settles.refl _⟩

theorem State.Settles.trans {s t u : State} (h : s.Settles t) (k : t.Settles u) : s.Settles u :=
  ⟨k.mode.trans h.mode, k.mask.trans h.mask, k.autoRun.trans h.autoRun, k.resetAsked.trans h.resetAsked,
    k.cat.trans h.cat, k.jbu.trans h.jbu, k.rpu.trans h.rpu, k.pts.trans h.pts, k.siu.trans h.siu,
    k.supplyLow.trans h.supplyLow, k.resetPin.trans h.resetPin, k.resetKind.trans h.resetKind,
    k.portsSet.trans h.portsSet, k.pending.trans h.pending, k.size.trans h.size,
    k.stallOrder.trans h.stallOrder, k.nextId.trans h.nextId, fun p => (h.port p).trans (k.port p)⟩

theorem State.Settles.slot {s t : State} (h : s.Settles t) (i : SlotId) : t.slot i = s.slot i := by
  simp [State.slot, h.jbu]

theorem State.Settles.entry {s t : State} (h : s.Settles t) (n : Nat) : t.entry n = s.entry n := by
  simp [State.entry, h.cat]

theorem State.Settles.setPort (s : State) (p : PortId) (q : Port) (h : (s.port p).Settles q) :
    s.Settles (s.setPort p q) :=
  ⟨rfl, rfl, rfl, rfl, rfl, rfl, rfl, rfl, rfl, rfl, rfl, rfl, rfl, rfl, rfl, rfl, rfl, fun k => by
    by_cases e : k = p
    · subst e; simpa using h
    · rw [State.port_setPort_ne s q e]; exact Port.Settles.refl _⟩

theorem State.countAttempt_settles (s : State) : s.Settles s.countAttempt := by
  unfold State.countAttempt
  split
  · exact ⟨rfl, rfl, rfl, rfl, rfl, rfl, rfl, rfl, rfl, rfl, rfl, rfl, rfl, rfl, List.length_map _, rfl, rfl,
      fun _ => Port.Settles.refl _⟩
  · exact State.Settles.refl s

/-- A port that is not OFFLINE settles within any change of its handshake and its commands. -/
theorem Port.Settles.ofLive {q r : Port} (hs : q.state ≠ .offline)
    (h : r.state = q.state ∧ r.cause = q.cause ∧ r.gnt = q.gnt ∧ r.yld = q.yld ∧ r.lines = q.lines ∧
      r.delta = q.delta ∧ r.volume = q.volume ∧ r.settings = q.settings ∧ r.margin = q.margin) :
    q.Settles r :=
  ⟨h.1, h.2.1, h.2.2.1, h.2.2.2.1, h.2.2.2.2.1, h.2.2.2.2.2.1, h.2.2.2.2.2.2.1, h.2.2.2.2.2.2.2.1,
    h.2.2.2.2.2.2.2.2, fun a => absurd a hs⟩

theorem Port.issue_frame (q : Port) (c : Claimant) (claim : Claim) (b : Bool) :
    (q.issue c claim b).state = q.state ∧ (q.issue c claim b).cause = q.cause ∧
      (q.issue c claim b).gnt = q.gnt ∧ (q.issue c claim b).yld = q.yld ∧
      (q.issue c claim b).lines = q.lines ∧ (q.issue c claim b).delta = q.delta ∧
      (q.issue c claim b).volume = q.volume ∧ (q.issue c claim b).settings = q.settings ∧
      (q.issue c claim b).margin = q.margin := by
  cases b <;> cases c <;> exact ⟨rfl, rfl, rfl, rfl, rfl, rfl, rfl, rfl, rfl⟩

/-- A port settles (R46, R47, R49). -/
theorem State.settlePort_settles (s : State) (p : PortId) : s.Settles (s.settlePort p) := by
  unfold State.settlePort
  dsimp only
  split
  · exact State.Settles.refl s
  · next ho =>
    split
    · split
      · exact State.Settles.setPort s p _
          (Port.Settles.ofLive ho ⟨rfl, rfl, rfl, rfl, rfl, rfl, rfl, rfl, rfl⟩)
      · exact State.Settles.refl s
    · split
      · exact State.Settles.refl s
      · exact State.Settles.setPort s p _
          (Port.Settles.ofLive ho ⟨rfl, rfl, rfl, rfl, rfl, rfl, rfl, rfl, rfl⟩)
    · split
      · exact State.Settles.refl s
      · split
        · exact State.Settles.setPort s p _
            (Port.Settles.ofLive ho ⟨rfl, rfl, rfl, rfl, rfl, rfl, rfl, rfl, rfl⟩)
        · have h := State.Settles.setPort s p _ (Port.Settles.ofLive ho (Port.issue_frame (s.port p) ‹_› ‹_› ‹_›))
          split
          · exact h.trans (State.countAttempt_settles _)
          · exact h
    · split
      · exact State.Settles.refl s
      · exact State.Settles.setPort s p _
          (Port.Settles.ofLive ho ⟨rfl, rfl, rfl, rfl, rfl, rfl, rfl, rfl, rfl⟩)

/-- A port's settling leaves the link as it is. -/
theorem State.settlePort_link (s : State) (p : PortId) :
    (s.settlePort p).link = s.link ∧ (s.settlePort p).freeCount = s.freeCount := by
  unfold State.settlePort
  dsimp only
  have hc : ∀ u : State, u.countAttempt.link = u.link ∧ u.countAttempt.freeCount = u.freeCount := fun u => by
    unfold State.countAttempt
    split <;> exact ⟨rfl, rfl⟩
  split
  · exact ⟨rfl, rfl⟩
  · split
    · split <;> exact ⟨rfl, rfl⟩
    · split <;> exact ⟨rfl, rfl⟩
    · split
      · exact ⟨rfl, rfl⟩
      · split
        · exact ⟨rfl, rfl⟩
        · split
          · exact hc _
          · exact ⟨rfl, rfl⟩
    · split <;> exact ⟨rfl, rfl⟩

/-- A port's settling leaves every other port as it is. -/
theorem State.settlePort_other (s : State) {p k : PortId} (h : k ≠ p) : (s.settlePort p).port k = s.port k := by
  unfold State.settlePort
  dsimp only
  have hc : ∀ u : State, u.countAttempt.port k = u.port k := fun u => by
    unfold State.countAttempt
    split <;> rfl
  split
  · rfl
  · split
    · split
      · exact State.port_setPort_ne s _ h
      · rfl
    · split
      · rfl
      · exact State.port_setPort_ne s _ h
    · split
      · rfl
      · split
        · exact State.port_setPort_ne s _ h
        · split
          · rw [hc]; exact State.port_setPort_ne s _ h
          · exact State.port_setPort_ne s _ h
    · split
      · rfl
      · exact State.port_setPort_ne s _ h

theorem State.foldPorts_settles (l : List PortId) : ∀ s : State, s.Settles (l.foldl State.settlePort s) := by
  induction l with
  | nil => exact fun s => State.Settles.refl s
  | cons p rest ih => exact fun s => (s.settlePort_settles p).trans (ih _)

theorem State.foldPorts_link (l : List PortId) : ∀ s : State,
    (l.foldl State.settlePort s).link = s.link ∧ (l.foldl State.settlePort s).freeCount = s.freeCount := by
  induction l with
  | nil => exact fun s => ⟨rfl, rfl⟩
  | cons p rest ih =>
    exact fun s => ⟨(ih _).1.trans (s.settlePort_link p).1, (ih _).2.trans (s.settlePort_link p).2⟩

/-- Every port settles (log 6). -/
theorem settlePorts_settles (s : State) : s.Settles (settlePorts s) := by
  unfold settlePorts
  split
  · exact State.foldPorts_settles _ s
  · exact State.Settles.refl s

theorem settlePorts_link (s : State) :
    (settlePorts s).link = s.link ∧ (settlePorts s).freeCount = s.freeCount := by
  unfold settlePorts
  split
  · exact State.foldPorts_link _ s
  · exact ⟨rfl, rfl⟩

/-- The end of a step leaves alone what the settling of ports does. -/
theorem settle_settles (s : State) : s.Settles (settle s) := by
  have h := settlePorts_settles s
  have e := takePosted_frame (settlePorts s)
  unfold settle
  rw [e]
  exact ⟨h.mode, h.mask, h.autoRun, h.resetAsked, h.cat, h.jbu, h.rpu, h.pts, h.siu, h.supplyLow, h.resetPin,
    h.resetKind, h.portsSet, h.pending, h.size, h.stallOrder, h.nextId, h.port⟩

/-- At the end of a step the link is sound, if it was but for the notices posted in it. -/
theorem settle_link (s : State) (h : ({ s.link with posted := [] } : Link).Sound) : (settle s).link.Sound := by
  unfold settle
  refine (takePosted_spec (settlePorts s) ?_).2
  rw [(settlePorts_link s).1]
  exact h

/-! ### Invariants at the end of a step -/

/-- A link kept but for its posted notices is sound once they are taken. -/
theorem State.Keeps.link_unposted {s t : State} (h : s.Keeps t) (hl : s.link.Sound) :
    ({ t.link with posted := [] } : Link).Sound := by
  have e := h.link
  rw [hl.posted] at e
  rw [e]
  exact hl

/-- Units' work, then the end of the step: the link stays sound. -/
theorem State.Keeps.settle_link {s t : State} (h : s.Keeps t) (hl : s.link.Sound) : (settle t).link.Sound :=
  Sys2Proof.Machine.settle_link t (h.link_unposted hl)

/-- A kept OFFLINE port is as quiet as it was. -/
theorem Port.Keeps.toQuiet {q r : Port} (h : q.Keeps r) (ho : q.state = .offline) (hq : q.Quiet) : r.Quiet :=
  ⟨by have := h.command; rw [hq.command] at this; simpa using this, h.quiet ho hq.claims,
    h.req.trans hq.req, h.volume.trans hq.volume⟩

/-- Units' work keeps OFFLINE ports quiet (R54). -/
theorem State.Keeps.offlineQuiet {s t : State} (h : s.Keeps t) (q : s.OfflineQuiet) : t.OfflineQuiet :=
  fun p hp => (h.port p).toQuiet ((h.port p).state ▸ hp) (q p ((h.port p).state ▸ hp))

/-- The settling of ports keeps OFFLINE ports quiet (R54). -/
theorem State.Settles.offlineQuiet {s t : State} (h : s.Settles t) (q : s.OfflineQuiet) : t.OfflineQuiet :=
  fun p hp => by
    have ho := (h.port p).state ▸ hp
    rw [(h.port p).offline ho]
    exact q p ho

theorem State.Settles.oneActive {s t : State} (h : s.Settles t) (a : s.OneActive) : t.OneActive :=
  State.oneActive_of_jbu h.jbu a

theorem State.Settles.quietOutsideRun {s t : State} (h : s.Settles t) (a : s.QuietOutsideRun) :
    t.QuietOutsideRun := fun m => by
  have := a (h.mode ▸ m)
  exact ⟨State.allTerminal_of_jbu h.jbu this.1, by rw [h.rpu]; exact this.2⟩

theorem State.Settles.dflSound {s t : State} (h : s.Settles t) (a : s.dfl.Sound) : t.dfl.Sound :=
  ⟨by rw [h.size]; exact a.capacity, by rw [h.size, h.stallOrder]; exact a.stalled⟩

theorem State.Settles.catSound {s t : State} (h : s.Settles t) (a : s.CatSound) : t.CatSound := by
  constructor
  · rw [h.cat]; exact a.capacity
  · rw [h.cat]; exact a.numbers
  · rw [h.cat]; exact a.unique

/-- Units' work keeps what stands outside RUN (R178). -/
theorem State.Keeps.quietOutsideRun {s t : State} (h : s.Keeps t) (a : s.QuietOutsideRun) :
    t.QuietOutsideRun := fun m => by
  have m' : s.mode ≠ .run := h.mode ▸ m
  have := a m'
  exact ⟨h.jobsOutside m' this.1, h.idleOutside m' this.2⟩

theorem ascending_iff_pairwise (l : List Entry) :
    ascending l ↔ (l.map (fun e => e.reel)).Pairwise (· < ·) := by
  induction l with
  | nil => simp [ascending]
  | cons e rest ih =>
    simp only [ascending, List.map_cons, List.pairwise_cons, List.mem_map, ih]
    constructor
    · rintro ⟨a, b⟩
      exact ⟨by rintro _ ⟨x, hx, rfl⟩; exact a x hx, b⟩
    · rintro ⟨a, b⟩
      exact ⟨fun x hx => a _ ⟨x, hx, rfl⟩, b⟩

/-- A catalogue with the same reel numbers is as sound (R20, R22). -/
theorem State.catSound_of_reels {s t : State} (h : t.cat.map (fun e => e.reel) = s.cat.map (fun e => e.reel))
    (a : s.CatSound) : t.CatSound := by
  have hlen : t.cat.length = s.cat.length := by simpa using congrArg List.length h
  refine ⟨by rw [hlen]; exact a.capacity, fun e he => ?_, ?_⟩
  · have : e.reel ∈ s.cat.map (fun e => e.reel) := by rw [← h]; exact List.mem_map_of_mem he
    obtain ⟨x, hx, ex⟩ := List.mem_map.mp this
    have := a.numbers x hx
    rw [ex] at this
    exact this
  · rw [ascending_iff_pairwise, h, ← ascending_iff_pairwise]
    exact a.unique

theorem State.Keeps.catSound {s t : State} (h : s.Keeps t) (a : s.CatSound) : t.CatSound :=
  State.catSound_of_reels h.reels a

end Sys2Proof.Machine
end

