-- ==== Sys2Proof/Laws/Port.lean ====
section
/-! SUPPORT. The events of a drive port: what they leave alone besides the ports (`State.Moves`). -/

namespace Sys2Proof.Machine

open Sys2Proof

/-- What an event of a port leaves alone: all that `State.Keeps` says but for the ports themselves, of which it says
that those OFFLINE are quiet (R54). -/
structure State.Moves (s t : State) : Prop where
  mode : t.mode = s.mode
  mask : t.mask = s.mask
  autoRun : t.autoRun = s.autoRun
  resetAsked : t.resetAsked = s.resetAsked
  link : { t.link with posted := s.link.posted } = s.link
  reels : t.cat.map (fun e => e.reel) = s.cat.map (fun e => e.reel)
  pts : t.pts = s.pts
  siu : t.siu = s.siu
  supplyLow : t.supplyLow = s.supplyLow
  resetPin : t.resetPin = s.resetPin
  resetKind : t.resetKind = s.resetKind
  portsSet : t.portsSet = s.portsSet
  freeCount : t.freeCount = s.freeCount
  pending : t.pending = s.pending
  quiet : s.OfflineQuiet → t.OfflineQuiet
  defects : s.dfl.Sound → t.dfl.Sound
  active : s.OneActive → t.OneActive
  jobsOutside : s.mode ≠ .run → s.AllTerminal → t.AllTerminal
  idleOutside : s.mode ≠ .run → s.rpu.phase = .idle → t.rpu.phase = .idle

theorem State.Keeps.moves {s t : State} (h : s.Keeps t) : s.Moves t :=
  ⟨h.mode, h.mask, h.autoRun, h.resetAsked, h.link, h.reels, h.pts, h.siu, h.supplyLow, h.resetPin,
    h.resetKind, h.portsSet, h.freeCount, h.pending, h.offlineQuiet, h.defects, h.active, h.jobsOutside,
    h.idleOutside⟩

theorem State.KeepsJobs.moves {s t : State} (h : s.KeepsJobs t) : s.Moves t := h.toKeeps.moves

theorem State.Moves.refl (s : State) : s.Moves s := (State.Keeps.refl s).moves

theorem State.Moves.trans {s t u : State} (h : s.Moves t) (k : t.Moves u) : s.Moves u where
  mode := k.mode.trans h.mode
  mask := k.mask.trans h.mask
  autoRun := k.autoRun.trans h.autoRun
  resetAsked := k.resetAsked.trans h.resetAsked
  link := by
    have e : ({ u.link with posted := s.link.posted } : Link)
        = { { u.link with posted := t.link.posted } with posted := s.link.posted } := rfl
    rw [e, k.link, h.link]
  reels := k.reels.trans h.reels
  pts := k.pts.trans h.pts
  siu := k.siu.trans h.siu
  supplyLow := k.supplyLow.trans h.supplyLow
  resetPin := k.resetPin.trans h.resetPin
  resetKind := k.resetKind.trans h.resetKind
  portsSet := k.portsSet.trans h.portsSet
  freeCount := k.freeCount.trans h.freeCount
  pending := k.pending.trans h.pending
  quiet := fun a => k.quiet (h.quiet a)
  defects := fun a => k.defects (h.defects a)
  active := fun a => k.active (h.active a)
  jobsOutside := fun m a => k.jobsOutside (h.mode.symm ▸ m) (h.jobsOutside m a)
  idleOutside := fun m a => k.idleOutside (h.mode.symm ▸ m) (h.idleOutside m a)

theorem State.Moves.link_unposted {s t : State} (h : s.Moves t) (hl : s.link.Sound) :
    ({ t.link with posted := [] } : Link).Sound := by
  have e := h.link
  rw [hl.posted] at e
  rw [e]
  exact hl

theorem State.Moves.quietOutsideRun {s t : State} (h : s.Moves t) (a : s.QuietOutsideRun) :
    t.QuietOutsideRun := fun m => by
  have m' : s.mode ≠ .run := h.mode ▸ m
  have := a m'
  exact ⟨h.jobsOutside m' this.1, h.idleOutside m' this.2⟩

theorem State.Moves.catSound {s t : State} (h : s.Moves t) (a : s.CatSound) : t.CatSound :=
  State.catSound_of_reels h.reels a

/-! ### One port replaced -/

/-- Replacing a port moves, if the new one is quiet where it is OFFLINE (R54). -/
theorem State.setPort_moves (s : State) (p : PortId) (q : Port)
    (h : s.OfflineQuiet → q.state = .offline → q.Quiet) : s.Moves (s.setPort p q) :=
  ⟨rfl, rfl, rfl, rfl, rfl, rfl, rfl, rfl, rfl, rfl, rfl, rfl, rfl, rfl,
    fun a k hk => by
      by_cases e : k = p
      · subst e
        rw [State.port_setPort_same] at hk ⊢
        exact h a hk
      · rw [State.port_setPort_ne s q e] at hk ⊢
        exact a k hk,
    fun a => a, fun a => a, fun _ a => a, fun _ a => a⟩

theorem State.modPort_moves (s : State) (p : PortId) (f : Port → Port)
    (h : s.OfflineQuiet → (f (s.port p)).state = .offline → (f (s.port p)).Quiet) :
    s.Moves (s.modPort p f) := s.setPort_moves p _ h

theorem State.postPortEvent_moves (s : State) (p : PortId) (c : PortEventCause) :
    s.Moves (s.postPortEvent p c) := (s.post_keeps _).moves

/-! ### Folds over jobs -/

/-- An operation on slots that keeps, and keeps live jobs live, keeps along a run of live slots. -/
theorem State.foldLive_keeps (op : State → SlotId → State)
    (hk : ∀ (s : State) (i : SlotId), s.LiveAt i → s.Keeps (op s i))
    (hl : ∀ (s : State) (i k : SlotId), s.LiveAt k → (op s i).LiveAt k)
    (l : List SlotId) : ∀ s : State, (∀ i ∈ l, s.LiveAt i) → s.Keeps (l.foldl op s) := by
  induction l with
  | nil => exact fun s _ => State.Keeps.refl s
  | cons i rest ih =>
    intro s h
    exact (hk s i (h i (by simp))).trans
      (ih _ (fun k m => hl s i k (h k (List.mem_cons_of_mem _ m))))

/-- A media drop keeps (R58). -/
theorem State.mediaDrop_keeps (s : State) (p : PortId) : s.Keeps (s.mediaDrop p) := by
  unfold State.mediaDrop
  dsimp only
  refine ((State.foldLive_keeps State.enterWaitMedia (fun s i h => s.enterWaitMedia_keeps i h)
    (fun s i k h => s.enterWaitMedia_live i k h) _ s (fun i hi => ?_)).trans
    (State.followUp_keeps _ p)).trans (State.rpuPortLost_keeps _ p).toKeeps
  have hi' := (List.mem_filter.mp hi).1
  unfold State.portJobs at hi'
  rcases List.mem_append.mp hi' with h1 | h1
  · rcases List.mem_append.mp h1 with h2 | h2
    · obtain ⟨j, hj, hf⟩ := State.mem_slotsWhere h2
      simp only [Bool.and_eq_true, decide_eq_true_eq] at hf
      exact (State.ActiveAt.live ⟨j, hj, hf.2⟩)
    · have key : ∀ (l : List SlotId), i ∈ l.foldr s.insertQueued [] → i ∈ l := by
        have ins : ∀ (k : SlotId) (l : List SlotId), i ∈ s.insertQueued k l → i = k ∨ i ∈ l := by
          intro k l
          induction l with
          | nil => intro m; simpa [State.insertQueued] using m
          | cons x rest ih =>
            intro m
            unfold State.insertQueued at m
            split at m
            · simpa using m
            · rcases List.mem_cons.mp m with e | e
              · exact Or.inr (by simp [e])
              · rcases ih e with h | h
                · exact Or.inl h
                · exact Or.inr (List.mem_cons_of_mem _ h)
        intro l
        induction l with
        | nil => intro m; simp at m
        | cons x rest ih =>
          intro m
          rcases ins x _ m with e | e
          · simp [e]
          · exact List.mem_cons_of_mem _ (ih e)
      obtain ⟨j, hj, hf⟩ := State.mem_slotsWhere (key _ h2)
      simp only [Bool.and_eq_true, decide_eq_true_eq] at hf
      intro k hk
      rw [hj] at hk
      cases hk
      simp [hf.2, JobState.terminal]
  · obtain ⟨j, hj, hf⟩ := State.mem_slotsWhere h1
    simp only [Bool.and_eq_true, Bool.or_eq_true, decide_eq_true_eq] at hf
    intro k hk
    rw [hj] at hk
    cases hk
    rcases hf.2 with e | e <;> simp [e, JobState.terminal]

/-- A job failed by an OFFLINE port (R86). -/
theorem State.failJob_keeps (s : State) (i : SlotId) : s.Keeps (s.failJob i) :=
  (s.dropWork_keeps i).trans (State.endJob_keeps _ _ _ _ rfl)

theorem State.foldFail_keeps (l : List SlotId) : ∀ s : State, s.Keeps (l.foldl State.failJob s) := by
  induction l with
  | nil => exact fun s => State.Keeps.refl s
  | cons i rest ih => exact fun s => (s.failJob_keeps i).trans (ih _)

/-! ### OFFLINE and escalation (R51, R52, R54) -/

theorem Port.goOffline_quiet (q : Port) (c : OfflineCause) : (q.goOffline c).Quiet :=
  ⟨rfl, rfl, rfl, rfl⟩

/-- A port enters OFFLINE (R54). -/
theorem State.enterOffline_moves (s : State) (p : PortId) (c : OfflineCause) :
    s.Moves (s.enterOffline p c) := by
  unfold State.enterOffline
  exact ((((s.modPort_moves p (fun q => q.goOffline c) (fun _ _ => Port.goOffline_quiet _ c)).trans
    (State.foldFail_keeps _ _).moves).trans (State.followUp_keeps _ p).moves).trans
    (State.rpuPortLost_keeps _ p).moves).trans (State.postPortEvent_moves _ p _)

/-- Nothing is outstanding on an OFFLINE port (R54). -/
theorem State.OfflineQuiet.live {s : State} (h : s.OfflineQuiet) {p : PortId} {o : Outstanding}
    (ho : (s.port p).outstanding = some o) : (s.port p).state ≠ .offline := by
  intro e
  have := (h p e).command
  rw [ho] at this
  simp at this

/-- A finished command moves. -/
theorem State.finish_moves (s : State) (p : PortId) : s.Moves (s.setPort p (s.port p).finish) :=
  s.setPort_moves p _ (fun a hs =>
    have q := a p hs
    ⟨rfl, q.claims, q.req, q.volume⟩)

/-- A port error (R51, R52). -/
theorem State.portError_moves (s : State) (p : PortId) : s.Moves (s.portError p) := by
  unfold State.portError
  dsimp only
  split
  · exact State.Moves.refl s
  · split
    · exact (s.setPort_moves p _ (fun _ h => by simp at h)).trans (State.postPortEvent_moves _ p _)
    · exact (s.finish_moves p).trans (State.enterOffline_moves _ p _)
    · exact s.finish_moves p

/-! ### Labels and media (R56 to R59, R85) -/

theorem State.enterQueued_live (s : State) (i k : SlotId) (h : s.LiveAt k) : (s.enterQueued i).LiveAt k := by
  unfold State.enterQueued
  intro j hj
  by_cases e : k = i
  · subst e
    rw [State.slot_modJob_same] at hj
    obtain ⟨l, _, rfl⟩ := Option.map_eq_some_iff.mp hj
    rfl
  · rw [State.slot_modJob_ne _ _ e] at hj
    obtain ⟨l, hl, hs, _⟩ := s.nextSequence_slot k j hj
    rw [hs]
    exact h l hl

theorem State.releaseJob_spec (s : State) (i : SlotId) :
    (s.LiveAt i → s.Keeps (s.releaseJob i)) ∧ ∀ k, s.LiveAt k → (s.releaseJob i).LiveAt k := by
  unfold State.releaseJob
  dsimp only
  have k0 : s.Keeps { s with jbu := { s.jbu with
      waitOrder := s.jbu.waitOrder.filter (fun k => decide (k ≠ i)) } } := State.counters_keeps s _ rfl
  have l0 : ∀ k, s.LiveAt k → ({ s with jbu := { s.jbu with
      waitOrder := s.jbu.waitOrder.filter (fun k => decide (k ≠ i)) } } : State).LiveAt k := fun _ h => h
  generalize ({ s with jbu := { s.jbu with
      waitOrder := s.jbu.waitOrder.filter (fun k => decide (k ≠ i)) } } : State) = t at k0 l0
  split
  · exact ⟨fun _ => k0, l0⟩
  · have live : ∀ k, t.LiveAt k → (t.modJob i (fun j => j.bind (s.port j.port).volume)).LiveAt k := by
      intro k h j hj
      by_cases e : k = i
      · subst e
        rw [State.slot_modJob_same] at hj
        obtain ⟨l, hl, rfl⟩ := Option.map_eq_some_iff.mp hj
        rw [Job.bind_state]
        exact h l hl
      · rw [State.slot_modJob_ne _ _ e] at hj
        exact h j hj
    refine ⟨fun h => (k0.trans (t.modJob_keeps i _ (fun j _ =>
      Job.Tame.same (Job.bind_port _ _) (Job.bind_state _ _)))).trans
      (State.enterQueued_keeps _ i (live i (l0 i h))), fun k h => ?_⟩
    exact State.enterQueued_live _ i k (live k (l0 k h))

/-- The jobs a settled label read releases (R85). -/
theorem State.releaseJobs_keeps (s : State) (p : PortId) : s.Keeps (s.releaseJobs p) := by
  unfold State.releaseJobs
  refine (State.foldLive_keeps State.releaseJob (fun s i h => (s.releaseJob_spec i).1 h)
    (fun s i k h => (s.releaseJob_spec i).2 k h) _ s (fun i hi => ?_)).trans (State.activatePort_keeps _ p)
  unfold State.releasedJobs at hi
  have hf := (List.mem_filter.mp hi).2
  intro j hj
  rw [hj] at hf
  simp only [Bool.and_eq_true, decide_eq_true_eq] at hf
  simp [hf.1.2, JobState.terminal]

/-- A label read settles on a port that is not OFFLINE (R57). -/
theorem State.settleLabel_moves (s : State) (p : PortId) (o : DriveOutcome)
    (h : s.OfflineQuiet → (s.port p).state ≠ .offline) : s.Moves (s.settleLabel p o) := by
  unfold State.settleLabel
  dsimp only
  have k1 := (s.modPort_moves p (fun q => { q with volume := labelVolume o })
    (fun a hs => absurd hs (h a))).trans (State.postPortEvent_moves _ p .volume)
  generalize (s.modPort p (fun q => { q with volume := labelVolume o })).postPortEvent p .volume = s1 at k1
  have k2 := (k1.trans (s1.setHold_keeps p false).moves).trans (State.releaseJobs_keeps _ p).moves
  generalize (s1.setHold p false).releaseJobs p = s2 at k2
  have k3 : s.Moves (if s2.somePresentOn p then s2.evaluate p else s2) := by
    split
    · exact k2.trans (s2.evaluate_keeps p).moves
    · exact k2
  split
  · exact k3.trans (rpuChoice_keeps _).moves
  · exact k3

/-- A label read begins on a port that is not OFFLINE (R56). -/
theorem State.beginLabel_moves (s : State) (p : PortId) (h : (s.port p).state ≠ .offline) :
    s.Moves (s.beginLabel p) := by
  refine s.modPort_moves p _ (fun _ hs => absurd ?_ h)
  have e : (s.port p).beginLabelRead.state = (s.port p).state := by
    unfold Port.beginLabelRead
    dsimp only
    split <;> rfl
  rw [← e]
  exact hs

/-- MEDIA falls (R58). -/
theorem State.loseMedia_moves (s : State) (p : PortId) (h : (s.port p).state ≠ .offline) :
    s.Moves (s.loseMedia p) :=
  (s.modPort_moves p (fun q => { q.withdraw .label with volume := .noMedia })
    (fun _ hs => absurd hs h)).trans (State.mediaDrop_keeps _ p).moves

/-- READY rises with MEDIA high (R59). -/
theorem State.rereadLabel_moves (s : State) (p : PortId) (h : (s.port p).state ≠ .offline) :
    s.Moves (s.rereadLabel p) := by
  unfold State.rereadLabel
  split
  · exact (s.beginLabel_moves p h).trans (State.mediaDrop_keeps _ p).moves
  · exact s.beginLabel_moves p h

/-! ### Replies (R43, R137) -/

theorem State.feedMargin_moves (s : State) (p : PortId) (n b : Nat) : s.Moves (s.feedMargin p n b) := by
  unfold State.feedMargin
  dsimp only
  have k : s.Moves (s.setPort p { s.port p with
      margin := (s.port p).margin.feed (s.port p).settings n b }) :=
    s.setPort_moves p _ (fun a hs => have q := a p hs; ⟨q.command, q.claims, q.req, q.volume⟩)
  split
  · exact k
  · exact k.trans (State.post_keeps _ _).moves

theorem State.feedReply_moves (s : State) (p : PortId) (c : Claim) (r : DriveReply) (st : DriveStatus) :
    s.Moves (s.feedReply p c r st) := by
  unfold State.feedReply
  split
  · exact s.feedMargin_moves p _ _
  · exact State.Moves.refl s

theorem State.returnToNormal_moves (s : State) (p : PortId) : s.Moves (s.returnToNormal p) := by
  unfold State.returnToNormal
  split
  · exact (s.modPort_moves p _ (fun _ h => by simp at h)).trans (State.postPortEvent_moves _ p _)
  · exact State.Moves.refl s

theorem State.handOutcome_moves (s : State) (p : PortId) (c : Option Claimant) (o : DriveOutcome)
    (h : s.OfflineQuiet → (s.port p).state ≠ .offline) : s.Moves (s.handOutcome p c o) := by
  unfold State.handOutcome
  split
  · exact State.Moves.refl s
  · exact s.settleLabel_moves p o h
  · exact (s.rpuOutcome_keeps p o).moves
  · split
    · exact State.Moves.refl s
    · next i hi =>
      exact (s.readOutcome_keeps i o (State.activeSlot_activeAt hi)).moves.trans
        (State.followUp_keeps _ p).moves

theorem State.feedReply_state (s : State) (p : PortId) (c : Claim) (r : DriveReply) (st : DriveStatus) :
    ((s.feedReply p c r st).port p).state = (s.port p).state := by
  unfold State.feedReply
  split
  · unfold State.feedMargin
    dsimp only
    split
    · simp
    · rw [((State.post_keeps _ _).port p).state]
      simp
  · rfl

/-- An outcome is taken (R43), on a port that is not OFFLINE. -/
theorem State.takeOutcome_moves (s : State) (p : PortId) (o : Outstanding) (r : DriveReply) (st : DriveStatus)
    (h : (s.port p).state ≠ .offline) : s.Moves (s.takeOutcome p o r st) := by
  unfold State.takeOutcome
  dsimp only
  refine (((s.finish_moves p).trans (State.returnToNormal_moves _ p)).trans
    (State.feedReply_moves _ p _ _ _)).trans (State.handOutcome_moves _ p _ _ (fun _ => ?_))
  rw [State.feedReply_state]
  unfold State.returnToNormal
  have e : ((s.setPort p (s.port p).finish).port p).state = (s.port p).state := by simp [Port.finish]
  split
  · unfold State.postPortEvent
    rw [((State.post_keeps _ _).port p).state]
    simp
  · rw [e]; exact h

/-- A reply is judged (R43), in a state in which no command is outstanding on an OFFLINE port. -/
theorem State.takeReply_moves (s : State) (p : PortId) (o : Outstanding) (r : DriveReply)
    (h : (s.port p).state ≠ .offline) : s.Moves (s.takeReply p o r) := by
  unfold State.takeReply
  split
  · exact s.portError_moves p
  · exact s.portError_moves p
  · exact s.takeOutcome_moves p o r _ h

/-! ### Grants (R46 to R48, R78, R83) -/

theorem State.gntRisen_moves (s : State) (p : PortId) : s.Moves (s.modPort p Port.gntRisen) := by
  refine s.modPort_moves p _ (fun a hs => ?_)
  have e : (s.port p).gntRisen.state = (s.port p).state := by
    unfold Port.gntRisen
    split <;> rfl
  have q := a p (e ▸ hs)
  unfold Port.gntRisen
  split
  · exact ⟨q.command, q.claims, q.req, q.volume⟩
  · exact ⟨q.command, q.claims, rfl, q.volume⟩
  · exact ⟨q.command, q.claims, q.req, q.volume⟩
  · exact ⟨q.command, q.claims, q.req, q.volume⟩

/-- The claimant of a cut command is told (R48, R78, R129), on a port that is not OFFLINE. -/
theorem State.tellCut_moves (s : State) (p : PortId) (o : Outstanding)
    (h : s.OfflineQuiet → (s.port p).state ≠ .offline) : s.Moves (s.tellCut p o) := by
  unfold State.tellCut
  split
  · exact State.Moves.refl s
  · split
    · exact s.modPort_moves p _ (fun a hs => absurd hs (h a))
    · exact State.Moves.refl s
  · exact (s.rpuCut_keeps p _).moves
  · split
    · exact State.Moves.refl s
    · next i hi =>
      have ha := State.activeSlot_activeAt hi
      split
      · exact State.Moves.refl s
      · split
        · refine (s.modJob_keeps i (fun j => { j with state := .suspended })
            (fun k hk => Job.Tame.ofLive rfl (ha.live k hk) rfl)).moves.trans
            (State.followUp_keeps _ p).moves
        · exact (s.enterWaiting_active_keeps i _ ha).moves.trans (State.followUp_keeps _ p).moves

/-- GNT falls (R47, R48). -/
theorem State.gntFallen_moves (s : State) (p : PortId) (h : s.OfflineQuiet) : s.Moves (s.gntFallen p) := by
  unfold State.gntFallen
  dsimp only
  have k1 : s.Moves (s.setPort p ({ s.port p with gnt := false }).loseGrant) :=
    s.setPort_moves p _ (fun a hs => have q := a p hs; ⟨q.command, q.claims, rfl, q.volume⟩)
  split
  · exact k1
  · next o ho =>
    have live := h.live ho
    split
    · refine (k1.trans (State.modPort_moves _ p Port.finish (fun a hs => ?_))).trans
        (State.tellCut_moves _ p o (fun _ => ?_))
      · rw [State.port_setPort_same] at hs
        exact absurd hs live
      · simpa [Port.finish, Port.loseGrant] using live
    · exact k1.trans (State.portError_moves _ p)

theorem State.yldRisen_moves (s : State) (p : PortId) : s.Moves (s.modPort p Port.yldRisen) := by
  refine s.modPort_moves p _ (fun a hs => ?_)
  have e : (s.port p).yldRisen.state = (s.port p).state := by
    unfold Port.yldRisen
    split <;> rfl
  have q := a p (e ▸ hs)
  unfold Port.yldRisen
  split
  · exact ⟨q.command, q.claims, rfl, q.volume⟩
  · exact ⟨q.command, q.claims, by simp [q.command], q.volume⟩
  · exact ⟨q.command, q.claims, q.req, q.volume⟩
  · exact ⟨q.command, q.claims, q.req, q.volume⟩

/-- A job yields as YLD rises (R83). -/
theorem State.jobYields_keeps (s : State) (p : PortId) : s.Keeps (s.jobYields p) := by
  unfold State.jobYields
  split
  · exact State.Keeps.refl s
  · next i hi =>
    have ha := State.activeSlot_activeAt hi
    split
    · exact State.Keeps.refl s
    · split
      · have k := s.withdraw_keeps p .job
        exact k.toKeeps.trans (State.enterWaiting_active_keeps _ i _ (ha.ofSlot (k.slot i)))
      · exact State.Keeps.refl s

/-- A job goes on as YLD falls (R83). -/
theorem State.jobUnyields_keeps (s : State) (p : PortId) : s.Keeps (s.jobUnyields p) := by
  unfold State.jobUnyields
  split
  · exact State.Keeps.refl s
  · next i hi =>
    obtain ⟨k, hk, _, hact⟩ := State.activeSlot_spec hi
    split
    · exact State.Keeps.refl s
    · next j hj =>
      split
      · have a1 : (s.modJob i (fun j => { j with state := .running })).ActiveAt i :=
          ⟨{ j with state := .running }, by rw [State.slot_modJob_same, hj]; rfl, rfl⟩
        refine ((s.modJob_keeps i (fun j => { j with state := .running }) (fun l hl => ?_)).trans
          (State.boundary_keeps _ i a1)).trans
          (State.followUp_keeps _ p)
        rw [hk] at hl
        cases hl
        exact Job.Tame.ofActive rfl hact
      · exact State.Keeps.refl s

/-- FAULT rises (R53). -/
theorem State.faultRisen_moves (s : State) (p : PortId) : s.Moves (s.faultRisen p) := by
  unfold State.faultRisen
  split
  · exact s.modPort_moves p _ (fun a hs => have q := a p hs; ⟨q.command, q.claims, q.req, q.volume⟩)
  · exact s.enterOffline_moves p _

/-! ### Lines (R44) -/

/-- A change of a line: where it changes something, the line's own rule acts, and a step ends (R44). -/
theorem State.lineChange_cases (s : State) (p : PortId) (k : Line) (b : Bool) (act : State → State) :
    (s.lineChange p k b act = s) ∨
    (s.portsSet = false ∧
      s.lineChange p k b act = s.modPort p (fun q => { q with lines := q.lines.put k b })) ∨
    ∃ t, s.Moves t ∧ (t.port p).state = (s.port p).state ∧ s.lineChange p k b act = settle (act t) := by
  unfold State.lineChange
  split
  · exact Or.inl rfl
  · split
    · refine Or.inr (Or.inr ⟨_, ?_, ?_, rfl⟩)
      · exact (s.modPort_moves p _ (fun a hs => have q := a p hs; ⟨q.command, q.claims, q.req, q.volume⟩)).trans
          (State.postPortEvent_moves _ p _)
      · unfold State.postPortEvent
        rw [((State.post_keeps _ _).port p).state]
        simp
    · next h => exact Or.inr (Or.inl ⟨by simpa using h, rfl⟩)

end Sys2Proof.Machine
end

