-- ==== Sys2Proof/Laws/Outcomes.lean ====
section
/-! SUPPORT. What the outcomes of jobs' reads do: one lemma for each way an outcome, a finding or a boundary can
go (R71 to R85). -/

namespace Sys2Proof.Machine

open Sys2Proof

/-! ### A job changed in its slot -/

/-- A change of the job in a slot, where the job is known. -/
theorem State.modJob_of_slot {s : State} {i : SlotId} {j : Job} (h : s.slot i = some j) (f : Job → Job) :
    s.modJob i f = s.setSlot i (some (f j)) := by
  simp [State.modJob, h]

/-- Judging a finding leaves the slots as they are. -/
theorem State.takeFinding_slot (s : State) (f : Finding) (i : SlotId) : (s.takeFinding f).2.slot i = s.slot i :=
  (s.takeFinding_keeps f).slot i

/-- Judging a finding leaves every port but for claims. -/
theorem State.takeFinding_port (s : State) (f : Finding) (p : PortId) :
    (s.port p).Keeps ((s.takeFinding f).2.port p) := (s.takeFinding_keeps f).port p

/-- A posted notice touches the link alone. -/
theorem State.post_frame (s : State) (n : Notice) :
    (s.post n).dfl = s.dfl ∧ (s.post n).cat = s.cat ∧ (s.post n).jbu = s.jbu ∧ (s.post n).ports = s.ports ∧
      (s.post n).rpu = s.rpu := by
  unfold State.post
  split
  · exact ⟨rfl, rfl, rfl, rfl, rfl⟩
  · split <;> exact ⟨rfl, rfl, rfl, rfl, rfl⟩

@[simp] theorem State.post_port (s : State) (n : Notice) (p : PortId) : (s.post n).port p = s.port p := by
  simp [State.port, (s.post_frame n).2.2.2.1]

@[simp] theorem State.post_slot (s : State) (n : Notice) (i : SlotId) : (s.post n).slot i = s.slot i := by
  simp [State.slot, (s.post_frame n).2.2.1]

@[simp] theorem State.post_dfl (s : State) (n : Notice) : (s.post n).dfl = s.dfl := (s.post_frame n).1

@[simp] theorem State.post_cat (s : State) (n : Notice) : (s.post n).cat = s.cat := (s.post_frame n).2.1

@[simp] theorem State.post_jbu (s : State) (n : Notice) : (s.post n).jbu = s.jbu := (s.post_frame n).2.2.1

/-- The link after a notice depends on mode, mask and link alone. -/
theorem State.post_link_congr {s t : State} (n : Notice) (hm : t.mode = s.mode) (hk : t.mask = s.mask)
    (hl : t.link = s.link) : (t.post n).link = (s.post n).link := by
  unfold State.post
  rw [hm, hk, hl]
  split
  · exact hl
  · split
    · rfl
    · exact hl

/-- A job enters STALLED, YIELDED or WAIT_MEDIA, and JOB_WAIT is queued (R95). -/
theorem State.enterWaiting_of_slot {s : State} {i : SlotId} {j : Job} (h : s.slot i = some j) (st : JobState) :
    s.enterWaiting i st = (s.setSlot i (some { j with state := st })).post
      (jobWaitNotice { j with state := st }) := by
  unfold State.enterWaiting
  rw [State.modJob_of_slot h]
  simp

/-! ### Findings (R75, R77, R84) -/

/-- A finding that is taken is completed, and the scrub is at a boundary (R77). -/
theorem State.scrubFinding_taken {s : State} {i : SlotId} {j : Job} {f : Finding} (h : s.slot i = some j)
    (hf : (s.takeFinding f).1 ≠ .full) :
    s.scrubFinding i f = ((s.takeFinding f).2.setSlot i (some (j.completeFinding f))).boundary i := by
  unfold State.scrubFinding
  have hs := s.takeFinding_slot f i
  generalize s.takeFinding f = x at hf hs
  obtain ⟨a, u⟩ := x
  cases a
  · exact congrArg (State.boundary · i) (State.modJob_of_slot (hs.trans h) _)
  · exact congrArg (State.boundary · i) (State.modJob_of_slot (hs.trans h) _)
  · exact absurd rfl hf

/-- A finding that meets a full list stalls the scrub (R77, R84). -/
theorem State.scrubFinding_full {s : State} {i : SlotId} {f : Finding} (hf : (s.takeFinding f).1 = .full) :
    s.scrubFinding i f = s.stallJob i f := by
  unfold State.scrubFinding
  rcases hx : s.takeFinding f with ⟨a, u⟩
  rw [hx] at hf
  obtain rfl : a = .full := hf
  rw [(State.takeFinding_full hx).1]

/-- A stalled job holds its finding and stands last in the stall order (R84, R104). -/
theorem State.stallJob_spec {s : State} {i : SlotId} {j : Job} (h : s.slot i = some j) (f : Finding) :
    let u := s.stallJob i f
    u.slot i = some { j with state := .stalled, finding := some f } ∧
      u.dfl = { s.dfl with stallOrder := s.dfl.stallOrder ++ [i] } ∧ u.cat = s.cat ∧
      (∀ p, u.port p = s.port p) ∧ (∀ k, k ≠ i → u.slot k = s.slot k) ∧
      u.link = (s.post (jobWaitNotice { j with state := .stalled, finding := some f })).link := by
  intro u
  have e : u = (({ s.setSlot i (some { j with finding := some f }) with
      dfl := { s.dfl with stallOrder := s.dfl.stallOrder ++ [i] } } : State).setSlot i
        (some { j with state := .stalled, finding := some f })).post
          (jobWaitNotice { j with state := .stalled, finding := some f }) := by
    show s.stallJob i f = _
    unfold State.stallJob
    rw [State.modJob_of_slot h]
    have hw : ({ s.setSlot i (some { j with finding := some f }) with
        dfl := { s.dfl with stallOrder := s.dfl.stallOrder ++ [i] } } : State).slot i
          = some { j with finding := some f } := State.slot_setSlot_same s i (some { j with finding := some f })
    exact State.enterWaiting_of_slot hw .stalled
  rw [e]
  refine ⟨by simp, by simp, by simp, fun p => ?_, fun k hk => ?_, State.post_link_congr _ rfl rfl rfl⟩
  · simp only [State.post_port, State.setSlot_port]
    rfl
  · rw [State.post_slot, State.slot_setSlot_ne _ _ hk]
    exact State.slot_setSlot_ne _ _ hk

/-- What the taking of a scrub's frame finding counts (R77). -/
theorem Job.completeFinding_frame {j : Job} {f : Finding} (hk : j.kind ≠ .volumeVerify) {n : Nat} {k : CopyId}
    {c : Nat} (h : f.place = .frame n k c) : j.completeFinding f =
      { j with defective := j.defective + 1, cursor := j.cursor + 1, sinceResume := j.sinceResume + 1 } := by
  unfold Job.completeFinding
  split
  · next e => exact absurd e hk
  · rw [h]; rfl

/-- What the taking of a scrub's manifest finding counts (R75). -/
theorem Job.completeFinding_manifest {j : Job} {f : Finding} (hk : j.kind ≠ .volumeVerify) {n : Nat} {k : CopyId}
    {m e : Nat} (h : f.place = .manifest n k m) (he : j.rangeEnd = some e) : j.completeFinding f =
      { j with unchecked := j.unchecked + (min (1023 * m + 1022) e + 1 - j.cursor)
               cursor := min (1023 * (m + 1)) (e + 1), manifest := none } := by
  unfold Job.completeFinding
  split
  · next e => exact absurd e hk
  · rw [h]
    simp [Job.skipManifest, slotsPerBlock, he]

/-- What the taking of a verify's finding counts (R82). -/
theorem Job.completeFinding_verify {j : Job} {f : Finding} (hk : j.kind = .volumeVerify) {st : Settling}
    (hs : j.settling = some st) :
    j.completeFinding f = if st.remaining = [] then j.settled st.total else j := by
  unfold Job.completeFinding
  rw [hk]
  simp [hs]

/-- A read of a verify is counted when the last of its findings has been taken (R82). -/
theorem Job.settled_eq {j : Job} {e : Nat} (he : j.rangeEnd = some e) (total : Nat) : j.settled total =
    { j with blocksRead := j.blocksRead + min 256 (e + 1 - j.cursor)
             blocksUnreadable := j.blocksUnreadable + total
             cursor := j.cursor + min 256 (e + 1 - j.cursor), settling := none } := by
  simp [Job.settled, Job.verifyBlocks, he]

/-! ### Boundaries of a scrub (R72, R73) -/

/-- A boundary of a scrub is its own (R72). -/
theorem State.boundary_scrub {s : State} {i : SlotId} {j : Job} (h : s.slot i = some j)
    (hk : j.kind ≠ .volumeVerify) : s.boundary i = s.scrubBoundary i j := by
  unfold State.boundary
  rw [h]
  dsimp only
  split
  · next e => exact absurd e hk
  · rfl

/-- A boundary of a verify is its own (R80). -/
theorem State.boundary_verify {s : State} {i : SlotId} {j : Job} (h : s.slot i = some j)
    (hk : j.kind = .volumeVerify) : s.boundary i = s.verifyBoundary i j := by
  unfold State.boundary
  rw [h]
  dsimp only
  rw [hk]

/-- Step 1 of a frame boundary (R72). -/
theorem State.boundary_suspend {s : State} {i : SlotId} {j : Job} (h : s.slot i = some j)
    (hk : j.kind ≠ .volumeVerify) (hs : j.state = .suspending) :
    s.boundary i = s.setSlot i (some { j with state := .suspended }) := by
  rw [State.boundary_scrub h hk, State.scrubBoundary, if_pos hs, State.modJob_of_slot h]

/-- Step 2 of a frame boundary (R72, R83). -/
theorem State.boundary_yield {s : State} {i : SlotId} {j : Job} (h : s.slot i = some j)
    (hk : j.kind ≠ .volumeVerify) (hs : j.state ≠ .suspending) (hy : (s.port j.port).yld = true) :
    s.boundary i = (s.setSlot i (some { j with state := .yielded })).post
      (jobWaitNotice { j with state := .yielded }) := by
  rw [State.boundary_scrub h hk, State.scrubBoundary, if_neg hs, if_pos hy, State.enterWaiting_of_slot h]

/-- Step 3 of a frame boundary (R72, R73). -/
theorem State.boundary_end {s : State} {i : SlotId} {j : Job} {e : Nat} (h : s.slot i = some j)
    (hk : j.kind ≠ .volumeVerify) (hs : j.state ≠ .suspending) (hy : (s.port j.port).yld = false)
    (he : j.rangeEnd = some e) (hc : e < j.cursor) : s.boundary i = s.finishJob i j := by
  have hp : j.pastEnd = true := by simp [Job.pastEnd, he, hc]
  rw [State.boundary_scrub h hk, State.scrubBoundary, if_neg hs, if_neg (by simp [hy]), if_pos hp]

/-- Steps 4 and 5 of a frame boundary (R72, R74, R76). -/
theorem State.boundary_claim {s : State} {i : SlotId} {j : Job} {e : Nat} {t : Target} {en : Entry} {c : CopyDesc}
    (h : s.slot i = some j) (hk : j.kind ≠ .volumeVerify) (hs : j.state ≠ .suspending)
    (hy : (s.port j.port).yld = false) (he : j.rangeEnd = some e) (hc : j.cursor ≤ e)
    (ht : j.target = some t) (hen : s.entry t.reel = some en) (hcp : en.copy t.copy = some c) :
    s.boundary i = s.placeJobClaim j.port (scrubClaim en.toStoredEntry c j) := by
  have hp : j.pastEnd = false := by simp [Job.pastEnd, he, Nat.not_lt.mpr hc]
  have hj : s.jobCopy j = some (en, c) := by simp [State.jobCopy, ht, hen, hcp]
  rw [State.boundary_scrub h hk, State.scrubBoundary, if_neg hs, if_neg (by simp [hy]), hp, hj]
  rfl

/-- Whether the manifest block of the cursor is loaded (R72 step 4). -/
theorem Job.manifestLoaded_iff (j : Job) :
    j.manifestLoaded = true ↔ ∃ m, j.manifest = some m ∧ m.index = j.cursor / 1023 := by
  unfold Job.manifestLoaded slotsPerBlock
  cases j.manifest <;> simp

/-! ### Waiting for media (R85) -/

/-- A job enters WAIT_MEDIA (R85): manifest, finding and offsets dropped, claim withdrawn, last in the order of those
that wait, JOB_WAIT queued. -/
theorem State.enterWaitMedia_spec {s : State} {i : SlotId} {j : Job} (hj : s.slot i = some j) :
    let u := s.enterWaitMedia i
    u.slot i = some { j with state := .waitMedia, manifest := none, finding := none, settling := none } ∧
      (∀ k, k ≠ i → u.slot k = s.slot k) ∧ u.dfl.records = s.dfl.records ∧ u.cat = s.cat ∧
      u.dfl.stallOrder = s.dfl.stallOrder.filter (fun k => decide (k ≠ i)) ∧
      u.jbu.waitOrder = s.jbu.waitOrder.filter (fun k => decide (k ≠ i)) ++ [i] ∧
      (j.state.active = true →
        (u.port j.port).jobPending = false ∧ (u.port j.port).jobOutstanding = false) ∧
      u.link = (s.post (jobWaitNotice
        { j with state := .waitMedia, manifest := none, finding := none, settling := none })).link := by
  intro u
  have hw : (s.withdrawJob j).jbu = s.jbu ∧ (s.withdrawJob j).dfl = s.dfl ∧ (s.withdrawJob j).cat = s.cat ∧
      (s.withdrawJob j).mode = s.mode ∧ (s.withdrawJob j).mask = s.mask ∧ (s.withdrawJob j).link = s.link := by
    unfold State.withdrawJob; split <;> exact ⟨rfl, rfl, rfl, rfl, rfl, rfl⟩
  obtain ⟨w1, w2, w3, w4, w5, w6⟩ := hw
  have hwj : (s.withdrawJob j).slot i = some j := by simpa [State.slot, w1] using hj
  have hp : j.state.active = true → ((s.withdrawJob j).port j.port).jobPending = false ∧
      ((s.withdrawJob j).port j.port).jobOutstanding = false := by
    intro ha
    simp only [State.withdrawJob, ha, if_true, State.modPort, State.port_setPort_same]
    constructor
    · unfold Port.jobPending Port.reissueOf Port.withdraw
      simp only [if_true, Option.isSome_none, Bool.false_or]
      unfold Port.reissueOf
      rcases (s.port j.port).reissue with _ | ⟨c, cl⟩
      · rfl
      · by_cases h : c = .job <;> simp [h]
    · unfold Port.jobOutstanding Port.withdraw
      rcases (s.port j.port).outstanding with _ | o
      · rfl
      · simp only [Option.map_some]
        split <;> simp_all
  generalize hwd : s.withdrawJob j = w at *
  have hu : u = s.enterWaitMedia i := rfl
  unfold State.enterWaitMedia at hu
  rw [hj] at hu
  dsimp only at hu
  rw [hwd] at hu
  unfold State.dropWork at hu
  rw [State.modJob_of_slot hwj] at hu
  rw [State.modJob_of_slot (j := { j with finding := none, settling := none })
    (by exact State.slot_setSlot_same _ _ _)] at hu
  rw [State.enterWaiting_of_slot (j := { j with finding := none, settling := none, manifest := none })
    (by exact State.slot_setSlot_same _ _ _)] at hu
  rw [hu]
  refine ⟨?_, fun k hk => ?_, ?_, ?_, ?_, ?_, fun ha => ?_, ?_⟩
  · rw [State.post_slot, State.slot_setSlot_same]
  · rw [State.post_slot, State.slot_setSlot_ne _ _ hk]
    have : ∀ (x : State) (b : Jbu), ({ x with jbu := b } : State).slot k = b.slots[k] := fun _ _ => rfl
    rw [this]
    show State.slot (State.setSlot _ _ _) k = _
    rw [State.slot_setSlot_ne _ _ hk]
    show State.slot (State.setSlot _ _ _) k = _
    rw [State.slot_setSlot_ne _ _ hk]
    simp [State.slot, w1]
  · rw [State.post_dfl]; show w.dfl.records = _; rw [w2]
  · rw [State.post_cat]; exact w3
  · rw [State.post_dfl]; show w.dfl.stallOrder.filter _ = _; rw [w2]
  · rw [State.post_jbu]; show w.jbu.waitOrder.filter _ ++ _ = _; rw [w1]
  · rw [State.post_port]; exact hp ha
  · exact State.post_link_congr _ w4 w5 w6

/-! ### The end of a job (R67, R68, R73) -/

/-- A renumbering of the end orders touches nothing but JBU, and of a job nothing but its end order. -/
theorem State.renumberEnds_frame (s : State) :
    ∃ b : Jbu, s.renumberEnds = { s with jbu := b } ∧
      ∀ i j, s.slot i = some j → ∃ n, b.slots[i] = some { j with endOrder := n } := by
  unfold State.renumberEnds
  split
  · exact ⟨s.jbu, rfl, fun i j h => ⟨j.endOrder, h⟩⟩
  · dsimp only
    generalize hf : (fun j : Job => if j.ended then
      { j with endOrder := some (s.rankBelow Job.ended (fun k => k.endOrder.getD 0)
                                  (j.endOrder.getD 0) + 1) } else j) = f
    have key : ∀ (l : List SlotId) (t : State), ∃ b : Jbu,
        l.foldl (fun t i => t.modJob i f) t = { t with jbu := b } := by
      intro l
      induction l with
      | nil => exact fun t => ⟨t.jbu, rfl⟩
      | cons k rest ih =>
        intro t
        obtain ⟨b, hb⟩ := ih (t.modJob k f)
        exact ⟨b, hb⟩
    obtain ⟨b, hb⟩ := key allSlots s
    have hm : s.mapJobs f = { s with jbu := b } := hb
    refine ⟨{ b with endOrder := (s.slotsWhere Job.ended).length }, by rw [hm], fun i j h => ?_⟩
    have hs := State.slot_mapJobs s f i
    rw [hm, h] at hs
    have e : ∃ n, f j = { j with endOrder := n } := by
      subst hf
      dsimp only
      split
      · exact ⟨_, rfl⟩
      · exact ⟨j.endOrder, rfl⟩
    obtain ⟨n, hn⟩ := e
    exact ⟨n, by rw [← hn]; exact hs⟩

/-- A job becomes terminal (R67, R68): only JBU and the link change; a PATROL job's slot is freed, and a REQUESTED
job keeps all but state, end reason and end order. -/
theorem State.endJob_spec {s : State} {i : SlotId} {j : Job} (h : s.slot i = some j) (st : JobState)
    (r : EndReason) :
    let u := s.endJob i st r
    u.dfl = s.dfl ∧ u.cat = s.cat ∧ (∀ p, u.port p = s.port p) ∧ u.rpu = s.rpu ∧
      (j.origin = .patrol → u.slot i = none) ∧
      (j.origin = .requested → ∃ n, u.slot i = some { j with
        state := st, endReason := some r, endOrder := some n }) := by
  intro u
  obtain ⟨b, hb, hs⟩ := s.renumberEnds_frame
  obtain ⟨n, hn⟩ := hs i j h
  have hslot : ({ s with jbu := { b with endOrder := b.endOrder + 1 } } : State).slot i
      = some { j with endOrder := n } := hn
  have hu : ∃ w : State, w.dfl = s.dfl ∧ w.cat = s.cat ∧ (∀ p, w.port p = s.port p) ∧ w.rpu = s.rpu ∧
      w.slot i = some { j with state := st, endReason := some r, endOrder := some (b.endOrder + 1) } ∧
      u = match j.origin with
        | .patrol => (w.post (jobEndNotice w
            { j with state := st, endReason := some r, endOrder := some (b.endOrder + 1) })).setSlot i none
        | .requested => w.post (jobEndNotice w
            { j with state := st, endReason := some r, endOrder := some (b.endOrder + 1) }) := by
    refine ⟨({ s with jbu := { b with endOrder := b.endOrder + 1 } } : State).setSlot i
      (some { j with state := st, endReason := some r, endOrder := some (b.endOrder + 1) }),
      rfl, rfl, fun _ => rfl, rfl, State.slot_setSlot_same _ _ _, ?_⟩
    show s.endJob i st r = _
    unfold State.endJob
    rw [hb]
    dsimp only
    rw [State.modJob_of_slot hslot]
    simp only [State.slot_setSlot_same] <;> rfl
  obtain ⟨w, h1, h2, h3, h4, h5, hu⟩ := hu
  rw [hu]
  cases ho : j.origin
  · exact ⟨by simp [h1], by simp [h2], fun p => by simp [h3 p], (State.post_frame _ _).2.2.2.2.trans h4,
      fun h => by simp at h, fun _ => ⟨b.endOrder + 1, by rw [State.post_slot, h5, ho]⟩⟩
  · exact ⟨by simp [h1], by simp [h2], fun p => by rw [State.setSlot_port, State.post_port, h3 p],
      (State.post_frame _ _).2.2.2.2.trans h4, fun _ => by simp, fun h => by simp at h⟩

/-- The end of a scrub at a boundary (R73): last_scrub of a REEL_SCRUB's copy while the clock is set. -/
theorem State.recordScrub_frame (s : State) (j : Job) :
    (s.recordScrub j).dfl = s.dfl ∧ (s.recordScrub j).jbu = s.jbu ∧ (s.recordScrub j).ports = s.ports := by
  unfold State.recordScrub
  split <;> exact ⟨rfl, rfl, rfl⟩

theorem State.recordScrub_cat (s : State) (j : Job) :
    (∀ t, j.kind = .reelScrub → j.target = some t → s.pts.clockSet = true → (s.recordScrub j).cat =
      s.cat.map (fun e => if e.reel ≠ t.reel then e else match t.copy with
        | .a => { e with copyA := { e.copyA with lastScrub := some s.pts.clock } }
        | .b => { e with copyB := e.copyB.map (fun c => { c with lastScrub := some s.pts.clock }) })) ∧
    (j.kind ≠ .reelScrub ∨ s.pts.clockSet = false → (s.recordScrub j).cat = s.cat) := by
  refine ⟨fun t hk ht hc => ?_, fun h => ?_⟩
  · unfold State.recordScrub State.reading
    rw [hk, ht, hc]
    show s.cat.map _ = _
    refine List.map_congr_left (fun e _ => ?_)
    by_cases hr : e.reel = t.reel
    · simp only [hr, if_true, ne_eq, not_true, if_false, Entry.modCopy] <;> cases t.copy <;> rfl
    · simp [hr]
  · unfold State.recordScrub State.reading
    split
    · next hk ht hr =>
      rcases h with h | h
      · exact absurd hk h
      · simp [h] at hr
    · rfl

/-! ### Places (R81) -/

/-- What leaves the places of a volume's blocks and of the records as they are. -/
structure State.KeepsPlaces (s t : State) : Prop where
  places : ∀ p vol a, t.cat.flatMap (entryPlaces p vol a) = s.cat.flatMap (entryPlaces p vol a)
  records : t.dfl.records.map (fun r => r.place) = s.dfl.records.map (fun r => r.place)

theorem State.KeepsPlaces.refl (s : State) : s.KeepsPlaces s := ⟨fun _ _ _ => rfl, rfl⟩

theorem State.KeepsPlaces.trans {s t u : State} (h : s.KeepsPlaces t) (k : t.KeepsPlaces u) : s.KeepsPlaces u :=
  ⟨fun p v a => (k.places p v a).trans (h.places p v a), k.records.trans h.records⟩

theorem State.KeepsPlaces.same {s t : State} (hc : t.cat = s.cat) (hd : t.dfl = s.dfl) : s.KeepsPlaces t :=
  ⟨fun _ _ _ => by rw [hc], by rw [hd]⟩

theorem State.modRecord_keepsPlaces (s : State) (id : Nat) (f : Record → Record)
    (h : ∀ r, (f r).place = r.place) : s.KeepsPlaces (s.modRecord id f) :=
  ⟨fun _ _ _ => rfl, by
    show (s.dfl.records.map _).map _ = _
    rw [List.map_map]
    refine List.map_congr_left (fun r _ => ?_)
    simp only [Function.comp]
    split
    · exact h r
    · rfl⟩

theorem countResult_placed (st : DefectState) (c : CopyDesc) :
    (countResult st c).port = c.port ∧ (countResult st c).volumeId = c.volumeId ∧
      (countResult st c).firstFrameBlock = c.firstFrameBlock ∧
      (countResult st c).manifestBlock = c.manifestBlock := by
  cases st <;> exact ⟨rfl, rfl, rfl, rfl⟩

theorem entryPlaces_count (p : PortId) (vol : VolumeId) (a : Nat) (e : Entry) (k : CopyId) (st : DefectState) :
    entryPlaces p vol a (e.modCopy k (countResult st)) = entryPlaces p vol a e := by
  unfold entryPlaces
  refine congrArg (fun f => [CopyId.a, CopyId.b].flatMap f) (funext fun l => ?_)
  cases k <;> cases l
  · obtain ⟨h1, h2, h3, h4⟩ := countResult_placed st e.copyA
    simp only [Entry.modCopy, StoredEntry.copy, frameAreaLast, frameAreaLength, manifestAreaLast, h1, h2, h3, h4]
    rfl
  · rfl
  · rfl
  · rcases hb : e.copyB with _ | c
    · simp [Entry.modCopy, StoredEntry.copy, hb]
    · obtain ⟨h1, h2, h3, h4⟩ := countResult_placed st c
      simp only [Entry.modCopy, StoredEntry.copy, hb, Option.map_some, frameAreaLast, frameAreaLength,
        manifestAreaLast, h1, h2, h3, h4]
      rfl

theorem State.modCopy_keepsPlaces (s : State) (t : Target) (st : DefectState) :
    s.KeepsPlaces (s.modCopy t (countResult st)) :=
  ⟨fun p v a => by
    show (s.cat.map _).flatMap _ = _
    rw [List.flatMap_map]
    refine congrArg (s.cat.flatMap ·) (funext fun e => ?_)
    dsimp only
    split
    · exact entryPlaces_count p v a e t.copy st
    · rfl, rfl⟩

theorem State.giveResult_keepsPlaces (s : State) (id : Nat) (st : DefectState) (d : Option OutcomeDetail) :
    s.KeepsPlaces (s.giveResult id st d) := by
  unfold State.giveResult
  have h1 := s.modRecord_keepsPlaces id (fun r => { r with state := st, detail := d }) (fun _ => rfl)
  dsimp only
  split
  · exact h1
  · split
    · exact (h1.trans (State.modCopy_keepsPlaces _ _ _)).trans (State.KeepsPlaces.same (State.post_cat _ _) (State.post_dfl _ _))
    · exact h1.trans (State.KeepsPlaces.same (State.post_cat _ _) (State.post_dfl _ _))

theorem State.enter_keepsPlaces (s : State) :
    s.KeepsPlaces s.enterReference ∧ s.KeepsPlaces s.enterSource := by
  unfold State.enterReference State.enterSource
  constructor <;> split <;> first | exact State.KeepsPlaces.refl s | exact State.KeepsPlaces.same rfl rfl

theorem State.rpu_keepsPlaces (s : State) (r : Rpu) : s.KeepsPlaces { s with rpu := r } :=
  State.KeepsPlaces.same rfl rfl

theorem State.choose_keepsPlaces (l : List Record) : ∀ s : State, s.KeepsPlaces (s.choose l) := by
  induction l with
  | nil => exact fun s => State.KeepsPlaces.refl s
  | cons r rest ih =>
    intro s
    unfold State.choose
    split
    · unfold State.takeRecord
      dsimp only
      have h := s.modRecord_keepsPlaces r.id (fun r => { r with state := .repairing, detail := none })
        (fun _ => rfl)
      split
      · exact (h.trans (State.rpu_keepsPlaces _ _)).trans (State.enter_keepsPlaces _).1
      · exact (h.trans (State.rpu_keepsPlaces _ _)).trans (State.enter_keepsPlaces _).2
    · exact (s.modRecord_keepsPlaces r.id (fun r => { r with detail := some .writeProtected })
        (fun _ => rfl)).trans (ih _)
    · exact (s.giveResult_keepsPlaces _ _ _).trans (ih _)
    · exact ih s

theorem rpuChoice_keepsPlaces (s : State) : s.KeepsPlaces (rpuChoice s) := by
  unfold rpuChoice
  split
  · exact State.choose_keepsPlaces _ s
  · exact State.KeepsPlaces.refl s

/-- An added record (R103): everything after its place in the list leaves the places as they are. -/
theorem State.addRecord_keepsPlaces (s : State) (f : Finding) :
    State.KeepsPlaces { s with dfl := { s.dfl with
      records := s.dfl.records ++ [s.newRecord f], nextId := nextIdAfter (s.newRecord f).id } }
      (s.addRecord f) := by
  unfold State.addRecord
  dsimp only
  split
  · exact (State.KeepsPlaces.same (State.post_cat _ _) (State.post_dfl _ _)).trans (rpuChoice_keepsPlaces _)
  · exact State.KeepsPlaces.same (State.post_cat _ _) (State.post_dfl _ _)

/-- What judging a finding does to the list and to places (R102, R103, R104). -/
theorem State.takeFinding_places (s : State) (f : Finding) :
    (∀ p vol a, (s.takeFinding f).2.cat.flatMap (entryPlaces p vol a) = s.cat.flatMap (entryPlaces p vol a)) ∧
    (∀ x ∈ s.dfl.records, ∃ y ∈ (s.takeFinding f).2.dfl.records, y.place = x.place) ∧
    ((s.takeFinding f).1 ≠ .full → ∃ y ∈ (s.takeFinding f).2.dfl.records, y.place = f.place) ∧
    s.dfl.records.length ≤ (s.takeFinding f).2.dfl.records.length ∧
    (s.takeFinding f).2.dfl.records.length ≤ s.dfl.records.length + 1 := by
  have mem : ∀ {u v : State}, v.dfl.records.map (fun r => r.place) = u.dfl.records.map (fun r => r.place) →
      ∀ x ∈ u.dfl.records, ∃ y ∈ v.dfl.records, y.place = x.place := by
    intro u v h x hx
    have : x.place ∈ v.dfl.records.map (fun r => r.place) := by
      rw [h]; exact List.mem_map_of_mem hx
    obtain ⟨y, hy, e⟩ := List.mem_map.mp this
    exact ⟨y, hy, e⟩
  unfold State.takeFinding
  split
  · next r hr =>
    have k := s.modRecord_keepsPlaces r.id (fun r => { r with seen := saturate 255 r.seen }) (fun _ => rfl)
    have hm := List.find?_some hr
    simp only [Record.matchesKey, Bool.and_eq_true, decide_eq_true_eq] at hm
    refine ⟨k.places, mem k.records, fun _ => ?_, ?_, ?_⟩
    · obtain ⟨y, hy, e⟩ := mem k.records r (List.mem_of_find?_eq_some hr)
      exact ⟨y, hy, e.trans hm.1.2⟩
    · simp [State.modRecord]
    · simp [State.modRecord]
  · split
    · dsimp only
      have k := s.addRecord_keepsPlaces f
      have hr : ({ s with dfl := { s.dfl with
        records := s.dfl.records ++ [s.newRecord f], nextId := nextIdAfter (s.newRecord f).id } } : State).dfl.records
          = s.dfl.records ++ [s.newRecord f] := rfl
      have hc : ({ s with dfl := { s.dfl with
        records := s.dfl.records ++ [s.newRecord f], nextId := nextIdAfter (s.newRecord f).id } } : State).cat
          = s.cat := rfl
      generalize ({ s with dfl := { s.dfl with
        records := s.dfl.records ++ [s.newRecord f], nextId := nextIdAfter (s.newRecord f).id } } : State) = w
          at k hr hc
      have hl := congrArg List.length k.records
      simp only [List.length_map, hr, List.length_append, List.length_singleton] at hl
      refine ⟨fun p vol a => by rw [k.places, hc], fun x hx => mem k.records x (by rw [hr]; simp [hx]),
        fun _ => mem k.records (s.newRecord f) (by rw [hr]; simp), by omega, by omega⟩
    · exact ⟨fun _ _ _ => rfl, fun x hx => ⟨x, hx, rfl⟩, fun h => absurd rfl h, Nat.le_refl _, Nat.le_succ _⟩

/-- A finding is refused only by a full list (R104). -/
theorem State.takeFinding_room {s : State} (f : Finding) (h : s.dfl.records.length < Config.defectCapacity) :
    (s.takeFinding f).1 ≠ .full := by
  unfold State.takeFinding
  split
  · simp
  · rw [if_pos h]; simp

/-- A full list refuses a finding of which no record waits (R104). -/
theorem State.takeFinding_refused {s : State} {f : Finding} (h : Config.defectCapacity ≤ s.dfl.records.length)
    (hn : ∀ x ∈ s.dfl.records, x.place = f.place → x.state.terminal = true ∨ ∃ b, f.place = .block b) :
    s.takeFinding f = (.full, s) := by
  unfold State.takeFinding
  split
  · next r hr =>
    have hm := List.find?_some hr
    simp only [Record.matchesKey, Bool.and_eq_true, decide_eq_true_eq] at hm
    rcases hn r (List.mem_of_find?_eq_some hr) hm.1.2 with e | ⟨b, e⟩
    · simp [e] at hm
    · simp [e, Place.hasKey] at hm
  · rw [if_neg (Nat.not_lt.mpr h)]

/-! ### The settling of a verify read (R82) -/

theorem State.verifyPlace_congr {s t : State} {j k : Job}
    (h : ∀ p vol a, t.cat.flatMap (entryPlaces p vol a) = s.cat.flatMap (entryPlaces p vol a))
    (hv : k.volume = j.volume) (hp : k.port = j.port) (a : Nat) : t.verifyPlace k a = s.verifyPlace j a := by
  unfold State.verifyPlace
  rw [hv, hp]
  split
  · rfl
  · rw [h]

/-- The place of a block (R81): in the area of a copy of the volume that names the port, or the block itself where
there is no such copy. -/
theorem State.verifyPlace_spec {s : State} {j : Job} {vol : VolumeId} {n : Nat} (hv : j.volume = some (vol, n))
    (a : Nat) :
    let mine (e : Entry) (k : CopyId) (c : CopyDesc) : Prop :=
      e ∈ s.cat ∧ e.copy k = some c ∧ c.port = j.port ∧ c.volumeId = vol
    let inFrames (e : Entry) (c : CopyDesc) : Prop := c.firstFrameBlock ≤ a ∧
      a ≤ c.firstFrameBlock + e.frameCount * blocksPerFrame e.frameBytes - 1
    let inManifests (e : Entry) (c : CopyDesc) : Prop := c.manifestBlock ≤ a ∧
      a ≤ c.manifestBlock + manifestLength e.frameCount - 1
    match s.verifyPlace j a with
    | .frame reel k f => ∃ e c, mine e k c ∧ e.reel = reel ∧ inFrames e c ∧
        f = (a - c.firstFrameBlock) / blocksPerFrame e.frameBytes
    | .manifest reel k m => ∃ e c, mine e k c ∧ e.reel = reel ∧ inManifests e c ∧ m = a - c.manifestBlock
    | .block b => b = a ∧ ∀ e k c, mine e k c → ¬ inFrames e c ∧ ¬ inManifests e c := by
  intro mine inFrames inManifests
  have hpl : s.verifyPlace j a = (s.cat.flatMap (entryPlaces j.port vol a)).headD (.block a) := by
    simp [State.verifyPlace, hv]
  rw [hpl]
  rcases hl : s.cat.flatMap (entryPlaces j.port vol a) with _ | ⟨pl, rest⟩
  · refine ⟨rfl, fun e k c hm => ?_⟩
    have hnil : entryPlaces j.port vol a e = [] := by
      have := List.flatMap_eq_nil_iff.mp hl e hm.1
      exact this
    unfold entryPlaces at hnil
    have hk := List.flatMap_eq_nil_iff.mp hnil k (by cases k <;> simp)
    simp only [hm.2.1, hm.2.2.1, hm.2.2.2, and_self, if_true] at hk
    split at hk
    · simp at hk
    · next h1 =>
      split at hk
      · simp at hk
      · next h2 => exact ⟨h1, h2⟩
  · have hm : pl ∈ s.cat.flatMap (entryPlaces j.port vol a) := by rw [hl]; simp
    obtain ⟨e, he, hpe⟩ := List.mem_flatMap.mp hm
    unfold entryPlaces at hpe
    obtain ⟨k, _, hk⟩ := List.mem_flatMap.mp hpe
    rw [List.headD_cons]
    split at hk
    · simp at hk
    · next c hc =>
      split at hk
      · next hpv =>
        split at hk
        · next h1 =>
          rw [List.mem_singleton] at hk
          subst hk
          exact ⟨e, c, ⟨he, hc, hpv.1, hpv.2⟩, rfl, h1, rfl⟩
        · split at hk
          · next h2 =>
            rw [List.mem_singleton] at hk
            subst hk
            exact ⟨e, c, ⟨he, hc, hpv.1, hpv.2⟩, rfl, h2, rfl⟩
          · simp at hk
      · simp at hk

/-- A verify read with room for all its findings is settled whole (R82). -/
theorem State.settleVerify_room (fuel : Nat) : ∀ (s : State) (i : SlotId) (j : Job) (st : Settling),
    s.slot i = some j → j.settling = some st → st.remaining.length < fuel →
    s.dfl.records.length + st.remaining.length ≤ Config.defectCapacity →
    let v := State.settleVerify fuel s i
    v.slot i = some (j.settled st.total) ∧
      (∀ a ∈ st.remaining, ∃ x ∈ v.dfl.records, x.place = s.verifyPlace j (j.cursor + a)) ∧
      (∀ x ∈ s.dfl.records, ∃ y ∈ v.dfl.records, y.place = x.place) ∧
      s.dfl.records.length ≤ v.dfl.records.length ∧
      v.dfl.records.length ≤ s.dfl.records.length + st.remaining.length ∧
      (∀ p, (v.port p).yld = (s.port p).yld) := by
  induction fuel with
  | zero => intro s i j st _ _ h; simp at h
  | succ n ih =>
    intro s i j st hj hs hf hr v
    obtain ⟨remaining, total⟩ := st
    have hv : v = State.settleVerify (n + 1) s i := rfl
    unfold State.settleVerify at hv
    rw [hj] at hv
    dsimp only at hv
    rw [hs] at hv
    dsimp only at hv
    cases remaining with
    | nil =>
      rw [State.modJob_of_slot hj] at hv
      rw [hv]
      exact ⟨State.slot_setSlot_same _ _ _, by simp, fun x hx => ⟨x, hx, rfl⟩, Nat.le_refl _, Nat.le_refl _,
        fun _ => rfl⟩
    | cons o rest =>
      dsimp only at hv
      generalize hleft : s.stillRemaining j (s.verifyFinding j o).place rest = left at hv
      have hll : left.length ≤ rest.length := by
        rw [← hleft]; exact List.length_filter_le _ _
      rw [State.modJob_of_slot hj] at hv
      generalize hs1 : s.setSlot i (some { j with settling := some ⟨left, total⟩ }) = s1 at hv
      have hj1 : s1.slot i = some { j with settling := some ⟨left, total⟩ } := by
        rw [← hs1]; exact State.slot_setSlot_same _ _ _
      have hd1 : s1.dfl = s.dfl := by rw [← hs1]; rfl
      have hc1 : s1.cat = s.cat := by rw [← hs1]; rfl
      have hp1 : ∀ p, s1.port p = s.port p := fun p => by rw [← hs1]; rfl
      simp only [List.length_cons] at hf hr
      have nf := State.takeFinding_room (s := s1) (s.verifyFinding j o) (by rw [hd1]; omega)
      obtain ⟨tc, tr, tn, tl, tu⟩ := s1.takeFinding_places (s.verifyFinding j o)
      have ts := s1.takeFinding_slot (s.verifyFinding j o) i
      have tp := fun p => (s1.takeFinding_port (s.verifyFinding j o) p).yld
      generalize s1.takeFinding (s.verifyFinding j o) = x at hv nf tc tr tn tl tu ts tp
      obtain ⟨ans, s2⟩ := x
      have hv2 : v = State.settleVerify n s2 i := by
        rw [hv]
        cases ans
        · rfl
        · rfl
        · exact absurd rfl nf
      dsimp only at tc tr tn tl tu ts tp
      rw [hd1] at tl tu
      obtain ⟨a1, a2, a3, a4, a5, a6⟩ := ih s2 i { j with settling := some ⟨left, total⟩ } ⟨left, total⟩
        (ts.trans hj1) rfl (by dsimp only; omega) (by dsimp only; omega)
      have pc : ∀ a, s2.verifyPlace { j with settling := some ⟨left, total⟩ } a = s.verifyPlace j a := fun a =>
        State.verifyPlace_congr (fun p vol b => by rw [tc, hc1]) rfl rfl a
      rw [hv2]
      obtain ⟨y0, hy0, ey0⟩ := tn nf
      obtain ⟨z0, hz0, ez0⟩ := a3 y0 hy0
      refine ⟨a1, fun a ha => ?_, fun x hx => ?_, by omega, ?_, fun p => by rw [a6, tp, hp1]⟩
      · rcases List.mem_cons.mp ha with rfl | ha
        · exact ⟨z0, hz0, ez0.trans ey0⟩
        · by_cases hm : a ∈ left
          · obtain ⟨x, hx, ex⟩ := a2 a hm
            exact ⟨x, hx, ex.trans (pc _)⟩
          · have hsame : s.verifyPlace j (j.cursor + a) = s.verifyPlace j (j.cursor + o) := by
              by_contra hne
              refine hm ?_
              rw [← hleft]
              refine List.mem_filter.mpr ⟨ha, ?_⟩
              simp [State.verifyFinding, hne]
            exact ⟨z0, hz0, by rw [ez0, ey0, hsame]; rfl⟩
      · obtain ⟨y, hy, ey⟩ := tr x (by rw [hd1]; exact hx)
        obtain ⟨z, hz, ez⟩ := a3 y hy
        exact ⟨z, hz, ez.trans ey⟩
      · simp only [List.length_cons]
        dsimp only at a5
        omega

/-- A verify read whose next finding meets a full list stalls (R82, R84). -/
theorem State.settleVerify_full {fuel : Nat} {s : State} {i : SlotId} {j : Job} {a total : Nat} {rest : List Nat}
    (hj : s.slot i = some j) (hs : j.settling = some ⟨a :: rest, total⟩)
    (hl : Config.defectCapacity ≤ s.dfl.records.length)
    (hn : ∀ x ∈ s.dfl.records, x.place = s.verifyPlace j (j.cursor + a) →
      x.state.terminal = true ∨ ∃ b, s.verifyPlace j (j.cursor + a) = .block b) :
    let left := s.stillRemaining j (s.verifyPlace j (j.cursor + a)) rest
    State.settleVerify (fuel + 1) s i =
      (s.setSlot i (some { j with settling := some ⟨left, total⟩ })).stallJob i (s.verifyFinding j a) := by
  intro left
  have e : State.takeFinding (s.setSlot i (some { j with settling := some ⟨left, total⟩ }))
      (s.verifyFinding j a) = (.full, _) := State.takeFinding_refused hl hn
  conv_lhs => unfold State.settleVerify
  rw [hj]
  dsimp only
  rw [hs]
  dsimp only
  rw [State.modJob_of_slot hj]
  have p : s.stillRemaining j (s.verifyFinding j a).place rest = left := rfl
  rw [p, e]

/-- What a verify does with the outcome of its read (R80, R82). -/
theorem State.readOutcome_verify {s : State} {i : SlotId} {j : Job} (o : DriveOutcome) (hj : s.slot i = some j)
    (ht : j.target = none) : s.readOutcome i o = s.verifyOutcome i o := by
  simp [State.readOutcome, hj, ht]

/-- A verify read with unrecovered blocks and room for their findings (R82): each block's place has a record, the read
is counted, and the job is at a boundary. -/
theorem State.verifyOutcome_room {s : State} {i : SlotId} {j : Job} {o : DriveOutcome} {e : Nat}
    (hj : s.slot i = some j) (hr : j.state = .running) (he : j.rangeEnd = some e) (ho : o.status = .mediumError)
    (hl : s.dfl.records.length + o.offsets.length ≤ Config.defectCapacity) :
    ∃ v : State, s.verifyOutcome i o = v.boundary i ∧
      v.slot i = some { j with
        blocksRead := j.blocksRead + min 256 (e + 1 - j.cursor)
        blocksUnreadable := j.blocksUnreadable + o.offsets.length
        cursor := j.cursor + min 256 (e + 1 - j.cursor), settling := none } ∧
      (∀ a ∈ o.offsets, ∃ x ∈ v.dfl.records, x.place = s.verifyPlace j (j.cursor + a)) ∧
      s.dfl.records.length ≤ v.dfl.records.length ∧
      v.dfl.records.length ≤ s.dfl.records.length + o.offsets.length := by
  have h1 : (s.setSlot i (some { j with settling := some ⟨o.offsets, o.offsets.length⟩ })).slot i
      = some { j with settling := some ⟨o.offsets, o.offsets.length⟩ } := State.slot_setSlot_same _ _ _
  obtain ⟨a1, a2, _, a4, a5, _⟩ := State.settleVerify_room (o.offsets.length + 1)
    (s.setSlot i (some { j with settling := some ⟨o.offsets, o.offsets.length⟩ })) i _
    ⟨o.offsets, o.offsets.length⟩ h1 rfl (Nat.lt_succ_self _) hl
  generalize hv : State.settleVerify (o.offsets.length + 1)
    (s.setSlot i (some { j with settling := some ⟨o.offsets, o.offsets.length⟩ })) i = v at a1 a2 a4 a5
  refine ⟨v, ?_, ?_, a2, a4, a5⟩
  · unfold State.verifyOutcome
    simp only [ho, State.modJob_of_slot hj, hv, a1]
    exact if_pos hr
  · exact a1.trans (congrArg some (Job.settled_eq
      (j := { j with settling := some ⟨o.offsets, o.offsets.length⟩ }) he _))

/-- A verify read whose first finding meets a full list (R82, R84). -/
theorem State.verifyOutcome_full {s : State} {i : SlotId} {j : Job} {o : DriveOutcome} {a : Nat} {rest : List Nat}
    (hj : s.slot i = some j) (ho : o.status = .mediumError) (hs : o.offsets = a :: rest)
    (hl : Config.defectCapacity ≤ s.dfl.records.length)
    (hn : ∀ x ∈ s.dfl.records, x.place = s.verifyPlace j (j.cursor + a) →
      x.state.terminal = true ∨ ∃ b, s.verifyPlace j (j.cursor + a) = .block b) :
    let left := s.stillRemaining j (s.verifyPlace j (j.cursor + a)) rest
    s.verifyOutcome i o =
      (s.setSlot i (some { j with settling := some ⟨left, o.offsets.length⟩ })).stallJob i (s.verifyFinding j a) := by
  intro left
  have h1 : (s.setSlot i (some { j with settling := some ⟨a :: rest, o.offsets.length⟩ })).slot i
      = some { j with settling := some ⟨a :: rest, o.offsets.length⟩ } := State.slot_setSlot_same _ _ _
  have h2 := State.settleVerify_full (fuel := o.offsets.length) h1 rfl hl hn
  have e2 : ∀ x y : Option Job, (s.setSlot i x).setSlot i y = s.setSlot i y := fun x y => by
    simp [State.setSlot]
  have h3 := State.stallJob_spec (s := s.setSlot i (some { j with settling := some ⟨left, o.offsets.length⟩ }))
    (State.slot_setSlot_same _ _ _) (s.verifyFinding j a)
  unfold State.verifyOutcome
  simp only [ho, hs, State.modJob_of_slot hj]
  rw [← hs]
  dsimp only at h2
  rw [e2] at h2
  have h4 : State.settleVerify (o.offsets.length + 1)
      (s.setSlot i (some { j with settling := some ⟨o.offsets, o.offsets.length⟩ })) i
      = (s.setSlot i (some { j with settling := some ⟨left, o.offsets.length⟩ })).stallJob i (s.verifyFinding j a) := by
    rw [hs] at h2 ⊢
    exact h2
  rw [h4, h3.1]
  exact if_neg (by simp)

/-- A RUNNING verify with offsets left and room for their findings (R80 step 2, R82): the read is counted, and the
boundary goes on. -/
theorem State.verifyBoundary_room {s : State} {i : SlotId} {j : Job} {st : Settling} (hj : s.slot i = some j)
    (hk : j.kind = .volumeVerify) (hr : j.state = .running) (hy : (s.port j.port).yld = false)
    (hs : j.settling = some st) (hl : s.dfl.records.length + st.remaining.length ≤ Config.defectCapacity) :
    ∃ v : State, s.boundary i = v.boundary i ∧ v.slot i = some (j.settled st.total) := by
  obtain ⟨a1, _, _, _, _, a6⟩ := State.settleVerify_room (st.remaining.length + 1) s i j st hj hs
    (Nat.lt_succ_self _) hl
  generalize hv : State.settleVerify (st.remaining.length + 1) s i = v at a1 a6
  have hf : j.settlingFuel = st.remaining.length + 1 := by simp [Job.settlingFuel, hs]
  have hy' : (v.port j.port).yld = false := (a6 _).trans hy
  refine ⟨v, ?_, a1⟩
  have l : s.boundary i = v.verifyAdvance i (j.settled st.total) := by
    rw [State.boundary_verify hj hk]
    unfold State.verifyBoundary
    simp only [hy, Bool.false_eq_true, if_false, hf, hv, a1]
    exact if_pos hr
  have r : v.boundary i = v.verifyAdvance i (j.settled st.total) := by
    rw [State.boundary_verify a1 hk]
    unfold State.verifyBoundary
    have h0 : (j.settled st.total).settlingFuel = 0 := rfl
    have hp : (v.port (j.settled st.total).port).yld = false := hy'
    simp only [hp, Bool.false_eq_true, if_false, h0, State.settleVerify, a1]
    exact if_pos hr
  rw [l, r]

/-- A RUNNING verify whose next finding meets a full list stalls again (R80 step 2, R82, R84). -/
theorem State.verifyBoundary_full {s : State} {i : SlotId} {j : Job} {a total : Nat} {rest : List Nat}
    (hj : s.slot i = some j) (hk : j.kind = .volumeVerify) (hy : (s.port j.port).yld = false)
    (hs : j.settling = some ⟨a :: rest, total⟩) (hl : Config.defectCapacity ≤ s.dfl.records.length)
    (hn : ∀ x ∈ s.dfl.records, x.place = s.verifyPlace j (j.cursor + a) →
      x.state.terminal = true ∨ ∃ b, s.verifyPlace j (j.cursor + a) = .block b) :
    let left := s.stillRemaining j (s.verifyPlace j (j.cursor + a)) rest
    s.boundary i =
      (s.setSlot i (some { j with settling := some ⟨left, total⟩ })).stallJob i (s.verifyFinding j a) := by
  intro left
  have h2 := State.settleVerify_full (fuel := (a :: rest).length) hj hs hl hn
  have hf : j.settlingFuel = (a :: rest).length + 1 := by simp [Job.settlingFuel, hs]
  have h3 := State.stallJob_spec (s := s.setSlot i (some { j with settling := some ⟨left, total⟩ }))
    (State.slot_setSlot_same _ _ _) (s.verifyFinding j a)
  rw [State.boundary_verify hj hk]
  unfold State.verifyBoundary
  simp only [hy, Bool.false_eq_true, if_false, hf]
  rw [h2, h3.1]
  exact if_neg (by simp)

/-- A RUNNING verify that has read its last block is DONE (R80 step 3). -/
theorem State.boundary_verifyEnd {s : State} {i : SlotId} {j : Job} {e : Nat} (hj : s.slot i = some j)
    (hk : j.kind = .volumeVerify) (hr : j.state = .running) (hy : (s.port j.port).yld = false)
    (hs : j.settling = none) (he : j.rangeEnd = some e) (hc : e < j.cursor) :
    s.boundary i = s.finishJob i j := by
  rw [State.boundary_verify hj hk, State.verifyBoundary]
  simp [hy, Job.settlingFuel, hs, State.settleVerify, hj, hr, State.verifyAdvance, Job.pastEnd, he, hc]

/-- The read a RUNNING verify claims (R80 step 4). -/
theorem State.boundary_verifyClaim {s : State} {i : SlotId} {j : Job} {e : Nat} (hj : s.slot i = some j)
    (hk : j.kind = .volumeVerify) (hr : j.state = .running) (hy : (s.port j.port).yld = false)
    (hs : j.settling = none) (he : j.rangeEnd = some e) (hc : j.cursor ≤ e) :
    s.boundary i = s.placeJobClaim j.port ⟨.read .pass, j.cursor, min 256 (e + 1 - j.cursor)⟩ := by
  rw [State.boundary_verify hj hk, State.verifyBoundary]
  simp [hy, Job.settlingFuel, hs, State.settleVerify, hj, hr, State.verifyAdvance, Job.pastEnd, he,
    Nat.not_lt.mpr hc, Job.verifyBlocks]

/-- A scrub takes the outcome of its read as that of a frame where the manifest block of the cursor is loaded, and of
that block otherwise (R72, R74, R76). -/
theorem State.readOutcome_scrub {s : State} {i : SlotId} {j : Job} {t : Target} (o : DriveOutcome)
    (hj : s.slot i = some j) (ht : j.target = some t) :
    s.readOutcome i o = if j.manifestLoaded then s.frameOutcome i j t o else s.manifestOutcome i j t o := by
  simp [State.readOutcome, hj, ht]

end Sys2Proof.Machine
end

