-- ==== Sys2Proof/Laws/Requests.lean ====
section
/-! SUPPORT. The execution of a request (R170), replies, stall admission (R106), and operations over all ports. -/

namespace Sys2Proof.Machine

open Sys2Proof

/-! ### Replies (R166, R168) -/

/-- A reply touches the link alone. -/
theorem State.answer_eq (s : State) (st : Status) (p : List Byte) :
    s.answer st p = { s with link := s.link.formReply st p s.resetAsked } := rfl

@[simp] theorem State.answer_mode (s : State) (st : Status) (p : List Byte) : (s.answer st p).mode = s.mode := rfl
@[simp] theorem State.answer_cat (s : State) (st : Status) (p : List Byte) : (s.answer st p).cat = s.cat := rfl
@[simp] theorem State.answer_jbu (s : State) (st : Status) (p : List Byte) : (s.answer st p).jbu = s.jbu := rfl
@[simp] theorem State.answer_ports (s : State) (st : Status) (p : List Byte) : (s.answer st p).ports = s.ports := rfl
@[simp] theorem State.answer_port (s : State) (st : Status) (p : List Byte) (k : PortId) :
    (s.answer st p).port k = s.port k := rfl
@[simp] theorem State.answer_slot (s : State) (st : Status) (p : List Byte) (i : SlotId) :
    (s.answer st p).slot i = s.slot i := rfl
@[simp] theorem State.answer_dfl (s : State) (st : Status) (p : List Byte) : (s.answer st p).dfl = s.dfl := rfl
@[simp] theorem State.answer_rpu (s : State) (st : Status) (p : List Byte) : (s.answer st p).rpu = s.rpu := rfl
@[simp] theorem State.answer_pts (s : State) (st : Status) (p : List Byte) : (s.answer st p).pts = s.pts := rfl
@[simp] theorem State.answer_siu (s : State) (st : Status) (p : List Byte) : (s.answer st p).siu = s.siu := rfl
@[simp] theorem State.answer_pending (s : State) (st : Status) (p : List Byte) :
    (s.answer st p).pending = s.pending := rfl
@[simp] theorem State.answer_mask (s : State) (st : Status) (p : List Byte) : (s.answer st p).mask = s.mask := rfl
@[simp] theorem State.answer_autoRun (s : State) (st : Status) (p : List Byte) :
    (s.answer st p).autoRun = s.autoRun := rfl
@[simp] theorem State.answer_portsSet (s : State) (st : Status) (p : List Byte) :
    (s.answer st p).portsSet = s.portsSet := rfl

/-! ### The generic checks (R170) -/

/-- A request that RQH takes up, its generic checks passed, concludes with its own checks and action. -/
theorem State.runRequest_takes {s : State} {k : RequestKind} {r : Request} (h : s.Takes k r)
    (act : List Byte → State → Action) : s.runRequest k act = s.conclude (act r.payload s) := by
  have hm : s.mode ≠ .starting := fun e => by
    have := h.mode
    rw [e] at this
    cases k <;> simp [RequestKind.takenIn] at this
  unfold State.runRequest
  rw [h.front]
  simp only [h.kind, h.running, and_self, if_true]
  unfold State.runChecks
  simp [hm, h.length, h.mode]

/-- A request's own refusal changes nothing but the link's reply. -/
theorem State.runRequest_refuse {s : State} {k : RequestKind} {r : Request} (h : s.Takes k r)
    {act : List Byte → State → Action} {st : Status} (ha : act r.payload s = .refuse st) :
    s.runRequest k act = s.answer st [] := by
  rw [State.runRequest_takes h, ha]
  rfl

/-- A request's action, and then its reply. -/
theorem State.runRequest_perform {s : State} {k : RequestKind} {r : Request} (h : s.Takes k r)
    {act : List Byte → State → Action} {t : State} {st : Status} {p : List Byte}
    (ha : act r.payload s = .perform t st p) : s.runRequest k act = t.answer st p := by
  rw [State.runRequest_takes h, ha]
  rfl

/-- All that an execution of a request comes to: nothing, a refusal's reply, or its action and reply. -/
theorem State.runRequest_cases (s : State) (k : RequestKind) (act : List Byte → State → Action) :
    s.runRequest k act = s ∨ (∃ st, s.runRequest k act = s.answer st []) ∨
      ∃ r t st p, s.Takes k r ∧ act r.payload s = .perform t st p ∧ s.runRequest k act = t.answer st p := by
  unfold State.runRequest
  split
  · exact Or.inl rfl
  · next r hr =>
    split
    · next hk =>
      unfold State.runChecks
      split
      · exact Or.inr (Or.inl ⟨_, rfl⟩)
      · split
        · exact Or.inr (Or.inl ⟨_, rfl⟩)
        · next hl =>
          split
          · exact Or.inr (Or.inl ⟨_, rfl⟩)
          · next hm =>
            cases ha : act r.payload s with
            | refuse st => exact Or.inr (Or.inl ⟨st, rfl⟩)
            | perform t st p =>
              exact Or.inr (Or.inr ⟨r, t, st, p, ⟨hr, hk.1, by simpa using hl, by simpa using hm, hk.2⟩, ha, rfl⟩)
    · exact Or.inl rfl

/-! ### Every port at once -/

theorem State.port_foldPorts (f : PortId → Port → Port) (k : PortId) (l : List PortId) :
    ∀ s : State, l.Nodup → (l.foldl (fun t p => t.modPort p (f p)) s).port k =
      if k ∈ l then f k (s.port k) else s.port k := by
  induction l with
  | nil => intro s _; simp
  | cons p rest ih =>
    intro s hn
    obtain ⟨hp, hr⟩ := List.nodup_cons.mp hn
    rw [List.foldl_cons, ih _ hr]
    by_cases e : k = p
    · subst e
      simp [hp]
    · simp [e, State.port_modPort_ne s (f p) e]

/-- A port after every port is changed. -/
@[simp] theorem State.port_mapPorts (s : State) (f : PortId → Port → Port) (k : PortId) :
    (s.mapPorts f).port k = f k (s.port k) := by
  unfold State.mapPorts
  rw [State.port_foldPorts f k allPorts s (by decide), if_pos (mem_allPorts k)]

/-- Changing every port changes nothing but the ports. -/
theorem State.mapPorts_frame (s : State) (f : PortId → Port → Port) :
    s.mapPorts f = { s with ports := (s.mapPorts f).ports } := by
  unfold State.mapPorts
  generalize allPorts = l
  induction l generalizing s with
  | nil => rfl
  | cons p rest ih =>
    rw [List.foldl_cons, ih]
    rfl

/-! ### Stall admission (R84, R106) -/

/-- An admitted job goes on (R84). -/
theorem State.goOn_keeps (s : State) (x : SlotId × Finding) : s.Keeps (s.goOn x) := by
  unfold State.goOn
  split
  · exact State.Keeps.refl s
  · next j hj =>
    split
    · next hs =>
      dsimp only
      have ha : s.ActiveAt x.1 := ⟨j, hj, by simp [hs, JobState.active]⟩
      have hf : ∀ j : Job, ({ j.completeFinding x.2 with finding := none } : Job).port = j.port ∧
          ({ j.completeFinding x.2 with finding := none } : Job).state = j.state :=
        fun j => j.completeFinding_same x.2
      have k1 := s.modJob_keeps x.1 (fun j => { j.completeFinding x.2 with finding := none })
        (fun j _ => Job.Tame.same (hf j).1 (hf j).2)
      have a1 := ha.modJob (fun j => { j.completeFinding x.2 with finding := none }) (fun j _ => (hf j).2)
      generalize s.modJob x.1 (fun j => { j.completeFinding x.2 with finding := none }) = s1 at k1 a1
      split
      · exact (k1.trans (s1.enterWaiting_active_keeps x.1 _ a1)).trans (State.followUp_keeps _ _)
      · obtain ⟨l, hl, hact⟩ := a1
        have a2 : (s1.modJob x.1 (fun j => { j with state := .running })).ActiveAt x.1 :=
          ⟨{ l with state := .running }, by rw [State.slot_modJob_same, hl]; rfl, rfl⟩
        refine ((k1.trans (s1.modJob_keeps x.1 (fun j => { j with state := .running })
          (fun m hm => ?_))).trans (State.boundary_keeps _ x.1 a2)).trans (State.followUp_keeps _ _)
        rw [hl] at hm
        cases hm
        exact Job.Tame.ofActive rfl hact
    · exact State.Keeps.refl s

theorem State.foldGoOn_keeps (l : List (SlotId × Finding)) : ∀ s : State, s.Keeps (l.foldl State.goOn s) := by
  induction l with
  | nil => exact fun s => State.Keeps.refl s
  | cons x rest ih => exact fun s => (s.goOn_keeps x).trans (ih _)

/-- Admission's walk along the stall order (R106). -/
theorem State.admit_keeps (fuel : Nat) : ∀ (s : State) (told : List (SlotId × Finding)),
    s.Keeps (State.admitStalled fuel s told).1 := by
  induction fuel with
  | zero => exact fun s _ => State.Keeps.refl s
  | succ n ih =>
    intro s told
    unfold State.admitStalled
    split
    · exact State.Keeps.refl s
    · split
      · exact (s.leaveStall_keeps _).toKeeps.trans (ih _ _)
      · next f _ =>
        have k := s.takeFinding_keeps f
        split
        · next s1 e => rw [e] at k; exact k.toKeeps
        · next s1 e =>
          rw [e] at k
          exact (k.toKeeps.trans (State.leaveStall_keeps _ _).toKeeps).trans (ih _ _)
        · next s1 e =>
          rw [e] at k
          exact k.toKeeps.trans (State.leaveStall_keeps _ _).toKeeps

theorem State.admission_keeps (s : State) : s.Keeps s.admission := by
  unfold State.admission
  split
  · exact (State.admit_keeps _ s []).trans (State.foldGoOn_keeps _ _)
  · exact State.Keeps.refl s

/-! ### Locks, records and jobs put back -/

/-- A record put back (R112), but for the end of the step. -/
theorem State.retry_keeps (s : State) (id : Nat) (f : Record → Record) (b : Bool) :
    s.KeepsJobs (if b then rpuChoice (s.modRecord id f) else s.modRecord id f) := by
  cases b
  · exact s.modRecord_keeps id f
  · exact (s.modRecord_keeps id f).trans (rpuChoice_keeps _)

/-- A job resumed (R92). -/
theorem State.resume_keeps (s : State) (i : SlotId) (j : Job) (h : s.LiveAt i) : s.Keeps (s.resume i j) := by
  unfold State.resume
  have k := s.modJob_keeps i (fun j => { j with sinceResume := 0, resumedEver := true })
    (fun _ _ => Job.Tame.same rfl rfl)
  refine (k.trans (State.enterQueued_keeps _ i (fun l hl => ?_))).trans (State.followUp_keeps _ _)
  rw [State.slot_modJob_same] at hl
  obtain ⟨m, hm, rfl⟩ := Option.map_eq_some_iff.mp hl
  exact h m hm

/-- A job suspended (R90). -/
theorem State.suspend_keeps (s : State) (i : SlotId) (j : Job) (h : s.ActiveAt i) : s.Keeps (s.suspend i j) := by
  unfold State.suspend
  split
  · refine s.modJob_keeps i (fun j => { j with state := .suspending }) (fun l hl => ?_)
    obtain ⟨m, hm, a⟩ := h
    rw [hm] at hl
    cases hl
    exact Job.Tame.ofActive rfl a
  · have k := s.withdrawJob_keeps j
    refine (k.toKeeps.trans (State.modJob_keeps _ i (fun j => { j with state := .suspended })
      (fun l hl => ?_))).trans (State.followUp_keeps _ _)
    rw [k.slot] at hl
    exact Job.Tame.ofLive rfl (h.live l hl) rfl

/-- A job aborted (R93). -/
theorem State.abort_keeps (s : State) (i : SlotId) (j : Job) : s.Keeps (s.abort i j) :=
  (((s.withdrawJob_keeps j).toKeeps.trans (State.dropWork_keeps _ i)).trans
    (State.endJob_keeps _ _ _ _ rfl)).trans (State.followUp_keeps _ _)

/-! ### The end of a frame (R171) -/

theorem repliedFirst_drop {q : List Request} (h : repliedFirst q) : repliedFirst (q.drop 1) := by
  cases q with
  | nil => exact h
  | cons r rest => exact h.2

/-- The end of a frame keeps the link sound (R166, R171): an ordinary reply's request stands at the front. -/
theorem Link.Sound.frameSent {l : Link} (h : l.Sound) : l.frameSent.Sound := by
  unfold Link.frameSent
  split
  · exact h
  · next n e =>
    refine Link.Fit.transmit_sound ⟨h.framer, h.queue, h.overflow, h.notices, h.order, ?_⟩ h.posted
    have := h.owed
    simp only [Link.ordinaryOwed, e] at this ⊢
    exact this
  · next r e =>
    split
    · next hs =>
      have ho := h.owed
      simp only [Link.ordinaryOwed, e, hs, if_true] at ho
      cases hq : l.queue with
      | nil => rw [hq] at ho; simp at ho
      | cons x rest =>
        have hx : x.replied = true := by
          by_contra hx
          have hall := (hq ▸ h.order).1 (by simpa using hx)
          have : l.queue.countP (fun r => r.replied) = 0 := by
            rw [List.countP_eq_zero, hq]
            intro y hy
            rcases List.mem_cons.mp hy with e | e
            · rw [e]; exact hx
            · simp [hall y e]
          omega
        refine Link.Fit.transmit_sound ⟨h.framer, ?_, h.overflow, h.notices, ?_, ?_⟩ h.posted
        · have := h.queue
          rw [hq] at this
          simp only [List.drop_succ_cons, List.drop_zero, List.length_cons] at this ⊢
          omega
        · exact repliedFirst_drop (hq ▸ h.order)
        · rw [hq, List.countP_cons, if_pos hx] at ho
          simp only [Link.ordinaryOwed, List.drop_succ_cons, List.drop_zero]
          omega
    · next hs =>
      refine Link.Fit.transmit_sound ⟨h.framer, h.queue, h.overflow, h.notices, h.order, ?_⟩ h.posted
      have := h.owed
      simp only [Link.ordinaryOwed, e, hs] at this ⊢
      simpa using this

/-! ### Catalogue order (R22) -/

theorem mem_insertEntry (e x : Entry) (l : List Entry) : x ∈ insertEntry e l ↔ x = e ∨ x ∈ l := by
  induction l with
  | nil => simp [insertEntry]
  | cons y rest ih =>
    unfold insertEntry
    split
    · simp
    · simp only [List.mem_cons, ih]
      tauto

theorem insertEntry_length (e : Entry) (l : List Entry) : (insertEntry e l).length = l.length + 1 := by
  induction l with
  | nil => rfl
  | cons y rest ih =>
    unfold insertEntry
    split
    · rfl
    · simp [ih]

/-- An entry of a new reel number put in its place keeps the order (R22). -/
theorem ascending_insertEntry {e : Entry} {l : List Entry} (h : ascending l)
    (hn : ∀ x ∈ l, x.reel ≠ e.reel) : ascending (insertEntry e l) := by
  induction l with
  | nil => exact ⟨fun x hx => by simp at hx, trivial⟩
  | cons y rest ih =>
    unfold insertEntry
    split
    · next c =>
      refine ⟨fun x hx => ?_, h⟩
      rcases List.mem_cons.mp hx with e' | e'
      · rw [e']; exact c
      · exact Nat.lt_trans c (h.1 x e')
    · next c =>
      refine ⟨fun x hx => ?_, ih h.2 (fun x hx => hn x (List.mem_cons_of_mem _ hx))⟩
      rcases (mem_insertEntry e x rest).mp hx with e' | e'
      · rw [e']
        exact Nat.lt_of_le_of_ne (Nat.le_of_not_lt c) (hn y (by simp))
      · exact h.1 x e'

end Sys2Proof.Machine
end

