-- ==== Sys2Proof/WellFormed.lean ====
section
/-! DEFINITION. Which terms of `Instr` are commands the outside can send. -/

namespace Sys2Proof

/-- The length of the record that opens a drive reply: six bytes and two for each offset of its list, whose
length is the 2-byte field at offset 4 (Table 11-12, R192). -/
def replyRecordLength (reply : List Byte) : Nat :=
  6 + 2 * ((reply.getD 4 0#8).toNat + 256 * (reply.getD 5 0#8).toNat)

/-- The bytes of a whole drive reply (R41, Table 11-12): its record, and data of at most the 16,384 blocks of
the largest command (R40). -/
def driveReplyWf (reply : List Byte) : Bool :=
  decide (replyRecordLength reply ≤ reply.length)
    && decide (reply.length ≤ replyRecordLength reply + 16384 * Config.blockBytes)

/-- The received bytes of one RECEIVE_FRAME: at least one, and at most the 1,033 of the longest frame
(R163). -/
def rxBytesWf (bytes : List RxByte) : Bool :=
  decide (1 ≤ bytes.length) && decide (bytes.length ≤ 1033)

/-- The operands of a command lie in the ranges of the spec. Ports are typed, and the operands of a
request are judged by the part itself (R170). -/
def Instr.wf : Instr → Bool
  | .receiveFrame bytes => rxBytesWf bytes
  | .driveReply _ reply => driveReplyWf reply
  | .powerOnResetAssert | .powerOnResetRelease | .resetPinAssert | .resetPinRelease | .startUpEnd
  | .badByteInHunt | .gapTimerExpiry | .frameSent | .unknownRequest | .identify | .status | .setMode
  | .setTime | .setNotices | .reset | .portConfig | .portStatus | .portOnline | .marginRead | .addReel
  | .editReel | .removeReel | .readReel | .listReels | .freezeReel | .lockReel | .unlockReel
  | .lockAll | .unlockAll | .convert | .startScrub | .startVerify | .suspendJob | .resumeJob
  | .abortJob | .jobStatus | .setPatrol | .readDefects | .removeDefect | .retryDefect | .store
  | .restoreFactory | .storeEnds _ | .minuteExpiry | .commandTimeout _ | .readyRise _ | .readyFall _
  | .mediaRise _ | .mediaFall _ | .wprotRise _ | .wprotFall _ | .faultRise _ | .faultFall _
  | .gntRise _ | .gntFall _ | .yldRise _ | .yldFall _ => true

end Sys2Proof
end

