-- ==== Sys2Proof/Tests/Slice0.lean ====
section
/-! SUPPORT. The model's own tests: ill-formed commands refused, the manual's worked values, and for every obligation
with hypotheses a concrete state that meets them. -/

namespace Sys2Proof.Tests

open Sys2Proof Sys2Proof.Machine

set_option Elab.async false

/-! ### Well-formedness -/

/-- A reply whose bytes end within its record is no whole reply. -/
theorem test_shortReplyRefused :
    (Instr.driveReply 0 []).wf = false ∧ (Instr.driveReply 0 [0#8, 0#8, 0#8, 0#8, 0#8]).wf = false ∧
      (Instr.driveReply 0 [0#8, 0#8, 0#8, 0#8, 1#8, 0#8, 7#8]).wf = false := by decide

/-- A reply with more data than the largest command asks for is no reply. -/
theorem test_longDataRefused (n : Nat) (h : 67108864 < n) :
    (Instr.driveReply 0 ([0#8, 0#8, 0#8, 0#8, 0#8, 0#8] ++ List.replicate n 0#8)).wf = false := by
  simp only [Instr.wf, driveReplyWf, replyRecordLength, Config.blockBytes, Bool.and_eq_false_iff,
    decide_eq_false_iff_not, List.length_append, List.length_replicate, List.length_cons, List.length_nil]
  right
  show ¬ 0 + 1 + 1 + 1 + 1 + 1 + 1 + n ≤ 6 + 2 * (0 + 256 * 0) + 16384 * 4096
  omega

theorem test_noBytesRefused : (Instr.receiveFrame []).wf = false := by decide

theorem test_tooManyBytesRefused (n : Nat) (h : 1033 < n) :
    (Instr.receiveFrame (List.replicate n ⟨0#8, true⟩)).wf = false := by
  simp only [Instr.wf, rxBytesWf, List.length_replicate, Bool.and_eq_false_iff, decide_eq_false_iff_not]
  omega

theorem test_ordinaryCommandsWellFormed :
    (Instr.receiveFrame [⟨0xA5#8, true⟩]).wf = true ∧ (Instr.driveReply 7 [0#8, 2#8, 0#8, 0#8, 0#8, 0#8]).wf = true ∧
      Instr.identify.wf = true := by decide

/-! ### Small states -/

/-- The part in RUN after a start-up, with the control link idle and no notice enabled but STARTUP. -/
def base : State := { State.reset with mode := .run, portsSet := true, mask := 0x01#8 }

/-- A request as the input queue holds it. -/
def request (k : RequestKind) (p : List Byte) : Request := ⟨BitVec.ofNat 8 k.code, 7#8, p, false⟩

/-- A state with one request waiting. -/
def withRequest (s : State) (k : RequestKind) (p : List Byte) : State :=
  { s with link := { s.link with queue := [request k p] } }

/-- Every request kind is taken up in the modes of Table 9-7. -/
theorem takes (s : State) (k : RequestKind) (p : List Byte) (hl : p.length = k.length)
    (hm : k.takenIn s.mode = true) (hr : s.resetAsked = false) :
    (withRequest s k p).Takes k (request k p) :=
  ⟨rfl, by cases k <;> rfl, hl, hm, hr⟩

/-- The state a command leaves, or the state before where it leaves none. -/
def after (c : Instr) (s : State) : State :=
  match exec c s with
  | .next t => t
  | _ => s

/-- Status and payload of the reply that a command puts on the transmitter. -/
def replyTo (c : Instr) (s : State) : Option (Status × List Byte) :=
  match (after c s).link.sending with
  | some (.reply r) => some (r.status, r.payload)
  | _ => none

/-- The reply to a request of a kind with a payload. -/
def ask (s : State) (k : RequestKind) (p : List Byte) : Option (Status × List Byte) :=
  replyTo k.command (withRequest s k p)

/-- The status of that reply. -/
def statusOf (s : State) (k : RequestKind) (p : List Byte) : Option Status := (ask s k p).map (·.1)

/-- Copy A of the small reel: P1, frames from block 100, manifest at block 10. -/
def copy1A : CopyDesc := ⟨1, 0x711#32, 100, 10, none, 0, 0⟩

/-- Copy B of the small reel: P6. -/
def copy1B : CopyDesc := ⟨6, 0x766#32, 50, 2050, none, 0, 0⟩

/-- A reel of three one-block frames at F25. -/
def reel1 : Entry :=
  { reel := 1, name := [0x41#8], rate := .f25, start := ⟨0#8, 0#8, 0#8, 0#8⟩, frameCount := 3,
    frameBytes := 4096, intervalDays := 30, frozen := false, copyA := copy1A, copyB := some copy1B,
    locked := false }

/-- A port with its volume mounted. -/
def mounted (v : VolumeId) : Port :=
  { Port.cleared with lines := ⟨true, true, false, false⟩, volume := .mounted v 5000 }

/-- The small reel on P1 and P6. -/
def shelf : State :=
  (({ base with cat := [reel1] } : State).setPort 1 (mounted 0x711#32)).setPort 6 (mounted 0x766#32)

/-- The same in SETUP. -/
def shelfSetup : State := { shelf with mode := .setup }

/-- A RANGE_SCRUB of the reel's copy A, RUNNING, with a manifest loaded. -/
def scrub : Job :=
  { newJob 1 .rangeScrub .requested (some ⟨1, .a⟩) 1 0 (some 2) with
    state := .running, manifest := some ⟨0, [0x10001#32, 5#32, 6#32]⟩, sequence := 1 }

/-- The claim of that scrub's first frame. -/
def frameClaim : Claim := ⟨.read (.frame 2), 100, 1⟩

/-- The shelf with the scrub active on P1 and its frame read outstanding. -/
def reading : State :=
  (shelf.setSlot 0 (some scrub)).setPort 1 { mounted 0x711#32 with
    grant := .granted, req := true, gnt := true
    outstanding := some ⟨frameClaim, false, some .job, 100⟩, engine := DigestEngine.start (.frame 2) }

/-- A MISMATCH record of the small reel. -/
def record1 : Record :=
  ⟨1, .mismatch, .pending, 1, .frame 1 .a 0, some 5#32, some 6#32, .requested, 1, 0, none, none⟩

/-- The shelf with that record. -/
def listed (x : Record) : State := { shelf with dfl := ⟨[x], [], 2⟩ }

/-- A READ reply of one block of zeros. -/
def zeroReply : DriveReply := ⟨0#8, 0#8, 0, [], List.replicate 4096 0#8⟩

/-- A reply of this status alone. -/
def bare (status : Byte) : DriveReply := ⟨0#8, status, 0, [], []⟩

/-! ### The machine -/

theorem test_idle_hypotheses :
    (base.pending = [] ∧ base.mode ≠ .starting) ∧
    (State.reset.pending = [] ∧ State.reset.mode = .starting ∧ State.reset.resetHeld = false ∧
      State.reset.portsSet = false) := by decide

/-- Start-up from the state after reset, step by step: the ports are set, and with a blank image the part enters SETUP
and announces itself. -/
theorem test_startUpFromReset :
    (after .startUpEnd State.reset).mode = .setup ∧ (after .startUpEnd State.reset).portsSet = true ∧
      (after .startUpEnd State.reset).link.sending = some (.notice (startUpNotice
        { State.reset.startUpLoad with mode := .setup })) := by decide +kernel

/-- A state with a port OFFLINE, a job active, a record held and a request answered: every invariant holds in it, and a
step is taken from it. -/
def busy : State :=
  { (reading.setPort 2 { Port.cleared with state := .offline, cause := some .fault }) with
    dfl := ⟨[record1], [], 2⟩
    link := { Link.cleared with
      queue := [⟨1#8, 1#8, [], true⟩, ⟨2#8, 2#8, [], false⟩]
      sending := some (.reply ⟨.ordinary, 0x81#8, 1#8, .ok, [], false⟩) } }

theorem test_soundWitness : busy.Sound ∧ ∃ t, step busy = .next t := by
  have only : ∀ i j, busy.slot i = some j → i = 0 := by
    have h : ∀ i : SlotId, (busy.slot i).isSome = true → i = 0 := by decide +kernel
    intro i j hj
    exact h i (by rw [hj]; rfl)
  refine ⟨⟨⟨trivial, by decide, by decide, by decide, ?_, by decide, ?_, rfl⟩, ?_, ?_, ?_, ⟨by decide, ?_⟩,
    ⟨by decide, by decide, ?_⟩, ⟨by decide, fun _ => rfl⟩, ?_⟩, _, rfl⟩
  · exact ⟨fun h => by simp at h, fun _ x hx => by simp at hx, trivial⟩
  · intro h; simp [busy] at h
  · intro p hp
    have h : ∀ p : PortId, (busy.port p).state = .offline → p = 2 := by decide +kernel
    rw [h p hp]
    exact ⟨by decide +kernel, by decide +kernel, by decide +kernel, by decide +kernel⟩
  · intro i k j l hi hk _ _ _
    rw [only i j hi, only k l hk]
  · intro h; exact absurd rfl h
  · intro h; exact absurd rfl h
  · exact ⟨fun x hx => by simp at hx, trivial⟩
  · intro j hj; simp [busy, reading, shelf, base, State.setPort, State.setSlot, State.reset] at hj

/-! ### The control link -/

/-- The frame of a STATUS request with tag 0x2A, as R163 lays it out: start byte, length 2, body, and the digest of the
body, `S1 = 1 + 0x2A02 = 0x2A03` and `S2` the same. -/
def statusFrame : List RxByte :=
  received [0xA5#8, 2#8, 0#8, 0x02#8, 0x2A#8, 0x03#8, 0x2A#8, 0x03#8, 0x2A#8]

theorem test_statusFrameTaken :
    (after (.receiveFrame statusFrame) base).link.queue = [⟨2#8, 0x2A#8, [], false⟩] ∧
      received (frameOf [2#8, 0x2A#8]) = statusFrame ∧ base.resetHeld = false ∧
      base.link.framer = .hunt := by decide +kernel

theorem test_badFrames :
    unle [0#8, 0#8, 0#8, 0#8] ≠ (digest [2#8, 0#8]).toNat ∧
      (after (.receiveFrame (received ([0xA5#8, 2#8, 0#8, 2#8, 0#8] ++ [0#8, 0#8, 0#8, 0#8]))) base).link.linkError
        = true ∧
      ∀ n ∈ [0, 1, 1027, 65535], (after (.receiveFrame (received (0xA5#8 :: le 2 n))) base).link
        = { base.link with linkError := true } := by decide +kernel

theorem test_receiveErrors :
    (after .badByteInHunt base).link.linkError = true ∧
      (after .gapTimerExpiry { base with link := { base.link with framer := .length [] } }).link
        = { base.link with linkError := true } ∧
      (after .gapTimerExpiry base) = base ∧
      ({ base with supplyLow := true }).resetHeld = true := by decide +kernel

/-- A link with `n` requests and `m` overflow replies waiting, and a frame being sent. -/
def loaded (n m : Nat) : Link :=
  { Link.cleared with
    queue := List.replicate n ⟨1#8, 1#8, [], false⟩
    replies := List.replicate m (overflowReply 1#8 1#8)
    sending := some (.notice ⟨.startup, []⟩) }

theorem test_table93 :
    ((loaded 3 0).queue.length < 4 ∧ ((loaded 3 0).takeRequest 2#8 9#8 []).queue.length = 4) ∧
    (4 ≤ (loaded 4 7).queue.length ∧ (loaded 4 7).overflowWaiting < 8 ∧ (loaded 4 7).sending ≠ none ∧
      ((loaded 4 7).takeRequest 2#8 9#8 []).overflowWaiting = 8) ∧
    (8 ≤ (loaded 4 8).overflowWaiting ∧ ((loaded 4 8).takeRequest 2#8 9#8 []).linkError = true) ∧
    (({ loaded 4 0 with sending := none } : Link).takeRequest 2#8 9#8 []).sending
      = some (.reply ⟨.overflow, 0x82#8, 9#8, .busy, [], false⟩) := by decide

theorem test_replyFormed :
    (loaded 1 0).nextRequest = some ⟨1#8, 1#8, [], false⟩ ∧
      ((loaded 1 0).formReply .ok [3#8] false).replies = [⟨.ordinary, 0x81#8, 1#8, .ok, [3#8], false⟩] ∧
      (({ loaded 1 0 with sending := none } : Link).formReply .frozen [3#8] false).sending
        = some (.reply ⟨.ordinary, 0x81#8, 1#8, .frozen, [], false⟩) := by decide

/-- A state whose link is this. -/
def linked (l : Link) : State := { base with link := l }

theorem test_frameSent :
    (after .frameSent (linked (loaded 1 1))).link.sending = some (.reply (overflowReply 1#8 1#8)) ∧
    (after .frameSent (linked { loaded 1 0 with notices := [⟨.margin, []⟩] })).link.sending
      = some (.notice ⟨.margin, []⟩) ∧
    (after .frameSent (linked (loaded 1 0))).link.sending = none ∧
    (loaded 1 0).sendingResets = false ∧
    (after .frameSent (linked { loaded 1 0 with
      queue := [⟨1#8, 1#8, [], true⟩, ⟨2#8, 2#8, [], false⟩]
      sending := some (.reply ⟨.ordinary, 0x81#8, 1#8, .ok, [], false⟩) })).link.queue
        = [⟨2#8, 2#8, [], false⟩] := by decide

theorem test_noticesQueued :
    (base.mode ≠ .starting ∧ base.mask.getLsbD NoticeKind.margin.index = false ∧
      base.mask.getLsbD NoticeKind.startup.index = true ∧ State.reset.mode = .starting) ∧
    (let l : Link := { loaded 0 0 with notices := List.replicate 31 ⟨.margin, []⟩ };
      l.notices.length < 32 ∧ (l.enqueueNotice ⟨.startup, []⟩).notices.length = 32 ∧
        ((l.enqueueNotice ⟨.startup, []⟩).enqueueNotice ⟨.margin, []⟩).noticesLost = true) ∧
    (Link.cleared.enqueueNotice ⟨.margin, []⟩).sending = some (.notice ⟨.margin, []⟩) ∧
    (linked { Link.cleared with posted := [⟨.margin, []⟩, ⟨.startup, []⟩] }).link.posted
      = [⟨.margin, []⟩, ⟨.startup, []⟩] := by decide

/-! ### Generic checks and requests on the part -/

theorem test_genericChecks :
    (statusOf { base with mode := .starting } .status [] = some .busy) ∧
    (statusOf base .setTime [0#8] = some .badLength) ∧
    (statusOf base .portConfig (List.replicate 9 0#8) = some .wrongMode) ∧
    (∀ kind ∈ [0#8, 0x22#8, 0xFF#8],
      replyTo .unknownRequest (linked { Link.cleared with queue := [⟨kind, 1#8, [], false⟩] })
        = some (.unknownRequest, [])) ∧
    (after .status base = base) ∧
    (after .status { withRequest base .status [] with resetAsked := true }
      = { withRequest base .status [] with resetAsked := true }) ∧
    after .identify (withRequest base .status []) = withRequest base .status [] := by decide +kernel

theorem test_partRequests_taken :
    (withRequest base .identify []).Takes .identify (request .identify []) ∧
      (withRequest base .status []).Takes .status (request .status []) ∧
      (withRequest base .setNotices [0xF0#8]).Takes .setNotices (request .setNotices [0xF0#8]) ∧
      (withRequest base .reset []).Takes .reset (request .reset []) :=
  ⟨takes _ _ _ rfl rfl rfl, takes _ _ _ rfl rfl rfl, takes _ _ _ rfl rfl rfl, takes _ _ _ rfl rfl rfl⟩

/-- IDENTIFY and SET_NOTICES, and STATUS of the part just started (11.6): RUN, no flag, all counts 0, 16 free slots. -/
theorem test_partRequests :
    ((ask base .identify []).map (fun x => x.2.take 8) = some [0x53#8, 0x43#8, 0x38#8, 32#8, 32#8, 32#8, 32#8, 32#8]) ∧
    (ask base .setNotices [0xF0#8] = some (.ok, [0xF1#8])) ∧
    ((ask base .status []).map (fun x => x.2.take 15) = some
      [2#8, 0#8, 0#8, 0#8, 0#8, 0#8, 0#8, 0#8, 0#8, 0#8, 0#8, 0#8, 0#8, 16#8, 0#8]) ∧
    (ask base .reset [] = some (.ok, []) ∧
      (after .frameSent (after .reset (withRequest base .reset []))).resetKind = .request) := by decide +kernel

theorem test_setMode :
    (withRequest base .setMode [2#8, 1#8]).Takes .setMode (request .setMode [2#8, 1#8]) ∧
    (∀ m ∈ [0#8, 3#8, 255#8], statusOf base .setMode [m, 0#8] = some .badArgument) ∧
    (statusOf base .setMode [1#8, 3#8] = some .badArgument) ∧
    (reading.mode = .run ∧ reading.liveSlots ≠ [] ∧ statusOf reading .setMode [1#8, 0#8] = some .busy) ∧
    (ask base .setMode [1#8, 2#8] = some (.ok, [1#8, 0#8])) ∧
    (ask shelfSetup .setMode [2#8, 1#8] = some (.ok, [2#8, 1#8])) ∧
    (ask base .setMode [2#8, 0#8] = some (.ok, [2#8, 0#8])) :=
  ⟨takes _ _ _ rfl rfl rfl, by decide +kernel⟩

theorem test_clockAndPatrol :
    (withRequest base .setTime [1#8, 0#8, 0#8, 0#8]).Takes .setTime (request .setTime [1#8, 0#8, 0#8, 0#8]) ∧
    (withRequest base .setPatrol [1#8]).Takes .setPatrol (request .setPatrol [1#8]) ∧
    (ask base .setTime [255#8, 255#8, 255#8, 255#8] = some (.ok, [255#8, 255#8, 255#8, 255#8, 0#8, 0#8, 0#8, 0#8, 0#8])) ∧
    (statusOf base .setPatrol [2#8] = some .badArgument) ∧
    (statusOf base .setPatrol [1#8] = some .timeNotSet) ∧
    (ask { base with pts := ⟨5, true, true, false⟩ } .setPatrol [1#8] = some (.ok, [1#8])) ∧
    (ask { base with pts := ⟨5, true, true, true⟩ } .setPatrol [1#8] = some (.ok, [1#8])) ∧
    (ask base .setPatrol [0#8] = some (.ok, [0#8])) ∧
    ((after .minuteExpiry { base with pts := ⟨4294967294, true, true, false⟩ }).pts.clock = 4294967295) ∧
    ((after .minuteExpiry { base with pts := ⟨4294967295, true, true, false⟩ }).pts.clock = 4294967295) ∧
    ((after .minuteExpiry { base with pts := ⟨0, false, true, false⟩ }).pts.clock = 0) ∧
    (after .minuteExpiry base = base) :=
  ⟨takes _ _ _ rfl rfl rfl, takes _ _ _ rfl rfl rfl, by decide +kernel⟩

/-- A CONVERT payload: direction, reel, rate, start, timecode, index. -/
def convertAsk (d reel rate : Nat) (start t : Timecode) (i : Nat) : List Byte :=
  u8 d ++ le 2 reel ++ u8 rate ++ start.bytes ++ t.bytes ++ le 4 i

/-- The start of the days below. -/
def midnight : Timecode := ⟨0#8, 0#8, 0#8, 0#8⟩

/-- Table 1-9, and the two ends of the small reel. -/
theorem test_convert :
    (withRequest base .convert (convertAsk 1 0 4 midnight midnight 0)).Takes .convert
      (request .convert (convertAsk 1 0 4 midnight midnight 0)) ∧
    (ask base .convert (convertAsk 1 0 4 midnight ⟨0#8, 0x10#8, 0#8, 0#8⟩ 0)
      = some (.ok, u8 4 ++ le 4 17982 ++ [0#8, 0x10#8, 0#8, 0#8] ++ le 4 2589408)) ∧
    (statusOf base .convert (convertAsk 1 0 4 midnight ⟨0#8, 1#8, 0#8, 0#8⟩ 0) = some .badTimecode) ∧
    (statusOf base .convert (convertAsk 2 0 1 ⟨0x23#8, 0x50#8, 0#8, 0#8⟩ midnight 2073600) = some .outOfReel) ∧
    (ask base .convert (convertAsk 2 0 1 ⟨0x23#8, 0x50#8, 0#8, 0#8⟩ midnight 21600)
      = some (.ok, u8 1 ++ le 4 21600 ++ [0#8, 5#8, 0#8, 0#8] ++ le 4 2073600)) ∧
    (statusOf base .convert (convertAsk 1 0 5 midnight ⟨0#8, 0#8, 1#8, 0#8⟩ 0) = some .badArgument) ∧
    (statusOf base .convert (convertAsk 1 0 2 ⟨0#8, 0#8, 0#8, 0x25#8⟩ ⟨0#8, 0#8, 1#8, 0#8⟩ 0) = some .badTimecode) ∧
    (∀ d ∈ [0, 3], statusOf base .convert (convertAsk d 13 2 midnight midnight 0) = some .badArgument) ∧
    (statusOf base .convert (convertAsk 1 13 2 midnight midnight 0) = some .noSuchReel) ∧
    (statusOf shelf .convert (convertAsk 1 1 0 midnight ⟨0#8, 0#8, 0#8, 2#8⟩ 0) = some .ok ∧
      statusOf shelf .convert (convertAsk 1 1 0 midnight ⟨0#8, 0#8, 0#8, 3#8⟩ 0) = some .outOfReel ∧
      statusOf shelf .convert (convertAsk 1 1 0 midnight ⟨0#8, 0#8, 0#8, 0x25#8⟩ 0) = some .badTimecode ∧
      statusOf shelf .convert (convertAsk 2 1 0 midnight midnight 2) = some .ok ∧
      statusOf shelf .convert (convertAsk 2 1 0 midnight midnight 3) = some .outOfReel) :=
  ⟨takes _ _ _ rfl rfl rfl, by decide +kernel⟩

/-! ### Requests on ports -/

/-- A PORT_CONFIG payload. -/
def configAsk (p timeout threshold hysteresis debounce shift : Nat) : List Byte :=
  u8 p ++ le 2 timeout ++ le 2 threshold ++ le 2 hysteresis ++ u8 debounce ++ u8 shift

/-- A port OFFLINE, its FAULT line at a level, its MEDIA line high. -/
def offlinePort (fault : Bool) : Port :=
  { Port.cleared with state := .offline, cause := some .fault, lines := ⟨true, true, false, fault⟩ }

theorem test_portRequests :
    (withRequest shelfSetup .portConfig (configAsk 7 0 0 9 0 0)).Takes .portConfig
      (request .portConfig (configAsk 7 0 0 9 0 0)) ∧
    (withRequest shelf .portStatus [7#8]).Takes .portStatus (request .portStatus [7#8]) ∧
    (withRequest shelf .marginRead [7#8]).Takes .marginRead (request .marginRead [7#8]) ∧
    (ask shelfSetup .portConfig (configAsk 7 0 0 9 0 0)
      = some (.ok, [1#8, 0#8, 1#8, 0#8, 0#8, 0#8, 1#8, 0#8])) ∧
    (ask shelfSetup .portConfig (configAsk 0 6001 65535 65535 16 7)
      = some (.ok, [0x70#8, 0x17#8, 0xFF#8, 0xFF#8, 0xFE#8, 0xFF#8, 15#8, 6#8])) ∧
    (statusOf shelfSetup .portConfig (configAsk 8 1 1 0 1 0) = some .badArgument) ∧
    (statusOf shelf .portStatus [8#8] = some .badArgument ∧ statusOf shelf .marginRead [255#8] = some .badArgument) ∧
    ((ask shelf .portStatus [1#8]).map (fun x => x.2.take 7)
      = some [3#8, 0#8, 0#8, 0#8, 0#8, 0#8, 3#8]) ∧
    (ask shelf .marginRead [7#8] = some (.ok, [0#8, 0#8, 0#8, 0#8, 0#8, 0#8, 0#8, 0#8, 0#8, 0#8, 0#8, 0#8,
      0x90#8, 1#8, 100#8, 0#8, 3#8, 4#8])) :=
  ⟨takes _ _ _ rfl rfl rfl, takes _ _ _ rfl rfl rfl, takes _ _ _ rfl rfl rfl, by decide +kernel⟩

theorem test_portOnline :
    (withRequest (shelf.setPort 7 (offlinePort false)) .portOnline [7#8]).Takes .portOnline
      (request .portOnline [7#8]) ∧
    (statusOf shelf .portOnline [8#8] = some .badArgument ∧ statusOf shelf .portOnline [0#8] = some .ok) ∧
    (statusOf (shelf.setPort 7 (offlinePort true)) .portOnline [7#8] = some .portOffline) ∧
    (let t := after .portOnline (withRequest (shelf.setPort 7 (offlinePort false)) .portOnline [7#8])
     (t.port 7).state = .normal ∧ (t.port 7).volume = .labelRead ∧ (t.port 7).req = true) :=
  ⟨takes _ _ _ rfl rfl rfl, by decide +kernel⟩

/-! ### Requests on the catalogue -/

/-- A copy's fields in an ADD_REEL payload. -/
def copyAsk (p volume frame manifest : Nat) : List Byte := u8 p ++ le 4 volume ++ le 5 frame ++ le 5 manifest

/-- An ADD_REEL payload for a reel with the name "A", at F25 from midnight. -/
def reelAsk (reel count bytes interval : Nat) (a : List Byte) (flag : Nat) (b : List Byte) : List Byte :=
  le 2 reel ++ u8 1 ++ padded 24 0x41#8 [] ++ u8 2 ++ midnight.bytes ++ le 4 count ++ le 4 bytes ++ le 2 interval
    ++ a ++ u8 flag ++ b

/-- A reel on P0 and P7, at the edges of its ranges. -/
def goodReel (reel : Nat) : List Byte :=
  reelAsk reel 1 4096 0 (copyAsk 0 1 1 2) 1 (copyAsk 7 1 3 (2 ^ 40 - 1))

theorem test_checkedEntry :
    (∀ n ∈ [1, 65535], ∃ e, checkEntry [reel1] (entryFields (goodReel n)) = .ok e ∧ e.copyB ≠ none) ∧
    (1 ≤ reel1.frameCount ∧ 1 ≤ reel1.frameBytes) := by
  refine ⟨?_, by decide⟩
  intro n hn
  simp only [List.mem_cons, List.not_mem_nil, or_false] at hn
  rcases hn with h | h <;> subst h
  · refine ⟨{ reel := 1, name := [0x41#8], rate := .f25, start := midnight, frameCount := 1, frameBytes := 4096,
              intervalDays := 1, frozen := false, copyA := ⟨0, 1#32, 1, 2, none, 0, 0⟩,
              copyB := some ⟨7, 1#32, 3, 2 ^ 40 - 1, none, 0, 0⟩ }, by rfl, by simp⟩
  · refine ⟨{ reel := 65535, name := [0x41#8], rate := .f25, start := midnight, frameCount := 1, frameBytes := 4096,
              intervalDays := 1, frozen := false, copyA := ⟨0, 1#32, 1, 2, none, 0, 0⟩,
              copyB := some ⟨7, 1#32, 3, 2 ^ 40 - 1, none, 0, 0⟩ }, by rfl, by simp⟩

theorem test_addReel :
    (withRequest shelfSetup .addReel (goodReel 2)).Takes .addReel (request .addReel (goodReel 2)) ∧
    (statusOf shelfSetup .addReel (goodReel 0) = some .badArgument) ∧
    (statusOf shelfSetup .addReel (goodReel 1) = some .reelExists) ∧
    (statusOf { shelfSetup with cat := List.replicate 512 reel1 } .addReel (goodReel 2) = some .catalogueFull) ∧
    (statusOf shelfSetup .addReel (reelAsk 2 1 4096 1 (copyAsk 0 1 1 2) 1 (copyAsk 0 1 3 4)) = some .samePort) ∧
    (∀ count ∈ [0, 1000001], statusOf shelfSetup .addReel (reelAsk 2 count 4096 1 (copyAsk 0 1 1 2000000) 0
      (copyAsk 0 0 0 0)) = some .badArgument) ∧
    (ask shelfSetup .addReel (goodReel 65535) = some (.ok, [0xFF#8, 0xFF#8, 1#8, 0#8])) :=
  ⟨takes _ _ _ rfl rfl rfl, by decide +kernel⟩

/-- The bytes of R28 steps 4 to 9, each at a boundary: name length and character, rate, start, frame bytes, ports, copy B
flag. -/
theorem test_addReelFields :
    (∀ x ∈ [(2, 25#8), (3, 0x1F#8), (3, 0x7F#8), (27, 0#8), (27, 5#8), (42, 8#8), (57, 2#8), (58, 8#8)],
      statusOf shelfSetup .addReel ((goodReel 2).set x.1 x.2) = some .badArgument) ∧
    (statusOf shelfSetup .addReel ((goodReel 2).set 31 0x25#8) = some .badTimecode) ∧
    (∀ bytes ∈ [0, 67108865], statusOf shelfSetup .addReel (reelAsk 2 1 bytes 1 (copyAsk 0 1 1 200000) 0
      (copyAsk 9 0 0 0)) = some .badArgument) ∧
    (statusOf shelfSetup .addReel (reelAsk 2 1 67108864 1 (copyAsk 0 1 1 200000) 0 (copyAsk 9 0 0 0)) = some .ok) ∧
    (∀ n ∈ [24, 0], statusOf shelfSetup .addReel ((goodReel 2).set 2 (BitVec.ofNat 8 n)) = some .ok) := by
  decide +kernel

/-- Steps 10 and 11 of R28: an area from block 0, past the last block, the two areas of a copy meeting, a block of the small
reel's copy A, and one of the other copy. -/
theorem test_addReelPlaces :
    (∀ a ∈ [copyAsk 0 1 0 9, copyAsk 0 1 9 0, copyAsk 0 1 9 (2 ^ 40 - 1), copyAsk 0 1 9 11, copyAsk 0 0x711 8 20,
        copyAsk 0 0x711 103 102, copyAsk 0 1 20 31],
      statusOf shelfSetup .addReel (reelAsk 2 1024 4096 1 a 1 (copyAsk 7 1 1 1030)) = some .badArgument) ∧
    (statusOf shelfSetup .addReel (reelAsk 2 1024 4096 1 (copyAsk 0 0x711 103 20) 1 (copyAsk 7 1 1 1030))
      = some .ok) := by decide +kernel

/-- The small reel with its copies, as EDIT_REEL names it. -/
def editAsk (interval : Nat) (a : List Byte) : List Byte :=
  reelAsk 1 3 4096 interval a 1 (copyAsk 6 0x766 50 2050)

theorem test_editReel :
    (withRequest shelfSetup .editReel (editAsk 9 (copyAsk 1 0x711 100 10))).Takes .editReel
      (request .editReel (editAsk 9 (copyAsk 1 0x711 100 10))) ∧
    (statusOf shelfSetup .editReel (goodReel 0) = some .noSuchReel ∧
      statusOf shelfSetup .editReel (goodReel 2) = some .noSuchReel) ∧
    (statusOf { shelfSetup with cat := [{ reel1 with frozen := true }] } .editReel (goodReel 1) = some .frozen) ∧
    (statusOf { listed record1 with mode := .setup } .editReel (goodReel 1) = some .reelBusy) ∧
    (statusOf shelfSetup .editReel (editAsk 9 (copyAsk 6 0x711 100 10)) = some .samePort) ∧
    (let s := withRequest { shelfSetup with cat := [{ reel1 with copyA := { copy1A with repairedCount := 4 }
                                                                 copyB := some { copy1B with lostCount := 5 } }] }
       .editReel (editAsk 9 (copyAsk 1 0x711 100 11))
     ((after .editReel s).entry 1).map (fun e => (e.copyA.repairedCount, e.copyB.map (fun c => c.lostCount)))
       = some (0, some 5)) :=
  ⟨takes _ _ _ rfl rfl rfl, by decide +kernel⟩

theorem test_reelsRemovedReadListed :
    (withRequest shelfSetup .removeReel [1#8, 0#8]).Takes .removeReel (request .removeReel [1#8, 0#8]) ∧
    (withRequest shelf .readReel [1#8, 0#8]).Takes .readReel (request .readReel [1#8, 0#8]) ∧
    (withRequest shelf .listReels [7#8]).Takes .listReels (request .listReels [7#8]) ∧
    (∀ n ∈ [[0#8, 0#8], [2#8, 0#8]], statusOf shelfSetup .removeReel n = some .noSuchReel ∧
      statusOf shelf .readReel n = some .noSuchReel) ∧
    (statusOf { shelfSetup with cat := [{ reel1 with frozen := true }] } .removeReel [1#8, 0#8] = some .frozen) ∧
    (statusOf { listed record1 with mode := .setup } .removeReel [1#8, 0#8] = some .reelBusy) ∧
    ((after .removeReel (withRequest shelfSetup .removeReel [1#8, 0#8])).cat = []) ∧
    ((ask shelf .readReel [1#8, 0#8]).map (fun x => x.2.length) = some 95) ∧
    (statusOf shelf .listReels [8#8] = some .badArgument) ∧
    (ask shelf .listReels [0#8] = some (.ok, [1#8, 0#8, 0#8, 1#8, 1#8, 0#8])) ∧
    (ask shelf .listReels [7#8] = some (.ok, [1#8, 0#8, 7#8, 0#8])) :=
  ⟨takes _ _ _ rfl rfl rfl, takes _ _ _ rfl rfl rfl, takes _ _ _ rfl rfl rfl, by decide +kernel⟩

/-- The shelf with its reel LOCKED and a record of it HELD. -/
def closed : State := { listed { record1 with state := .held } with cat := [{ reel1 with locked := true }] }

theorem test_locks :
    ((withRequest shelf .lockReel [1#8, 0#8]).Takes .lockReel (request .lockReel [1#8, 0#8]) ∧
      (withRequest closed .unlockReel [1#8, 0#8]).Takes .unlockReel (request .unlockReel [1#8, 0#8]) ∧
      (withRequest shelf .lockAll []).Takes .lockAll (request .lockAll []) ∧
      (withRequest closed .unlockAll []).Takes .unlockAll (request .unlockAll [])) ∧
    (∀ n ∈ [[0#8, 0#8], [2#8, 0#8]], statusOf shelf .lockReel n = some .noSuchReel ∧
      statusOf shelf .unlockReel n = some .noSuchReel) ∧
    (ask shelf .unlockReel [1#8, 0#8] = some (.ok, [0#8]) ∧ ask closed .lockReel [1#8, 0#8] = some (.ok, [0#8])) ∧
    (((after .lockReel (withRequest (listed record1) .lockReel [1#8, 0#8])).dfl.records.map (·.state)) = [.held]) ∧
    (((after .unlockReel (withRequest closed .unlockReel [1#8, 0#8])).dfl.records.map (·.state)) = [.repairing]) ∧
    (((after .unlockAll (withRequest closed .unlockAll [])).dfl.records.map (·.state)) = [.repairing]) ∧
    (ask (listed record1) .lockAll [] = some (.ok, [1#8, 0#8])) :=
  ⟨⟨takes _ _ _ rfl rfl rfl, takes _ _ _ rfl rfl rfl, takes _ _ _ rfl rfl rfl, takes _ _ _ rfl rfl rfl⟩,
    by decide +kernel⟩

/-! ### Stores (Table 10-5) -/

/-- Slots VALID with these generations. -/
def valid (g0 g1 : Nat) : Siu := { slots := #v[⟨.blank, .valid g0⟩, ⟨.blank, .valid g1⟩], store := none }

/-- The first row of Table 10-5, with the small reel for its reel 40. -/
def stored : State := { shelf with siu := valid 41 40 }

theorem test_stores :
    ((withRequest stored .store []).Takes .store (request .store []) ∧
      (withRequest stored .freezeReel [1#8, 0#8]).Takes .freezeReel (request .freezeReel [1#8, 0#8]) ∧
      (withRequest { stored with mode := .setup } .restoreFactory []).Takes .restoreFactory
        (request .restoreFactory [])) ∧
    (ask stored .freezeReel [1#8, 0#8] = some (.accepted, [1#8, 42#8, 0#8, 0#8, 0#8])) ∧
    (statusOf stored .freezeReel [0#8, 0#8] = some .noSuchReel) ∧
    (let t := (after .freezeReel (withRequest stored .freezeReel [1#8, 0#8]))
     statusOf { t with link := Link.cleared } .store [] = some .busy ∧
     statusOf { t with link := Link.cleared } .freezeReel [1#8, 0#8] = some .busy ∧
     statusOf { t with link := Link.cleared, mode := .setup } .restoreFactory [] = some .busy ∧
     ((after (.storeEnds (.readBack true)) t).siu.slots[1]).condition = .valid 42 ∧
     ((after (.storeEnds .writeError) t).siu.slots[1]).condition = .invalid ∧
     (after (.storeEnds (.readBack true)) t).siu.newGeneration = 43) ∧
    (ask stored .store [] = some (.accepted, [1#8, 42#8, 0#8, 0#8, 0#8])) ∧
    (statusOf { listed record1 with mode := .setup } .restoreFactory [] = some .reelBusy) ∧
    (ask { stored with mode := .setup } .restoreFactory [] = some (.accepted, [1#8, 42#8, 0#8, 0#8, 0#8])) :=
  ⟨⟨takes _ _ _ rfl rfl rfl, takes _ _ _ rfl rfl rfl, takes _ _ _ rfl rfl rfl⟩, by decide +kernel⟩

/-- The snapshot of a store holds the settings, the mask and the entries as they stand. -/
theorem test_snapshot :
    (({ stored with mask := 0xF1#8, autoRun := true } : State).startStore .store).siu.store.map (fun j =>
      [decide (j.slot = 1), decide (j.snapshot.mask = 0xF1#8), j.snapshot.autoRun,
        decide (j.snapshot.entryCount = 1), decide (j.snapshot.settings[7] = PortSettings.factory),
        decide (j.snapshot.entries = [reel1.toStoredEntry])])
      = some [true, true, true, true, true, true] := by decide +kernel

theorem test_storedSlot :
    ((valid 41 40).storedSlot = some 0 ∧ (valid 41 42).storedSlot = some 1 ∧
      (valid 4294967295 1).storedSlot = some 1 ∧ (valid 1 4294967295).storedSlot = some 0 ∧
      (valid 7 7).storedSlot = some 0 ∧ (valid 9 7).storedSlot = some 0 ∧ (valid 7 9).storedSlot = some 1) ∧
    ((Siu.mk #v[⟨.blank, .valid 1⟩, ⟨.blank, .blank⟩] none).storedSlot = some 0 ∧
      (Siu.mk #v[⟨.blank, .invalid⟩, ⟨.blank, .valid 1⟩] none).storedSlot = some 1 ∧
      State.reset.siu.storedSlot = none) := by decide

theorem test_storeEnds :
    base.siu.store = none ∧ (after (.storeEnds .writeError) base = base) ∧
      (base.startStore .store).siu.store.isSome = true ∧ StoreFinish.readBack false ≠ .readBack true := by
  decide +kernel

/-! ### Resets and start-up -/

theorem test_resets :
    (base.supplyLow = false ∧ base.resetPin = false) ∧
    (let s := { reading with pts := ⟨77, true, true, true⟩ }
     (after .powerOnResetAssert s).pts = ⟨0, false, false, false⟩ ∧
     (after .resetPinAssert s).pts = ⟨77, true, false, false⟩ ∧
     (after .resetPinAssert s).resetHeld = true ∧
     (after .resetPinRelease (after .resetPinAssert s)).resetHeld = false ∧
     (after .powerOnResetRelease (after .powerOnResetAssert s)).mode = .starting) ∧
    (let r : Reply := ⟨.ordinary, 0x86#8, 7#8, .ok, [], true⟩
     (linked { Link.cleared with sending := some (.reply r) }).link.sending = some (.reply r) ∧
     (after .frameSent (linked { Link.cleared with sending := some (.reply r) })).resetKind = .request) := by
  decide +kernel

/-- A whole image of the small reel, as a store writes it, with auto-run set. -/
def image1 : Image := { shelf with autoRun := true }.snapshot 9

/-- The part as a warm reset leaves it with that image in slot 1. -/
def restarting : State :=
  { State.reset with
    siu := { slots := #v[⟨.unreadable, .invalid⟩, ⟨.image image1 image1.check, .valid 9⟩], store := none } }

/-- Start-up loads the stored image: the reel LOCKED, auto-run into RUN. -/
theorem test_startUpFromImage :
    restarting.mode = .starting ∧ restarting.resetHeld = false ∧ restarting.portsSet = false ∧
      (after .startUpEnd restarting).mode = .run ∧
      (after .startUpEnd restarting).cat = [{ reel1 with locked := true }] ∧
      (after .startUpEnd { base with mode := .starting }).mode = .setup := by decide +kernel

/-- A port at start-up: FAULT low with MEDIA high, and FAULT high. -/
theorem test_portStartUp :
    ((mounted 5#32).startUp PortSettings.factory).volume = .labelRead ∧
      ((offlinePort true).startUp PortSettings.factory).state = .offline ∧
      ((offlinePort true).startUp PortSettings.factory).cause = some .start ∧
      ({ mounted 5#32 with gnt := true }.startUp PortSettings.factory).grant = .releasing ∧
      (Port.cleared.startUp PortSettings.factory).volume = .noMedia := by decide

/-! ### Digests and timecodes -/

/-- Tables 1-3 and 1-4, with the odd byte of R8. -/
theorem test_digests :
    digest [1#8, 2#8, 3#8] = 0x04070205#32 ∧ digest [0#8] = 0x00010001#32 ∧
      digest [0xFF#8, 0xFF#8] = 0x000F000F#32 ∧ digest [1#8, 2#8, 3#8, 0#8] = 0x04070205#32 := by decide

/-- The third row of Table 1-4. -/
theorem test_erasedBlockDigest : digest (List.replicate 4092 0#8) = 0x07FE0001#32 := by decide +kernel

/-- The engine in frame form stops at its byte limit, odd or even. -/
theorem test_engineFrames :
    (DigestEngine.start (.frame 3)).result [1#8, 2#8, 3#8, 9#8] = .digest 0x04070205#32 ∧
      (DigestEngine.start (.frame 2)).result [0xFF#8, 0xFF#8, 9#8] = .digest 0x000F000F#32 ∧
      (DigestEngine.start .pass).result [1#8] = .nothing := by decide

/-- Tables 1-6, 1-7 and 1-8. -/
theorem test_timecodes :
    (Timecode.count .f30d ⟨0#8, 0#8, 0x59#8, 0x29#8⟩ = 1799 ∧ Timecode.count .f30d ⟨0#8, 1#8, 0#8, 2#8⟩ = 1800 ∧
      Timecode.count .f30d ⟨0#8, 0x10#8, 0#8, 0#8⟩ = 17982) ∧
    (timecodeOfCount .f30d 1799 = ⟨0#8, 0#8, 0x59#8, 0x29#8⟩ ∧ timecodeOfCount .f30d 1800 = ⟨0#8, 1#8, 0#8, 2#8⟩ ∧
      timecodeOfCount .f30d 17982 = ⟨0#8, 0x10#8, 0#8, 0#8⟩) ∧
    (timecodeOfIndex .f30d ⟨1#8, 0#8, 0#8, 0#8⟩ 100000 = ⟨1#8, 0x55#8, 0x36#8, 0x20#8⟩ ∧
      indexOfTimecode .f30d ⟨1#8, 0#8, 0#8, 0#8⟩ ⟨1#8, 0x55#8, 0x36#8, 0x20#8⟩ = 100000) ∧
    (timecodeToIndex .f24 ⟨0x23#8, 0x50#8, 0#8, 0#8⟩ ⟨0#8, 5#8, 0#8, 0#8⟩ 30000 = .ok 21600 ∧
      timecodeToIndex .f24 ⟨0x23#8, 0x50#8, 0#8, 0#8⟩ ⟨0x23#8, 0x49#8, 0x59#8, 0x23#8⟩ 30000 = .error .outOfReel ∧
      timecodeToIndex .f24 ⟨0x23#8, 0x50#8, 0#8, 0#8⟩ ⟨0#8, 0x10#8, 0x50#8, 0#8⟩ 30000 = .error .outOfReel ∧
      timecodeOfIndex .f24 ⟨0x23#8, 0x50#8, 0#8, 0#8⟩ 29999 = ⟨0#8, 0x10#8, 0x49#8, 0x23#8⟩) ∧
    (midnight.valid .f30d = true ∧ (0 : Nat) < 1 ∧ RateCode.dayCount .f30d - 1 < RateCode.dayCount .f30d) := by
  decide

/-- Reel 71 of 12.2: a drop-frame range across midnight. -/
theorem test_dropFrameMidnight :
    (timecodeToIndex .f30d ⟨0x23#8, 0x58#8, 0#8, 2#8⟩ ⟨0x23#8, 0x59#8, 0x59#8, 0x28#8⟩ 10000 = .ok 3594 ∧
      timecodeToIndex .f30d ⟨0x23#8, 0x58#8, 0#8, 2#8⟩ ⟨0#8, 0#8, 1#8, 0#8⟩ 10000 = .ok 3626 ∧
      timecodeToIndex .f30d ⟨0x23#8, 0x58#8, 0#8, 2#8⟩ ⟨0#8, 1#8, 0#8, 0#8⟩ 10000 = .error .badTimecode ∧
      timecodeToIndex .f30d ⟨0x23#8, 0x58#8, 0#8, 2#8⟩ ⟨0x23#8, 0x57#8, 0x59#8, 0x29#8⟩ 10000
        = .error .outOfReel ∧
      timecodeOfIndex .f30d ⟨0x23#8, 0x58#8, 0#8, 2#8⟩ 3596 = midnight) := by decide

/-! ### Ports -/

/-- A part whose port P3 is this. -/
def withP3 (q : Port) : State := base.setPort 3 q

/-- A port with all four lines high. -/
def allHigh : Port := { Port.cleared with lines := ⟨true, true, true, true⟩ }

theorem test_lineEvents :
    (base.portsSet = true) ∧
    ((after (.readyRise 3) (withP3 { Port.cleared with lines := ⟨false, true, false, false⟩ })).port 3).volume
      = .labelRead ∧
    ((after (.readyRise 3) base).port 3).lines = ⟨true, false, false, false⟩ ∧
    ((after (.readyFall 3) (withP3 allHigh)).port 3).delta = ⟨true, false, false, false⟩ ∧
    ((after (.mediaRise 3) base).port 3).volume = .labelRead ∧
    ((after (.mediaRise 3) (withP3 { offlinePort true with lines := ⟨false, false, false, true⟩ })).port 3).volume
      = .noMedia ∧
    ((after (.mediaFall 3) (withP3 (mounted 5#32))).port 3).volume = .noMedia ∧
    ((after (.wprotRise 3) base).port 3).lines.wprot = true ∧
    ((after (.wprotFall 3) (withP3 allHigh)).port 3).lines.wprot = false ∧
    ((after (.faultRise 3) base).port 3).state = .offline ∧
    ((after (.faultFall 3) (withP3 (offlinePort true))).port 3).state = .offline := by decide +kernel

theorem test_portEventsHypotheses :
    base.OfflineQuiet ∧ ∃ t, exec (.faultRise 3) base = .next t := by
  refine ⟨fun p hp => ?_, _, rfl⟩
  have h : ∀ p : PortId, (base.port p).state ≠ .offline := by decide +kernel
  exact absurd hp (h p)

/-- A port that asks for its link with a label read. -/
def asking : Port := { Port.cleared with grant := .requesting, req := true, labelClaim := true, volume := .labelRead }

theorem test_grantIssues :
    ((withP3 asking).port 3).gnt = false ∧ asking.grant = .requesting ∧ asking.outstanding = none ∧
      asking.nextClaim = some (.label, labelReadClaim, false) ∧
      ((after (.gntRise 3) (withP3 asking)).port 3).outstanding
        = some ⟨labelReadClaim, false, some .label, 100⟩ ∧
      ((after (.gntRise 3) base).port 3).grant = .releasing := by decide +kernel

theorem test_boundaryOrder :
    ({ asking with reissue := some (.job, frameClaim), rpuClaim := some frameClaim } : Port).nextClaim
        = some (.job, frameClaim, true) ∧
      ({ Port.cleared with rpuClaim := some frameClaim, jobClaim := some frameClaim } : Port).nextClaim
        = some (.rpu, frameClaim, false) ∧
      ({ Port.cleared with jobClaim := some frameClaim } : Port).nextClaim = some (.job, frameClaim, false) ∧
      Port.cleared.hasClaims = false := by decide

/-- A port at work on a command of this claimant. -/
def working (c : Option Claimant) : Port :=
  { Port.cleared with
    grant := .granted, req := true, gnt := true, volume := .labelRead
    outstanding := some ⟨labelReadClaim, false, c, 100⟩, engine := DigestEngine.start .blockCheck }

theorem test_grantLost :
    ((after (.gntFall 3) (withP3 { Port.cleared with gnt := true, grant := .releasing })).port 3).grant = .idle ∧
    ((after (.gntFall 3) (withP3 { asking with gnt := true, grant := .releasing })).port 3).grant = .requesting ∧
    ((after (.gntFall 3) (withP3 (working (some .label)))).port 3).reissue = some (.label, labelReadClaim) ∧
    ((after (.gntFall 3) (withP3 (working none))).port 3).state = .recovery ∧
    ((after (.gntFall 3) (withP3 { working (some .rpu) with yld := true })).port 3).rpuClaim
      = some labelReadClaim ∧
    ((after (.gntFall 3) (withP3 { asking with yld := true, gnt := true, grant := .releasing })).port 3).grant
      = .idle := by decide +kernel

/-- The scrub on P1 with its claim pending and P1 asking for its link. -/
def pendingScrub : State :=
  (shelf.setSlot 0 (some scrub)).setPort 1
    { mounted 0x711#32 with grant := .requesting, req := true, jobClaim := some frameClaim }

theorem test_yields :
    (pendingScrub.activeSlot 1 = some 0 ∧ (pendingScrub.port 1).jobPending = true) ∧
    ((after (.yldRise 1) pendingScrub).slot 0).map (·.state) = some .yielded ∧
    ((after (.yldRise 1) pendingScrub).port 1).grant = .idle ∧
    ((after (.yldRise 1) reading).port 1).grant = .releasing ∧
    ((after (.yldFall 1) (after (.yldRise 1) pendingScrub)).slot 0).map (·.state) = some .running ∧
    ((after (.yldFall 3) (withP3 { Port.cleared with yld := true })).port 3).yld = false := by decide +kernel

theorem test_timeouts :
    ((after (.commandTimeout 1) reading).port 1).state = .recovery ∧
    ((after (.commandTimeout 1) reading).port 1).outstanding = some ⟨frameClaim, false, some .job, 100⟩ ∧
    (let s := reading.modPort 1 (fun q => { q with state := .recovery })
     ((after (.commandTimeout 1) s).port 1).cause = some .escalation ∧
     ((after (.commandTimeout 1) s).slot 0).map (·.state) = some .failed) := by decide +kernel

/-- The bytes of Table 11-12: a MEDIUM_ERROR with tag 1, 258 corrected symbols and a list of two offsets. -/
theorem test_replyBytes :
    DriveReply.ofBytes [1#8, 1#8, 2#8, 1#8, 2#8, 0#8, 3#8, 0#8, 0#8, 1#8, 9#8] = some ⟨1#8, 1#8, 258, [3, 256], [9#8]⟩ ∧
      DriveReply.ofBytes [1#8, 1#8, 2#8, 1#8, 2#8, 0#8, 3#8, 0#8, 0#8] = none ∧ DriveReply.ofBytes [] = none ∧
      (bare 2#8).bytes = [0#8, 2#8, 0#8, 0#8, 0#8, 0#8] := by decide

/-- The witness replies are whole. -/
theorem test_repliesWhole : DriveReply.ofBytes zeroReply.bytes = some zeroReply :=
  DriveReply.ofBytes_bytes _ (by decide) (by decide) (by decide)

theorem test_repliesJudged :
    (after (.driveReply 3 zeroReply.bytes) base = base) ∧
    (after (.driveReply 1 []) reading = reading) ∧
    (after (.driveReply 1 { zeroReply with tag := 1#8 }.bytes) reading = reading) ∧
    (replyStatus frameClaim (bare 0#8) = none ∧ replyStatus frameClaim (bare 3#8) = none ∧
      replyStatus frameClaim (bare 4#8) = some .driveError ∧ replyStatus frameClaim (bare 5#8) = none ∧
      replyStatus frameClaim (bare 2#8) = some .notReady) ∧
    (replyStatus frameClaim { zeroReply with offsets := [0] } = none ∧
      replyStatus frameClaim { zeroReply with status := 1#8 } = none ∧
      replyStatus frameClaim { zeroReply with status := 1#8, offsets := [1] } = none ∧
      replyStatus frameClaim { zeroReply with status := 1#8, offsets := [0] } = some .mediumError ∧
      replyStatus ⟨.write [], 100, 1⟩ (bare 3#8) = some .writeProtected ∧
      replyStatus ⟨.write [], 100, 1⟩ zeroReply = none) ∧
    ((after (.driveReply 1 (bare 4#8).bytes) reading).port 1).state = .recovery ∧
    ((withP3 (working none)).port 3).state = .normal ∧
    replyStatus labelReadClaim (bare 2#8) = some .notReady := by decide +kernel

/-- A well-formed reply in RECOVERY returns the port to NORMAL, also where it is no claimant's; the monitor takes its
count. -/
theorem test_recoveryEnds :
    (let t := after (.driveReply 3 { zeroReply with corrected := 7 }.bytes)
        (withP3 { working none with state := .recovery })
     (t.port 3).state = .normal ∧ (t.port 3).margin.windowSum = 7 ∧ (t.port 3).margin.windowBlocks = 1) := by
  decide +kernel

/-- A block with its check. -/
def block (bytes : List Byte) (check : Digest) : List Byte :=
  bytes ++ List.replicate (4092 - bytes.length) 0#8 ++ le 4 check.toNat

/-- A label of volume 5 with a block count of 2. -/
def label5 : List Byte :=
  block (labelMark ++ le 4 5 ++ le 5 2) (digest (labelMark ++ le 4 5 ++ le 5 2 ++ List.replicate 4075 0#8))

/-- Such a label has the mark, a sound block and two blocks, in a GOOD reply. -/
theorem test_labelSound :
    replyStatus labelReadClaim ⟨0#8, 0#8, 0, [], label5⟩ = some .good ∧
      slice label5 0 8 = [0x4E#8, 0x4D#8, 0x42#8, 0x52#8, 0x4C#8, 0x42#8, 0x4C#8, 0x31#8] ∧
      digestAt label5 4092 = digest (label5.take 4092) ∧ field label5 8 4 = 5 ∧ field label5 12 5 = 2 := by
  decide +kernel

theorem test_labelRefused :
    replyStatus labelReadClaim (bare 2#8) = some .notReady ∧
    ((after (.driveReply 3 (bare 2#8).bytes) (withP3 (working (some .label)))).port 3).volume
      = .unlabelled := by decide +kernel

/-- Table 2-8: the copy whose highest block is 262,484,223. -/
theorem test_presence :
    (let c : CopyDesc := ⟨2, 0x00A1B2C3#32, 262484223, 1, none, 0, 0⟩
     let e : StoredEntry := { reel1.toStoredEntry with frameCount := 1, copyA := c }
     let on (v : VolumeState) : Presence := presenceOn { Port.cleared with volume := v } e c
     on .labelRead = .absent ∧ on (.mounted 0x00A1B2C3#32 262484000) = .outOfBounds ∧
     on (.mounted 0x00A1B2C3#32 262484223) = .outOfBounds ∧ on (.mounted 0x00A1B2C3#32 262484224) = .present ∧
     on (.mounted 0x00990000#32 300000000) = .absent ∧
     presenceOn (offlinePort true) e c = .portOffline) := by decide

/-! ### Jobs -/

/-- A START_SCRUB payload: reel, copy, form, two indices, two timecodes. -/
def scrubAsk (reel copy form a b : Nat) (ta tb : Timecode) : List Byte :=
  le 2 reel ++ u8 copy ++ u8 form ++ le 4 a ++ le 4 b ++ ta.bytes ++ tb.bytes

theorem test_startScrub :
    (withRequest shelf .startScrub (scrubAsk 1 0 0 0 0 midnight midnight)).Takes .startScrub
      (request .startScrub (scrubAsk 1 0 0 0 0 midnight midnight)) ∧
    (∀ n ∈ [0, 2], statusOf shelf .startScrub (scrubAsk n 0 0 0 0 midnight midnight) = some .noSuchReel) ∧
    (statusOf shelf .startScrub (scrubAsk 1 2 0 0 0 midnight midnight) = some .badArgument) ∧
    (statusOf shelf .startScrub (scrubAsk 1 0 3 0 0 midnight midnight) = some .badArgument) ∧
    (statusOf shelf .startScrub (scrubAsk 1 0 1 2 3 midnight midnight) = some .outOfReel ∧
      statusOf shelf .startScrub (scrubAsk 1 0 1 2 1 midnight midnight) = some .badArgument) ∧
    (statusOf reading .startScrub (scrubAsk 1 0 0 0 0 midnight midnight) = some .reelBusy) ∧
    (statusOf (shelf.setPort 1 (offlinePort true)) .startScrub (scrubAsk 1 0 0 0 0 midnight midnight)
      = some .portOffline) ∧
    (statusOf { shelf with jbu := { shelf.jbu with slots := Vector.replicate 16 (some { scrub with port := 2, target := none }) } }
      .startScrub (scrubAsk 1 0 0 0 0 midnight midnight) = some .noSlot) ∧
    (ask shelf .startScrub (scrubAsk 1 0 1 2 2 midnight midnight) = some (.accepted, [1#8, 0#8])) ∧
    (statusOf shelf .startScrub (scrubAsk 1 1 2 0 0 midnight ⟨0#8, 0#8, 0#8, 2#8⟩) = some .accepted) :=
  ⟨takes _ _ _ rfl rfl rfl, by decide +kernel⟩

/-- The failures of the INDEX and TIMECODE forms, in their order: the small reel has indices 0 to 2. -/
theorem test_scrubRanges :
    (statusOf shelf .startScrub (scrubAsk 1 0 1 3 0 midnight midnight) = some .outOfReel ∧
      scrubRange reel1.toStoredEntry (scrubAsk 1 0 1 0 2 midnight midnight) = .ok (.rangeScrub, 0, 2)) ∧
    (let tc (ff : Byte) : Timecode := ⟨0#8, 0#8, 0#8, ff⟩
     (∀ x ∈ [(0x25#8, 3#8, Status.badTimecode), (3#8, 0x25#8, .outOfReel), (2#8, 0x25#8, .badTimecode),
         (2#8, 3#8, .outOfReel), (2#8, 1#8, .badArgument)],
       statusOf shelf .startScrub (scrubAsk 1 0 2 0 0 (tc x.1) (tc x.2.1)) = some x.2.2) ∧
     scrubRange reel1.toStoredEntry (scrubAsk 1 0 2 9 9 (tc 1#8) (tc 2#8)) = .ok (.rangeScrub, 1, 2)) := by
  decide +kernel

/-- A verify waiting on P3. -/
def verify : Job := { newJob 4 .volumeVerify .requested none 3 1 none with state := .waitMedia }

theorem test_startVerify :
    (withRequest shelf .startVerify [7#8]).Takes .startVerify (request .startVerify [7#8]) ∧
    (statusOf shelf .startVerify [8#8] = some .badArgument) ∧
    (statusOf (withP3 (offlinePort true)) .startVerify [3#8] = some .portOffline) ∧
    (statusOf (shelf.setSlot 5 (some verify)) .startVerify [3#8] = some .busy) ∧
    (statusOf { shelf with jbu := { shelf.jbu with slots := Vector.replicate 16 (some scrub) } }
      .startVerify [3#8] = some .noSlot) ∧
    (((after .startVerify (withRequest shelf .startVerify [1#8])).slot 0).map
      (fun j => (j.state, j.rangeEnd, j.cursor)) = some (.running, some 4999, 1)) :=
  ⟨takes _ _ _ rfl rfl rfl, by decide +kernel⟩

theorem test_createdJob :
    (shelf.mediaReady (newJob 1 .reelScrub .requested (some ⟨1, .a⟩) 1 0 (some 2)) = true ∧
      shelf.mediaReady (newJob 1 .volumeVerify .requested none 3 1 none) = false) ∧
    (shelf.jbu.sequence < 4294967295 ∧ shelf.jbu.nextId = 1 ∧ reading.idFor 1 = 2 ∧ reading.idFor 0 = 1) ∧
    ({ reading with jbu := { reading.jbu with nextId := 65535 } }.idFor 1 = 65535) ∧
    (let s := (shelf.setSlot 2 (some { scrub with state := .queued, origin := .patrol, sequence := 1 })).setSlot 3
        (some { scrub with state := .queued, sequence := 9 })
     s.queueHead 1 = some 3) := by decide +kernel

/-- Every slot with a job in a state, and slots 4 and 9 with jobs that ended 8th and 7th. -/
def fullSlots (st : JobState) : State :=
  (({ shelf with jbu := { shelf.jbu with slots := Vector.replicate 16 (some { scrub with state := st }) } } : State).setSlot
    4 (some { scrub with state := .done, endOrder := some 8 })).setSlot 9
    (some { scrub with state := .failed, endOrder := some 7 })

/-- The steps of R67: a FREE slot, the job that ended earliest, and no slot; and a queue without a head (R70). -/
theorem test_findSlot :
    (reading.slot 1 = none ∧ reading.findSlot = some 1) ∧
    ((∀ k, (fullSlots .suspended).slot k ≠ none) ∧ (fullSlots .suspended).findSlot = some 9) ∧
    (((fullSlots .suspended).setSlot 4 (some scrub)).setSlot 9 (some scrub)).findSlot = none ∧
    ((fullSlots .suspended).queueHead 1 = none ∧ (fullSlots .queued).queueHead 2 = none) := by decide +kernel

/-- R69 at the counter's end: the one job QUEUED gets 1 and the new job 2. A job created into WAIT_MEDIA has sequence 0
(log 33). -/
theorem test_sequencesRenumbered :
    (let s := shelf.setSlot 2 (some { scrub with state := .queued, sequence := 4294967290 })
     let t := ({ s with jbu := { s.jbu with sequence := 4294967295 } } : State).createJob 0
       (newJob 5 .reelScrub .requested (some ⟨1, .a⟩) 1 0 (some 2))
     (t.slot 2).map (·.sequence) = some 1 ∧ (t.slot 0).map (·.sequence) = some 2 ∧ t.jbu.sequence = 2) ∧
    ((shelf.createJob 0 (newJob 5 .volumeVerify .requested none 3 1 none)).slot 0).map
      (fun j => (j.state, j.sequence)) = some (.waitMedia, 0) := by decide +kernel

/-- The scrub in a state. -/
def scrubIn (st : JobState) : State := shelf.setSlot 0 (some { scrub with state := st })

theorem test_jobRequests :
    ((withRequest reading .suspendJob [1#8, 0#8]).Takes .suspendJob (request .suspendJob [1#8, 0#8]) ∧
      (withRequest reading .resumeJob [1#8, 0#8]).Takes .resumeJob (request .resumeJob [1#8, 0#8]) ∧
      (withRequest reading .abortJob [1#8, 0#8]).Takes .abortJob (request .abortJob [1#8, 0#8]) ∧
      (withRequest reading .jobStatus [1#8, 0#8]).Takes .jobStatus (request .jobStatus [1#8, 0#8])) ∧
    (∀ k ∈ [RequestKind.suspendJob, .resumeJob, .abortJob, .jobStatus], statusOf shelf k [1#8, 0#8] = some .noSuchJob) ∧
    (statusOf (shelf.setSlot 5 (some verify)) .suspendJob [4#8, 0#8] = some .ignored) ∧
    (statusOf (scrubIn .queued) .suspendJob [1#8, 0#8] = some .notRunning) ∧
    (statusOf (shelf.setSlot 0 (some { scrub with resumedEver := true, sinceResume := 15 })) .suspendJob [1#8, 0#8]
      = some .tooSoon) ∧
    (((after .suspendJob (withRequest reading .suspendJob [1#8, 0#8])).slot 0).map (·.state) = some .suspending) ∧
    (((after .suspendJob (withRequest pendingScrub .suspendJob [1#8, 0#8])).slot 0).map (·.state)
      = some .suspended) ∧
    (statusOf reading .resumeJob [1#8, 0#8] = some .notSuspended) ∧
    (((after .resumeJob (withRequest (scrubIn .suspended) .resumeJob [1#8, 0#8])).slot 0).map (·.state)
      = some .running) ∧
    (statusOf (scrubIn .done) .abortJob [1#8, 0#8] = some .notRunning) ∧
    (((after .abortJob (withRequest reading .abortJob [1#8, 0#8])).slot 0).map (·.state) = some .aborted) ∧
    ((after .abortJob (withRequest (shelf.setSlot 0 (some { scrub with origin := .patrol })) .abortJob [1#8, 0#8])).slot 0
      = none) ∧
    ((ask (scrubIn .done) .jobStatus [1#8, 0#8]).map (fun x => x.2.length) = some 60 ∧
      (after .jobStatus (withRequest (scrubIn .done) .jobStatus [1#8, 0#8])).slot 0 = none) :=
  ⟨⟨takes _ _ _ rfl rfl rfl, takes _ _ _ rfl rfl rfl, takes _ _ _ rfl rfl rfl, takes _ _ _ rfl rfl rfl⟩,
    by decide +kernel⟩

/-- The scrub's frame read with this slot value in its manifest, against a list of `n` records. -/
def readingAgainst (d : Digest) (n : Nat) : State :=
  { reading.setSlot 0 (some { scrub with manifest := some ⟨0, [d, 5#32, 6#32]⟩ }) with
    dfl := ⟨List.replicate n { record1 with place := .block 1, kind := .block, state := .noted }, [], 2⟩ }

theorem test_framesSettle (d : Digest) (n : Nat) :
    (((readingAgainst d n).port 1).outstanding = some ⟨frameClaim, false, some .job, 100⟩ ∧
      (readingAgainst d n).activeSlot 1 = some 0 ∧
      (∃ j, (readingAgainst d n).slot 0 = some j ∧ j.manifestLoaded = true ∧ j.reference = some d ∧
        j.state = .running ∧ j.port = 1 ∧ j.rangeEnd = some 2 ∧ j.cursor < 2) ∧
      ((readingAgainst d n).port 1).yld = false ∧ (readingAgainst d n).dfl.records.length = n ∧
      (∀ x ∈ (readingAgainst d n).dfl.records, ¬ x.place = .frame 1 .a 0)) ∧
    replyStatus frameClaim zeroReply = some .good ∧
    (∃ found, ((readingAgainst d n).port 1).engine.result zeroReply.data = .digest found) := by
  refine ⟨⟨rfl, rfl, ⟨_, rfl, (by decide : scrub.manifestLoaded = true), rfl, rfl, rfl, rfl, (by decide : scrub.cursor < 2)⟩, rfl, List.length_replicate, fun x hx => ?_⟩,
    by decide +kernel, _, rfl⟩
  rw [List.eq_of_mem_replicate hx]
  decide

/-- An outcome with this status, engine result and list. -/
def outcome (st : DriveStatus) (result : EngineResult) (offsets : List Nat) : DriveOutcome :=
  ⟨st, 0, offsets, result, [], 1⟩

/-- What a test looks at of a job: its state, its cursor and three counts. -/
structure Seen where
  state : JobState
  cursor : Nat
  first : Nat
  second : Nat
  third : Nat
  deriving DecidableEq

/-- The state, cursor and three counts of the job in slot 0 after its read has had this outcome. -/
def settled (s : State) (o : DriveOutcome) : Option Seen :=
  ((s.readOutcome 0 o).slot 0).map (fun j => ⟨j.state, j.cursor, j.good, j.defective, j.unchecked⟩)

/-- The scrub with no manifest loaded. -/
def unloaded : State := reading.setSlot 0 (some { scrub with manifest := none })

/-- Outcomes of a scrub's reads (R74, R75, R76): the frame of slot 0 has reference 0x10001; the manifest block serves the
whole range 0 to 2. -/
theorem test_scrubOutcomes :
    settled reading (outcome .notReady .nothing []) = some ⟨.waitMedia, 0, 0, 0, 0⟩ ∧
    settled reading (outcome .good (.digest 0x10001#32) []) = some ⟨.running, 1, 1, 0, 0⟩ ∧
    settled reading (outcome .good (.digest 9#32) []) = some ⟨.running, 1, 0, 1, 0⟩ ∧
    settled reading (outcome .mediumError .nothing [0]) = some ⟨.running, 1, 0, 1, 0⟩ ∧
    settled unloaded (outcome .good (.block true [7#32] 8#32) []) = some ⟨.running, 0, 0, 0, 0⟩ ∧
    settled unloaded (outcome .good (.block false [] 8#32) []) = some ⟨.done, 3, 0, 0, 3⟩ ∧
    settled unloaded (outcome .mediumError .nothing [0]) = some ⟨.done, 3, 0, 0, 3⟩ ∧
    settled (readingAgainst 5#32 256) (outcome .mediumError .nothing [0]) = some ⟨.stalled, 0, 0, 0, 0⟩ := by
  decide +kernel

/-- The small shelf with a job in slot 0 at a boundary, and the archive clock set. -/
def boundaryOf (j : Job) : State :=
  ({ shelf.setSlot 0 (some j) with pts := ⟨77, true, true, false⟩ } : State).boundary 0

/-- A boundary of a scrub (R72, R73): suspended, yielded, its next claim, and its end with last_scrub. -/
theorem test_boundaries :
    ((boundaryOf { scrub with state := .suspending }).slot 0).map (·.state) = some .suspended ∧
    ((((shelf.setSlot 0 (some scrub)).modPort 1 (fun q => { q with yld := true })).boundary 0).slot 0).map (·.state)
      = some .yielded ∧
    ((boundaryOf scrub).port 1).jobClaim = some ⟨.read (.frame 4096), 100, 1⟩ ∧
    ((boundaryOf { scrub with manifest := none, cursor := 2 }).port 1).jobClaim = some ⟨.read .blockCheck, 10, 1⟩ ∧
    (let whole := { scrub with kind := .reelScrub, cursor := 3 }
     ((boundaryOf whole).slot 0).map (fun j => (j.state, j.endReason)) = some (.done, some .complete) ∧
     ((boundaryOf whole).entry 1).map (·.copyA.lastScrub) = some (some 77) ∧
     (boundaryOf { whole with origin := .patrol }).slot 0 = none ∧
     (boundaryOf { whole with kind := .rangeScrub }).cat = [reel1]) := by decide +kernel

/-- A verify RUNNING on P1, bound to the volume of the small reel. -/
def verifying : Job :=
  { newJob 4 .volumeVerify .requested none 1 1 (some 4999) with state := .running, volume := some (0x711#32, 5000) }

/-- The verify active, against a list of `n` NOTED records. -/
def verifyingAgainst (j : Job) (n : Nat) : State :=
  { shelf.setSlot 0 (some j) with
    dfl := ⟨List.replicate n { record1 with place := .block 5, kind := .block, state := .noted }, [], 2⟩ }

/-- Blocks 5, 10 and 100 of the volume: outside the reel, its manifest block 0 and its frame 0 (R81). -/
theorem test_verifyPlaces :
    (verifyingAgainst verifying 0).verifyPlace verifying 5 = .block 5 ∧
    (verifyingAgainst verifying 0).verifyPlace verifying 10 = .manifest 1 .a 0 ∧
    (verifyingAgainst verifying 0).verifyPlace verifying 100 = .frame 1 .a 0 ∧
    (verifyingAgainst verifying 0).verifyPlace verifying 102 = .frame 1 .a 2 ∧
    (verifyingAgainst verifying 0).verifyPlace verifying 103 = .block 103 := by decide

/-- The state, cursor and counts of the verify in slot 0, and the number of records. -/
def verified (s : State) : Option Seen :=
  (s.slot 0).map (fun j => ⟨j.state, j.cursor, j.blocksRead, j.blocksUnreadable, s.dfl.records.length⟩)

/-- Outcomes of a verify's read of blocks 1 to 256 (R80, R82), with room for its findings and against a full list. -/
theorem test_verifyOutcomes :
    (let bad := outcome .mediumError .nothing [4, 9, 99]
     let good : DriveOutcome := { outcome .good .nothing [] with blocks := 256 }
     verified ((verifyingAgainst verifying 0).readOutcome 0 good) = some ⟨.running, 257, 256, 0, 0⟩ ∧
     verified ((verifyingAgainst verifying 0).readOutcome 0 (outcome .notReady .nothing []))
       = some ⟨.waitMedia, 1, 0, 0, 0⟩ ∧
     verified ((verifyingAgainst verifying 0).readOutcome 0 bad) = some ⟨.running, 257, 256, 3, 3⟩ ∧
     verified ((verifyingAgainst verifying 253).readOutcome 0 bad) = some ⟨.running, 257, 256, 3, 256⟩ ∧
     verified ((verifyingAgainst verifying 256).readOutcome 0 bad) = some ⟨.stalled, 1, 0, 0, 256⟩) := by
  decide +kernel

/-- Boundaries of a verify: its last read, its end, and findings that remain, with room and against a full list. -/
theorem test_verifyBoundaries :
    (((verifyingAgainst { verifying with cursor := 4999 } 0).boundary 0).port 1).jobClaim
      = some ⟨.read .pass, 4999, 1⟩ ∧
    verified ((verifyingAgainst { verifying with cursor := 5000 } 0).boundary 0) = some ⟨.done, 5000, 0, 0, 0⟩ ∧
    verified ((verifyingAgainst { verifying with settling := some ⟨[9], 2⟩ } 255).boundary 0)
      = some ⟨.running, 257, 256, 2, 256⟩ ∧
    verified ((verifyingAgainst { verifying with settling := some ⟨[9], 2⟩ } 256).boundary 0)
      = some ⟨.stalled, 1, 0, 0, 256⟩ := by decide +kernel

/-! ### Defects and repair -/

/-- The finding that record stands for. -/
def finding1 : Finding := ⟨.mismatch, 1, .frame 1 .a 0, some 5#32, some 6#32, .requested⟩

theorem test_findings :
    (record1.matchesKey finding1.place = true ∧ ((listed record1).takeFinding finding1).1 = .duplicate ∧
      (((listed { record1 with seen := 255 }).takeFinding finding1).2.dfl.records.map (·.seen)) = [255]) ∧
    ((listed { record1 with state := .lost }).takeFinding finding1).1 = .added ∧
    (readingAgainst 9#32 256).takeFinding finding1 = (.full, readingAgainst 9#32 256) ∧
    (shelf.createdState (.block 7) = .noted ∧ shelf.createdState finding1.place = .pending ∧
      closed.createdState finding1.place = .held) := by decide +kernel

theorem test_defectRequests :
    ((withRequest (listed record1) .readDefects [0#8, 0#8]).Takes .readDefects (request .readDefects [0#8, 0#8]) ∧
      (withRequest (listed record1) .removeDefect [1#8, 0#8]).Takes .removeDefect
        (request .removeDefect [1#8, 0#8]) ∧
      (withRequest (listed record1) .retryDefect [1#8, 0#8]).Takes .retryDefect
        (request .retryDefect [1#8, 0#8])) ∧
    (statusOf shelf .readDefects [0#8, 1#8] = some .badArgument ∧
      (ask (listed record1) .readDefects [0xFF#8, 0#8]) = some (.ok, [1#8, 0#8, 0#8, 0xFF#8, 0#8, 0#8]) ∧
      (ask (listed record1) .readDefects [0#8, 0#8]).map (fun x => x.2.length) = some 42) ∧
    (∀ n ∈ [[0#8, 0#8], [2#8, 0#8]], statusOf (listed record1) .removeDefect n = some .noSuchDefect ∧
      statusOf (listed record1) .retryDefect n = some .noSuchDefect) ∧
    (statusOf (listed record1) .removeDefect [1#8, 0#8] = some .notTerminal ∧
      (after .removeDefect (withRequest (listed { record1 with state := .repaired }) .removeDefect
        [1#8, 0#8])).dfl.records = []) ∧
    ((after .removeDefect (withRequest (readingAgainst 9#32 256) .removeDefect [1#8, 0#8])).dfl.records.length = 255) ∧
    (statusOf (listed { record1 with state := .noted }) .retryDefect [1#8, 0#8] = some .badArgument ∧
      statusOf (listed record1) .retryDefect [1#8, 0#8] = some .notTerminal ∧
      statusOf { shelf with dfl := ⟨[{ record1 with state := .lost }, { record1 with id := 2 }], [], 3⟩ }
        .retryDefect [1#8, 0#8] = some .reelBusy ∧
      ask (listed { record1 with state := .lost, attempts := 2 }) .retryDefect [1#8, 0#8] = some (.ok, [2#8])) :=
  ⟨⟨takes _ _ _ rfl rfl rfl, takes _ _ _ rfl rfl rfl, takes _ _ _ rfl rfl rfl⟩, by decide +kernel⟩

/-- A BLOCK record sends reel and copy as 0 (log 22), a job with no target copy 0xFF. -/
theorem test_absentCopies :
    (Place.block 7).bytes = [0#8, 0#8, 0#8, 0#8, 0#8, 0#8, 0#8, 0#8, 0#8, 7#8, 0#8, 0#8, 0#8, 0#8] ∧
      verify.targetBytes = [0#8, 0#8, 0xFF#8] := by decide

/-- 255 NOTED records, and the scrub of slot 0 stalled with its finding (R106). -/
def waiting (key : Place) (yld : Bool) : State :=
  ({ shelf.setSlot 0 (some { scrub with state := .stalled, finding := some finding1 }) with
     dfl := ⟨List.replicate 254 { record1 with place := .block 5, kind := .block, state := .noted }
       ++ [{ record1 with place := key }], [0], 2⟩ } : State).modPort 1 (fun q => { q with yld := yld })

/-- The admission of the one job that waits: its finding added or a duplicate, and the job RUNNING or YIELDED. -/
theorem test_admission :
    (let told (s : State) : Option (JobState × Nat × Nat) × Nat × Nat :=
       ((s.slot 0).map (fun j => (j.state, j.cursor, j.defective)), s.dfl.records.length, s.dfl.stallOrder.length)
     told (waiting (.frame 1 .a 2) false).admission = (some (.running, 1, 1), 256, 0) ∧
     told (waiting finding1.place false).admission = (some (.running, 1, 1), 255, 0) ∧
     told (waiting (.frame 1 .a 2) true).admission = (some (.yielded, 1, 1), 256, 0)) := by decide +kernel

/-- RPU in SOURCE of record 1, of which this many attempts have been made. -/
def repairing (attempts : Nat) : State :=
  { listed { record1 with state := .repairing, attempts := attempts } with
    rpu := { Rpu.cleared with phase := .source, record := some 1, source := some ⟨.b, 6⟩, target := some ⟨.a, 1⟩ } }

theorem test_repair :
    ((listed record1).mode = .run ∧ (listed record1).rpu.phase = .idle ∧
      shelf.presence reel1.toStoredEntry copy1A = .present ∧ shelf.presence reel1.toStoredEntry copy1B = .present ∧
      (rpuChoice (listed record1)).rpu.phase = .source ∧
      ((rpuChoice (listed record1)).port 6).rpuClaim = some ⟨.read (.frame 4096), 50, 1⟩) ∧
    (rpuChoice (repairing 0) = repairing 0 ∧ rpuChoice shelfSetup = shelfSetup) ∧
    ((repairing 0).repairView.isSome = true ∧ (repairing 2).repairView.isSome = true) ∧
    (((repairing 1).writeStep.port 1).rpuClaim = some ⟨.write [], 100, 1⟩) ∧
    (((repairing 2).writeStep.port 1).rpuClaim = some ⟨.read (.frame 4096), 100, 1⟩) ∧
    ((({ repairing 0 with cat := [{ reel1 with locked := true }] } : State).writeStep.record 1).map (·.state)
      = some .held) ∧
    ((((repairing 0).modPort 1 (fun q => { q with lines := ⟨true, true, true, false⟩ })).writeStep.record 1).map
      (·.detail) = some (some .writeProtected)) := by decide +kernel

/-- What a test looks at of a repair: the state and detail of record 1, and the phase RPU is in. -/
structure Repaired where
  state : Option DefectState
  detail : Option OutcomeDetail
  phase : RpuPhase
  deriving DecidableEq

/-- What is seen of the repair of record 1. -/
def repaired (s : State) : Repaired :=
  ⟨(s.record 1).map (·.state), (s.record 1).bind (·.detail), s.rpu.phase⟩

/-- A choice passes over what it cannot take (R118, R119): a target that is write-protected, and a reel without copy B. -/
theorem test_choices :
    repaired (rpuChoice ((listed record1).modPort 1 (fun q => { q with lines := ⟨true, true, true, false⟩ })))
      = ⟨some .pending, some .writeProtected, .idle⟩ ∧
    repaired (rpuChoice { listed record1 with cat := [{ reel1 with copyB := none }] })
      = ⟨some .lost, some .sourceUnreadable, .idle⟩ ∧
    repaired (rpuChoice (listed { record1 with expected := none })) = ⟨some .repairing, none, .reference⟩ ∧
    repaired (rpuChoice ((listed record1).setPort 6 (offlinePort true))) = ⟨some .pending, none, .idle⟩ := by
  decide +kernel

/-- RPU in a phase of record 1, of which this many attempts have been made, after an outcome on a port. -/
def repairStep (ph : RpuPhase) (attempts : Nat) (p : PortId) (o : DriveOutcome) : Repaired :=
  let s := repairing attempts
  repaired ({ s with rpu := { s.rpu with phase := ph } }.rpuOutcome p o)

/-- The outcomes of the four phases (R121 to R126). -/
theorem test_repairOutcomes :
    (repairStep .reference 0 6 (outcome .good (.block true [5#32] 0#32) []) = ⟨some .repairing, none, .source⟩ ∧
      repairStep .reference 0 6 (outcome .good (.block false [] 0#32) [])
        = ⟨some .repairFailed, some .noReference, .idle⟩) ∧
    (repairStep .source 0 6 (outcome .good (.digest 5#32) []) = ⟨some .repairing, none, .write⟩ ∧
      repairStep .source 0 6 (outcome .good (.digest 6#32) []) = ⟨some .lost, some .sourceMismatch, .idle⟩ ∧
      repairStep .source 0 6 (outcome .mediumError .nothing [0]) = ⟨some .lost, some .sourceUnreadable, .idle⟩ ∧
      repairStep .source 0 6 (outcome .notReady .nothing []) = ⟨some .pending, none, .idle⟩) ∧
    (repairStep .write 1 1 (outcome .good .nothing []) = ⟨some .repairing, none, .readback⟩ ∧
      repairStep .write 1 1 (outcome .mediumError .nothing []) = ⟨some .repairing, none, .write⟩ ∧
      repairStep .write 2 1 (outcome .mediumError .nothing []) = ⟨some .repairFailed, some .writeFailed, .idle⟩ ∧
      repairStep .write 1 1 (outcome .writeProtected .nothing []) = ⟨some .pending, some .writeProtected, .idle⟩) ∧
    (repairStep .readback 1 1 (outcome .good (.digest 5#32) []) = ⟨some .repaired, none, .idle⟩ ∧
      repairStep .readback 1 1 (outcome .good (.digest 6#32) []) = ⟨some .repairing, none, .write⟩ ∧
      repairStep .readback 2 1 (outcome .mediumError .nothing [0])
        = ⟨some .repairFailed, some .readbackMismatch, .idle⟩) := by decide +kernel

/-- A port that RPU is not at changes nothing; its source lost, the record goes back and is chosen again. -/
theorem test_repairPortLost :
    (repairing 1).rpuPortLost 3 = repairing 1 ∧
    repaired ((repairing 1).rpuPortLost 6) = ⟨some .repairing, none, .source⟩ ∧
    (((repairing 1).setPort 6 (offlinePort true)).rpuPortLost 6 |> repaired) = ⟨some .pending, none, .idle⟩ := by
  decide +kernel

theorem test_results :
    ((listed record1).record 1 = some record1 ∧ (listed record1).entry 1 = some reel1) ∧
    ((((listed record1).giveResult 1 .repaired none).entry 1).map (·.copyA.repairedCount) = some 1) ∧
    ((({ listed record1 with cat := [{ reel1 with copyA := { copy1A with lostCount := 65535 } }] } : State).giveResult
      1 .lost none).entry 1).map (·.copyA.lostCount) = some 65535 ∧
    (({ listed record1 with mask := 0x10#8 } : State).giveResult 1 .repaired none).link.posted.length = 1 := by
  decide +kernel

/-! ### The margin monitor and patrol -/

/-- A monitor seeded with a baseline, in a state. -/
def seeded (baseline : Nat) (st : MarginState) (count sum : Nat) : Margin :=
  ⟨sum, 256, true, 0, baseline, 0, st, count⟩

/-- Table 7-4: baseline steps at k = 4. -/
theorem test_baselineSteps :
    baselineStep 4 260 200 = 203 ∧ baselineStep 4 195 203 = 202 ∧ baselineStep 4 202 202 = 202 ∧
      baselineStep 4 10 500 = 470 ∧ baselineStep 4 65535 65530 = 65531 ∧
      ((seeded 200 .steady 0 260).close PortSettings.factory).baseline = 203 := by decide

/-- Table 12-3, and the two edges of each move of the margin state. -/
theorem test_marginMoves :
    (let c1 := (seeded 250 .steady 0 660).close PortSettings.factory
     let c2 := { c1 with windowSum := 680 }.close PortSettings.factory
     let c3 := { c2 with windowSum := 705 }.close PortSettings.factory
     (c1.difference, c1.state, c1.debounceCount, c1.baseline) = (410, .steady, 1, 250) ∧
     (c2.difference, c2.state, c2.debounceCount, c2.baseline) = (430, .steady, 2, 250) ∧
     (c3.difference, c3.state, c3.debounceCount, c3.baseline) = (455, .low, 0, 250)) ∧
    (((seeded 0 .steady 0 400).close PortSettings.factory).debounceCount = 1 ∧
      ((seeded 0 .steady 2 399).close PortSettings.factory).debounceCount = 0) ∧
    (((seeded 0 .low 2 299).close PortSettings.factory).state = .steady ∧
      ((seeded 0 .low 2 300).close PortSettings.factory).state = .low) ∧
    ((Margin.cleared.feed PortSettings.factory 7 256).baseline = 7 ∧ Margin.cleared.seeded = false) ∧
    ((seeded 9 .steady 0 9).close PortSettings.factory).difference = 0 := by decide

/-- 12.3: a due time halved in LOW, and at an interval of one day. -/
theorem test_dueTimes :
    (let c := { copy1A with lastScrub := some 4000000 }
     let e : StoredEntry := { reel1.toStoredEntry with intervalDays := 30 }
     dueTime e c .steady = 4043200 ∧ dueTime e c .low = 4021600 ∧
     dueTime { e with intervalDays := 1 } c .low = 4001440 ∧ dueTime e copy1A .low = 0) := by decide

/-- The shelf with patrol on. -/
def patrolled : State := { shelf with pts := ⟨5000000, true, true, true⟩ }

/-- The first row of Table 12-1: the expiry creates a PATROL REEL_SCRUB of copy A, RUNNING, and copy B is no candidate. -/
theorem test_patrolScrub :
    (patrolled.eligible 1 = true ∧ patrolled.chosen 1 = some ⟨⟨1, .a⟩, 0, 3⟩ ∧ patrolled.findSlot = some 0) ∧
    (shelf.evaluate 1 = shelf ∧ patrolled.evaluate 0 = patrolled ∧ patrolled.chosen 0 = none) ∧
    (((after .minuteExpiry patrolled).slot 0).map (fun j => (j.id, j.kind, j.origin, j.state, j.cursor, j.sequence))
      = some (1, .reelScrub, .patrol, .running, 0, 1)) ∧
    ((after .minuteExpiry patrolled).slot 1 = none) ∧
    ((after .minuteExpiry patrolled).port 1).jobClaim = some ⟨.read .blockCheck, 10, 1⟩ := by decide +kernel

/-- The witness of an evaluation that creates a job, and what each condition of R158 and R159 keeps away: a scrub that
waits for media leaves its port eligible and its reel without a candidate. -/
theorem test_patrolConditions :
    ((∀ e ∈ patrolled.cat, patrolled.entry e.reel = some e) ∧ patrolled.jbu.sequence < 4294967295) ∧
    (let waits := patrolled.setSlot 0 (some { scrub with state := .waitMedia })
     waits.eligible 1 = true ∧ waits.candidates 1 = [] ∧ waits.candidates 6 = []) ∧
    (∀ st ∈ [JobState.queued, .running, .stalled],
      (patrolled.setSlot 0 (some { scrub with state := st })).eligible 1 = false) ∧
    (patrolled.setSlot 0 (some { scrub with state := .done })).candidates 1 = [⟨⟨1, .a⟩, 0, 3⟩] ∧
    (patrolled.modPort 1 (fun q => { q with yld := true })).eligible 1 = false ∧
    (patrolled.modPort 1 (fun q => { q with volume := .mounted 0x711#32 102 })).candidates 1 = [] ∧
    ({ patrolled with cat := [{ reel1 with copyA := { copy1A with lastScrub := some 4956801 } }] } : State).candidates 1
      = [] := by decide +kernel

end Sys2Proof.Tests
end

section
/-! SUPPORT. Timecodes (R11 to R16): validity as a proposition, counts and labels, and the conversions that undo
each other. -/

namespace Sys2Proof.Machine

open Sys2Proof

/-! ### Packed BCD digits -/

theorem bcdOk_iff (b : Byte) : bcdOk b = true ↔ b.toNat / 16 ≤ 9 ∧ b.toNat % 16 ≤ 9 := by
  simp only [bcdOk, Bool.and_eq_true, decide_eq_true_eq]
  rfl

/-- A byte of two decimal digits is the packed BCD byte of its value. -/
theorem toBcd_bcdValue {b : Byte} (h : bcdOk b = true) : toBcd (bcdValue b) = b := by
  obtain ⟨hten, hunit⟩ := (bcdOk_iff b).mp h
  apply BitVec.eq_of_toNat_eq
  simp only [toBcd, bcdValue, tens, units, BitVec.toNat_ofNat]
  omega

/-! ### Labels and validity (R11, R12) -/

/-- The number of a timecode's label among all labels from 00:00:00:00, the dropped ones included. -/
def Timecode.labels (fps : Nat) (t : Timecode) : Nat :=
  ((bcdValue t.hh * 60 + bcdValue t.mm) * 60 + bcdValue t.ss) * fps + bcdValue t.ff

/-- The digits are decimal and the fields lie in their ranges (R11). -/
structure Timecode.InRange (fps : Nat) (t : Timecode) : Prop where
  digits : ∀ b ∈ [t.hh, t.mm, t.ss, t.ff], bcdOk b = true
  hours : bcdValue t.hh ≤ 23
  minutes : bcdValue t.mm ≤ 59
  seconds : bcdValue t.ss ≤ 59
  frames : bcdValue t.ff < fps

theorem RateCode.fps_pos (r : RateCode) : 0 < r.fps := by cases r <;> decide

theorem RateCode.fps_le (r : RateCode) : r.fps ≤ 100 := by cases r <;> decide

/-- The test of R11 and R12 is the ranges and, at F30D, no dropped label. -/
theorem Timecode.valid_iff (r : RateCode) (t : Timecode) :
    t.valid r = true ↔ t.InRange r.fps ∧ (r = .f30d → t.dropped = false) := by
  have hpos := r.fps_pos
  simp only [Timecode.valid, Bool.and_eq_true, decide_eq_true_eq, Bool.not_eq_true', Bool.and_eq_false_imp]
  constructor
  · rintro ⟨⟨⟨⟨⟨⟨⟨⟨h1, h2⟩, h3⟩, h4⟩, hh⟩, hm⟩, hs⟩, hf⟩, hd⟩
    exact ⟨⟨by simp [h1, h2, h3, h4], hh, hm, hs, by omega⟩, hd⟩
  · rintro ⟨⟨hdig, hh, hm, hs, hf⟩, hd⟩
    simp only [List.forall_mem_cons] at hdig
    obtain ⟨h1, h2, h3, h4, -⟩ := hdig
    exact ⟨⟨⟨⟨⟨⟨⟨⟨h1, h2⟩, h3⟩, h4⟩, hh⟩, hm⟩, hs⟩, by omega⟩, hd⟩

theorem Timecode.dropped_iff (t : Timecode) :
    t.dropped = true ↔ bcdValue t.ss = 0 ∧ bcdValue t.ff ≤ 1 ∧ bcdValue t.mm % 10 ≠ 0 := by
  simp only [Timecode.dropped, Bool.and_eq_true, decide_eq_true_eq, and_assoc]

/-- Labels in range are fewer than those of a day. -/
theorem Timecode.InRange.labels_lt {fps : Nat} {t : Timecode} (h : t.InRange fps) :
    t.labels fps < 86400 * fps := by
  obtain ⟨-, hh, hm, hs, hf⟩ := h
  have hS : (bcdValue t.hh * 60 + bcdValue t.mm) * 60 + bcdValue t.ss + 1 ≤ 86400 := by omega
  calc t.labels fps
      < ((bcdValue t.hh * 60 + bcdValue t.mm) * 60 + bcdValue t.ss + 1) * fps := by
        rw [Timecode.labels, Nat.succ_mul]; omega
    _ ≤ 86400 * fps := Nat.mul_le_mul_right fps hS

/-- The fields of the timecode of a number of labels of the day. -/
theorem bcdValue_timecodeOfLabels {fps n : Nat} (hpos : 0 < fps) (hfps : fps ≤ 100) (hn : n < 86400 * fps) :
    let t := timecodeOfLabels fps n
    bcdValue t.hh = n / fps / 3600 ∧ bcdValue t.mm = n / fps / 60 % 60 ∧ bcdValue t.ss = n / fps % 60 ∧
      bcdValue t.ff = n % fps ∧ ∀ b ∈ [t.hh, t.mm, t.ss, t.ff], bcdOk b = true := by
  have hsec : n / fps < 86400 := Nat.div_lt_of_lt_mul (by rwa [Nat.mul_comm])
  have hff : n % fps < fps := Nat.mod_lt n hpos
  obtain ⟨h1, o1⟩ := bcdValue_toBcd (n / fps / 3600) (by omega)
  obtain ⟨h2, o2⟩ := bcdValue_toBcd (n / fps / 60 % 60) (by omega)
  obtain ⟨h3, o3⟩ := bcdValue_toBcd (n / fps % 60) (by omega)
  obtain ⟨h4, o4⟩ := bcdValue_toBcd (n % fps) (by omega)
  exact ⟨h1, h2, h3, h4, by simp [timecodeOfLabels, o1, o2, o3, o4]⟩

theorem timecodeOfLabels_inRange {fps n : Nat} (hpos : 0 < fps) (hfps : fps ≤ 100) (hn : n < 86400 * fps) :
    (timecodeOfLabels fps n).InRange fps := by
  obtain ⟨hh, hm, hs, hf, hok⟩ := bcdValue_timecodeOfLabels hpos hfps hn
  have hsec : n / fps < 86400 := Nat.div_lt_of_lt_mul (by rwa [Nat.mul_comm])
  exact ⟨hok, by omega, by omega, by omega, by rw [hf]; exact Nat.mod_lt n hpos⟩

theorem labels_timecodeOfLabels {fps n : Nat} (hpos : 0 < fps) (hfps : fps ≤ 100) (hn : n < 86400 * fps) :
    (timecodeOfLabels fps n).labels fps = n := by
  obtain ⟨hh, hm, hs, hf, -⟩ := bcdValue_timecodeOfLabels hpos hfps hn
  have hsec : (n / fps / 3600 * 60 + n / fps / 60 % 60) * 60 + n / fps % 60 = n / fps := by omega
  rw [Timecode.labels, hh, hm, hs, hf, hsec, Nat.div_add_mod']

theorem timecodeOfLabels_labels {fps : Nat} {t : Timecode} (h : t.InRange fps) :
    timecodeOfLabels fps (t.labels fps) = t := by
  obtain ⟨hdig, hh, hm, hs, hf⟩ := h
  simp only [List.forall_mem_cons] at hdig
  obtain ⟨h1, h2, h3, h4, -⟩ := hdig
  have hsec : t.labels fps / fps = (bcdValue t.hh * 60 + bcdValue t.mm) * 60 + bcdValue t.ss := by
    rw [Timecode.labels, Nat.mul_comm, Nat.mul_add_div (by omega), Nat.div_eq_of_lt hf, Nat.add_zero]
  have hff : t.labels fps % fps = bcdValue t.ff := by
    rw [Timecode.labels, Nat.mul_comm, Nat.mul_add_mod, Nat.mod_eq_of_lt hf]
  have e1 : t.labels fps / fps / 3600 = bcdValue t.hh := by omega
  have e2 : t.labels fps / fps / 60 % 60 = bcdValue t.mm := by omega
  have e3 : t.labels fps / fps % 60 = bcdValue t.ss := by omega
  simp only [timecodeOfLabels, e1, e2, e3, hff, toBcd_bcdValue h1, toBcd_bcdValue h2, toBcd_bcdValue h3,
    toBcd_bcdValue h4]

/-! ### Dropped labels (R13, R14) -/

/-- The dropped labels of the minutes begun up to label `n`: two in each minute that is no multiple of 10. -/
def droppedBefore (n : Nat) : Nat := 2 * (n / 1800 - n / 18000)

/-- Label `n` of the F30D day is dropped: it is one of the first two of a minute that is no multiple of 10. -/
def IsDropped (n : Nat) : Prop := n % 1800 < 2 ∧ n / 1800 % 10 ≠ 0

/-- A count put back among the labels is a label of the day that is not dropped, and has that count. -/
theorem dropFrameLabels_spec {c : Nat} (hc : c < 2589408) :
    dropFrameLabels c < 2592000 ∧ ¬ IsDropped (dropFrameLabels c) ∧
      dropFrameLabels c - droppedBefore (dropFrameLabels c) = c := by
  unfold dropFrameLabels IsDropped droppedBefore
  dsimp only
  split <;> omega

/-- A label of the day that is not dropped has a count below the day count, and the count put back is the label. -/
theorem dropFrameLabels_count {n : Nat} (hn : n < 2592000) (hd : ¬ IsDropped n) :
    n - droppedBefore n < 2589408 ∧ dropFrameLabels (n - droppedBefore n) = n := by
  unfold IsDropped at hd
  unfold dropFrameLabels droppedBefore
  dsimp only
  split <;> omega

theorem Timecode.InRange.dropped_iff {t : Timecode} (h : t.InRange 30) :
    t.dropped = true ↔ IsDropped (t.labels 30) := by
  obtain ⟨-, hh, hm, hs, hf⟩ := h
  rw [Timecode.dropped_iff, IsDropped, Timecode.labels]
  omega

/-! ### Counts (R13) -/

theorem Timecode.count_of_ne {r : RateCode} (h : r ≠ .f30d) (t : Timecode) : t.count r = t.labels r.fps := by
  cases r with
  | f24 | f25 | f30n => rfl
  | f30d => exact absurd rfl h

theorem Timecode.count_f30d {t : Timecode} (h : t.InRange 30) :
    t.count .f30d = t.labels 30 - droppedBefore (t.labels 30) := by
  obtain ⟨-, hh, hm, hs, hf⟩ := h
  have hmin : t.labels 30 / 1800 = 60 * bcdValue t.hh + bcdValue t.mm := by rw [Timecode.labels]; omega
  have hten : t.labels 30 / 18000 = (60 * bcdValue t.hh + bcdValue t.mm) / 10 := by omega
  rw [droppedBefore, hmin, hten]
  rfl

/-- The count at F30D and the labels dropped before the timecode make up its label (R13). -/
theorem Timecode.count_add_dropped (t : Timecode) :
    let m := 60 * bcdValue t.hh + bcdValue t.mm
    t.count .f30d + 2 * (m - m / 10) =
      (bcdValue t.hh * 3600 + bcdValue t.mm * 60 + bcdValue t.ss) * 30 + bcdValue t.ff := by
  have hcount : t.count .f30d = t.labels 30 - 2 * (60 * bcdValue t.hh + bcdValue t.mm -
    (60 * bcdValue t.hh + bcdValue t.mm) / 10) := rfl
  dsimp only
  rw [hcount, Timecode.labels]
  omega

theorem RateCode.dayCount_of_ne {r : RateCode} (h : r ≠ .f30d) : r.dayCount = 86400 * r.fps := by
  cases r with
  | f24 | f25 | f30n => rfl
  | f30d => exact absurd rfl h

theorem timecodeOfCount_of_ne {r : RateCode} (h : r ≠ .f30d) (c : Nat) :
    timecodeOfCount r c = timecodeOfLabels r.fps c := by
  cases r with
  | f24 | f25 | f30n => rfl
  | f30d => exact absurd rfl h

/-- The label of a valid timecode at F30D is not dropped. -/
theorem Timecode.not_isDropped {t : Timecode} (h : t.valid .f30d = true) : ¬ IsDropped (t.labels 30) := by
  obtain ⟨hr, hd⟩ := (Timecode.valid_iff _ _).mp h
  rw [← Timecode.InRange.dropped_iff hr, hd rfl]
  exact Bool.false_ne_true

theorem Timecode.count_lt {r : RateCode} {t : Timecode} (h : t.valid r = true) : t.count r < r.dayCount := by
  have hr := ((Timecode.valid_iff _ _).mp h).1
  by_cases hf : r = .f30d
  · subst hf
    rw [Timecode.count_f30d hr]
    exact (dropFrameLabels_count hr.labels_lt (Timecode.not_isDropped h)).1
  · rw [Timecode.count_of_ne hf, RateCode.dayCount_of_ne hf]
    exact hr.labels_lt

/-! ### A count and its timecode (R14, R16) -/

theorem timecodeOfCount_valid {r : RateCode} {c : Nat} (hc : c < r.dayCount) :
    (timecodeOfCount r c).valid r = true := by
  rw [Timecode.valid_iff]
  by_cases hf : r = .f30d
  · subst hf
    obtain ⟨hlt, hnd, -⟩ := dropFrameLabels_spec hc
    have hr := timecodeOfLabels_inRange (fps := 30) (by decide) (by decide) hlt
    have hl := labels_timecodeOfLabels (fps := 30) (by decide) (by decide) hlt
    refine ⟨hr, fun _ => ?_⟩
    rw [← Bool.not_eq_true, timecodeOfCount, hr.dropped_iff, hl]
    exact hnd
  · rw [timecodeOfCount_of_ne hf]
    rw [RateCode.dayCount_of_ne hf] at hc
    exact ⟨timecodeOfLabels_inRange r.fps_pos r.fps_le hc, fun e => absurd e hf⟩

theorem count_timecodeOfCount {r : RateCode} {c : Nat} (hc : c < r.dayCount) :
    (timecodeOfCount r c).count r = c := by
  by_cases hf : r = .f30d
  · subst hf
    obtain ⟨hlt, -, hcount⟩ := dropFrameLabels_spec hc
    rw [Timecode.count_f30d ((Timecode.valid_iff _ _).mp (timecodeOfCount_valid hc)).1, timecodeOfCount,
      labels_timecodeOfLabels (fps := 30) (by decide) (by decide) hlt, hcount]
  · rw [timecodeOfCount_of_ne hf, Timecode.count_of_ne hf]
    rw [RateCode.dayCount_of_ne hf] at hc
    exact labels_timecodeOfLabels r.fps_pos r.fps_le hc

theorem timecodeOfCount_count {r : RateCode} {t : Timecode} (h : t.valid r = true) :
    timecodeOfCount r (t.count r) = t := by
  have hr := ((Timecode.valid_iff _ _).mp h).1
  by_cases hf : r = .f30d
  · subst hf
    obtain ⟨-, hback⟩ := dropFrameLabels_count hr.labels_lt (Timecode.not_isDropped h)
    rw [Timecode.count_f30d hr]
    exact (congrArg (timecodeOfLabels 30) hback).trans (timecodeOfLabels_labels hr)
  · rw [Timecode.count_of_ne hf, timecodeOfCount_of_ne hf]
    exact timecodeOfLabels_labels hr

/-! ### Frame indexes (R15, R16) -/

theorem RateCode.million_lt_dayCount (r : RateCode) : 1000000 < r.dayCount := by cases r <;> decide

theorem indexOfTimecode_lt (r : RateCode) (start t : Timecode) : indexOfTimecode r start t < r.dayCount := by
  have hday := r.million_lt_dayCount
  have hmod : ((t.count r : Int) - start.count r) % r.dayCount < r.dayCount :=
    Int.emod_lt_of_pos _ (by omega)
  rw [indexOfTimecode]
  omega

theorem timecodeOfIndex_valid (r : RateCode) (start : Timecode) (i : Nat) :
    (timecodeOfIndex r start i).valid r = true :=
  timecodeOfCount_valid (Nat.mod_lt _ (Nat.lt_trans (by decide) r.million_lt_dayCount))

/-- An index below the day count comes back from its timecode, whatever the start timecode. -/
theorem indexOfTimecode_timecodeOfIndex (r : RateCode) (start : Timecode) {i : Nat} (hi : i < r.dayCount) :
    indexOfTimecode r start (timecodeOfIndex r start i) = i := by
  have hcount : (timecodeOfIndex r start i).count r = (start.count r + i) % r.dayCount :=
    count_timecodeOfCount (Nat.mod_lt _ (by omega))
  have hmod : (((start.count r + i : Nat) : Int) % r.dayCount - start.count r) % r.dayCount = i := by
    rw [Int.emod_sub_emod, Nat.cast_add, add_sub_cancel_left]
    exact Int.emod_eq_of_lt (by omega) (by omega)
  rw [indexOfTimecode, hcount, Int.natCast_emod, hmod, Int.toNat_natCast]

theorem timecodeToIndex_of_invalid {r : RateCode} {t : Timecode} (h : t.valid r = false) (start : Timecode)
    (limit : Nat) : timecodeToIndex r start t limit = .error .badTimecode := by
  simp [timecodeToIndex, h]

theorem timecodeToIndex_of_le {r : RateCode} {start t : Timecode} {limit : Nat} (h : t.valid r = true)
    (hl : limit ≤ indexOfTimecode r start t) : timecodeToIndex r start t limit = .error .outOfReel := by
  simp [timecodeToIndex, h, Nat.not_lt.mpr hl]

theorem timecodeToIndex_of_lt {r : RateCode} {start t : Timecode} {limit : Nat} (h : t.valid r = true)
    (hl : indexOfTimecode r start t < limit) :
    timecodeToIndex r start t limit = .ok (indexOfTimecode r start t) := by
  simp [timecodeToIndex, h, hl]

end Sys2Proof.Machine
end

section
/-! SUPPORT. What CONVERT comes to (R18, R19): its checks one by one, then its two directions. -/

namespace Sys2Proof.Machine

open Sys2Proof

/-! ### What a conversion uses (R18 steps 2 to 4) -/

theorem State.conversion_reel {s : State} {n : Nat} {e : Entry} (hn : n ≠ 0) (he : s.entry n = some e)
    (rateByte : Nat) (start : Timecode) :
    s.conversion n rateByte start = .ok ⟨e.rate, e.start, e.frameCount⟩ := by
  simp [State.conversion, hn, he]

theorem State.conversion_noSuchReel {s : State} {n : Nat} (hn : n ≠ 0) (he : s.entry n = none)
    (rateByte : Nat) (start : Timecode) : s.conversion n rateByte start = .error .noSuchReel := by
  simp [State.conversion, hn, he]

theorem State.conversion_noRate (s : State) {rateByte : Nat} (h : RateCode.ofCode rateByte = none)
    (start : Timecode) : s.conversion 0 rateByte start = .error .badArgument := by
  simp [State.conversion, h]

theorem State.conversion_badStart (s : State) {rateByte : Nat} {r : RateCode} {start : Timecode}
    (h : RateCode.ofCode rateByte = some r) (hv : start.valid r = false) :
    s.conversion 0 rateByte start = .error .badTimecode := by
  simp [State.conversion, h, hv]

theorem State.conversion_day (s : State) {rateByte : Nat} {r : RateCode} {start : Timecode}
    (h : RateCode.ofCode rateByte = some r) (hv : start.valid r = true) :
    s.conversion 0 rateByte start = .ok ⟨r, start, r.dayCount⟩ := by
  simp [State.conversion, h, hv]

/-! ### The action (R18, R19) -/

/-- What the conversion of a CONVERT payload uses. -/
def State.conversionOf (s : State) (p : List Byte) : Except Status Conversion :=
  s.conversion (field p 1 2) (field p 3 1) (timecodeAt p 4)

theorem convertAction_badDirection {p : List Byte} (h1 : field p 0 1 ≠ 1) (h2 : field p 0 1 ≠ 2) (s : State) :
    convertAction p s = .refuse .badArgument := by
  simp [convertAction, h1, h2]

theorem convertAction_error {p : List Byte} {s : State} {st : Status} (hd : field p 0 1 = 1 ∨ field p 0 1 = 2)
    (hc : s.conversionOf p = .error st) : convertAction p s = .refuse st := by
  rw [State.conversionOf] at hc
  rcases hd with hd | hd <;> simp [convertAction, hd, hc]

theorem convertAction_toIndex_error {p : List Byte} {s : State} {c : Conversion} {st : Status}
    (hd : field p 0 1 = 1) (hc : s.conversionOf p = .ok c)
    (hi : timecodeToIndex c.rate c.start (timecodeAt p 8) c.limit = .error st) :
    convertAction p s = .refuse st := by
  rw [State.conversionOf] at hc
  simp [convertAction, hd, hc, hi]

theorem convertAction_toIndex {p : List Byte} {s : State} {c : Conversion} {i : Nat}
    (hd : field p 0 1 = 1) (hc : s.conversionOf p = .ok c)
    (hi : timecodeToIndex c.rate c.start (timecodeAt p 8) c.limit = .ok i) :
    convertAction p s = .perform s .ok (convertFields c i (timecodeAt p 8)) := by
  rw [State.conversionOf] at hc
  simp [convertAction, hd, hc, hi]

theorem convertAction_pastLimit {p : List Byte} {s : State} {c : Conversion}
    (hd : field p 0 1 = 2) (hc : s.conversionOf p = .ok c) (hi : c.limit ≤ field p 12 4) :
    convertAction p s = .refuse .outOfReel := by
  rw [State.conversionOf] at hc
  simp [convertAction, hd, hc, Nat.not_lt.mpr hi]

theorem convertAction_toTimecode {p : List Byte} {s : State} {c : Conversion}
    (hd : field p 0 1 = 2) (hc : s.conversionOf p = .ok c) (hi : field p 12 4 < c.limit) :
    convertAction p s =
      .perform s .ok (convertFields c (field p 12 4) (timecodeOfIndex c.rate c.start (field p 12 4))) := by
  rw [State.conversionOf] at hc
  simp [convertAction, hd, hc, hi]

/-! ### The command -/

theorem exec_convert_refuse {s : State} {r : Request} {st : Status} (h : s.Takes .convert r)
    (ha : convertAction r.payload s = .refuse st) : exec .convert s = .next (s.answer st []) :=
  congrArg _ (State.runRequest_refuse h ha)

theorem exec_convert_ok {s : State} {r : Request} {fields : List Byte} (h : s.Takes .convert r)
    (ha : convertAction r.payload s = .perform s .ok fields) : exec .convert s = .next (s.answer .ok fields) :=
  congrArg _ (State.runRequest_perform h ha)

end Sys2Proof.Machine
end

section
/-! SUPPORT. What START_SCRUB and START_VERIFY come to (R87 to R89): the range of each form, then the checks of the
two actions one by one. -/

namespace Sys2Proof.Machine

open Sys2Proof

/-! ### The range of a START_SCRUB (R87 steps 3 to 5) -/

theorem scrubRange_whole (e : StoredEntry) {p : List Byte} (h : field p 3 1 = 0) :
    scrubRange e p = .ok (.reelScrub, 0, e.frameCount - 1) := by
  simp [scrubRange, h]

theorem scrubRange_noForm (e : StoredEntry) {p : List Byte} (h : 3 ≤ field p 3 1) :
    scrubRange e p = .error .badArgument := by
  obtain ⟨n, hn⟩ := Nat.exists_eq_add_of_le' h
  simp [scrubRange, hn]

section indexForm

variable {e : StoredEntry} {p : List Byte} (h : field p 3 1 = 1)
include h

theorem scrubRange_pastReel (ho : e.frameCount ≤ field p 4 4 ∨ e.frameCount ≤ field p 8 4) :
    scrubRange e p = .error .outOfReel := by
  simp [scrubRange, h, ho]

theorem scrubRange_indexesReversed (hf : field p 4 4 < e.frameCount) (hl : field p 8 4 < e.frameCount)
    (hlt : field p 8 4 < field p 4 4) : scrubRange e p = .error .badArgument := by
  simp [scrubRange, h, Nat.not_le.mpr hf, Nat.not_le.mpr hl, hlt]

theorem scrubRange_indexes (hle : field p 4 4 ≤ field p 8 4) (hl : field p 8 4 < e.frameCount) :
    scrubRange e p = .ok (.rangeScrub, field p 4 4, field p 8 4) := by
  simp [scrubRange, h, Nat.not_le.mpr hl, Nat.not_le.mpr (Nat.lt_of_le_of_lt hle hl), Nat.not_lt.mpr hle]

end indexForm

section timecodeForm

variable {e : StoredEntry} {p : List Byte} (h : field p 3 1 = 2)
include h

theorem scrubRange_firstError {st : Status}
    (hf : timecodeToIndex e.rate e.start (timecodeAt p 12) e.frameCount = .error st) :
    scrubRange e p = .error st := by
  simp [scrubRange, h, hf]

theorem scrubRange_lastError {a : Nat} {st : Status}
    (hf : timecodeToIndex e.rate e.start (timecodeAt p 12) e.frameCount = .ok a)
    (hl : timecodeToIndex e.rate e.start (timecodeAt p 16) e.frameCount = .error st) :
    scrubRange e p = .error st := by
  simp [scrubRange, h, hf, hl]

section bothInReel

variable {a b : Nat} (hf : timecodeToIndex e.rate e.start (timecodeAt p 12) e.frameCount = .ok a)
  (hl : timecodeToIndex e.rate e.start (timecodeAt p 16) e.frameCount = .ok b)
include hf hl

theorem scrubRange_timecodesReversed (hlt : b < a) : scrubRange e p = .error .badArgument := by
  simp [scrubRange, h, hf, hl, hlt]

theorem scrubRange_timecodes (hle : a ≤ b) : scrubRange e p = .ok (.rangeScrub, a, b) := by
  simp [scrubRange, h, hf, hl, Nat.not_lt.mpr hle]

end bothInReel

end timecodeForm

/-! ### START_SCRUB (R87, R88) -/

theorem State.namedEntry_eq_none {s : State} {n : Nat} (h : n = 0 ∨ s.entry n = none) :
    s.namedEntry n = none := by
  rcases h with h | h <;> simp [State.namedEntry, h]

theorem State.namedEntry_of_ne {s : State} {n : Nat} (h : n ≠ 0) : s.namedEntry n = s.entry n :=
  if_neg h

section scrub

variable {s : State} {p : List Byte} {e : Entry} {k : CopyId} {c : CopyDesc} {kind : JobKind} {first last : Nat}

theorem startScrubAction_noReel (h : s.namedEntry (field p 0 2) = none) :
    startScrubAction p s = .refuse .noSuchReel := by
  simp [startScrubAction, h]

theorem startScrubAction_noCopy (he : s.namedEntry (field p 0 2) = some e)
    (hc : copyAsked e.toStoredEntry (field p 2 1) = none) :
    startScrubAction p s = .refuse .badArgument := by
  simp [startScrubAction, he, hc]

theorem startScrubAction_badRange {st : Status} (he : s.namedEntry (field p 0 2) = some e)
    (hc : copyAsked e.toStoredEntry (field p 2 1) = some (k, c))
    (hr : scrubRange e.toStoredEntry p = .error st) : startScrubAction p s = .refuse st := by
  simp [startScrubAction, he, hc, hr]

variable (he : s.namedEntry (field p 0 2) = some e)
  (hc : copyAsked e.toStoredEntry (field p 2 1) = some (k, c))
  (hr : scrubRange e.toStoredEntry p = .ok (kind, first, last))
include he hc hr

theorem startScrubAction_targeted (ht : s.copyTargeted ⟨e.reel, k⟩ = true) :
    startScrubAction p s = .refuse .reelBusy := by
  simp [startScrubAction, he, hc, hr, ht]

theorem startScrubAction_offline (ht : s.copyTargeted ⟨e.reel, k⟩ = false)
    (ho : (s.port c.port).state = .offline) : startScrubAction p s = .refuse .portOffline := by
  simp [startScrubAction, he, hc, hr, ht, State.isOffline, ho]

theorem startScrubAction_noSlot (ht : s.copyTargeted ⟨e.reel, k⟩ = false)
    (ho : (s.port c.port).state ≠ .offline) (hs : s.findSlot = none) :
    startScrubAction p s = .refuse .noSlot := by
  simp [startScrubAction, he, hc, hr, ht, State.isOffline, ho, hs]

theorem startScrubAction_job {i : SlotId} (ht : s.copyTargeted ⟨e.reel, k⟩ = false)
    (ho : (s.port c.port).state ≠ .offline) (hs : s.findSlot = some i) :
    startScrubAction p s = .perform
      (s.startJob i (newJob (s.idFor i) kind .requested (some ⟨e.reel, k⟩) c.port first (some last)))
      .accepted (le 2 (s.idFor i)) := by
  simp [startScrubAction, he, hc, hr, ht, State.isOffline, ho, hs]

end scrub

theorem exec_startScrub_refuse {s : State} {r : Request} {st : Status} (h : s.Takes .startScrub r)
    (ha : startScrubAction r.payload s = .refuse st) : exec .startScrub s = .next (s.answer st []) :=
  congrArg _ (State.runRequest_refuse h ha)

theorem exec_startScrub_perform {s t : State} {r : Request} {st : Status} {fields : List Byte}
    (h : s.Takes .startScrub r) (ha : startScrubAction r.payload s = .perform t st fields) :
    exec .startScrub s = .next (t.answer st fields) :=
  congrArg _ (State.runRequest_perform h ha)

/-! ### START_VERIFY (R89) -/

theorem portOfNat_of_le {n : Nat} (h : 8 ≤ n) : portOfNat n = none :=
  dif_neg (Nat.not_lt.mpr h)

theorem portOfNat_val (p : PortId) : portOfNat p.val = some p :=
  dif_pos p.isLt

/-- A verify is on a port: some slot holds one that has not ended (R89 step 3). -/
theorem State.verifyOn_iff (s : State) (n : PortId) :
    s.verifyOn n = true ↔
      ∃ i j, s.slot i = some j ∧ j.port = n ∧ j.kind = .volumeVerify ∧ j.state.terminal = false := by
  have htest (j : Job) : (decide (j.port = n) && j.live && decide (j.kind = .volumeVerify)) = true ↔
      j.port = n ∧ j.kind = .volumeVerify ∧ j.state.terminal = false := by
    simp only [Job.live, Bool.and_eq_true, decide_eq_true_eq, Bool.not_eq_true', and_assoc]
    tauto
  rw [State.verifyOn, Bool.not_eq_true', List.isEmpty_eq_false_iff_exists_mem]
  constructor
  · rintro ⟨i, hi⟩
    obtain ⟨j, hj, hf⟩ := State.mem_slotsWhere hi
    exact ⟨i, j, hj, (htest j).mp hf⟩
  · rintro ⟨i, j, hj, hf⟩
    exact ⟨i, State.slotsWhere_mem hj ((htest j).mpr hf)⟩

section verify

variable {s : State} {p : List Byte} {n : PortId}

theorem startVerifyAction_noPort (h : 8 ≤ field p 0 1) : startVerifyAction p s = .refuse .badArgument := by
  simp [startVerifyAction, portOfNat_of_le h]

variable (hn : field p 0 1 = n.val)
include hn

theorem startVerifyAction_offline (ho : (s.port n).state = .offline) :
    startVerifyAction p s = .refuse .portOffline := by
  simp [startVerifyAction, hn, portOfNat_val, State.isOffline, ho]

variable (ho : (s.port n).state ≠ .offline)
include ho

theorem startVerifyAction_busy (hv : s.verifyOn n = true) : startVerifyAction p s = .refuse .busy := by
  simp [startVerifyAction, hn, portOfNat_val, State.isOffline, ho, hv]

theorem startVerifyAction_noSlot (hv : s.verifyOn n = false) (hs : s.findSlot = none) :
    startVerifyAction p s = .refuse .noSlot := by
  simp [startVerifyAction, hn, portOfNat_val, State.isOffline, ho, hv, hs]

theorem startVerifyAction_job {i : SlotId} (hv : s.verifyOn n = false) (hs : s.findSlot = some i) :
    startVerifyAction p s = .perform
      (s.startJob i (newJob (s.idFor i) .volumeVerify .requested none n 1 none))
      .accepted (le 2 (s.idFor i)) := by
  simp [startVerifyAction, hn, portOfNat_val, State.isOffline, ho, hv, hs]

end verify

theorem exec_startVerify_refuse {s : State} {r : Request} {st : Status} (h : s.Takes .startVerify r)
    (ha : startVerifyAction r.payload s = .refuse st) : exec .startVerify s = .next (s.answer st []) :=
  congrArg _ (State.runRequest_refuse h ha)

theorem exec_startVerify_perform {s t : State} {r : Request} {st : Status} {fields : List Byte}
    (h : s.Takes .startVerify r) (ha : startVerifyAction r.payload s = .perform t st fields) :
    exec .startVerify s = .next (t.answer st fields) :=
  congrArg _ (State.runRequest_perform h ha)

end Sys2Proof.Machine
end

section
/-! SUPPORT. The digest engine (R7 to R9) by what it has folded, and the slots of a manifest block (R4). -/

namespace Sys2Proof.Machine

open Sys2Proof

/-! ### Digests (R7, R8) -/

/-- Both halves of a digest are the sums themselves. -/
theorem digest_toNat (data : List Byte) :
    (digest data).toNat = (digestSums data 1 0).2 * 65536 + (digestSums data 1 0).1 := by
  obtain ⟨h1, h2⟩ := digestSums_lt data 1 0 (by decide) (by decide)
  rw [digestModulus] at h1 h2
  rw [digest, digestOfSums, BitVec.toNat_ofNat]
  omega

theorem digest_halves_lt (data : List Byte) :
    (digest data).toNat % 65536 < 65521 ∧ (digest data).toNat / 65536 < 65521 := by
  obtain ⟨h1, h2⟩ := digestSums_lt data 1 0 (by decide) (by decide)
  rw [digestModulus] at h1 h2
  rw [digest_toNat]
  omega

theorem digest_append_zero {data : List Byte} (h : data.length % 2 = 1) : digest data = digest (data ++ [0#8]) := by
  rw [digest, digest, digestSums_odd data 1 0 h]

/-! ### One byte (R9) -/

section byte

variable {e : DigestEngine} {form : ReadForm} (hform : e.form = some form)
include hform

/-- The first byte of a word waits for its partner. -/
theorem DigestEngine.byte_opens (hlim : e.taken < form.limit) (hhalf : e.half = none) (b : Byte) :
    e.byte b = { e with taken := e.taken + 1, half := some b } := by
  simp [DigestEngine.byte, hform, hlim, hhalf]

/-- The second byte of a word folds it. -/
theorem DigestEngine.byte_folds {a : Byte} (hlim : e.taken < form.limit) (hhalf : e.half = some a) (b : Byte) :
    e.byte b = { e with taken := e.taken + 1 }.word (a.toNat + 256 * b.toNat) := by
  simp [DigestEngine.byte, hform, hlim, hhalf]

/-- A byte at or past the limit leaves the sums and the open half word alone. -/
theorem DigestEngine.byte_passes (hlim : form.limit ≤ e.taken) (b : Byte) :
    ∃ check, e.byte b = { e with taken := e.taken + 1, check := check } := by
  cases form with
  | blockCheck =>
    by_cases hroom : e.check.length < 4
    · exact ⟨e.check ++ [b], by simp [DigestEngine.byte, hform, Nat.not_lt.mpr hlim, hroom]⟩
    · exact ⟨e.check, by simp [DigestEngine.byte, hform, Nat.not_lt.mpr hlim, hroom]⟩
  | frame n => exact ⟨e.check, by simp [DigestEngine.byte, hform, Nat.not_lt.mpr hlim]⟩
  | pass => exact ⟨e.check, by simp [DigestEngine.byte, hform, Nat.not_lt.mpr hlim]⟩

end byte

/-- In block-check form the bytes past the limit are kept, up to four (R5, R9). -/
theorem DigestEngine.byte_keeps {e : DigestEngine} (hform : e.form = some .blockCheck)
    (hlim : checkedBytes ≤ e.taken) (hroom : e.check.length < 4) (b : Byte) :
    e.byte b = { e with taken := e.taken + 1, check := e.check ++ [b] } := by
  simp [DigestEngine.byte, hform, ReadForm.limit, Nat.not_lt.mpr hlim, hroom]

/-! ### The end of a reply -/

@[simp] theorem DigestEngine.complete_form (e : DigestEngine) : e.complete.form = e.form := by
  unfold DigestEngine.complete
  split <;> rfl

@[simp] theorem DigestEngine.complete_taken (e : DigestEngine) : e.complete.taken = e.taken := by
  unfold DigestEngine.complete
  split <;> rfl

@[simp] theorem DigestEngine.complete_check (e : DigestEngine) : e.complete.check = e.check := by
  unfold DigestEngine.complete
  split <;> rfl

theorem DigestEngine.complete_of_none {e : DigestEngine} (h : e.half = none) : e.complete = e := by
  simp [DigestEngine.complete, h]

/-- Neither the bytes counted nor the stored check has a part in the digest. -/
theorem DigestEngine.complete_value_update (e : DigestEngine) (taken : Nat) (check : List Byte) :
    ({ e with taken := taken, check := check } : DigestEngine).complete.value = e.complete.value := by
  unfold DigestEngine.complete
  cases h : e.half <;> rfl

/-! ### The data of a reply (R9) -/

theorem DigestEngine.feed_append (a b : List Byte) : ∀ e : DigestEngine,
    DigestEngine.feed (a ++ b) e = DigestEngine.feed b (DigestEngine.feed a e) := by
  induction a with
  | nil => exact fun _ => rfl
  | cons x a ih => exact fun e => ih (e.byte x)

/-- Data within the limit is folded word by word, and a last odd byte as R8 requires. -/
theorem DigestEngine.feed_within {form : ReadForm} : ∀ (data : List Byte) (e : DigestEngine),
    e.form = some form → e.half = none → e.taken + data.length ≤ form.limit →
    (DigestEngine.feed data e).complete =
      { e with taken := e.taken + data.length, s1 := (digestSums data e.s1 e.s2).1,
               s2 := (digestSums data e.s1 e.s2).2 }
  | [], _, _, hhalf, _ => DigestEngine.complete_of_none hhalf
  | [a], e, hform, hhalf, hlim => by
    have hopen := DigestEngine.byte_opens hform (by simpa using hlim) hhalf a
    simp only [DigestEngine.feed, hopen, DigestEngine.complete, DigestEngine.word, digestSums, ← hhalf,
      List.length_singleton]
  | a :: b :: rest, e, hform, hhalf, hlim => by
    simp only [List.length_cons] at hlim
    have hopen := DigestEngine.byte_opens hform (by omega) hhalf a
    have hfold := DigestEngine.byte_folds (e := e.byte a) (a := a) (form := form) (by rw [hopen, hform])
      (by rw [hopen]; dsimp only; omega) (by rw [hopen]) b
    have hrest := DigestEngine.feed_within rest ((e.byte a).byte b) (by rw [hfold, hopen]; exact hform)
      (by rw [hfold]; rfl) (by rw [hfold, hopen]; simp only [DigestEngine.word]; omega)
    rw [DigestEngine.feed, DigestEngine.feed, hrest, hfold, hopen]
    simp only [DigestEngine.word, digestSums, ← hhalf, List.length_cons]
    simp only [DigestEngine.mk.injEq, true_and, and_true]
    omega

/-- Data past the limit leaves the digest alone. -/
theorem DigestEngine.feed_past_value {form : ReadForm} (data : List Byte) : ∀ e : DigestEngine,
    e.form = some form → form.limit ≤ e.taken →
    (DigestEngine.feed data e).complete.value = e.complete.value := by
  induction data with
  | nil => exact fun _ _ _ => rfl
  | cons b rest ih =>
    intro e hform hlim
    obtain ⟨check, hb⟩ := DigestEngine.byte_passes hform hlim b
    rw [DigestEngine.feed, ih (e.byte b) (by rw [hb, hform]) (by rw [hb]; exact Nat.le_succ_of_le hlim), hb,
      DigestEngine.complete_value_update]

/-- The first four bytes past the limit of a block check are the stored check. -/
theorem DigestEngine.feed_past_check (data : List Byte) : ∀ e : DigestEngine,
    e.form = some .blockCheck → checkedBytes ≤ e.taken → e.check.length + data.length ≤ 4 →
    (DigestEngine.feed data e).check = e.check ++ data := by
  induction data with
  | nil => exact fun e _ _ _ => (List.append_nil e.check).symm
  | cons b rest ih =>
    intro e hform hlim hroom
    simp only [List.length_cons] at hroom
    have hb := DigestEngine.byte_keeps hform hlim (by omega) b
    rw [DigestEngine.feed, ih (e.byte b) (by rw [hb, hform]) (by rw [hb]; exact Nat.le_succ_of_le hlim)
      (by rw [hb]; simp only [List.length_append, List.length_singleton]; omega), hb]
    simp only [List.append_assoc, List.singleton_append]

/-! ### A whole reply -/

section reply

variable (form : ReadForm) (data : List Byte)

/-- The engine at the end of data within the limit. -/
theorem DigestEngine.feed_start (h : data.length ≤ form.limit) :
    (DigestEngine.feed data (.start form)).complete =
      { DigestEngine.start form with
        taken := data.length, s1 := (digestSums data 1 0).1, s2 := (digestSums data 1 0).2 } := by
  have hfeed := DigestEngine.feed_within data (.start form) rfl rfl
    ((Nat.zero_add data.length).symm ▸ h)
  rw [hfeed]
  simp only [DigestEngine.start, Nat.zero_add]

/-- At the limit the engine still sums in its form, and has kept nothing of the check. -/
theorem DigestEngine.feed_start_frame (h : data.length ≤ form.limit) :
    (DigestEngine.feed data (.start form)).form = some form ∧
      (DigestEngine.feed data (.start form)).taken = data.length ∧
      (DigestEngine.feed data (.start form)).check = [] := by
  rw [← DigestEngine.complete_form, ← DigestEngine.complete_taken, ← DigestEngine.complete_check,
    DigestEngine.feed_start form data h]
  exact ⟨rfl, rfl, rfl⟩

/-- The engine gives the digest of the bytes within its limit (R9). -/
theorem DigestEngine.feed_start_value :
    (DigestEngine.feed data (.start form)).complete.value = digest (data.take form.limit) := by
  have hwithin : ∀ l : List Byte, l.length ≤ form.limit →
      (DigestEngine.feed l (.start form)).complete.value = digest l := by
    intro l hl
    rw [DigestEngine.feed_start form l hl]
    rfl
  by_cases h : data.length ≤ form.limit
  · rw [List.take_of_length_le h, hwithin data h]
  · have hlen : (data.take form.limit).length = form.limit := List.length_take_of_le (by omega)
    obtain ⟨hform, htaken, -⟩ := DigestEngine.feed_start_frame form (data.take form.limit) hlen.le
    conv_lhs => rw [← List.take_append_drop form.limit data, DigestEngine.feed_append]
    rw [DigestEngine.feed_past_value _ _ hform (by omega), hwithin _ hlen.le]

end reply

/-- A block's stored check is its last four bytes (R4, R5). -/
theorem DigestEngine.feed_start_check {data : List Byte} (h : data.length = 4096) :
    (DigestEngine.feed data (.start .blockCheck)).check = data.drop 4092 := by
  have hlen : (data.take checkedBytes).length = checkedBytes :=
    List.length_take_of_le (by rw [h, checkedBytes]; omega)
  obtain ⟨hform, htaken, hcheck⟩ := DigestEngine.feed_start_frame .blockCheck (data.take checkedBytes) hlen.le
  conv_lhs => rw [← List.take_append_drop checkedBytes data, DigestEngine.feed_append]
  rw [DigestEngine.feed_past_check _ _ hform (by omega)
    (by rw [hcheck, List.length_drop, h, checkedBytes]; decide), hcheck]
  rfl

/-! ### Manifest blocks (R4) -/

theorem slotsFrom_length (n : Nat) : ∀ bytes : List Byte, (slotsFrom n bytes).length = n := by
  induction n with
  | zero => exact fun _ => rfl
  | succ n ih => exact fun bytes => congrArg Nat.succ (ih (bytes.drop 4))

/-- Slot `i` is the four bytes at `4i`. -/
theorem slotsFrom_getElem? (n : Nat) : ∀ (bytes : List Byte) (i : Nat), i < n →
    (slotsFrom n bytes)[i]? = some (digestAt bytes (4 * i)) := by
  induction n with
  | zero => exact fun _ _ h => absurd h (Nat.not_lt_zero _)
  | succ n ih =>
    intro bytes i hi
    cases i with
    | zero => rfl
    | succ i =>
      rw [slotsFrom, List.getElem?_cons_succ, ih (bytes.drop 4) i (Nat.lt_of_succ_lt_succ hi)]
      simp only [digestAt, field, slice, List.drop_drop, Nat.mul_succ, Nat.add_comm]

/-- The engine's result for a whole block in block-check form (R5, R9). -/
theorem DigestEngine.result_blockCheck {data : List Byte} (h : data.length = 4096) :
    (DigestEngine.start .blockCheck).result data =
      .block (decide (digestAt data 4092 = digest (data.take 4092))) (manifestSlots data)
        (digestAt data 4092) := by
  have hstored : BitVec.ofNat 32 (unle (DigestEngine.feed data (.start .blockCheck)).complete.check) =
      digestAt data 4092 := by
    rw [DigestEngine.complete_check, DigestEngine.feed_start_check h, digestAt, field, slice,
      List.take_of_length_le (by rw [List.length_drop, h])]
  show EngineResult.block (decide (_ = (DigestEngine.feed data (.start .blockCheck)).complete.value)) _ _ = _
  rw [hstored, DigestEngine.feed_start_value]
  rfl

end Sys2Proof.Machine
end

section
open Sys2Proof Sys2Proof.Machine

/-- Settles O36: the model's test is the ranges and the dropped label, field by field. -/
theorem timecodeValidity : Obligations.TimecodeValidity := by
  refine ⟨fun r t => ?_, by decide, fun r => by cases r <;> decide⟩
  intro value
  have hdig : (∀ b ∈ [t.hh, t.mm, t.ss, t.ff], b.toNat / 16 ≤ 9 ∧ b.toNat % 16 ≤ 9) ↔
      ∀ b ∈ [t.hh, t.mm, t.ss, t.ff], bcdOk b = true := by
    simp only [bcdOk_iff]
  have hff : ∀ top, r.fps = top + 1 → (value t.ff ≤ top ↔ bcdValue t.ff < r.fps) :=
    fun _ e => e ▸ Nat.lt_succ_iff.symm
  have hdrop : (r = .f30d → t.dropped = false) ↔
      ¬ (r = .f30d ∧ value t.ss = 0 ∧ value t.ff ≤ 1 ∧ value t.mm % 10 ≠ 0) := by
    rw [not_and, ← Bool.not_eq_true, Timecode.dropped_iff]
    rfl
  rw [Timecode.valid_iff, hdig, hff _ (by cases r <;> rfl), ← hdrop]
  constructor
  · rintro ⟨⟨digits, hh, hm, hs, hf⟩, hd⟩
    exact ⟨digits, hh, hm, hs, hf, hd⟩
  · rintro ⟨digits, hh, hm, hs, hf, hd⟩
    exact ⟨⟨digits, hh, hm, hs, hf⟩, hd⟩

/-- Settles O37: labels counted by the formula of each rate, at F30D less the dropped ones. -/
theorem timecodeCount : Obligations.TimecodeCount := by
  refine ⟨fun r t hv => ?_, by decide⟩
  intro value m
  refine ⟨?_, ?_, ?_, ?_, Timecode.count_lt hv⟩
  · rintro rfl; rfl
  · rintro rfl; rfl
  · rintro rfl; rfl
  · rintro rfl
    exact t.count_add_dropped

/-- Settles O38: R13 and R14 undo each other below the day count, and the frames of a reel are fewer than a day's. -/
theorem timecodeRoundTrip : Obligations.TimecodeRoundTrip := by
  refine ⟨fun _ _ _ => rfl, ?_, fun r c hc => ⟨timecodeOfCount_valid hc, count_timecodeOfCount hc⟩,
    fun r t => timecodeOfCount_count, RateCode.million_lt_dayCount, ?_⟩
  · intro s p e hd hn he hi
    exact convertAction_pastLimit hd (State.conversion_reel hn he _ _) hi
  · intro r start n i _ hn hi
    have hday := r.million_lt_dayCount
    have hindex := indexOfTimecode_timecodeOfIndex r start (i := i) (by omega)
    rw [timecodeToIndex_of_lt (timecodeOfIndex_valid r start i) (by omega), hindex]

/-- Settles O35: the engine folds what R7 and R8 fold, up to its limit, and keeps the stored check past it. -/
theorem digestEngineMeasures : Obligations.DigestEngineMeasures :=
  ⟨fun n data => DigestEngine.feed_start_value (.frame n) data,
    fun data h => ⟨DigestEngine.result_blockCheck h, slotsFrom_length 1023 data, slotsFrom_getElem? 1023 data⟩,
    digest_halves_lt,
    fun _ => digest_append_zero⟩

/-- Settles O21: once it is known what a conversion uses, each direction is the conversion of the timecode unit. -/
theorem convertAnswers : Obligations.ConvertAnswers := by
  intro s r h d n asked begin' t i refused converts
  have refuse : ∀ {st}, convertAction r.payload s = .refuse st → refused st := exec_convert_refuse h
  have hconverts : ∀ rate start limit, s.conversionOf r.payload = .ok ⟨rate, start, limit⟩ →
      converts rate start limit := by
    intro rate start limit hc
    refine ⟨indexOfTimecode_lt rate start t, ?_, ?_, ?_, ?_, ?_⟩
    · exact fun hd hv => refuse (convertAction_toIndex_error hd hc (timecodeToIndex_of_invalid hv _ _))
    · exact fun hd hv hl => refuse (convertAction_toIndex_error hd hc (timecodeToIndex_of_le hv hl))
    · exact fun hd hv hl => exec_convert_ok h (convertAction_toIndex hd hc (timecodeToIndex_of_lt hv hl))
    · exact fun hd hl => refuse (convertAction_pastLimit hd hc hl)
    · exact fun hd hl => exec_convert_ok h (convertAction_toTimecode hd hc hl)
  have hday (hn : n = 0) : s.conversionOf r.payload = s.conversion 0 (field r.payload 3 1) begin' :=
    congrArg (s.conversion · _ _) hn
  refine ⟨fun h1 h2 => refuse (convertAction_badDirection h1 h2 s), fun hd => ⟨?_, ?_, ?_, ?_, ?_⟩⟩
  · exact fun hn he => refuse (convertAction_error hd (State.conversion_noSuchReel hn he _ _))
  · exact fun e hn he => hconverts _ _ _ (State.conversion_reel hn he _ _)
  · exact fun hn ha => refuse (convertAction_error hd ((hday hn).trans (s.conversion_noRate ha _)))
  · exact fun rate hn ha hv => refuse (convertAction_error hd ((hday hn).trans (s.conversion_badStart ha hv)))
  · exact fun rate hn ha hv => hconverts _ _ _ ((hday hn).trans (s.conversion_day ha hv))

/-- Settles O47: each check of the two actions in order, then the job created. -/
theorem startRequestsCreateJobs : Obligations.StartRequestsCreateJobs := by
  refine ⟨?_, ?_⟩
  · intro s r h n form
    have refuse : ∀ {st}, startScrubAction r.payload s = .refuse st →
        exec .startScrub s = .next (s.answer st []) := exec_startScrub_refuse h
    refine ⟨fun hn => refuse (startScrubAction_noReel (State.namedEntry_eq_none hn)), fun e hn hentry => ?_⟩
    have he : s.namedEntry n = some e := (State.namedEntry_of_ne hn).trans hentry
    refine ⟨fun hc => refuse (startScrubAction_noCopy he hc), ?_⟩
    intro k c hc range first last from' to' index inReel
    have hinvalid (t : Timecode) (hv : t.valid e.rate = false) :
        timecodeToIndex e.rate e.start t e.frameCount = .error .badTimecode := timecodeToIndex_of_invalid hv _ _
    have hpast (t : Timecode) (hv : t.valid e.rate = true) (hi : e.frameCount ≤ index t) :
        timecodeToIndex e.rate e.start t e.frameCount = .error .outOfReel := timecodeToIndex_of_le hv hi
    have hin (t : Timecode) (ht : inReel t) :
        timecodeToIndex e.rate e.start t e.frameCount = .ok (index t) := timecodeToIndex_of_lt ht.1 ht.2
    refine ⟨?_, ?_, scrubRange_whole _, ?_, ?_, ?_⟩
    · exact fun hform => refuse (startScrubAction_badRange he hc (scrubRange_noForm _ hform))
    · exact fun st hr => refuse (startScrubAction_badRange he hc hr)
    · intro hform
      exact ⟨scrubRange_pastReel hform, scrubRange_indexesReversed hform, scrubRange_indexes hform⟩
    · intro hform
      refine ⟨?_, ?_, ?_, ?_, ?_, ?_⟩
      · exact fun hv => scrubRange_firstError hform (hinvalid from' hv)
      · exact fun hv hi => scrubRange_firstError hform (hpast from' hv hi)
      · exact fun hf hv => scrubRange_lastError hform (hin from' hf) (hinvalid to' hv)
      · exact fun hf hv hi => scrubRange_lastError hform (hin from' hf) (hpast to' hv hi)
      · exact fun hf hl => scrubRange_timecodesReversed hform (hin from' hf) (hin to' hl)
      · exact fun hf hl => scrubRange_timecodes hform (hin from' hf) (hin to' hl)
    · intro kind a b hr
      refine ⟨fun ht => refuse (startScrubAction_targeted he hc hr ht), fun ht => ⟨?_, ?_, ?_⟩⟩
      · exact fun ho => refuse (startScrubAction_offline he hc hr ht ho)
      · exact fun ho hs => refuse (startScrubAction_noSlot he hc hr ht ho hs)
      · exact fun i ho hs => exec_startScrub_perform h (startScrubAction_job he hc hr ht ho hs)
  · intro s r h
    have refuse : ∀ {st}, startVerifyAction r.payload s = .refuse st →
        exec .startVerify s = .next (s.answer st []) := exec_startVerify_refuse h
    refine ⟨fun hn => refuse (startVerifyAction_noPort hn), fun p hn => ⟨?_, fun ho => ⟨?_, fun hall => ?_⟩⟩⟩
    · exact fun ho => refuse (startVerifyAction_offline hn ho)
    · exact fun hon => refuse (startVerifyAction_busy hn ho ((s.verifyOn_iff p).mpr hon))
    · have hnone : s.verifyOn p = false := by
        rw [← Bool.not_eq_true, State.verifyOn_iff]
        rintro ⟨i, j, hj, hp, hk, hlive⟩
        exact Bool.noConfusion (hlive.symm.trans (hall i j hj hp hk))
      exact ⟨fun hs => refuse (startVerifyAction_noSlot hn ho hnone hs),
        fun i hs => exec_startVerify_perform h (startVerifyAction_job hn ho hnone hs)⟩

end

section
/-! SUPPORT. Steps 4 to 11 of R28: the status of each check that fails, the checks as propositions, and what an entry that
passes them all is. -/

namespace Sys2Proof.Machine

open Sys2Proof

/-! ### The entry asked for -/

/-- The entry that fields ask for, its name, rate and copies as they were found to be (R28, R29). -/
def EntryFields.entryWith (f : EntryFields) (name : List Byte) (rate : RateCode) (a : CopyDesc) (b : Option CopyDesc) :
    StoredEntry :=
  { reel := f.reel, name := name, rate := rate, start := f.start, frameCount := f.frameCount,
    frameBytes := f.frameBytes, intervalDays := intervalTaken f.intervalDays, frozen := false, copyA := a, copyB := b }

theorem intervalTaken_eq (n : Nat) : intervalTaken n = max 1 (min 3650 n) := by
  unfold intervalTaken clamp
  split
  · omega
  · split <;> omega

section checks

variable {others : List Entry} {f : EntryFields}

theorem checkEntry_noName (hn : nameAsked f = none) : checkEntry others f = .error .badArgument := by
  simp [checkEntry, hn]

variable {name : List Byte} (hn : nameAsked f = some name)
include hn

theorem checkEntry_noRate (hr : RateCode.ofCode f.rate = none) : checkEntry others f = .error .badArgument := by
  simp [checkEntry, hn, hr]

variable {rate : RateCode} (hr : RateCode.ofCode f.rate = some rate)
include hr

theorem checkEntry_badStart (hs : f.start.valid rate = false) : checkEntry others f = .error .badTimecode := by
  simp [checkEntry, hn, hr, hs]

variable (hs : f.start.valid rate = true)
include hs

theorem checkEntry_badCounts (hc : f.countsOk = false) : checkEntry others f = .error .badArgument := by
  simp [checkEntry, hn, hr, hs, hc]

variable (hc : f.countsOk = true)
include hc

theorem checkEntry_noCopies (hk : copiesAsked f = none) : checkEntry others f = .error .badArgument := by
  simp [checkEntry, hn, hr, hs, hc, hk]

variable {a : CopyDesc} {b : Option CopyDesc} (hk : copiesAsked f = some (a, b))
include hk

theorem checkEntry_samePort (hp : samePort a b = true) : checkEntry others f = .error .samePort := by
  simp [checkEntry, hn, hr, hs, hc, hk, hp]

/-- Once steps 4 to 9 have passed, the entry's place decides (R28 steps 10 and 11). -/
theorem checkEntry_eq_place (hp : samePort a b = false) : checkEntry others f =
    if placedOk others (f.entryWith name rate a b) then .ok (f.entryWith name rate a b) else .error .badArgument := by
  simp only [checkEntry, hn, hr, hs, hc, hk, hp, Bool.true_eq_false, Bool.false_eq_true, if_false]
  rfl

end checks

/-- What holds of an entry that passes steps 4 to 11 of R28. -/
structure EntryChecked (others : List Entry) (f : EntryFields) (e : StoredEntry) : Prop where
  name : nameAsked f = some e.name
  rate : RateCode.ofCode f.rate = some e.rate
  start : f.start.valid e.rate = true
  counts : f.countsOk = true
  copies : copiesAsked f = some (e.copyA, e.copyB)
  ports : samePort e.copyA e.copyB = false
  placed : placedOk others e = true
  asked : e = f.entryWith e.name e.rate e.copyA e.copyB

theorem entryChecked_of_ok {others : List Entry} {f : EntryFields} {e : StoredEntry}
    (h : checkEntry others f = .ok e) : EntryChecked others f e := by
  unfold checkEntry at h
  split at h
  · cases h
  · next name hn =>
    split at h
    · cases h
    · next rate hr =>
      split at h
      · cases h
      · next hs =>
        split at h
        · cases h
        · next hc =>
          split at h
          · cases h
          · next a b hk =>
            split at h
            · cases h
            · next hp =>
              dsimp only at h
              split at h
              · next hpl =>
                cases h
                exact ⟨hn, hr, Bool.not_eq_false _ ▸ hs, Bool.not_eq_false _ ▸ hc, hk, Bool.not_eq_true _ ▸ hp,
                  hpl, rfl⟩
              · cases h

/-- An entry that is checked carries the reel number asked for. -/
theorem checkEntry_reel {others : List Entry} {f : EntryFields} {e : StoredEntry} (h : checkEntry others f = .ok e) :
    e.reel = f.reel :=
  congrArg StoredEntry.reel (entryChecked_of_ok h).asked

/-! ### Name and counts (R28 steps 4 and 7) -/

theorem nameCharOk_iff (b : Byte) : nameCharOk b = true ↔ 0x20 ≤ b.toNat ∧ b.toNat ≤ 0x7E := by
  simp only [nameCharOk, Bool.and_eq_true, decide_eq_true_eq]

/-- The name is one that R28 step 4 allows. -/
def EntryFields.NameOk (f : EntryFields) : Prop :=
  f.nameLength ≤ 24 ∧ ∀ b ∈ f.nameField.take f.nameLength, 0x20 ≤ b.toNat ∧ b.toNat ≤ 0x7E

theorem EntryFields.nameOk_iff (f : EntryFields) :
    f.nameLength ≤ 24 ∧ (f.nameField.take f.nameLength).all nameCharOk = true ↔ f.NameOk := by
  simp only [EntryFields.NameOk, List.all_eq_true, nameCharOk_iff]

theorem nameAsked_of_ok {f : EntryFields} (h : f.NameOk) : nameAsked f = some (f.nameField.take f.nameLength) :=
  if_pos (f.nameOk_iff.mpr h)

theorem nameAsked_of_not_ok {f : EntryFields} (h : ¬ f.NameOk) : nameAsked f = none :=
  if_neg (mt f.nameOk_iff.mp h)

/-- A name taken is the one given, and allowed. -/
theorem nameAsked_some {f : EntryFields} {name : List Byte} (h : nameAsked f = some name) :
    f.NameOk ∧ name = f.nameField.take f.nameLength := by
  by_cases hok : f.NameOk
  · rw [nameAsked_of_ok hok] at h
    exact ⟨hok, (Option.some.inj h).symm⟩
  · rw [nameAsked_of_not_ok hok] at h
    cases h

theorem EntryFields.countsOk_iff (f : EntryFields) : f.countsOk = true ↔
    1 ≤ f.frameCount ∧ f.frameCount ≤ 1000000 ∧ 1 ≤ f.frameBytes ∧ f.frameBytes ≤ 67108864 := by
  simp only [EntryFields.countsOk, Bool.and_eq_true, decide_eq_true_eq, and_assoc]
  rfl

/-! ### The copies asked for (R28 steps 8 and 9) -/

theorem portOfNat_of_lt {n : Nat} (h : n < 8) : portOfNat n = some ⟨n, h⟩ := dif_pos h

/-- The copies an entry asks for lie on ports, and the copy B flag is 0 or 1. -/
def EntryFields.CopiesOk (f : EntryFields) : Prop :=
  f.copyA.port < 8 ∧ (f.copyBFlag = 0 ∨ (f.copyBFlag = 1 ∧ f.copyB.port < 8))

theorem copiesAsked_one {f : EntryFields} (ha : f.copyA.port < 8) (h0 : f.copyBFlag = 0) :
    copiesAsked f = some (f.copyA.fresh ⟨_, ha⟩, none) := by
  simp only [copiesAsked, h0, portOfNat_of_lt ha]

theorem copiesAsked_two {f : EntryFields} (ha : f.copyA.port < 8) (h1 : f.copyBFlag = 1) (hb : f.copyB.port < 8) :
    copiesAsked f = some (f.copyA.fresh ⟨_, ha⟩, some (f.copyB.fresh ⟨_, hb⟩)) := by
  simp only [copiesAsked, h1, portOfNat_of_lt ha, portOfNat_of_lt hb]

theorem copiesAsked_of_not_ok {f : EntryFields} (h : ¬ f.CopiesOk) : copiesAsked f = none := by
  have hlt : ∀ {n : Nat} {p : PortId}, portOfNat n = some p → n < 8 := by
    intro n p hp
    by_contra hn
    rw [portOfNat_of_le (Nat.le_of_not_lt hn)] at hp
    cases hp
  unfold copiesAsked
  split
  · next h0 ha => exact absurd ⟨hlt ha, .inl h0⟩ h
  · next h1 ha hb => exact absurd ⟨hlt ha, .inr ⟨h1, hlt hb⟩⟩ h
  · rfl

/-- The two forms of the copies taken: copy A alone, or both. -/
theorem copiesAsked_cases {f : EntryFields} {a : CopyDesc} {b : Option CopyDesc} (h : copiesAsked f = some (a, b)) :
    (∃ p, a = f.copyA.fresh p) ∧ (b = none ∨ ∃ q, b = some (f.copyB.fresh q)) := by
  by_cases hok : f.CopiesOk
  · obtain ⟨ha, h0 | ⟨h1, hb⟩⟩ := hok
    · rw [copiesAsked_one ha h0] at h
      cases h
      exact ⟨⟨_, rfl⟩, .inl rfl⟩
    · rw [copiesAsked_two ha h1 hb] at h
      cases h
      exact ⟨⟨_, rfl⟩, .inr ⟨_, rfl⟩⟩
  · rw [copiesAsked_of_not_ok hok] at h
    cases h

/-! ### The copies of an entry -/

theorem StoredEntry.mem_copies (e : StoredEntry) (c : CopyDesc) :
    c ∈ e.copies ↔ c = e.copyA ∨ e.copyB = some c := by
  simp only [StoredEntry.copies, List.mem_cons, Option.mem_toList]

theorem StoredEntry.forall_mem_copies (e : StoredEntry) (P : CopyDesc → Prop) :
    (∀ c ∈ e.copies, P c) ↔ P e.copyA ∧ ∀ b, e.copyB = some b → P b := by
  simp only [StoredEntry.mem_copies, forall_eq_or_imp]

/-! ### Areas (R23, R24) -/

/-- Two runs have a block in common: each begins at or below the other's end (R23). -/
def BlockRun.Meets (a b : BlockRun) : Prop := a.first ≤ b.last ∧ b.first ≤ a.last

theorem BlockRun.shares_iff (a b : BlockRun) : a.shares b = true ↔ a.Meets b := by
  simp only [BlockRun.shares, BlockRun.Meets, Bool.and_eq_true, decide_eq_true_eq]

/-- The area check of R23 for one copy. -/
def AreaSound (e : StoredEntry) (c : CopyDesc) : Prop :=
  1 ≤ c.firstFrameBlock ∧ 1 ≤ c.manifestBlock ∧ frameAreaLast e c < 2 ^ 40 ∧ manifestAreaLast e c < 2 ^ 40 ∧
    ¬ (frameArea e c).Meets (manifestArea e c)

theorem areaOk_iff (e : StoredEntry) (c : CopyDesc) : areaOk e c = true ↔ AreaSound e c := by
  simp only [areaOk, AreaSound, Bool.and_eq_true, decide_eq_true_eq, Bool.not_eq_true', ← Bool.not_eq_true,
    BlockRun.shares_iff, highestBlock, max_lt_iff, Config.blockLimit, and_assoc]

/-- Two copies on one volume have a block in common (R24). -/
def Clash (e : StoredEntry) (c : CopyDesc) (x : StoredEntry) (d : CopyDesc) : Prop :=
  c.volumeId = d.volumeId ∧
    ((frameArea e c).Meets (frameArea x d) ∨ (frameArea e c).Meets (manifestArea x d) ∨
      (manifestArea e c).Meets (frameArea x d) ∨ (manifestArea e c).Meets (manifestArea x d))

theorem copiesOverlap_iff (e : StoredEntry) (c : CopyDesc) (x : StoredEntry) (d : CopyDesc) :
    copiesOverlap e c x d = true ↔ Clash e c x d := by
  simp only [copiesOverlap, Clash, Bool.and_eq_true, Bool.or_eq_true, decide_eq_true_eq, BlockRun.shares_iff, or_assoc]

/-- Steps 10 and 11 of R28: each copy's areas are sound, and no copy clashes with another. -/
def Placed (others : List Entry) (e : StoredEntry) : Prop :=
  (AreaSound e e.copyA ∧ ∀ b, e.copyB = some b → AreaSound e b) ∧
  (∀ c, (c = e.copyA ∨ e.copyB = some c) → ∀ x ∈ others,
    ¬ Clash e c x.toStoredEntry x.copyA ∧ ∀ d, x.copyB = some d → ¬ Clash e c x.toStoredEntry d) ∧
  (∀ b, e.copyB = some b → ¬ Clash e e.copyA e b)

theorem overlapOk_iff (others : List Entry) (e : StoredEntry) : overlapOk others e = true ↔
    (∀ c ∈ e.copies, ∀ x ∈ others, ∀ d ∈ x.toStoredEntry.copies, ¬ Clash e c x.toStoredEntry d) ∧
      ∀ b, e.copyB = some b → ¬ Clash e e.copyA e b := by
  unfold overlapOk
  simp only [Bool.and_eq_true, List.all_eq_true, Bool.not_eq_true', ← Bool.not_eq_true, copiesOverlap_iff]
  refine and_congr_right fun _ => ?_
  cases e.copyB with
  | none => simp
  | some b => simp [← Bool.not_eq_true, copiesOverlap_iff]

theorem placedOk_iff (others : List Entry) (e : StoredEntry) : placedOk others e = true ↔ Placed others e := by
  rw [placedOk, Bool.and_eq_true, List.all_eq_true, overlapOk_iff]
  simp only [areaOk_iff]
  exact and_congr (e.forall_mem_copies _) (and_congr_left' (forall_congr' fun c =>
    imp_congr (e.mem_copies c) (forall₂_congr fun x _ => x.toStoredEntry.forall_mem_copies _)))

/-! ### Blocks in areas -/

section blocks

variable {e x : StoredEntry} {c d : CopyDesc} {n : Nat}

theorem inFrameArea_bounds (h : inFrameArea e c n) :
    (frameArea e c).first ≤ n ∧ n ≤ (frameArea e c).last := by
  obtain ⟨hlo, hhi⟩ := h
  exact ⟨hlo, Nat.le_sub_one_of_lt hhi⟩

theorem inManifestArea_bounds (h : inManifestArea e c n) :
    (manifestArea e c).first ≤ n ∧ n ≤ (manifestArea e c).last := by
  obtain ⟨hlo, hhi⟩ := h
  exact ⟨hlo, Nat.le_sub_one_of_lt hhi⟩

/-- Runs with a block between their ends meet. -/
theorem BlockRun.meets_of_mem {a b : BlockRun} (ha : a.first ≤ n ∧ n ≤ a.last) (hb : b.first ≤ n ∧ n ≤ b.last) :
    a.Meets b := ⟨ha.1.trans hb.2, hb.1.trans ha.2⟩

/-- Copies on one volume with a block in both of their areas clash. -/
theorem clash_of_inCopyArea (hv : c.volumeId = d.volumeId) (h : inCopyArea e c n) (h' : inCopyArea x d n) :
    Clash e c x d := by
  refine ⟨hv, ?_⟩
  rcases h with h | h <;> rcases h' with h' | h'
  · exact .inl (BlockRun.meets_of_mem (inFrameArea_bounds h) (inFrameArea_bounds h'))
  · exact .inr (.inl (BlockRun.meets_of_mem (inFrameArea_bounds h) (inManifestArea_bounds h')))
  · exact .inr (.inr (.inl (BlockRun.meets_of_mem (inManifestArea_bounds h) (inFrameArea_bounds h'))))
  · exact .inr (.inr (.inr (BlockRun.meets_of_mem (inManifestArea_bounds h) (inManifestArea_bounds h'))))

/-- A copy with sound areas keeps them apart and within 1 to `2^40 - 1` (R23). -/
theorem AreaSound.blocks (h : AreaSound e c) (n : Nat) :
    (inFrameArea e c n → 1 ≤ n ∧ n < 2 ^ 40 ∧ ¬ inManifestArea e c n) ∧
      (inManifestArea e c n → 1 ≤ n ∧ n < 2 ^ 40) := by
  obtain ⟨hframe, hmanifest, hframes, hmanifests, hapart⟩ := h
  refine ⟨fun hf => ?_, fun hm => ?_⟩
  · have hb := inFrameArea_bounds hf
    exact ⟨hframe.trans hb.1, hb.2.trans_lt hframes,
      fun hm => hapart (BlockRun.meets_of_mem hb (inManifestArea_bounds hm))⟩
  · have hb := inManifestArea_bounds hm
    exact ⟨hmanifest.trans hb.1, hb.2.trans_lt hmanifests⟩

/-- The areas of an entry with frames hold a block each, so a copy's locations are below `2^40` too. -/
theorem AreaSound.firsts_lt (h : AreaSound e c) (hcount : 1 ≤ e.frameCount) (hbytes : 1 ≤ e.frameBytes) :
    c.firstFrameBlock < 2 ^ 40 ∧ c.manifestBlock < 2 ^ 40 := by
  obtain ⟨-, -, hframes, hmanifests, -⟩ := h
  have hperFrame : 1 ≤ blocksPerFrame e.frameBytes := by unfold blocksPerFrame; omega
  have hlen : 1 ≤ frameAreaLength e := Nat.mul_pos hcount hperFrame
  have hmlen : 1 ≤ manifestLength e.frameCount := by unfold manifestLength slotsPerBlock; omega
  unfold frameAreaLast at hframes
  unfold manifestAreaLast at hmanifests
  omega

end blocks

/-! ### What a checked entry is -/

/-- A new copy with sound areas lies in its ranges (Table 2-2). -/
theorem CopyFields.fresh_inRange {e : StoredEntry} {x : CopyFields} {p : PortId} (h : AreaSound e (x.fresh p))
    (hcount : 1 ≤ e.frameCount) (hbytes : 1 ≤ e.frameBytes) : (x.fresh p).inRange = true := by
  obtain ⟨hfirst, hmanifest⟩ := h.firsts_lt hcount hbytes
  obtain ⟨hframe, hman, -⟩ := h
  simp only [CopyDesc.inRange, Bool.and_eq_true, decide_eq_true_eq]
  exact ⟨⟨⟨⟨⟨⟨hframe, hfirst⟩, hman⟩, hmanifest⟩, rfl⟩, Nat.zero_le _⟩, Nat.zero_le _⟩

section checked

variable {others : List Entry} {f : EntryFields} {e : StoredEntry} (h : EntryChecked others f e)
include h

theorem EntryChecked.isPlaced : Placed others e := (placedOk_iff others e).mp h.placed

theorem EntryChecked.copies_sound : ∀ c ∈ e.copies, AreaSound e c :=
  (e.forall_mem_copies _).mpr h.isPlaced.1

theorem EntryChecked.frames :
    1 ≤ e.frameCount ∧ e.frameCount ≤ 1000000 ∧ 1 ≤ e.frameBytes ∧ e.frameBytes ≤ 67108864 := by
  rw [h.asked]
  exact f.countsOk_iff.mp h.counts

theorem EntryChecked.copies_inRange : ∀ c ∈ e.copies, c.inRange = true := by
  intro c hc
  have hsound := h.copies_sound c hc
  obtain ⟨hcount, -, hbytes, -⟩ := h.frames
  obtain ⟨⟨p, ha⟩, hb⟩ := copiesAsked_cases h.copies
  have hfresh : ∃ (x : CopyFields) (p : PortId), c = x.fresh p := by
    rcases (e.mem_copies c).mp hc with rfl | hc
    · exact ⟨_, _, ha⟩
    · rcases hb with hb | ⟨q, hb⟩
      · rw [hb] at hc; cases hc
      · rw [hb] at hc; cases hc; exact ⟨_, _, rfl⟩
  obtain ⟨x, p, rfl⟩ := hfresh
  exact CopyFields.fresh_inRange hsound hcount hbytes

/-- The fields of a checked entry lie in their ranges (Table 2-1), its reel number in 1 to 65,535. -/
theorem EntryChecked.inRange (h1 : 1 ≤ f.reel) (h2 : f.reel ≤ 65535) : e.inRange = true := by
  obtain ⟨⟨hlen, hchars⟩, hname⟩ := nameAsked_some h.name
  obtain ⟨hcount, hcount', hbytes, hbytes'⟩ := h.frames
  have hreel : e.reel = f.reel := congrArg StoredEntry.reel h.asked
  have hstart : e.start.valid e.rate = true := (congrArg (·.start.valid e.rate) h.asked).trans h.start
  have hinterval : e.intervalDays = intervalTaken f.intervalDays := congrArg StoredEntry.intervalDays h.asked
  obtain ⟨hint, hint'⟩ := clamp_range (lo := 1) (hi := 3650) (by decide) f.intervalDays
  obtain ⟨hA, hB⟩ := (e.forall_mem_copies _).mp h.copies_inRange
  have hB' : (match e.copyB with | some c => c.inRange | none => true) = true := by
    cases hb : e.copyB with
    | none => rfl
    | some b => exact hB b hb
  simp only [StoredEntry.inRange, Bool.and_eq_true, decide_eq_true_eq, List.all_eq_true, nameCharOk_iff]
  refine ⟨⟨⟨⟨⟨⟨⟨⟨⟨⟨⟨⟨?_, ?_⟩, ?_⟩, ?_⟩, hstart⟩, hcount⟩, hcount'⟩, hbytes⟩, hbytes'⟩, ?_⟩, ?_⟩, hA⟩, hB'⟩
  · rw [hreel]; exact h1
  · rw [hreel]; exact h2
  · rw [hname]; exact (List.length_take_le _ _).trans hlen
  · rw [hname]; exact hchars
  · rw [hinterval]; exact hint
  · rw [hinterval]; exact hint'

theorem EntryChecked.ports_ne {b : CopyDesc} (hb : e.copyB = some b) : b.port ≠ e.copyA.port := by
  have hp := h.ports
  rw [hb] at hp
  exact of_decide_eq_false hp

end checked

end Sys2Proof.Machine
end

section
/-! SUPPORT. What ADD_REEL comes to (R28, R29): its checks one by one, then the entry it creates. -/

namespace Sys2Proof.Machine

open Sys2Proof

/-! ### A request's command -/

section command

variable {s : State} {r : Request} {c : Instr} {k : RequestKind} {act : List Byte → State → Action}
  (hc : exec c s = .next (s.runRequest k act)) (h : s.Takes k r)
include hc h

/-- The command of a request that its own checks refuse. -/
theorem exec_refuse {st : Status} (ha : act r.payload s = .refuse st) : exec c s = .next (s.answer st []) :=
  hc.trans (congrArg _ (State.runRequest_refuse h ha))

/-- The command of a request that is performed. -/
theorem exec_perform {t : State} {st : Status} {fields : List Byte} (ha : act r.payload s = .perform t st fields) :
    exec c s = .next (t.answer st fields) :=
  hc.trans (congrArg _ (State.runRequest_perform h ha))

end command

/-! ### ADD_REEL (R28, R29) -/

section addReel

variable {s : State} {p : List Byte}

theorem addReelAction_zero (h0 : (entryFields p).reel = 0) : addReelAction p s = .refuse .badArgument := by
  simp [addReelAction, h0]

variable (h0 : (entryFields p).reel ≠ 0)
include h0

theorem addReelAction_exists (hn : s.entry (entryFields p).reel ≠ none) :
    addReelAction p s = .refuse .reelExists := by
  simp [addReelAction, h0, Option.isSome_iff_ne_none, hn]

variable (hn : s.entry (entryFields p).reel = none)
include hn

theorem addReelAction_full (hf : 512 ≤ s.cat.length) : addReelAction p s = .refuse .catalogueFull := by
  simp [addReelAction, h0, hn, Config.catalogueCapacity, hf]

variable (hf : s.cat.length < 512)
include hf

theorem addReelAction_error {st : Status} (hc : checkEntry s.cat (entryFields p) = .error st) :
    addReelAction p s = .refuse st := by
  simp [addReelAction, h0, hn, Config.catalogueCapacity, Nat.not_le.mpr hf, hc]

theorem addReelAction_ok {e : StoredEntry} (hc : checkEntry s.cat (entryFields p) = .ok e) :
    addReelAction p s =
      .perform { s with cat := insertEntry { e with locked := true } s.cat } .ok (entryTaken e) := by
  simp [addReelAction, h0, hn, Config.catalogueCapacity, Nat.not_le.mpr hf, hc]

end addReel

/-- The reply's fields of a checked entry: the reel number, and the interval clamped (R29). -/
theorem entryTaken_of_checked {others : List Entry} {f : EntryFields} {e : StoredEntry}
    (h : checkEntry others f = .ok e) :
    entryTaken e = le 2 f.reel ++ le 2 (max 1 (min 3650 f.intervalDays)) := by
  have hinterval : e.intervalDays = intervalTaken f.intervalDays :=
    congrArg StoredEntry.intervalDays (entryChecked_of_ok h).asked
  rw [entryTaken, checkEntry_reel h, hinterval, intervalTaken_eq]

/-- A descriptor as a request asks for it, with no history (R29). -/
def CopyFields.AskedAs (x : CopyFields) (c : CopyDesc) : Prop :=
  c.port.val = x.port ∧ c.volumeId = x.volumeId ∧ c.firstFrameBlock = x.firstFrameBlock ∧
    c.manifestBlock = x.manifestBlock ∧ c.lastScrub = none ∧ c.repairedCount = 0 ∧ c.lostCount = 0

theorem CopyFields.fresh_askedAs (x : CopyFields) (h : x.port < 8) : x.AskedAs (x.fresh ⟨_, h⟩) :=
  ⟨rfl, rfl, rfl, rfl, rfl, rfl, rfl⟩

/-- Copies that pass steps 8 and 9 of R28 are taken as they are asked for. -/
theorem copiesAsked_of_ok {f : EntryFields} (h : f.CopiesOk) (hne : f.copyBFlag = 1 → f.copyB.port ≠ f.copyA.port) :
    ∃ a b, copiesAsked f = some (a, b) ∧ samePort a b = false ∧ f.copyA.AskedAs a ∧ (f.copyBFlag = 0 → b = none) ∧
      (f.copyBFlag = 1 → ∃ c, b = some c ∧ f.copyB.AskedAs c) := by
  obtain ⟨ha, h0 | ⟨h1, hb⟩⟩ := h
  · exact ⟨_, _, copiesAsked_one ha h0, rfl, f.copyA.fresh_askedAs ha, fun _ => rfl, fun h1 => by simp [h0] at h1⟩
  · refine ⟨_, _, copiesAsked_two ha h1 hb, ?_, f.copyA.fresh_askedAs ha, fun h0 => by simp [h1] at h0,
      fun _ => ⟨_, rfl, f.copyB.fresh_askedAs hb⟩⟩
    exact decide_eq_false fun e => hne h1 (congrArg Fin.val e)

end Sys2Proof.Machine
end

section
/-! SUPPORT. What EDIT_REEL, REMOVE_REEL, READ_REEL, LIST_REELS and the requests that start a store come to (R30 to R35,
R184, R186). -/

namespace Sys2Proof.Machine

open Sys2Proof

/-! ### The entry a request names -/

theorem State.entry_reel {s : State} {n : Nat} {e : Entry} (h : s.entry n = some e) : e.reel = n := by
  simpa using List.find?_some h

theorem State.namedEntry_eq_some {s : State} {n : Nat} {e : Entry} (h0 : n ≠ 0) (he : s.entry n = some e) :
    s.namedEntry n = some e :=
  (State.namedEntry_of_ne h0).trans he

/-! ### The entry an editing request may act on (R30 and R32, steps 1 to 3) -/

section editable

variable {s : State} {n : Nat}

theorem State.editable_noReel (h : n = 0 ∨ s.entry n = none) : s.editable n = .error .noSuchReel := by
  simp [State.editable, State.namedEntry_eq_none h]

variable {e : Entry} (h0 : n ≠ 0) (he : s.entry n = some e)
include h0 he

theorem State.editable_frozen (hf : e.frozen = true) : s.editable n = .error .frozen := by
  simp [State.editable, State.namedEntry_eq_some h0 he, hf]

theorem State.editable_busy (hf : e.frozen = false) (hb : s.reelRecorded n = true ∨ s.reelTargeted n = true) :
    s.editable n = .error .reelBusy := by
  simp [State.editable, State.namedEntry_eq_some h0 he, hf, State.reelBusy, hb]

theorem State.editable_ok (hf : e.frozen = false) (hr : s.reelRecorded n = false) (ht : s.reelTargeted n = false) :
    s.editable n = .ok e := by
  simp [State.editable, State.namedEntry_eq_some h0 he, hf, State.reelBusy, hr, ht]

end editable

/-! ### EDIT_REEL (R30, R31) -/

section editReel

variable {s : State} {p : List Byte}

theorem editReelAction_refused {st : Status} (h : s.editable (entryFields p).reel = .error st) :
    editReelAction p s = .refuse st := by
  simp [editReelAction, h]

variable {old : Entry} (h : s.editable (entryFields p).reel = .ok old)
include h

theorem editReelAction_error {st : Status}
    (hc : checkEntry (s.otherEntries (entryFields p).reel) (entryFields p) = .error st) :
    editReelAction p s = .refuse st := by
  simp [editReelAction, h, hc]

theorem editReelAction_ok {e : StoredEntry}
    (hc : checkEntry (s.otherEntries (entryFields p).reel) (entryFields p) = .ok e) :
    editReelAction p s =
      .perform (s.modEntry (entryFields p).reel (fun _ => editEntry old e)) .ok (entryTaken e) := by
  simp [editReelAction, h, hc]

end editReel

/-- Copy B of an edited entry: dropped, added, or settled against the one before (R31). -/
theorem editEntry_copyB (old : Entry) (e : StoredEntry) :
    (e.copyB = none → (editEntry old e).copyB = none) ∧ (old.copyB = none → (editEntry old e).copyB = e.copyB) ∧
      ∀ c d, old.copyB = some c → e.copyB = some d →
        (editEntry old e).copyB = some (settleCopy old.toStoredEntry e c d) := by
  refine ⟨fun he => ?_, fun ho => ?_, fun c d ho he => ?_⟩
  · cases ho : old.copyB <;> simp [editEntry, ho, he]
  · simp [editEntry, ho]
  · simp [editEntry, ho, he]

/-! ### REMOVE_REEL, READ_REEL and LIST_REELS (R32 to R34) -/

section reels

variable {s : State} {p : List Byte}

theorem removeReelAction_refused {st : Status} (h : s.editable (field p 0 2) = .error st) :
    removeReelAction p s = .refuse st := by
  simp [removeReelAction, h]

theorem removeReelAction_ok {e : Entry} (h : s.editable (field p 0 2) = .ok e) :
    removeReelAction p s = .perform { s with cat := s.otherEntries (field p 0 2) } .ok [] := by
  simp [removeReelAction, h]

theorem readReelAction_noReel (h : field p 0 2 = 0 ∨ s.entry (field p 0 2) = none) :
    readReelAction p s = .refuse .noSuchReel := by
  simp [readReelAction, State.namedEntry_eq_none h]

theorem readReelAction_ok {e : Entry} (h0 : field p 0 2 ≠ 0) (he : s.entry (field p 0 2) = some e) :
    readReelAction p s = .perform s .ok (s.reelFields e) := by
  simp [readReelAction, State.namedEntry_eq_some h0 he]

theorem listReelsAction_noPage (h : 8 ≤ field p 0 1) : listReelsAction p s = .refuse .badArgument := by
  simp [listReelsAction, h]

theorem listReelsAction_page (h : field p 0 1 < 8) : listReelsAction p s = .perform s .ok
    (le 2 s.cat.length ++ u8 (field p 0 1) ++ u8 (s.reelPage (field p 0 1)).length
      ++ (s.reelPage (field p 0 1)).flatMap (le 2)) := by
  simp only [listReelsAction, Nat.not_le.mpr h, if_false]

/-! ### STORE, FREEZE_REEL and RESTORE_FACTORY (R35, R184, R186) -/

theorem storeAction_busy (h : s.siu.store ≠ none) : storeAction p s = .refuse .busy := by
  simp [storeAction, Option.isSome_iff_ne_none, h]

theorem storeAction_ok (h : s.siu.store = none) :
    storeAction p s = .perform (s.startStore .store) .accepted s.siu.storeFields := by
  simp [storeAction, h]

theorem freezeReelAction_noReel (h : field p 0 2 = 0 ∨ s.entry (field p 0 2) = none) :
    freezeReelAction p s = .refuse .noSuchReel := by
  simp [freezeReelAction, State.namedEntry_eq_none h]

theorem freezeReelAction_busy {e : Entry} (h0 : field p 0 2 ≠ 0) (he : s.entry (field p 0 2) = some e)
    (h : s.siu.store ≠ none) : freezeReelAction p s = .refuse .busy := by
  simp [freezeReelAction, State.namedEntry_eq_some h0 he, Option.isSome_iff_ne_none, h]

theorem freezeReelAction_ok {e : Entry} (h0 : field p 0 2 ≠ 0) (he : s.entry (field p 0 2) = some e)
    (h : s.siu.store = none) :
    freezeReelAction p s = .perform
      ((s.modEntry (field p 0 2) (fun e => { e with frozen := true })).startStore .freezeReel)
      .accepted s.siu.storeFields := by
  simp [freezeReelAction, State.namedEntry_eq_some h0 he, h, State.entry_reel he]

theorem State.unfrozenRecorded_iff (s : State) :
    s.unfrozenRecorded = true ↔ ∃ e ∈ s.cat, e.frozen = false ∧ s.reelRecorded e.reel = true := by
  simp only [State.unfrozenRecorded, List.any_eq_true, Bool.and_eq_true, Bool.not_eq_true']

theorem restoreFactoryAction_busy (h : s.siu.store ≠ none) : restoreFactoryAction p s = .refuse .busy := by
  simp [restoreFactoryAction, Option.isSome_iff_ne_none, h]

theorem restoreFactoryAction_recorded (h : s.siu.store = none) (hr : s.unfrozenRecorded = true) :
    restoreFactoryAction p s = .refuse .reelBusy := by
  simp [restoreFactoryAction, h, hr]

theorem restoreFactoryAction_ok (h : s.siu.store = none) (hr : s.unfrozenRecorded = false) :
    restoreFactoryAction p s =
      .perform (s.restored.startStore .restoreFactory) .accepted s.siu.storeFields := by
  simp [restoreFactoryAction, h, hr]

end reels

/-- RESTORE_FACTORY changes settings, mask, auto-run, patrol and catalogue alone (R186 steps 1 to 3). -/
theorem State.restored_frame (s : State) :
    s.restored.siu = s.siu ∧ s.restored.dfl = s.dfl ∧ s.restored.jbu = s.jbu ∧ s.restored.mode = s.mode ∧
      s.restored.link = s.link := by
  unfold State.restored
  rw [State.mapPorts_frame]
  exact ⟨rfl, rfl, rfl, rfl, rfl⟩

theorem State.restored_pts (s : State) : s.restored.pts = { s.pts with enabled := false } := by
  unfold State.restored
  rw [State.mapPorts_frame]

theorem State.restored_port (s : State) (p : PortId) :
    s.restored.port p = (s.port p).withSettings PortSettings.factory :=
  State.port_mapPorts s (fun _ q => q.withSettings PortSettings.factory) p

end Sys2Proof.Machine
end

section
/-! SUPPORT. What the lock requests come to (R37, R38, R107, R108): one lock set with its records, and all of them set
in turn. -/

namespace Sys2Proof.Machine

open Sys2Proof

/-! ### One lock -/

/-- How a record of a reel whose lock changes moves: PENDING to HELD when it closes, HELD to PENDING when it opens. -/
def Record.moved (locked : Bool) (r : Record) : Record :=
  if locked then (if r.state = .pending then { r with state := .held } else r)
  else (if r.state = .held then { r with state := .pending } else r)

@[simp] theorem Record.moved_names (b : Bool) (r : Record) (n : Nat) : (r.moved b).names n = r.names n := by
  unfold Record.moved
  split <;> split <;> rfl

@[simp] theorem Record.moved_moved (b : Bool) (r : Record) : (r.moved b).moved b = r.moved b := by
  cases b with
  | true =>
    by_cases h : r.state = .pending
    · simp [Record.moved, h]
    · simp [Record.moved, h]
  | false =>
    by_cases h : r.state = .held
    · simp [Record.moved, h]
    · simp [Record.moved, h]

/-- An entry with its lock set. -/
def Entry.withLock (b : Bool) (e : Entry) : Entry := { e with locked := b }

@[simp] theorem Entry.withLock_reel (b : Bool) (e : Entry) : (e.withLock b).reel = e.reel := rfl

@[simp] theorem Entry.withLock_withLock (b : Bool) (e : Entry) : (e.withLock b).withLock b = e.withLock b := rfl

theorem Entry.withLock_self {b : Bool} {e : Entry} (h : e.locked = b) : e.withLock b = e := by
  subst h
  rfl

/-- The locks of some reels set, and the records that name one of some reels moved. -/
def State.withLocks (s : State) (b : Bool) (reels : Nat → Bool) (named : Record → Bool) : State :=
  { s with
    cat := s.cat.map (fun x => if reels x.reel then x.withLock b else x)
    dfl := { s.dfl with records := s.dfl.records.map (fun r => if named r then r.moved b else r) } }

theorem State.setLock_same {s : State} {e : Entry} {b : Bool} (h : e.locked = b) : s.setLock e b = s := if_pos h

/-- A lock changed: the entries of its reel have it, and the records that name the reel move (R37). -/
theorem State.setLock_change {s : State} {e : Entry} {b : Bool} {n : Nat} (h : e.locked ≠ b) (hn : e.reel = n) :
    s.setLock e b =
      { s with
        cat := s.cat.map (fun x => if x.reel = n then x.withLock b else x)
        dfl := { s.dfl with records := s.dfl.records.map (fun r => if r.names n then r.moved b else r) } } := by
  subst hn
  exact if_neg h

theorem State.setLock_ne {s : State} {e : Entry} {b : Bool} (h : e.locked ≠ b) :
    s.setLock e b = s.withLocks b (fun n => decide (n = e.reel)) (fun r => r.names e.reel) := by
  simp only [State.setLock_change h rfl, State.withLocks, decide_eq_true_eq]

/-! ### All locks in turn (R38) -/

/-- Some of these entries whose lock is to change carries a reel number. -/
def changesLockOf (l : List Entry) (b : Bool) (n : Nat) : Bool := l.any (fun e => e.locked != b && decide (n = e.reel))

/-- A record names the reel of one of these entries whose lock is to change. -/
def namesChanged (l : List Entry) (b : Bool) (r : Record) : Bool := l.any (fun e => e.locked != b && r.names e.reel)

section cons

variable {e : Entry} {b : Bool} (rest : List Entry)

theorem changesLockOf_cons_same (h : e.locked = b) : changesLockOf (e :: rest) b = changesLockOf rest b := by
  funext n
  simp [changesLockOf, h]

theorem changesLockOf_cons_ne (h : e.locked ≠ b) :
    changesLockOf (e :: rest) b = fun n => decide (n = e.reel) || changesLockOf rest b n := by
  funext n
  simp [changesLockOf, bne_iff_ne.mpr h]

theorem namesChanged_cons_same (h : e.locked = b) : namesChanged (e :: rest) b = namesChanged rest b := by
  funext r
  simp [namesChanged, h]

theorem namesChanged_cons_ne (h : e.locked ≠ b) :
    namesChanged (e :: rest) b = fun r => r.names e.reel || namesChanged rest b r := by
  funext r
  simp [namesChanged, bne_iff_ne.mpr h]

end cons

theorem namesChanged_moved (l : List Entry) (b : Bool) (r : Record) :
    namesChanged l b (r.moved b) = namesChanged l b r := by
  simp only [namesChanged, Record.moved_names]

theorem State.withLocks_withLocks (s : State) (b : Bool) (f g : Nat → Bool) (v w : Record → Bool)
    (hw : ∀ r : Record, w (r.moved b) = w r) :
    (s.withLocks b f v).withLocks b g w = s.withLocks b (fun n => f n || g n) (fun r => v r || w r) := by
  have hentry : ∀ x : Entry, (if g (if f x.reel then x.withLock b else x).reel
      then (if f x.reel then x.withLock b else x).withLock b else if f x.reel then x.withLock b else x) =
      if f x.reel || g x.reel then x.withLock b else x := by
    intro x
    by_cases hf : f x.reel <;> by_cases hg : g x.reel <;> simp [hf, hg]
  have hrecord : ∀ r : Record, (if w (if v r then r.moved b else r) then (if v r then r.moved b else r).moved b
      else if v r then r.moved b else r) = if v r || w r then r.moved b else r := by
    intro r
    by_cases hv : v r <;> by_cases hr : w r <;> simp [hv, hr, hw]
  simp only [State.withLocks, List.map_map, Function.comp_def, hentry, hrecord]

theorem State.setLocks_eq (b : Bool) (l : List Entry) : ∀ s : State,
    s.setLocks l b = s.withLocks b (changesLockOf l b) (namesChanged l b) := by
  induction l with
  | nil =>
    intro s
    simp [State.setLocks, State.withLocks, changesLockOf, namesChanged]
  | cons e rest ih =>
    intro s
    have hstep : s.setLocks (e :: rest) b = (s.setLock e b).setLocks rest b := rfl
    rw [hstep, ih]
    by_cases h : e.locked = b
    · rw [State.setLock_same h, changesLockOf_cons_same rest h, namesChanged_cons_same rest h]
    · rw [State.setLock_ne h, State.withLocks_withLocks _ _ _ _ _ _ (namesChanged_moved rest b),
        changesLockOf_cons_ne rest h, namesChanged_cons_ne rest h]

/-- Every lock of the catalogue set, each with its records. -/
theorem State.setLocks_cat (s : State) (b : Bool) : s.setLocks s.cat b =
    { s with
      cat := s.cat.map (Entry.withLock b)
      dfl := { s.dfl with
        records := s.dfl.records.map (fun r => if namesChanged s.cat b r then r.moved b else r) } } := by
  have hcat : s.cat.map (fun x => if changesLockOf s.cat b x.reel then x.withLock b else x) =
      s.cat.map (Entry.withLock b) := by
    refine List.map_congr_left fun x hx => ?_
    by_cases h : x.locked = b
    · rw [Entry.withLock_self h, ite_self]
    · exact if_pos (List.any_eq_true.mpr ⟨x, hx, by simp [h]⟩)
  rw [State.setLocks_eq, State.withLocks, hcat]

/-! ### The actions -/

section actions

variable {s : State} {p : List Byte} {b : Bool}

theorem lockAction_noReel (h : field p 0 2 = 0 ∨ s.entry (field p 0 2) = none) :
    lockAction b p s = .refuse .noSuchReel := by
  simp [lockAction, State.namedEntry_eq_none h]

variable {e : Entry} (h0 : field p 0 2 ≠ 0) (he : s.entry (field p 0 2) = some e)
include h0 he

theorem lockAction_same (h : e.locked = b) : lockAction b p s = .perform s .ok [0#8] := by
  simp only [lockAction, State.namedEntry_eq_some h0 he, h, if_true]
  rfl

theorem lockAction_ne (h : e.locked ≠ b) :
    lockAction b p s = .perform (settle (s.lockReel e b)) .ok [1#8] := by
  simp only [lockAction, State.namedEntry_eq_some h0 he, h, if_false]
  rfl

end actions

/-- One reel LOCKED: RPU is told of nothing (R108). -/
theorem State.lockReel_true (s : State) (e : Entry) : s.lockReel e true = s.setLock e true := rfl

/-- One reel opened: RPU is told where a record of it was HELD (R107). -/
theorem State.lockReel_false {s : State} {e : Entry} (h : e.locked = true) : s.lockReel e false =
    if s.dfl.records.any (fun x => x.names e.reel && decide (x.state = .held))
      then rpuChoice (s.setLock e false) else s.setLock e false := by
  simp only [State.lockReel, State.opensHeld, h, Bool.not_false, Bool.true_and]

/-- LOCK_ALL's locks and records (R38, R108). -/
theorem State.lockEvery_true (s : State) : s.lockEvery true =
    { s with
      cat := s.cat.map (fun x => { x with locked := true })
      dfl := { s.dfl with records := s.dfl.records.map (fun x =>
        if s.cat.any (fun e => !e.locked && x.names e.reel) then x.moved true else x) } } := by
  have hnames : ∀ r : Record, namesChanged s.cat true r = s.cat.any (fun e => !e.locked && r.names e.reel) := by
    intro r
    simp only [namesChanged, Bool.bne_true]
  have hset : s.lockEvery true = s.setLocks s.cat true := rfl
  simp only [hset, State.setLocks_cat, hnames]
  rfl

/-- UNLOCK_ALL's locks and records, before RPU is told (R38, R107). -/
theorem State.setLocks_false (s : State) : s.setLocks s.cat false =
    { s with
      cat := s.cat.map (fun x => { x with locked := false })
      dfl := { s.dfl with records := s.dfl.records.map (fun x =>
        if s.cat.any (fun e => e.locked && x.names e.reel) then x.moved false else x) } } := by
  have hnames : ∀ r : Record, namesChanged s.cat false r = s.cat.any (fun e => e.locked && r.names e.reel) := by
    intro r
    simp only [namesChanged, Bool.bne_false]
  simp only [State.setLocks_cat, hnames]
  rfl

theorem State.locksToChange_true (s : State) : s.locksToChange true = s.cat.countP (fun e => !e.locked) :=
  congrArg (List.countP · s.cat) (funext fun e => by cases e.locked <;> rfl)

theorem State.locksToChange_false (s : State) : s.locksToChange false = s.cat.countP (fun e => e.locked) :=
  congrArg (List.countP · s.cat) (funext fun e => by cases e.locked <;> rfl)

/-- The action of LOCK_ALL and UNLOCK_ALL refuses nothing (R38). -/
theorem lockAllAction_eq (b : Bool) (p : List Byte) (s : State) :
    lockAllAction b p s = .perform (settle (s.lockEvery b)) .ok (le 2 (s.locksToChange b)) := rfl

end Sys2Proof.Machine
end

section
/-! SUPPORT. What a label read's outcome makes of its port (R57), and the presence of a copy (R26, Table 2-3). -/

namespace Sys2Proof.Machine

open Sys2Proof

/-! ### The volume state a label gives (R57) -/

/-- A label read whose block is sound mounts the volume where mark and block count are right. -/
theorem labelVolume_sound {o : DriveOutcome} {slots : List Digest} {check : Digest} (hs : o.status = .good)
    (hr : o.result = .block true slots check) : labelVolume o =
      if slice o.data 0 8 = labelMark ∧ 2 ≤ labelBlocks o.data
      then .mounted (BitVec.ofNat 32 (field o.data 8 4)) (labelBlocks o.data) else .unlabelled := by
  simp only [labelVolume, hs, hr]

theorem labelVolume_unsound {o : DriveOutcome} {slots : List Digest} {check : Digest}
    (hr : o.result = .block false slots check) : labelVolume o = .unlabelled := by
  unfold labelVolume
  split
  · next h => rw [hr] at h; cases h
  · rfl

theorem labelVolume_bad {o : DriveOutcome} (hs : o.status ≠ .good) : labelVolume o = .unlabelled := by
  unfold labelVolume
  split
  · next h _ => exact absurd h hs
  · rfl

/-- A GOOD reply to a label read carries one whole block (R41). -/
theorem replyStatus_good_length {c : Claim} {r : DriveReply} {form : ReadForm} (hc : c.transfer = .read form)
    (h : replyStatus c r = some .good) : r.data.length = c.blocks * Config.blockBytes := by
  unfold replyStatus at h
  split at h
  · cases h
  · next hw => rw [hc] at hw; cases hw
  · obtain ⟨hok, hst⟩ := Option.ite_none_right_eq_some.mp h
    cases hst
    simp only [Bool.and_eq_true] at hok
    obtain ⟨⟨hdata, -⟩, -⟩ := hok
    simpa using hdata

/-- The volume state that the reply of a label read gives: MOUNTED where it is GOOD with the mark, a sound block and two
blocks or more (R57). -/
theorem labelVolume_outcomeOf {q : Port} {c : Claim} {r : DriveReply} {st : DriveStatus}
    (hc : c = ⟨.read .blockCheck, 0, 1⟩) (he : q.engine = DigestEngine.start .blockCheck)
    (hst : replyStatus c r = some st) : labelVolume (outcomeOf q c r st) =
      if st = .good ∧ slice r.data 0 8 = labelMark ∧ digestAt r.data 4092 = digest (r.data.take 4092) ∧
          2 ≤ labelBlocks r.data
      then .mounted (BitVec.ofNat 32 (field r.data 8 4)) (labelBlocks r.data) else .unlabelled := by
  subst hc
  by_cases hgood : st = .good
  · subst hgood
    have hlen : r.data.length = 4096 := replyStatus_good_length rfl hst
    have hresult : (outcomeOf q ⟨.read .blockCheck, 0, 1⟩ r .good).result =
        .block (decide (digestAt r.data 4092 = digest (r.data.take 4092))) (manifestSlots r.data)
          (digestAt r.data 4092) := by
      rw [← DigestEngine.result_blockCheck hlen, ← he]
      rfl
    by_cases hsound : digestAt r.data 4092 = digest (r.data.take 4092)
    · rw [decide_eq_true hsound] at hresult
      rw [labelVolume_sound rfl hresult]
      simp only [hsound, true_and]
      rfl
    · rw [decide_eq_false hsound] at hresult
      rw [labelVolume_unsound hresult, if_neg fun ⟨_, _, h, _⟩ => hsound h]
  · rw [labelVolume_bad hgood, if_neg fun h => hgood h.1]

/-! ### The port once a label read has settled -/

theorem State.Keeps.volume {s t : State} (h : s.Keeps t) (p : PortId) : (t.port p).volume = (s.port p).volume :=
  (h.port p).volume

theorem settle_volume (s : State) (p : PortId) : ((settle s).port p).volume = (s.port p).volume :=
  ((settle_settles s).port p).volume

/-- The jobs released, PTS and RPU leave the volume state as the label gave it. -/
theorem settleLabel_volume (s : State) (p : PortId) (o : DriveOutcome) :
    ((s.settleLabel p o).port p).volume = labelVolume o := by
  simp only [State.settleLabel]
  have h1 : (((s.modPort p (fun q => { q with volume := labelVolume o })).postPortEvent p .volume).port p).volume =
      labelVolume o := by
    simp only [State.postPortEvent, State.post_port, State.port_modPort_same]
  generalize State.postPortEvent _ p .volume = s1 at h1
  have k2 : s1.Keeps ((s1.setHold p false).releaseJobs p) :=
    (s1.setHold_keeps p false).toKeeps.trans (State.releaseJobs_keeps _ p)
  generalize (s1.setHold p false).releaseJobs p = s2 at k2
  have k3 : s1.Keeps (if s2.somePresentOn p then s2.evaluate p else s2) := by
    split
    · exact k2.trans (s2.evaluate_keeps p)
    · exact k2
  split
  · exact ((k3.trans (rpuChoice_keeps _).toKeeps).volume p).trans h1
  · exact (k3.volume p).trans h1

/-- The outcome of a label read settles its port's volume state (R43, R57). -/
theorem takeOutcome_label_volume {s : State} {p : PortId} {o : Outstanding} (r : DriveReply) (st : DriveStatus)
    (ho : o.claimant = some .label) :
    ((s.takeOutcome p o r st).port p).volume = labelVolume (outcomeOf (s.port p) o.claim r st) := by
  simp only [State.takeOutcome, ho, State.handOutcome]
  exact settleLabel_volume _ p _

/-- A reply whose status is no port error is an outcome (R43). -/
theorem State.takeReply_outcome {s : State} {p : PortId} {o : Outstanding} {r : DriveReply} {st : DriveStatus}
    (h : replyStatus o.claim r = some st) (hst : st ≠ .driveError) : s.takeReply p o r = s.takeOutcome p o r st := by
  unfold State.takeReply
  rw [h]
  cases st with
  | driveError => exact absurd rfl hst
  | good | mediumError | notReady | writeProtected => rfl

/-- The reply of the outstanding command is taken (R41). -/
theorem exec_driveReply_taken {s : State} {p : PortId} {bytes : List Byte} {r : DriveReply} {o : Outstanding}
    (hb : DriveReply.ofBytes bytes = some r) (ho : (s.port p).outstanding = some o) (ht : r.tag.toNat = o.tag.toNat) :
    exec (.driveReply p bytes) s = .next (settle (s.takeReply p o r)) := by
  show execDriveReply p bytes s = _
  simp only [execDriveReply, hb, State.offerReply, ho, ht, if_true]

/-! ### Presence (R26) -/

section presence

variable {q : Port} {e : StoredEntry} {c : CopyDesc}

theorem presenceOn_offline (h : q.state = .offline) : presenceOn q e c = .portOffline := by
  simp [presenceOn, h]

variable (h : q.state ≠ .offline)
include h

/-- A volume mounted on a port that is not OFFLINE decides by its id and its block count. -/
theorem presenceOn_mounted {v : VolumeId} {n : Nat} (hv : q.volume = .mounted v n) : presenceOn q e c =
    if v = c.volumeId then (if highestBlock e c < n then .present else .outOfBounds) else .absent := by
  unfold presenceOn
  cases hs : q.state with
  | offline => exact absurd hs h
  | normal | recovery => simp only [hv]

theorem presenceOn_unmounted (hv : q.volume = .noMedia ∨ q.volume = .labelRead ∨ q.volume = .unlabelled) :
    presenceOn q e c = .absent := by
  unfold presenceOn
  cases hs : q.state with
  | offline => exact absurd hs h
  | normal | recovery => rcases hv with hv | hv | hv <;> simp only [hv]

end presence

end Sys2Proof.Machine
end

section
/-! SUPPORT. The reel numbers of the catalogue under every command (R20, R22): only resets, start-up, ADD_REEL,
REMOVE_REEL and RESTORE_FACTORY change which reels are catalogued. -/

namespace Sys2Proof.Machine

open Sys2Proof

/-! ### States with the same reel numbers -/

/-- The same reel numbers in the same order. -/
def State.SameReels (s t : State) : Prop := t.cat.map (fun e => e.reel) = s.cat.map (fun e => e.reel)

namespace State.SameReels

variable {s t u : State}

theorem refl (s : State) : s.SameReels s := rfl

theorem trans (h : s.SameReels t) (k : t.SameReels u) : s.SameReels u := Eq.trans k h

theorem of_cat (h : t.cat = s.cat) : s.SameReels t := congrArg (List.map fun e : Entry => e.reel) h

theorem settle (h : s.SameReels t) : s.SameReels (settle t) := h.trans (of_cat (settle_settles t).cat)

theorem catSound (h : s.SameReels t) (k : s.CatSound) : t.CatSound := State.catSound_of_reels h k

end State.SameReels

theorem State.Keeps.sameReels {s t : State} (h : s.Keeps t) : s.SameReels t := h.reels

theorem State.KeepsJobs.sameReels {s t : State} (h : s.KeepsJobs t) : s.SameReels t := h.toKeeps.reels

theorem State.Moves.sameReels {s t : State} (h : s.Moves t) : s.SameReels t := h.reels

theorem State.catSound_of_cat {s t : State} (h : t.cat = s.cat) (k : s.CatSound) : t.CatSound :=
  (State.SameReels.of_cat h).catSound k

theorem State.catSound_of_nil {s : State} (h : s.cat = []) : s.CatSound :=
  ⟨by simp [h], by simp [h], h ▸ trivial⟩

/-- A command's meaning answers a state with the same reel numbers. -/
def State.KeepsReels (s : State) (o : Host.Outcome State Fault Refusal) : Prop := ∃ t, o = .next t ∧ s.SameReels t

/-- An entry replaced by one of the same reel number. -/
theorem State.modEntry_sameReels (s : State) (n : Nat) (f : Entry → Entry) (h : ∀ e, e.reel = n → (f e).reel = n) :
    s.SameReels (s.modEntry n f) := by
  simp only [State.SameReels, State.modEntry, List.map_map]
  refine List.map_congr_left fun e _ => ?_
  simp only [Function.comp]
  split
  · next he => rw [h e he, he]
  · rfl

/-! ### Requests: what an action leaves -/

/-- The state that an action leaves satisfies `P`; a refusal leaves none. -/
def Action.Leaves (P : State → Prop) : Action → Prop
  | .refuse _ => True
  | .perform t _ _ => P t

/-- A request keeps the catalogue sound where its action leaves a sound one. -/
theorem State.runRequest_catSound {s : State} {k : RequestKind} {act : List Byte → State → Action} (h : s.CatSound)
    (ha : ∀ r, s.Takes k r → (act r.payload s).Leaves State.CatSound) : (s.runRequest k act).CatSound := by
  rcases s.runRequest_cases k act with e | ⟨st, e⟩ | ⟨r, t, st, p, hr, hp, e⟩
  · rw [e]; exact h
  · rw [e]; exact State.catSound_of_cat (s.answer_cat st []) h
  · rw [e]
    have ht := ha r hr
    rw [hp] at ht
    exact State.catSound_of_cat (t.answer_cat st p) ht

/-- A request leaves the reel numbers where its action does. -/
theorem State.runRequest_keepsReels {s : State} {k : RequestKind} {act : List Byte → State → Action}
    (ha : ∀ r, s.Takes k r → (act r.payload s).Leaves s.SameReels) : s.KeepsReels (.next (s.runRequest k act)) := by
  refine ⟨_, rfl, ?_⟩
  rcases s.runRequest_cases k act with e | ⟨st, e⟩ | ⟨r, t, st, p, hr, hp, e⟩
  · rw [e]; exact .refl s
  · rw [e]; exact .of_cat (s.answer_cat st [])
  · rw [e]
    have ht := ha r hr
    rw [hp] at ht
    exact State.SameReels.trans ht (.of_cat (t.answer_cat st p))

/-! ### Requests on the part and its ports -/

section actions

variable (p : List Byte) (s : State)

theorem enterRun_sameReels : s.SameReels (enterRun s) :=
  (evaluateAll_keeps s).sameReels.trans (rpuChoice_keeps _).sameReels

theorem setModeAction_leaves : (setModeAction p s).Leaves s.SameReels := by
  have hrun : ∀ a, s.SameReels (s.setRun a) := by
    intro a
    simp only [State.setRun]
    split
    · exact .refl s
    · exact (enterRun_sameReels { s with autoRun := a, mode := .run }).settle
  simp only [setModeAction]
  split
  · trivial
  · split
    · trivial
    · split
      · split
        · trivial
        · exact .refl s
      · exact hrun _

theorem setTimeAction_leaves : (setTimeAction p s).Leaves s.SameReels :=
  (evaluateAll_keeps (s.setClock _)).sameReels.settle

theorem setPatrolAction_leaves : (setPatrolAction p s).Leaves s.SameReels := by
  simp only [setPatrolAction]
  split
  · trivial
  · split
    · split
      · trivial
      · split
        · exact .refl s
        · exact (evaluateAll_keeps (s.setPatrol true)).sameReels.settle
    · exact .refl s

theorem convertAction_leaves : (convertAction p s).Leaves s.SameReels := by
  simp only [convertAction]
  split
  · trivial
  · split
    · trivial
    · split
      · split
        · trivial
        · exact .refl s
      · split
        · exact .refl s
        · trivial

theorem portConfigAction_leaves : (portConfigAction p s).Leaves s.SameReels := by
  unfold portConfigAction
  split
  · trivial
  · exact .refl s

theorem portStatusAction_leaves : (portStatusAction p s).Leaves s.SameReels := by
  unfold portStatusAction
  split
  · trivial
  · exact .refl s

theorem bringOnline_sameReels (n : PortId) : s.SameReels (s.bringOnline n) := by
  have hpost : s.SameReels
      ((s.modPort n (fun q => { q with state := .normal, cause := none })).postPortEvent n .port) :=
    .of_cat (State.post_cat _ _)
  simp only [State.bringOnline]
  split
  · exact hpost
  · exact hpost

theorem portOnlineAction_leaves : (portOnlineAction p s).Leaves s.SameReels := by
  unfold portOnlineAction
  split
  · trivial
  · split
    · exact .refl s
    · split
      · trivial
      · exact (bringOnline_sameReels s _).settle

theorem marginReadAction_leaves : (marginReadAction p s).Leaves s.SameReels := by
  unfold marginReadAction
  split
  · trivial
  · exact .refl s

/-! ### Requests on the catalogue and on stores -/

@[simp] theorem editEntry_reel (old : Entry) (new : StoredEntry) : (editEntry old new).reel = new.reel := rfl

theorem editReelAction_leaves : (editReelAction p s).Leaves s.SameReels := by
  simp only [editReelAction]
  split
  · trivial
  · split
    · trivial
    · next old _ _ e he => exact s.modEntry_sameReels _ _ fun _ _ => (editEntry_reel old e).trans (checkEntry_reel he)

theorem readReelAction_leaves : (readReelAction p s).Leaves s.SameReels := by
  unfold readReelAction
  split
  · trivial
  · exact .refl s

theorem listReelsAction_leaves : (listReelsAction p s).Leaves s.SameReels := by
  simp only [listReelsAction]
  split
  · trivial
  · exact .refl s

theorem freezeReelAction_leaves : (freezeReelAction p s).Leaves s.SameReels := by
  unfold freezeReelAction
  split
  · trivial
  · split
    · trivial
    · exact s.modEntry_sameReels _ _ fun _ he => he

theorem storeAction_leaves : (storeAction p s).Leaves s.SameReels := by
  unfold storeAction
  split
  · trivial
  · exact .refl s

theorem lockAction_leaves (b : Bool) : (lockAction b p s).Leaves s.SameReels := by
  unfold lockAction
  split
  · trivial
  · split
    · exact .refl s
    · exact (s.lockReel_keeps _ b).sameReels.settle

theorem lockAllAction_leaves (b : Bool) : (lockAllAction b p s).Leaves s.SameReels :=
  (s.lockEvery_keeps b).sameReels.settle

/-! ### Requests on jobs and defects -/

/-- Job requests that create a job are taken in RUN alone (Table 9-7). -/
theorem State.Takes.run {s : State} {k : RequestKind} {r : Request} (h : s.Takes k r)
    (hk : k = .startScrub ∨ k = .startVerify) : s.mode = .run := by
  have hm := h.mode
  cases hs : s.mode with
  | run => rfl
  | starting | setup => rcases hk with rfl | rfl <;> simp [hs, RequestKind.takenIn] at hm

theorem startJob_sameReels (hm : s.mode = .run) (i : SlotId) {j : Job} (hj : j.state = .queued) :
    s.SameReels (s.startJob i j) :=
  ((s.createJob_keeps i j hm hj).trans (State.followUp_keeps _ _)).sameReels.settle

theorem startScrubAction_leaves (hm : s.mode = .run) : (startScrubAction p s).Leaves s.SameReels := by
  unfold startScrubAction
  split
  · trivial
  · split
    · trivial
    · split
      · trivial
      · split
        · trivial
        · split
          · trivial
          · split
            · trivial
            · exact startJob_sameReels s hm _ (newJob_state _ _ _ _ _ _ _)

theorem startVerifyAction_leaves (hm : s.mode = .run) : (startVerifyAction p s).Leaves s.SameReels := by
  unfold startVerifyAction
  split
  · trivial
  · split
    · trivial
    · split
      · trivial
      · split
        · trivial
        · exact startJob_sameReels s hm _ (newJob_state _ _ _ _ _ _ _)

/-- A job named by its id stands in its slot. -/
theorem State.jobNamed_slot {s : State} {id : Nat} {i : SlotId} {j : Job} (h : s.jobNamed id = some (i, j)) :
    s.slot i = some j := by
  unfold State.jobNamed at h
  split at h
  · cases h
  · obtain ⟨k, hk, he⟩ := Option.map_eq_some_iff.mp h
    cases he
    exact hk

theorem suspendJobAction_leaves : (suspendJobAction p s).Leaves s.SameReels := by
  unfold suspendJobAction
  split
  · trivial
  · next i j hj =>
    split
    · exact .refl s
    · split
      · trivial
      · next hrun =>
        split
        · trivial
        · have ha : s.ActiveAt i := ⟨j, State.jobNamed_slot hj, by rw [not_not.mp hrun]; rfl⟩
          exact (s.suspend_keeps i j ha).sameReels.settle

theorem resumeJobAction_leaves : (resumeJobAction p s).Leaves s.SameReels := by
  unfold resumeJobAction
  split
  · trivial
  · next i j hj =>
    split
    · trivial
    · next hsus =>
      have hl : s.LiveAt i := by
        intro k hk
        rw [State.jobNamed_slot hj] at hk
        cases hk
        rw [not_not.mp hsus]
        rfl
      exact (s.resume_keeps i j hl).sameReels.settle

theorem abortJobAction_leaves : (abortJobAction p s).Leaves s.SameReels := by
  unfold abortJobAction
  split
  · trivial
  · split
    · trivial
    · exact (s.abort_keeps _ _).sameReels.settle

theorem jobStatusAction_leaves : (jobStatusAction p s).Leaves s.SameReels := by
  unfold jobStatusAction
  split
  · trivial
  · refine .of_cat ?_
    split <;> rfl

theorem readDefectsAction_leaves : (readDefectsAction p s).Leaves s.SameReels := by
  simp only [readDefectsAction]
  split
  · trivial
  · exact .refl s

theorem removeDefectAction_leaves : (removeDefectAction p s).Leaves s.SameReels := by
  unfold removeDefectAction
  split
  · trivial
  · split
    · exact ((State.admission_keeps (s.dropRecord _)).trans (State.evaluate_keeps _ _)).sameReels.settle
    · trivial

theorem retryRecord_sameReels (r : Record) : s.SameReels (s.retryRecord r) := by
  simp only [State.retryRecord]
  split
  · exact ((s.modRecord_keeps _ _).trans (rpuChoice_keeps _)).sameReels.settle
  · exact (s.modRecord_keeps _ _).sameReels.settle

theorem retryDefectAction_leaves : (retryDefectAction p s).Leaves s.SameReels := by
  unfold retryDefectAction
  split
  · trivial
  · split
    · trivial
    · split
      · trivial
      · split
        · trivial
        · exact retryRecord_sameReels s _

end actions

/-! ### Events of a drive port -/

section events

variable (s : State) (p : PortId)

theorem settleLabel_sameReels (o : DriveOutcome) : s.SameReels (s.settleLabel p o) := by
  simp only [State.settleLabel]
  have h1 : s.SameReels ((s.modPort p (fun q => { q with volume := labelVolume o })).postPortEvent p .volume) :=
    .of_cat (State.post_cat _ _)
  have h2 := h1.trans ((State.setHold_keeps _ p false).toKeeps.trans (State.releaseJobs_keeps _ p)).sameReels
  generalize State.releaseJobs _ p = s2 at h2
  have h3 : s.SameReels (if s2.somePresentOn p then s2.evaluate p else s2) := by
    split
    · exact h2.trans (s2.evaluate_keeps p).sameReels
    · exact h2
  split
  · exact h3.trans (rpuChoice_keeps _).sameReels
  · exact h3

theorem handOutcome_sameReels (c : Option Claimant) (o : DriveOutcome) : s.SameReels (s.handOutcome p c o) := by
  unfold State.handOutcome
  split
  · exact .refl s
  · exact settleLabel_sameReels s p o
  · exact (s.rpuOutcome_keeps p o).sameReels
  · split
    · exact .refl s
    · next i hi =>
      exact ((s.readOutcome_keeps i o (State.activeSlot_activeAt hi)).trans (State.followUp_keeps _ p)).sameReels

theorem takeOutcome_sameReels (o : Outstanding) (r : DriveReply) (st : DriveStatus) :
    s.SameReels (s.takeOutcome p o r st) :=
  (((s.finish_moves p).trans (State.returnToNormal_moves _ p)).trans
    (State.feedReply_moves _ p _ _ _)).sameReels.trans (handOutcome_sameReels _ p _ _)

theorem takeReply_sameReels (o : Outstanding) (r : DriveReply) : s.SameReels (s.takeReply p o r) := by
  unfold State.takeReply
  split
  · exact (s.portError_moves p).sameReels
  · exact (s.portError_moves p).sameReels
  · exact takeOutcome_sameReels s p o r _

theorem offerReply_sameReels (r : DriveReply) : s.SameReels (s.offerReply p r) := by
  unfold State.offerReply
  split
  · exact .refl s
  · split
    · exact (takeReply_sameReels s p _ r).settle
    · exact .refl s

theorem execDriveReply_keepsReels (bytes : List Byte) : s.KeepsReels (execDriveReply p bytes s) := by
  refine ⟨_, rfl, ?_⟩
  split
  · exact .refl s
  · exact offerReply_sameReels s p _

theorem execCommandTimeout_keepsReels : s.KeepsReels (execCommandTimeout p s) := by
  refine ⟨_, rfl, ?_⟩
  split
  · exact .refl s
  · exact (s.portError_moves p).sameReels.settle

theorem loseMedia_sameReels : s.SameReels (s.loseMedia p) :=
  (State.mediaDrop_keeps (s.modPort p _) p).sameReels

theorem rereadLabel_sameReels : s.SameReels (s.rereadLabel p) := by
  unfold State.rereadLabel
  split
  · exact (State.mediaDrop_keeps (s.beginLabel p) p).sameReels
  · exact .refl s

theorem tellCut_sameReels (o : Outstanding) : s.SameReels (s.tellCut p o) := by
  unfold State.tellCut
  split
  · exact .refl s
  · split <;> exact .refl s
  · exact (s.rpuCut_keeps p _).sameReels
  · split
    · exact .refl s
    · next i hi =>
      split
      · exact .refl s
      · split
        · exact (State.followUp_keeps (s.modJob i _) p).sameReels
        · exact ((s.enterWaiting_active_keeps i _ (State.activeSlot_activeAt hi)).trans
            (State.followUp_keeps _ p)).sameReels

theorem gntFallen_sameReels : s.SameReels (s.gntFallen p) := by
  simp only [State.gntFallen]
  split
  · exact .refl s
  · split
    · exact tellCut_sameReels (State.modPort _ p Port.finish) p _
    · exact (State.portError_moves (s.setPort p _) p).sameReels

/-- A line's change leaves the reel numbers where the line's own rule does (R44). -/
theorem lineChange_keepsReels (k : Line) (b : Bool) {act : State → State} (ha : ∀ t : State, t.SameReels (act t)) :
    s.KeepsReels (.next (s.lineChange p k b act)) := by
  refine ⟨_, rfl, ?_⟩
  rcases s.lineChange_cases p k b act with e | ⟨-, e⟩ | ⟨t, hm, -, e⟩
  · rw [e]; exact .refl s
  · rw [e]; exact .refl s
  · rw [e]; exact (hm.sameReels.trans (ha t)).settle

theorem execGntRise_keepsReels : s.KeepsReels (execGntRise p s) := by
  refine ⟨_, rfl, ?_⟩
  split
  · exact .refl s
  · split
    · exact (s.gntRisen_moves p).sameReels.settle
    · exact .refl s

theorem execGntFall_keepsReels : s.KeepsReels (execGntFall p s) := by
  refine ⟨_, rfl, ?_⟩
  split
  · exact .refl s
  · split
    · exact (gntFallen_sameReels s p).settle
    · exact .refl s

theorem execYldRise_keepsReels : s.KeepsReels (execYldRise p s) := by
  refine ⟨_, rfl, ?_⟩
  split
  · exact .refl s
  · split
    · exact (State.jobYields_keeps (s.modPort p _) p).sameReels.settle
    · exact .refl s

theorem execYldFall_keepsReels : s.KeepsReels (execYldFall p s) := by
  refine ⟨_, rfl, ?_⟩
  split
  · exact .refl s
  · split
    · exact (State.jobUnyields_keeps (s.modPort p _) p).sameReels.settle
    · exact .refl s

end events

/-! ### Other events -/

section others

variable (s : State)

theorem execUnknownRequest_keepsReels : s.KeepsReels (execUnknownRequest s) := by
  refine ⟨_, rfl, ?_⟩
  split
  · exact .refl s
  · split
    · split <;> exact .refl s
    · exact .refl s

theorem execStoreEnds_keepsReels (finish : StoreFinish) : s.KeepsReels (execStoreEnds finish s) := by
  refine ⟨_, rfl, ?_⟩
  split
  · exact .refl s
  · next j _ =>
    have hpost : (s.finishStore j finish).cat = s.cat := State.post_cat _ _
    exact (State.SameReels.of_cat hpost).settle

theorem execMinuteExpiry_keepsReels : s.KeepsReels (execMinuteExpiry s) := by
  refine ⟨_, rfl, ?_⟩
  split
  · exact (evaluateAll_keeps { s with pts := s.pts.expire }).sameReels.settle
  · exact .refl s

end others

end Sys2Proof.Machine
end

section
/-! SUPPORT. The catalogue stays sound (R20, R22): start-up loads a VALID image, edits keep the order, and every other
command leaves the reel numbers. -/

namespace Sys2Proof.Machine

open Sys2Proof

/-! ### Entries taken out and put in -/

/-- Fewer entries in the same order are as sound. -/
theorem State.catSound_of_filter {s t : State} {f : Entry → Bool} (h : t.cat = s.cat.filter f) (k : s.CatSound) :
    t.CatSound := by
  have hsub : List.Sublist (s.cat.filter f) s.cat := List.filter_sublist
  refine ⟨?_, fun e he => ?_, ?_⟩
  · rw [h]; exact hsub.length_le.trans k.capacity
  · rw [h] at he; exact k.numbers e (List.mem_of_mem_filter he)
  · rw [h, ascending_iff_pairwise]
    exact ((ascending_iff_pairwise _).mp k.unique).sublist (hsub.map _)

/-- No entry carries a reel number that names none. -/
theorem State.reel_ne_of_entry_eq_none {s : State} {n : Nat} (h : s.entry n = none) : ∀ x ∈ s.cat, x.reel ≠ n :=
  fun x hx => by simpa using List.find?_eq_none.mp h x hx

/-- ADD_REEL keeps the catalogue sound (R28 steps 1 to 3). -/
theorem addReelAction_leaves {p : List Byte} {s : State} (h : s.CatSound) :
    (addReelAction p s).Leaves State.CatSound := by
  simp only [addReelAction]
  split
  · trivial
  · next hzero =>
    split
    · trivial
    · next hnew =>
      split
      · trivial
      · next hroom =>
        split
        · trivial
        · next e he =>
          have hreel : e.reel = (entryFields p).reel := checkEntry_reel he
          have hfree := State.reel_ne_of_entry_eq_none (Option.not_isSome_iff_eq_none.mp hnew)
          refine ⟨?_, fun x hx => ?_, ascending_insertEntry h.unique fun x hx => hreel ▸ hfree x hx⟩
          · show (insertEntry _ s.cat).length ≤ _
            rw [insertEntry_length]
            exact Nat.lt_of_not_le hroom
          · rcases (mem_insertEntry _ x s.cat).mp hx with rfl | hx
            · have hlt := field_lt p 0 2
              show 1 ≤ e.reel ∧ e.reel ≤ 65535
              rw [hreel]
              exact ⟨Nat.one_le_iff_ne_zero.mpr hzero, Nat.le_of_lt_succ hlt⟩
            · exact h.numbers x hx

theorem removeReelAction_leaves {p : List Byte} {s : State} (h : s.CatSound) :
    (removeReelAction p s).Leaves State.CatSound := by
  unfold removeReelAction
  split
  · trivial
  · exact State.catSound_of_filter rfl h

theorem restoreFactoryAction_leaves {p : List Byte} {s : State} (h : s.CatSound) :
    (restoreFactoryAction p s).Leaves State.CatSound := by
  unfold restoreFactoryAction
  split
  · trivial
  · split
    · trivial
    · exact State.catSound_of_filter (s := s) rfl h

/-! ### The stored image at start-up (R39, R183) -/

theorem reelsDistinct_iff_nodup (l : List StoredEntry) :
    reelsDistinct l = true ↔ (l.map (fun e => e.reel)).Nodup := by
  induction l with
  | nil => simp [reelsDistinct]
  | cons e rest ih =>
    simp only [reelsDistinct, Bool.and_eq_true, List.all_eq_true, decide_eq_true_eq, ih, List.map_cons,
      List.nodup_cons, List.mem_map, not_exists, not_and]

theorem mem_foldr_insertEntry (x : Entry) (l : List Entry) : x ∈ l.foldr insertEntry [] ↔ x ∈ l := by
  induction l with
  | nil => rfl
  | cons e rest ih => rw [List.foldr_cons, mem_insertEntry, ih, List.mem_cons]

theorem foldr_insertEntry_length (l : List Entry) : (l.foldr insertEntry []).length = l.length := by
  induction l with
  | nil => rfl
  | cons e rest ih => rw [List.foldr_cons, insertEntry_length, ih, List.length_cons]

/-- Entries of distinct reel numbers, put in their places one by one, stand in order. -/
theorem ascending_foldr_insertEntry {l : List Entry} (h : (l.map (fun e => e.reel)).Nodup) :
    ascending (l.foldr insertEntry []) := by
  induction l with
  | nil => trivial
  | cons e rest ih =>
    obtain ⟨hnew, hrest⟩ := List.nodup_cons.mp h
    refine ascending_insertEntry (ih hrest) fun x hx hxe => hnew ?_
    exact List.mem_map.mpr ⟨x, (mem_foldr_insertEntry x rest).mp hx, hxe⟩

/-- A slot is judged by what it holds (R183). -/
theorem Siu.judged_condition (u : Siu) (k : Fin 2) : u.judged.slots[k].condition = u.judged.slots[k].content.judge := by
  match k with
  | 0 => simp [Siu.judged, ImageSlot.judged]
  | 1 => simp [Siu.judged, ImageSlot.judged]

/-- The slot of the stored image is VALID (R183). -/
theorem Siu.storedSlot_valid {u : Siu} {k : Fin 2} (h : u.storedSlot = some k) :
    ∃ g, u.slots[k].condition = .valid g := by
  have hgen : ∀ {c : SlotCondition} {g : Nat}, c.generation = some g → ∃ g, c = .valid g := by
    intro c g hc
    cases c with
    | valid g => exact ⟨g, rfl⟩
    | blank | invalid => cases hc
  unfold Siu.storedSlot at h
  split at h
  · next g0 g1 h0 h1 =>
    split at h
    · cases h; exact hgen h1
    · cases h; exact hgen h0
  · next h0 h1 => cases h; exact hgen h0
  · next h0 h1 => cases h; exact hgen h1
  · cases h

/-- What SIU judges VALID is a valid image (R183). -/
theorem SlotContent.judge_valid {c : SlotContent} {g : Nat} (h : c.judge = .valid g) :
    ∃ m check, c = .image m check ∧ m.valid check = true := by
  cases c with
  | image m check =>
    refine ⟨m, check, rfl, ?_⟩
    by_contra hv
    simp [SlotContent.judge, hv] at h
  | blank | unreadable => cases h

/-- The image a start-up loads is valid (R183, R187 step 2). -/
theorem Siu.judged_storedImage_valid {u : Siu} {m : Image} (h : u.judged.storedImage = some m) :
    ∃ check, m.valid check = true := by
  unfold Siu.storedImage at h
  split at h
  · cases h
  · next k hk =>
    obtain ⟨g, hg⟩ := Siu.storedSlot_valid hk
    obtain ⟨n, check, hn, hv⟩ := SlotContent.judge_valid ((u.judged_condition k).symm.trans hg)
    rw [hn] at h
    cases h
    exact ⟨check, hv⟩

/-- The entries of a valid image are as many as the catalogue holds, in their ranges, and of distinct reels. -/
theorem Image.valid_entries {m : Image} {check : Digest} (h : m.valid check = true) :
    m.entries.length ≤ Config.catalogueCapacity ∧ (∀ e ∈ m.entries, e.inRange = true) ∧
      (m.entries.map (fun e => e.reel)).Nodup := by
  simp only [Image.valid, Image.inRange, Bool.and_eq_true, decide_eq_true_eq, List.all_eq_true] at h
  obtain ⟨⟨⟨⟨-, hcount⟩, -⟩, ⟨⟨-, hlen⟩, hrange⟩⟩, hdistinct⟩ := h
  exact ⟨hlen ▸ hcount, hrange, (reelsDistinct_iff_nodup _).mp hdistinct⟩

theorem StoredEntry.inRange_reel {e : StoredEntry} (h : e.inRange = true) : 1 ≤ e.reel ∧ e.reel ≤ Config.word16Max := by
  simp only [StoredEntry.inRange, Bool.and_eq_true, decide_eq_true_eq, and_assoc] at h
  exact ⟨h.1, h.2.1⟩

/-- Start-up loads a sound catalogue (R39). -/
theorem startUpLoad_catSound (s : State) : s.startUpLoad.CatSound := by
  have hcat : s.startUpLoad.cat = startCatalogue s.siu.judged.storedImage := rfl
  cases himg : s.siu.judged.storedImage with
  | none => exact State.catSound_of_nil (by rw [hcat, himg]; rfl)
  | some m =>
    obtain ⟨check, hv⟩ := Siu.judged_storedImage_valid himg
    obtain ⟨hlen, hrange, hnodup⟩ := Image.valid_entries hv
    rw [himg, startCatalogue] at hcat
    refine ⟨?_, fun e he => ?_, ?_⟩
    · rw [hcat, foldr_insertEntry_length, List.length_map]; exact hlen
    · rw [hcat, mem_foldr_insertEntry, List.mem_map] at he
      obtain ⟨x, hx, rfl⟩ := he
      exact StoredEntry.inRange_reel (hrange x hx)
    · rw [hcat]
      exact ascending_foldr_insertEntry (by rw [List.map_map]; exact hnodup)

theorem finishStartUp_sameReels (s : State) : s.SameReels s.finishStartUp := by
  have hnotice : ∀ (u : State) (n : Notice), (takePosted (u.post n)).cat = u.cat := by
    intro u n
    rw [takePosted_frame]
    exact State.post_cat u n
  simp only [State.finishStartUp]
  have hposted := hnotice { s with mode := s.startMode } (startUpNotice { s with mode := s.startMode })
  generalize takePosted _ = t at hposted ⊢
  split
  · have hrun := enterRun_sameReels { t with pts := { t.pts with timerRunning := true } }
    exact State.SameReels.trans (.of_cat hposted) hrun
  · exact .of_cat hposted

/-! ### Every command -/

/-- The commands that can change which reels are catalogued: resets (the frame sent may be a RESET's reply), start-up,
ADD_REEL, REMOVE_REEL and RESTORE_FACTORY. -/
def changesReels : Instr → Bool
  | .powerOnResetAssert | .resetPinAssert | .frameSent | .startUpEnd | .addReel | .removeReel | .restoreFactory => true
  | _ => false

/-- Every other command leaves the reel numbers as they are. -/
theorem exec_keepsReels (c : Instr) (hc : changesReels c = false) (s : State) : s.KeepsReels (exec c s) := by
  cases c with
  | powerOnResetAssert | resetPinAssert | frameSent | startUpEnd | addReel | removeReel | restoreFactory => cases hc
  | powerOnResetRelease | resetPinRelease => exact ⟨_, rfl, .refl s⟩
  | receiveFrame bytes => exact ⟨_, rfl, .of_cat (by split <;> rfl)⟩
  | badByteInHunt => exact ⟨_, rfl, .of_cat (by split <;> rfl)⟩
  | gapTimerExpiry => exact ⟨_, rfl, .of_cat (by split <;> rfl)⟩
  | unknownRequest => exact execUnknownRequest_keepsReels s
  | storeEnds finish => exact execStoreEnds_keepsReels s finish
  | minuteExpiry => exact execMinuteExpiry_keepsReels s
  | identify | status | setNotices | reset => exact State.runRequest_keepsReels fun _ _ => .refl s
  | setMode => exact State.runRequest_keepsReels fun _ _ => setModeAction_leaves _ s
  | setTime => exact State.runRequest_keepsReels fun _ _ => setTimeAction_leaves _ s
  | setPatrol => exact State.runRequest_keepsReels fun _ _ => setPatrolAction_leaves _ s
  | convert => exact State.runRequest_keepsReels fun _ _ => convertAction_leaves _ s
  | portConfig => exact State.runRequest_keepsReels fun _ _ => portConfigAction_leaves _ s
  | portStatus => exact State.runRequest_keepsReels fun _ _ => portStatusAction_leaves _ s
  | portOnline => exact State.runRequest_keepsReels fun _ _ => portOnlineAction_leaves _ s
  | marginRead => exact State.runRequest_keepsReels fun _ _ => marginReadAction_leaves _ s
  | editReel => exact State.runRequest_keepsReels fun _ _ => editReelAction_leaves _ s
  | readReel => exact State.runRequest_keepsReels fun _ _ => readReelAction_leaves _ s
  | listReels => exact State.runRequest_keepsReels fun _ _ => listReelsAction_leaves _ s
  | freezeReel => exact State.runRequest_keepsReels fun _ _ => freezeReelAction_leaves _ s
  | store => exact State.runRequest_keepsReels fun _ _ => storeAction_leaves _ s
  | lockReel | unlockReel => exact State.runRequest_keepsReels fun _ _ => lockAction_leaves _ s _
  | lockAll | unlockAll => exact State.runRequest_keepsReels fun _ _ => lockAllAction_leaves [] s _
  | startScrub => exact State.runRequest_keepsReels fun _ h => startScrubAction_leaves _ s (h.run (.inl rfl))
  | startVerify => exact State.runRequest_keepsReels fun _ h => startVerifyAction_leaves _ s (h.run (.inr rfl))
  | suspendJob => exact State.runRequest_keepsReels fun _ _ => suspendJobAction_leaves _ s
  | resumeJob => exact State.runRequest_keepsReels fun _ _ => resumeJobAction_leaves _ s
  | abortJob => exact State.runRequest_keepsReels fun _ _ => abortJobAction_leaves _ s
  | jobStatus => exact State.runRequest_keepsReels fun _ _ => jobStatusAction_leaves _ s
  | readDefects => exact State.runRequest_keepsReels fun _ _ => readDefectsAction_leaves _ s
  | removeDefect => exact State.runRequest_keepsReels fun _ _ => removeDefectAction_leaves _ s
  | retryDefect => exact State.runRequest_keepsReels fun _ _ => retryDefectAction_leaves _ s
  | driveReply p bytes => exact execDriveReply_keepsReels s p bytes
  | commandTimeout p => exact execCommandTimeout_keepsReels s p
  | readyRise p =>
    refine lineChange_keepsReels s p _ _ fun t => ?_
    split
    · exact rereadLabel_sameReels t p
    · exact .refl t
  | mediaRise p => exact lineChange_keepsReels s p _ _ fun t => .of_cat (by split <;> rfl)
  | mediaFall p =>
    refine lineChange_keepsReels s p _ _ fun t => ?_
    split
    · exact .refl t
    · exact loseMedia_sameReels t p
  | wprotRise p => exact lineChange_keepsReels s p _ _ fun t => (t.clearHold_keeps p).sameReels
  | wprotFall p => exact lineChange_keepsReels s p _ _ fun t =>
      ((t.setHold_keeps p false).trans (rpuChoice_keeps _)).sameReels
  | faultRise p => exact lineChange_keepsReels s p _ _ fun t => (t.faultRisen_moves p).sameReels
  | readyFall p | faultFall p => exact lineChange_keepsReels s p _ _ .refl
  | gntRise p => exact execGntRise_keepsReels s p
  | gntFall p => exact execGntFall_keepsReels s p
  | yldRise p => exact execYldRise_keepsReels s p
  | yldFall p => exact execYldFall_keepsReels s p

/-- Every command keeps the catalogue sound. -/
theorem exec_catSound (c : Instr) {s : State} (h : s.CatSound) : ∃ t, exec c s = .next t ∧ t.CatSound := by
  cases hc : changesReels c with
  | false =>
    obtain ⟨t, ht, hsame⟩ := exec_keepsReels c hc s
    exact ⟨t, ht, hsame.catSound h⟩
  | true =>
    cases c with
    | addReel => exact ⟨_, rfl, State.runRequest_catSound h fun _ _ => addReelAction_leaves h⟩
    | removeReel => exact ⟨_, rfl, State.runRequest_catSound h fun _ _ => removeReelAction_leaves h⟩
    | restoreFactory => exact ⟨_, rfl, State.runRequest_catSound h fun _ _ => restoreFactoryAction_leaves (p := []) h⟩
    | powerOnResetAssert | resetPinAssert =>
      refine ⟨_, rfl, ?_⟩
      split
      · exact h
      · exact State.catSound_of_nil rfl
    | frameSent =>
      refine ⟨_, rfl, ?_⟩
      split
      · exact State.catSound_of_nil rfl
      · exact State.catSound_of_cat (s := s) rfl h
    | startUpEnd =>
      refine ⟨_, rfl, ?_⟩
      split
      · refine (finishStartUp_sameReels _).settle.catSound ?_
        split
        · exact h
        · exact startUpLoad_catSound s
      · exact h
    | _ => cases hc

/-- A part that idles keeps the catalogue sound, be it that it takes steps 2 to 4 of R187 (log 4). -/
theorem idle_catSound {s : State} (h : s.CatSound) : (idle s).CatSound := by
  unfold idle
  split
  · exact (State.SameReels.refl _).settle.catSound (startUpLoad_catSound s)
  · exact h

end Sys2Proof.Machine
end

section
open Sys2Proof Sys2Proof.Machine

/-- Settles O10: every command keeps the catalogue sound, and so does a part that idles. -/
theorem stepKeepsCatalogueSound : Obligations.StepKeepsCatalogueSound := by
  intro s t h ht
  unfold step at ht
  split at ht
  · cases ht
    exact idle_catSound h
  · next c rest _ =>
    obtain ⟨u, hu, hsound⟩ := exec_catSound c (State.catSound_of_cat (s := s) (t := { s with pending := rest }) rfl h)
    rw [hu] at ht
    cases ht
    exact hsound

/-- Settles O24: the checks of R28 as propositions, and a block in two areas makes the areas meet. -/
theorem checkedEntryIsPlaced : Obligations.CheckedEntryIsPlaced := by
  intro others f e hok h1 h2
  have h := entryChecked_of_ok hok
  obtain ⟨-, hothers, hself⟩ := h.isPlaced
  refine ⟨⟨checkEntry_reel hok, h.inRange h1 h2, congrArg StoredEntry.frozen h.asked⟩, fun b => h.ports_ne,
    fun c hc => (h.copies_sound c hc).blocks, ?_, ?_⟩
  · intro c hc x hx c' hc' hv _ _ n hn hn'
    have hfree := hothers c ((e.mem_copies c).mp hc) x hx
    have hclash : Clash e c x.toStoredEntry c' := clash_of_inCopyArea hv hn hn'
    exact (x.toStoredEntry.forall_mem_copies (¬ Clash e c x.toStoredEntry ·)).mpr hfree c' hc' hclash
  · intro b hb hv n hn hn'
    exact hself b hb (clash_of_inCopyArea hv.symm hn hn')

/-- Settles O25: each check of the action, then each check of an entry; once the copies are taken, the place decides. -/
theorem addReelCreatesEntry : Obligations.AddReelCreatesEntry := by
  refine ⟨?_, ?_⟩
  · intro s r h f
    have refuse : ∀ {st}, addReelAction r.payload s = .refuse st → exec .addReel s = .next (s.answer st []) :=
      exec_refuse rfl h
    refine ⟨fun h0 => refuse (addReelAction_zero h0), fun h0 hn => refuse (addReelAction_exists h0 hn),
      fun h0 hn hf => refuse (addReelAction_full h0 hn hf), fun h0 hn hf => ⟨?_, ?_⟩⟩
    · exact fun st hc => refuse (addReelAction_error h0 hn hf hc)
    · intro e hc
      rw [← entryTaken_of_checked hc]
      exact exec_perform rfl h (addReelAction_ok h0 hn hf hc)
  · intro others f name nameOk countsOk copiesOk refused frames manifests meet areaOk clash
    refine ⟨fun hn => checkEntry_noName (nameAsked_of_not_ok hn), fun hn => checkEntry_noRate (nameAsked_of_ok hn),
      fun rate hn hr => ?_⟩
    have hname : nameAsked f = some name := nameAsked_of_ok hn
    refine ⟨checkEntry_badStart hname hr, ?_, ?_, ?_, ?_⟩
    · exact fun hs hc => checkEntry_badCounts hname hr hs (Bool.eq_false_iff.mpr (mt f.countsOk_iff.mp hc))
    · exact fun hs hc hk => checkEntry_noCopies hname hr hs (f.countsOk_iff.mpr hc) (copiesAsked_of_not_ok hk)
    · rintro hs hc ⟨ha, hb⟩ h1 hp
      have hb : f.copyB.port < 8 := hp ▸ ha
      exact checkEntry_samePort hname hr hs (f.countsOk_iff.mpr hc) (copiesAsked_two ha h1 hb)
        (decide_eq_true (Fin.ext hp))
    · intro hs hc hk hne
      obtain ⟨a, b, hcopies, hsame, hA, hnone, hB⟩ := copiesAsked_of_ok hk hne
      have hplace := checkEntry_eq_place (others := others) hname hr hs (f.countsOk_iff.mpr hc) hcopies hsame
      refine ⟨f.entryWith name rate a b, ⟨rfl, rfl, rfl, rfl, rfl, rfl, intervalTaken_eq _, rfl⟩, ⟨hA, hnone, hB⟩,
        fun hplaced => ?_, fun hplaced => ?_⟩
      · exact hplace.trans (if_pos ((placedOk_iff _ _).mpr hplaced))
      · exact hplace.trans (if_neg (mt (placedOk_iff _ _).mp hplaced))

/-- Settles O26: the checks before an edit, the checks of the entry, and the entry `editEntry` leaves. -/
theorem editReelReplacesEntry : Obligations.EditReelReplacesEntry := by
  intro s r h f
  have refuse : ∀ {st}, editReelAction r.payload s = .refuse st → exec .editReel s = .next (s.answer st []) :=
    exec_refuse rfl h
  refine ⟨fun hn => refuse (editReelAction_refused (State.editable_noReel hn)), fun old h0 he => ⟨?_, ?_, ?_⟩⟩
  · exact fun hf => refuse (editReelAction_refused (State.editable_frozen h0 he hf))
  · exact fun hf hb => refuse (editReelAction_refused (State.editable_busy h0 he hf hb))
  · intro hf hr ht
    have hedit : s.editable f.reel = .ok old := State.editable_ok h0 he hf hr ht
    refine ⟨fun st hc => refuse (editReelAction_error hedit hc), fun e hc => ?_⟩
    have hreel : e.reel = f.reel := checkEntry_reel hc
    obtain ⟨hdropped, hadded, hboth⟩ := editEntry_copyB old e
    refine ⟨editEntry old e, rfl, rfl, rfl, rfl, rfl, rfl, rfl, rfl, hreel, rfl, hdropped, hadded, hboth, ?_⟩
    have htaken : entryTaken e = le 2 f.reel ++ le 2 e.intervalDays := by rw [entryTaken, hreel]
    rw [← htaken]
    exact exec_perform rfl h (editReelAction_ok hedit hc)

/-- Settles O27: each check of the three actions, then what they leave and report. -/
theorem reelsRemovedReadListed : Obligations.ReelsRemovedReadListed := by
  intro s r n page
  refine ⟨fun h => ?_, fun h => ?_, fun h => ?_⟩
  · have refuse : ∀ {st}, s.editable n = .error st → exec .removeReel s = .next (s.answer st []) :=
      fun he => exec_refuse rfl h (removeReelAction_refused he)
    refine ⟨fun hn => refuse (State.editable_noReel hn), fun e h0 he => ⟨?_, ?_, ?_⟩⟩
    · exact fun hf => refuse (State.editable_frozen h0 he hf)
    · exact fun hf hb => refuse (State.editable_busy h0 he hf hb)
    · exact fun hf hr ht => exec_perform rfl h (removeReelAction_ok (State.editable_ok h0 he hf hr ht))
  · exact ⟨fun hn => exec_refuse rfl h (readReelAction_noReel hn),
      fun e h0 he => exec_perform rfl h (readReelAction_ok h0 he)⟩
  · exact ⟨fun hp => exec_refuse rfl h (listReelsAction_noPage hp),
      fun hp => exec_perform rfl h (listReelsAction_page hp)⟩

/-- Settles O28: one lock set moves the records that name its reel; all of them set in turn are set at once, since a
record moved twice is where it was moved first. -/
theorem locksMoveRecords : Obligations.LocksMoveRecords := by
  intro s r n held opened
  refine ⟨fun hn => ⟨?_, ?_⟩, fun e h0 he => ?_, fun h => ?_, fun h => ?_⟩
  · exact fun h => exec_refuse rfl h (lockAction_noReel hn)
  · exact fun h => exec_refuse rfl h (lockAction_noReel hn)
  · intro locked unlocked
    have hreel : e.reel = n := State.entry_reel he
    refine ⟨fun h => ⟨fun hl => exec_perform rfl h (lockAction_same h0 he hl), fun hl => ?_⟩,
      fun h => ⟨fun hl => exec_perform rfl h (lockAction_same h0 he hl), fun hl => ?_⟩⟩
    · have hne : e.locked ≠ true := by simp [hl]
      have hlocked : s.setLock e true = locked := State.setLock_change hne hreel
      rw [← hlocked, ← State.lockReel_true]
      exact exec_perform rfl h (lockAction_ne h0 he hne)
    · have hne : e.locked ≠ false := by simp [hl]
      have hunlocked : s.setLock e false = unlocked := State.setLock_change hne hreel
      rw [← hunlocked, ← hreel, ← State.lockReel_false hl]
      exact exec_perform rfl h (lockAction_ne h0 he hne)
  · have hall := exec_perform (c := .lockAll) rfl h (lockAllAction_eq true r.payload s)
    rw [State.lockEvery_true, State.locksToChange_true] at hall
    exact hall
  · have hall := exec_perform (c := .unlockAll) rfl h (lockAllAction_eq false r.payload s)
    simp only [State.lockEvery, Bool.not_false, Bool.true_and, State.setLocks_false, State.locksToChange_false] at hall
    exact hall

/-- Settles O29: the checks of the three actions, then a store whose snapshot has their changes. -/
theorem storesStarted : Obligations.StoresStarted := by
  intro s r n fields
  refine ⟨fun h => ⟨?_, ?_⟩, fun h => ⟨?_, fun e h0 he => ⟨?_, ?_⟩⟩, fun h => ⟨?_, ?_, ?_⟩⟩
  · exact fun hw => exec_refuse rfl h (storeAction_busy hw)
  · exact fun hi => exec_perform rfl h (storeAction_ok hi)
  · exact fun hn => exec_refuse rfl h (freezeReelAction_noReel hn)
  · exact fun hw => exec_refuse rfl h (freezeReelAction_busy h0 he hw)
  · exact fun hi => exec_perform rfl h (freezeReelAction_ok h0 he hi)
  · exact fun hw => exec_refuse rfl h (restoreFactoryAction_busy hw)
  · exact fun hi hr => exec_refuse rfl h (restoreFactoryAction_recorded hi (s.unfrozenRecorded_iff.mpr hr))
  · intro hi hr
    have hfree : s.unfrozenRecorded = false := by
      rw [← Bool.not_eq_true, State.unfrozenRecorded_iff]
      rintro ⟨e, he, hf, hrec⟩
      exact Bool.noConfusion (hrec.symm.trans (hr e he hf))
    obtain ⟨hsiu, hdfl, hjbu, hmode, hlink⟩ := s.restored_frame
    exact ⟨s.restored, rfl, rfl, rfl, s.restored_pts, s.restored_port, hsiu, hdfl, hjbu, hmode, hlink,
      exec_perform rfl h (restoreFactoryAction_ok hi hfree)⟩

/-- Settles O46: a label read's outcome gives the volume state, which nothing after it in the step changes. -/
theorem labelsAndPresence : Obligations.LabelsAndPresence := by
  refine ⟨?_, ?_⟩
  · intro s p bytes r o st hb ho hlabel ht hclaim hengine hst hne n good
    refine ⟨_, exec_driveReply_taken hb ho ht, ?_⟩
    have hvolume : ((settle (s.takeReply p o r)).port p).volume = labelVolume (outcomeOf (s.port p) o.claim r st) := by
      rw [settle_volume, State.takeReply_outcome hst hne, takeOutcome_label_volume r st hlabel]
    rw [hvolume, labelVolume_outcomeOf hclaim hengine hst]
    exact ⟨fun hgood => if_pos hgood, fun hbad => if_neg hbad⟩
  · intro q e c
    refine ⟨presenceOn_offline, fun hlive => ⟨fun v n hv => ?_, presenceOn_unmounted hlive⟩⟩
    rw [presenceOn_mounted hlive hv]
    refine ⟨fun hid hin => ?_, fun hid hout => ?_, fun hid => if_neg hid⟩
    · rw [if_pos hid, if_pos hin]
    · rw [if_pos hid, if_neg (Nat.not_lt.mpr hout)]

end

section
/-! SUPPORT. What an event of a port comes to (R41 to R60): the units' work on that port, and then the end of the step.
The work moves (`State.Moves`) and leaves every other port's own state alone. -/

namespace Sys2Proof.Machine

open Sys2Proof

/-! ### The other ports -/

/-- A port's own state: all but its claims, its handshake and its command. -/
structure Port.SameOwn (q r : Port) : Prop where
  state : r.state = q.state
  cause : r.cause = q.cause
  gnt : r.gnt = q.gnt
  yld : r.yld = q.yld
  lines : r.lines = q.lines
  delta : r.delta = q.delta
  volume : r.volume = q.volume
  settings : r.settings = q.settings
  margin : r.margin = q.margin

theorem Port.SameOwn.refl (q : Port) : q.SameOwn q := ⟨rfl, rfl, rfl, rfl, rfl, rfl, rfl, rfl, rfl⟩

theorem Port.SameOwn.trans {q r w : Port} (h : q.SameOwn r) (k : r.SameOwn w) : q.SameOwn w :=
  ⟨k.state.trans h.state, k.cause.trans h.cause, k.gnt.trans h.gnt, k.yld.trans h.yld, k.lines.trans h.lines,
    k.delta.trans h.delta, k.volume.trans h.volume, k.settings.trans h.settings, k.margin.trans h.margin⟩

theorem Port.SameOwn.all {q r : Port} (h : q.SameOwn r) :
    r.state = q.state ∧ r.cause = q.cause ∧ r.gnt = q.gnt ∧ r.yld = q.yld ∧ r.lines = q.lines ∧ r.delta = q.delta ∧
      r.volume = q.volume ∧ r.settings = q.settings ∧ r.margin = q.margin :=
  ⟨h.state, h.cause, h.gnt, h.yld, h.lines, h.delta, h.volume, h.settings, h.margin⟩

theorem Port.Keeps.sameOwn {q r : Port} (h : q.Keeps r) : q.SameOwn r :=
  ⟨h.state, h.cause, h.gnt, h.yld, h.lines, h.delta, h.volume, h.settings, h.margin⟩

theorem Port.Settles.sameOwn {q r : Port} (h : q.Settles r) : q.SameOwn r :=
  ⟨h.state, h.cause, h.gnt, h.yld, h.lines, h.delta, h.volume, h.settings, h.margin⟩

/-- Every port but `p` keeps its own state. -/
def State.SparesOthers (p : PortId) (s t : State) : Prop := ∀ o, o ≠ p → (s.port o).SameOwn (t.port o)

namespace State.SparesOthers

variable {p : PortId} {s t u : State}

theorem refl (p : PortId) (s : State) : s.SparesOthers p s := fun _ _ => .refl _

theorem trans (h : s.SparesOthers p t) (k : t.SparesOthers p u) : s.SparesOthers p u :=
  fun o ho => (h o ho).trans (k o ho)

theorem setPort (s : State) (p : PortId) (q : Port) : s.SparesOthers p (s.setPort p q) := by
  intro o ho
  rw [State.port_setPort_ne s q ho]
  exact .refl _

theorem settle (h : s.SparesOthers p t) : s.SparesOthers p (settle t) :=
  fun o ho => (h o ho).trans ((settle_settles t).port o).sameOwn

end State.SparesOthers

theorem State.Keeps.spares {s t : State} (h : s.Keeps t) (p : PortId) : s.SparesOthers p t :=
  fun o _ => (h.port o).sameOwn

theorem State.KeepsJobs.spares {s t : State} (h : s.KeepsJobs t) (p : PortId) : s.SparesOthers p t :=
  h.toKeeps.spares p

theorem State.postPortEvent_spares (s : State) (p : PortId) (c : PortEventCause) :
    s.SparesOthers p (s.postPortEvent p c) := (s.post_keeps _).spares p

/-! ### The work of an event -/

/-- The work of an event of port `p`: what `State.Moves` says, and the other ports' own state stays. -/
structure State.WorksOn (p : PortId) (s t : State) : Prop where
  moves : s.Moves t
  spares : s.SparesOthers p t

namespace State.WorksOn

variable {p : PortId} {s t u : State}

theorem refl (p : PortId) (s : State) : s.WorksOn p s := ⟨.refl s, .refl p s⟩

theorem trans (h : s.WorksOn p t) (k : t.WorksOn p u) : s.WorksOn p u :=
  ⟨h.moves.trans k.moves, h.spares.trans k.spares⟩

end State.WorksOn

theorem State.Keeps.worksOn {s t : State} (h : s.Keeps t) (p : PortId) : s.WorksOn p t := ⟨h.moves, h.spares p⟩

section work

variable (s : State) (p : PortId)

/-! ### OFFLINE and escalation (R51 to R54) -/

/-- Entering OFFLINE (R54): what follows the port's own change keeps. -/
theorem State.enterOffline_keeps (c : OfflineCause) :
    (s.modPort p (fun q => q.goOffline c)).Keeps (s.enterOffline p c) :=
  (((State.foldFail_keeps _ _).trans (State.followUp_keeps _ p)).trans
    (State.rpuPortLost_keeps _ p).toKeeps).trans (State.post_keeps _ _).toKeeps

theorem State.enterOffline_spares (c : OfflineCause) : s.SparesOthers p (s.enterOffline p c) :=
  (State.SparesOthers.setPort s p _).trans ((s.enterOffline_keeps p c).spares p)

theorem State.portError_worksOn : s.WorksOn p (s.portError p) := by
  refine ⟨s.portError_moves p, ?_⟩
  unfold State.portError
  dsimp only
  split
  · exact .refl p s
  · split
    · exact (State.SparesOthers.setPort s p _).trans (State.postPortEvent_spares _ p _)
    · exact (State.SparesOthers.setPort s p _).trans (State.enterOffline_spares _ p _)
    · exact State.SparesOthers.setPort s p _

theorem State.faultRisen_worksOn : s.WorksOn p (s.faultRisen p) := by
  refine ⟨s.faultRisen_moves p, ?_⟩
  unfold State.faultRisen
  split
  · exact State.SparesOthers.setPort s p _
  · exact s.enterOffline_spares p _

/-! ### Labels and media (R56 to R59) -/

/-- What follows the port's own change as a label read settles keeps (R57, R85, R117, R156). -/
theorem State.settleLabel_keeps (o : DriveOutcome) :
    (s.modPort p (fun q => { q with volume := labelVolume o })).Keeps (s.settleLabel p o) := by
  simp only [State.settleLabel]
  generalize s.modPort p _ = s0
  have h2 : s0.Keeps (((s0.postPortEvent p .volume).setHold p false).releaseJobs p) :=
    ((State.post_keeps _ _).trans (State.setHold_keeps _ p false)).toKeeps.trans (State.releaseJobs_keeps _ p)
  generalize State.releaseJobs _ p = s2 at h2 ⊢
  have h3 : s0.Keeps (if s2.somePresentOn p then s2.evaluate p else s2) := by
    split
    · exact h2.trans (s2.evaluate_keeps p)
    · exact h2
  split
  · exact h3.trans (rpuChoice_keeps _).toKeeps
  · exact h3

theorem State.settleLabel_spares (o : DriveOutcome) : s.SparesOthers p (s.settleLabel p o) :=
  (State.SparesOthers.setPort s p _).trans ((s.settleLabel_keeps p o).spares p)

theorem State.beginLabel_worksOn (h : (s.port p).state ≠ .offline) : s.WorksOn p (s.beginLabel p) :=
  ⟨s.beginLabel_moves p h, State.SparesOthers.setPort s p _⟩

theorem State.loseMedia_worksOn (h : (s.port p).state ≠ .offline) : s.WorksOn p (s.loseMedia p) :=
  ⟨s.loseMedia_moves p h, (State.SparesOthers.setPort s p _).trans ((State.mediaDrop_keeps _ p).spares p)⟩

theorem State.rereadLabel_worksOn (h : (s.port p).state ≠ .offline) : s.WorksOn p (s.rereadLabel p) := by
  unfold State.rereadLabel
  split
  · exact (s.beginLabel_worksOn p h).trans ((State.mediaDrop_keeps _ p).worksOn p)
  · exact s.beginLabel_worksOn p h

/-! ### Replies (R41, R43, R137) -/

theorem State.feedMargin_spares (n b : Nat) : s.SparesOthers p (s.feedMargin p n b) := by
  unfold State.feedMargin
  dsimp only
  split
  · exact State.SparesOthers.setPort s p _
  · exact (State.SparesOthers.setPort s p _).trans ((State.post_keeps _ _).spares p)

theorem State.feedReply_spares (c : Claim) (r : DriveReply) (st : DriveStatus) :
    s.SparesOthers p (s.feedReply p c r st) := by
  unfold State.feedReply
  split
  · exact s.feedMargin_spares p _ _
  · exact .refl p s

theorem State.returnToNormal_spares : s.SparesOthers p (s.returnToNormal p) := by
  unfold State.returnToNormal
  split
  · exact (State.SparesOthers.setPort s p _).trans (State.postPortEvent_spares _ p _)
  · exact .refl p s

theorem State.handOutcome_spares (c : Option Claimant) (o : DriveOutcome) :
    s.SparesOthers p (s.handOutcome p c o) := by
  unfold State.handOutcome
  split
  · exact .refl p s
  · exact s.settleLabel_spares p o
  · exact (s.rpuOutcome_keeps p o).spares p
  · split
    · exact .refl p s
    · next i hi =>
      exact ((s.readOutcome_keeps i o (State.activeSlot_activeAt hi)).trans (State.followUp_keeps _ p)).spares p

theorem State.takeOutcome_spares (o : Outstanding) (r : DriveReply) (st : DriveStatus) :
    s.SparesOthers p (s.takeOutcome p o r st) :=
  (((State.SparesOthers.setPort s p _).trans (State.returnToNormal_spares _ p)).trans
    (State.feedReply_spares _ p _ _ _)).trans (State.handOutcome_spares _ p _ _)

theorem State.takeReply_worksOn (o : Outstanding) (r : DriveReply) (h : (s.port p).state ≠ .offline) :
    s.WorksOn p (s.takeReply p o r) := by
  refine ⟨s.takeReply_moves p o r h, ?_⟩
  unfold State.takeReply
  split
  · exact (s.portError_worksOn p).spares
  · exact (s.portError_worksOn p).spares
  · exact s.takeOutcome_spares p o r _

/-! ### Grants (R46 to R48, R78, R83) -/

theorem State.gntRisen_worksOn : s.WorksOn p (s.modPort p Port.gntRisen) :=
  ⟨s.gntRisen_moves p, State.SparesOthers.setPort s p _⟩

theorem State.tellCut_spares (o : Outstanding) : s.SparesOthers p (s.tellCut p o) := by
  unfold State.tellCut
  split
  · exact .refl p s
  · split
    · exact State.SparesOthers.setPort s p _
    · exact .refl p s
  · exact (s.rpuCut_keeps p _).spares p
  · split
    · exact .refl p s
    · next i hi =>
      have ha := State.activeSlot_activeAt hi
      split
      · exact .refl p s
      · split
        · exact ((s.modJob_keeps i (fun j => { j with state := .suspended })
            (fun k hk => Job.Tame.ofLive rfl (ha.live k hk) rfl)).trans (State.followUp_keeps _ p)).spares p
        · exact ((s.enterWaiting_active_keeps i _ ha).trans (State.followUp_keeps _ p)).spares p

theorem State.gntFallen_worksOn (h : s.OfflineQuiet) : s.WorksOn p (s.gntFallen p) := by
  refine ⟨s.gntFallen_moves p h, ?_⟩
  unfold State.gntFallen
  dsimp only
  have hport := State.SparesOthers.setPort s p ({ s.port p with gnt := false }).loseGrant
  split
  · exact hport
  · split
    · exact (hport.trans (State.SparesOthers.setPort _ p _)).trans (State.tellCut_spares _ p _)
    · exact hport.trans (State.portError_worksOn _ p).spares

theorem State.yldRisen_worksOn : s.WorksOn p ((s.modPort p Port.yldRisen).jobYields p) :=
  (⟨s.yldRisen_moves p, State.SparesOthers.setPort s p _⟩ : s.WorksOn p _).trans
    ((State.jobYields_keeps _ p).worksOn p)

/-- A port changed in what does not make it less quiet (R54). -/
theorem State.modPort_worksOn {f : Port → Port} (h : ∀ q : Port, (f q).state = q.state)
    (hq : ∀ q : Port, q.Quiet → (f q).Quiet) : s.WorksOn p (s.modPort p f) :=
  ⟨s.modPort_moves p f (fun a hs => hq _ (a p (h (s.port p) ▸ hs))), State.SparesOthers.setPort s p _⟩

theorem State.setGnt_worksOn (b : Bool) : s.WorksOn p (s.modPort p (fun q => { q with gnt := b })) :=
  s.modPort_worksOn p (fun _ => rfl) (fun _ a => ⟨a.command, a.claims, a.req, a.volume⟩)

theorem State.setYld_worksOn (b : Bool) : s.WorksOn p (s.modPort p (fun q => { q with yld := b })) :=
  s.modPort_worksOn p (fun _ => rfl) (fun _ a => ⟨a.command, a.claims, a.req, a.volume⟩)

/-! ### The meanings of the events -/

/-- An event of port `p` comes to the units' work on that port, or that work and the end of the step. -/
def State.ActsOn (p : PortId) (s : State) (o : Host.Outcome State Fault Refusal) : Prop :=
  ∃ u, s.WorksOn p u ∧ (o = .next u ∨ o = .next (settle u))

theorem State.ActsOn.nothing : s.ActsOn p (.next s) := ⟨s, .refl p s, .inl rfl⟩

/-- The level and the delta flag of a line recorded, with its PORT_EVENT (R44). -/
def State.recordLine (s : State) (p : PortId) (k : Line) (b : Bool) : State :=
  (s.modPort p (fun q => { q with lines := q.lines.put k b, delta := q.delta.put k true })).postPortEvent p .line

theorem State.recordLine_worksOn (k : Line) (b : Bool) : s.WorksOn p (s.recordLine p k b) :=
  (s.modPort_worksOn p (f := fun q => { q with lines := q.lines.put k b, delta := q.delta.put k true })
    (fun _ => rfl) (fun _ a => ⟨a.command, a.claims, a.req, a.volume⟩)).trans
    ((State.post_keeps _ _).toKeeps.worksOn p)

theorem State.recordLine_port_same (k : Line) (b : Bool) : (s.recordLine p k b).port p =
    { s.port p with lines := (s.port p).lines.put k b, delta := (s.port p).delta.put k true } := by
  simp only [State.recordLine, State.postPortEvent, State.post_port, State.port_modPort_same]

/-- A line changes on a port that start-up has set: it is recorded, and its own rule acts (R44). -/
theorem State.lineChange_set {k : Line} {b : Bool} (act : State → State) (hset : s.portsSet = true)
    (hk : (s.port p).lines.get k ≠ b) : s.lineChange p k b act = settle (act (s.recordLine p k b)) := by
  unfold State.lineChange
  rw [if_neg hk, if_pos hset]
  rfl

/-- A line's change comes to work on its port where the line's own rule does. -/
theorem State.lineChange_actsOn (k : Line) (b : Bool) {act : State → State}
    (ha : ∀ t : State, t.WorksOn p (act t)) : s.ActsOn p (.next (s.lineChange p k b act)) := by
  by_cases hk : (s.port p).lines.get k = b
  · have hsame : s.lineChange p k b act = s := if_pos hk
    rw [hsame]
    exact .nothing s p
  · cases hset : s.portsSet with
    | true =>
      rw [s.lineChange_set p act hset hk]
      exact ⟨_, (s.recordLine_worksOn p k b).trans (ha _), .inr rfl⟩
    | false =>
      refine ⟨s.modPort p (fun q => { q with lines := q.lines.put k b }), ?_, .inl ?_⟩
      · exact s.modPort_worksOn p (fun _ => rfl) (fun _ a => ⟨a.command, a.claims, a.req, a.volume⟩)
      · simp only [State.lineChange, if_neg hk, hset, Bool.false_eq_true, if_false]

theorem State.isOffline_iff : s.isOffline p = true ↔ (s.port p).state = .offline := by
  simp [State.isOffline]

theorem State.isOffline_eq_false : s.isOffline p = false ↔ (s.port p).state ≠ .offline := by
  simp [State.isOffline]

theorem execDriveReply_actsOn (bytes : List Byte) (h : s.OfflineQuiet) :
    s.ActsOn p (execDriveReply p bytes s) := by
  unfold execDriveReply
  split
  · exact .nothing s p
  · unfold State.offerReply
    split
    · exact .nothing s p
    · next o ho =>
      split
      · exact ⟨_, s.takeReply_worksOn p o _ (h.live ho), .inr rfl⟩
      · exact .nothing s p

theorem execCommandTimeout_actsOn : s.ActsOn p (execCommandTimeout p s) := by
  unfold execCommandTimeout
  split
  · exact .nothing s p
  · exact ⟨_, s.portError_worksOn p, .inr rfl⟩

theorem execReadyRise_actsOn : s.ActsOn p (execReadyRise p s) := by
  refine s.lineChange_actsOn p .ready true fun t => ?_
  split
  · next hc =>
    simp only [Bool.and_eq_true, Bool.not_eq_true', State.isOffline_eq_false] at hc
    exact t.rereadLabel_worksOn p hc.2
  · exact .refl p t

theorem execMediaRise_actsOn : s.ActsOn p (execMediaRise p s) := by
  refine s.lineChange_actsOn p .media true fun t => ?_
  split
  · exact .refl p t
  · next hc => exact t.beginLabel_worksOn p (mt (t.isOffline_iff p).mpr hc)

theorem execMediaFall_actsOn : s.ActsOn p (execMediaFall p s) := by
  refine s.lineChange_actsOn p .media false fun t => ?_
  split
  · exact .refl p t
  · next hc => exact t.loseMedia_worksOn p (mt (t.isOffline_iff p).mpr hc)

theorem execWprotFall_actsOn : s.ActsOn p (execWprotFall p s) :=
  s.lineChange_actsOn p .wprot false fun t => ((t.setHold_keeps p false).trans (rpuChoice_keeps _)).toKeeps.worksOn p

theorem execGntRise_actsOn : s.ActsOn p (execGntRise p s) := by
  unfold execGntRise
  split
  · exact .nothing s p
  · split
    · exact ⟨_, s.gntRisen_worksOn p, .inr rfl⟩
    · exact ⟨_, s.setGnt_worksOn p true, .inl rfl⟩

theorem execGntFall_actsOn (h : s.OfflineQuiet) : s.ActsOn p (execGntFall p s) := by
  unfold execGntFall
  split
  · exact .nothing s p
  · split
    · exact ⟨_, s.gntFallen_worksOn p h, .inr rfl⟩
    · exact ⟨_, s.setGnt_worksOn p false, .inl rfl⟩

theorem execYldRise_actsOn : s.ActsOn p (execYldRise p s) := by
  unfold execYldRise
  split
  · exact .nothing s p
  · split
    · exact ⟨_, s.yldRisen_worksOn p, .inr rfl⟩
    · exact ⟨_, s.setYld_worksOn p true, .inl rfl⟩

theorem execYldFall_actsOn : s.ActsOn p (execYldFall p s) := by
  have hlow := s.setYld_worksOn p false
  unfold execYldFall
  split
  · exact .nothing s p
  · split
    · exact ⟨_, hlow.trans ((State.jobUnyields_keeps _ p).worksOn p), .inr rfl⟩
    · exact ⟨_, hlow, .inl rfl⟩

end work

/-- The events of port `p`. -/
def portEvents (p : PortId) (bytes : List Byte) : List Instr :=
  [.driveReply p bytes, .commandTimeout p, .readyRise p, .readyFall p, .mediaRise p, .mediaFall p,
    .wprotRise p, .wprotFall p, .faultRise p, .faultFall p, .gntRise p, .gntFall p, .yldRise p, .yldFall p]

/-- Every event of a port comes to work on that port, while nothing is outstanding on an OFFLINE port (R54). -/
theorem exec_actsOn {p : PortId} {bytes : List Byte} {c : Instr} (hc : c ∈ portEvents p bytes) {s : State}
    (h : s.OfflineQuiet) : s.ActsOn p (exec c s) := by
  simp only [portEvents, List.mem_cons, List.not_mem_nil, or_false] at hc
  rcases hc with rfl | rfl | rfl | rfl | rfl | rfl | rfl | rfl | rfl | rfl | rfl | rfl | rfl | rfl
  · exact execDriveReply_actsOn s p bytes h
  · exact execCommandTimeout_actsOn s p
  · exact execReadyRise_actsOn s p
  · exact s.lineChange_actsOn p .ready false (.refl p)
  · exact execMediaRise_actsOn s p
  · exact execMediaFall_actsOn s p
  · exact s.lineChange_actsOn p .wprot true fun t => (t.clearHold_keeps p).toKeeps.worksOn p
  · exact execWprotFall_actsOn s p
  · exact s.lineChange_actsOn p .fault true fun t => t.faultRisen_worksOn p
  · exact s.lineChange_actsOn p .fault false (.refl p)
  · exact execGntRise_actsOn s p
  · exact execGntFall_actsOn s p h
  · exact execYldRise_actsOn s p
  · exact execYldFall_actsOn s p

/-! ### What an event leaves alone -/

/-- Taking the posted notices leaves what has been received and the requests (R172). -/
theorem takePostedLoop_received (fuel : Nat) : ∀ s : State,
    (takePostedLoop fuel s).link.framer = s.link.framer ∧ (takePostedLoop fuel s).link.linkError = s.link.linkError ∧
      (takePostedLoop fuel s).link.queue = s.link.queue := by
  have henq : ∀ (l : Link) (n : Notice), (l.enqueueNotice n).framer = l.framer ∧
      (l.enqueueNotice n).linkError = l.linkError ∧ (l.enqueueNotice n).queue = l.queue := by
    intro l n
    unfold Link.enqueueNotice
    split
    · obtain ⟨hf, he, hq, -, -⟩ := Link.transmit_frame { l with notices := l.notices ++ [n] }
      exact ⟨hf, he, hq⟩
    · exact ⟨rfl, rfl, rfl⟩
  induction fuel with
  | zero => exact fun s => ⟨rfl, rfl, rfl⟩
  | succ n ih =>
    intro s
    unfold takePostedLoop
    split
    · exact ⟨rfl, rfl, rfl⟩
    · exact henq _ _
    · obtain ⟨hf, he, hq⟩ := ih _
      exact ⟨hf.trans (henq _ _).1, he.trans (henq _ _).2.1, hq.trans (henq _ _).2.2⟩

/-- The end of a step leaves what has been received and the requests. -/
theorem settle_received (s : State) :
    (settle s).link.framer = s.link.framer ∧ (settle s).link.linkError = s.link.linkError ∧
      (settle s).link.queue = s.link.queue := by
  obtain ⟨hf, he, hq⟩ := takePostedLoop_received (settlePorts s).link.posted.length (settlePorts s)
  obtain ⟨hlink, -⟩ := settlePorts_link s
  exact ⟨hf.trans (congrArg Link.framer hlink), he.trans (congrArg Link.linkError hlink),
    hq.trans (congrArg Link.queue hlink)⟩

/-- Work on a port leaves what has been received and the requests: of the link it posts notices alone. -/
theorem State.Moves.received {s t : State} (h : s.Moves t) :
    t.link.framer = s.link.framer ∧ t.link.linkError = s.link.linkError ∧ t.link.queue = s.link.queue := by
  have hlink := h.link
  exact ⟨by rw [← hlink], by rw [← hlink], by rw [← hlink]⟩

theorem State.WorksOn.offlineQuiet {p : PortId} {s u : State} (h : s.WorksOn p u) (hq : s.OfflineQuiet) :
    u.OfflineQuiet := h.moves.quiet hq

/-- An event keeps OFFLINE ports quiet (R54). -/
theorem State.ActsOn.offlineQuiet {p : PortId} {s : State} {o : Host.Outcome State Fault Refusal}
    (h : s.ActsOn p o) (hq : s.OfflineQuiet) : ∃ t, o = .next t ∧ t.OfflineQuiet := by
  obtain ⟨u, hu, rfl | rfl⟩ := h
  · exact ⟨u, rfl, hu.offlineQuiet hq⟩
  · exact ⟨settle u, rfl, (settle_settles u).offlineQuiet (hu.offlineQuiet hq)⟩

end Sys2Proof.Machine
end

section
/-! SUPPORT. OFFLINE ports stay quiet (R54) under every command: units' work and the end of a step keep them so, events
come to such work (`State.ActsOn`), and of the requests those on ports and RESTORE_FACTORY alone change a port. -/

namespace Sys2Proof.Machine

open Sys2Proof

/-! ### States with the same ports -/

theorem State.offlineQuiet_of_ports {s t : State} (h : t.ports = s.ports) (hq : s.OfflineQuiet) : t.OfflineQuiet := by
  intro p hp
  simp only [State.port, h] at hp ⊢
  exact hq p hp

/-- Units' work, then the end of the step. -/
theorem State.Keeps.settle_offlineQuiet {s u : State} (h : s.Keeps u) (hq : s.OfflineQuiet) :
    (settle u).OfflineQuiet := (settle_settles u).offlineQuiet (h.offlineQuiet hq)

/-- A request keeps OFFLINE ports quiet where its action does. -/
theorem State.runRequest_offlineQuiet {s : State} {k : RequestKind} {act : List Byte → State → Action}
    (h : s.OfflineQuiet) (ha : ∀ r, s.Takes k r → (act r.payload s).Leaves State.OfflineQuiet) :
    (s.runRequest k act).OfflineQuiet := by
  rcases s.runRequest_cases k act with e | ⟨st, e⟩ | ⟨r, t, st, p, hr, hp, e⟩
  · rw [e]; exact h
  · rw [e]; exact State.offlineQuiet_of_ports (s.answer_ports st []) h
  · rw [e]
    have ht := ha r hr
    rw [hp] at ht
    exact State.offlineQuiet_of_ports (t.answer_ports st p) ht

section actions

variable {s : State} (h : s.OfflineQuiet) (p : List Byte)
include h

/-! ### Requests on the part -/

theorem setModeAction_leavesQuiet : (setModeAction p s).Leaves State.OfflineQuiet := by
  have hrun : ∀ a, (s.setRun a).OfflineQuiet := by
    intro a
    simp only [State.setRun]
    split
    · exact h
    · exact ((evaluateAll_keeps { s with autoRun := a, mode := .run }).trans
        (rpuChoice_keeps _).toKeeps).settle_offlineQuiet h
  simp only [setModeAction]
  split
  · trivial
  · split
    · trivial
    · split
      · split
        · trivial
        · exact h
      · exact hrun _

theorem setTimeAction_leavesQuiet : (setTimeAction p s).Leaves State.OfflineQuiet :=
  (evaluateAll_keeps (s.setClock _)).settle_offlineQuiet h

theorem setPatrolAction_leavesQuiet : (setPatrolAction p s).Leaves State.OfflineQuiet := by
  simp only [setPatrolAction]
  split
  · trivial
  · split
    · split
      · trivial
      · split
        · exact h
        · exact (evaluateAll_keeps (s.setPatrol true)).settle_offlineQuiet h
    · exact h

theorem convertAction_leavesQuiet : (convertAction p s).Leaves State.OfflineQuiet := by
  simp only [convertAction]
  split
  · trivial
  · split
    · trivial
    · split
      · split
        · trivial
        · exact h
      · split
        · exact h
        · trivial

/-! ### Requests on ports -/

/-- A change of a port that leaves its state and does not make it less quiet. -/
theorem State.OfflineQuiet.modPort {f : Port → Port} (n : PortId)
    (hf : ∀ q : Port, (f q).state = q.state ∧ (q.Quiet → (f q).Quiet)) : (s.modPort n f).OfflineQuiet :=
  (s.modPort_moves n f fun a hs => (hf _).2 (a n ((hf _).1 ▸ hs))).quiet h

theorem portConfigAction_leavesQuiet : (portConfigAction p s).Leaves State.OfflineQuiet := by
  unfold portConfigAction
  split
  · trivial
  · exact h.modPort _ fun q => ⟨rfl, fun a => ⟨a.command, a.claims, a.req, a.volume⟩⟩

theorem portStatusAction_leavesQuiet : (portStatusAction p s).Leaves State.OfflineQuiet := by
  unfold portStatusAction
  split
  · trivial
  · exact h.modPort _ fun q => ⟨rfl, fun a => ⟨a.command, a.claims, a.req, a.volume⟩⟩

/-- A port brought back is NORMAL, and a label read begins on it (R55). -/
theorem State.OfflineQuiet.bringOnline (n : PortId) : (s.bringOnline n).OfflineQuiet := by
  have hback : ∀ f : Port → Port, (f (s.port n)).state = .normal → (s.modPort n f).OfflineQuiet := by
    intro f hf
    exact (s.modPort_moves n f fun _ hs => by rw [hf] at hs; cases hs).quiet h
  have hposted := (State.postPortEvent_moves _ n .port).quiet (hback (fun q => { q with state := .normal, cause := none }) rfl)
  simp only [State.bringOnline]
  split
  · refine (State.beginLabel_moves _ n ?_).quiet hposted
    simp [State.postPortEvent]
  · exact hposted

theorem portOnlineAction_leavesQuiet : (portOnlineAction p s).Leaves State.OfflineQuiet := by
  unfold portOnlineAction
  split
  · trivial
  · split
    · exact h
    · split
      · trivial
      · exact (settle_settles _).offlineQuiet (h.bringOnline _)

theorem marginReadAction_leavesQuiet : (marginReadAction p s).Leaves State.OfflineQuiet := by
  unfold marginReadAction
  split
  · trivial
  · exact h

/-! ### Requests on the catalogue and on stores -/

theorem addReelAction_leavesQuiet : (addReelAction p s).Leaves State.OfflineQuiet := by
  simp only [addReelAction]
  split
  · trivial
  · split
    · trivial
    · split
      · trivial
      · split
        · trivial
        · exact h

theorem editReelAction_leavesQuiet : (editReelAction p s).Leaves State.OfflineQuiet := by
  simp only [editReelAction]
  split
  · trivial
  · split
    · trivial
    · exact h

theorem removeReelAction_leavesQuiet : (removeReelAction p s).Leaves State.OfflineQuiet := by
  unfold removeReelAction
  split
  · trivial
  · exact h

theorem readReelAction_leavesQuiet : (readReelAction p s).Leaves State.OfflineQuiet := by
  unfold readReelAction
  split
  · trivial
  · exact h

theorem listReelsAction_leavesQuiet : (listReelsAction p s).Leaves State.OfflineQuiet := by
  simp only [listReelsAction]
  split
  · trivial
  · exact h

theorem freezeReelAction_leavesQuiet : (freezeReelAction p s).Leaves State.OfflineQuiet := by
  unfold freezeReelAction
  split
  · trivial
  · split
    · trivial
    · exact h

theorem storeAction_leavesQuiet : (storeAction p s).Leaves State.OfflineQuiet := by
  unfold storeAction
  split
  · trivial
  · exact h

/-- RESTORE_FACTORY gives every port its settings, and no more (R186). -/
theorem State.OfflineQuiet.restored : s.restored.OfflineQuiet := by
  intro n hn
  rw [State.restored_port] at hn ⊢
  have a := h n hn
  exact ⟨a.command, a.claims, a.req, a.volume⟩

theorem restoreFactoryAction_leavesQuiet : (restoreFactoryAction p s).Leaves State.OfflineQuiet := by
  unfold restoreFactoryAction
  split
  · trivial
  · split
    · trivial
    · exact h.restored

theorem lockAction_leavesQuiet (b : Bool) : (lockAction b p s).Leaves State.OfflineQuiet := by
  unfold lockAction
  split
  · trivial
  · split
    · exact h
    · exact (s.lockReel_keeps _ b).toKeeps.settle_offlineQuiet h

theorem lockAllAction_leavesQuiet (b : Bool) : (lockAllAction b p s).Leaves State.OfflineQuiet :=
  (s.lockEvery_keeps b).toKeeps.settle_offlineQuiet h

/-! ### Requests on jobs and defects -/

/-- A job created by a request (R88, R89), in RUN. -/
theorem State.OfflineQuiet.startJob (hm : s.mode = .run) (i : SlotId) {j : Job} (hj : j.state = .queued) :
    (s.startJob i j).OfflineQuiet :=
  ((s.createJob_keeps i j hm hj).trans (State.followUp_keeps _ _)).settle_offlineQuiet h

theorem startScrubAction_leavesQuiet (hm : s.mode = .run) : (startScrubAction p s).Leaves State.OfflineQuiet := by
  unfold startScrubAction
  split
  · trivial
  · split
    · trivial
    · split
      · trivial
      · split
        · trivial
        · split
          · trivial
          · split
            · trivial
            · exact h.startJob hm _ (newJob_state _ _ _ _ _ _ _)

theorem startVerifyAction_leavesQuiet (hm : s.mode = .run) : (startVerifyAction p s).Leaves State.OfflineQuiet := by
  unfold startVerifyAction
  split
  · trivial
  · split
    · trivial
    · split
      · trivial
      · split
        · trivial
        · exact h.startJob hm _ (newJob_state _ _ _ _ _ _ _)

theorem suspendJobAction_leavesQuiet : (suspendJobAction p s).Leaves State.OfflineQuiet := by
  unfold suspendJobAction
  split
  · trivial
  · next i j hj =>
    split
    · exact h
    · split
      · trivial
      · next hrun =>
        split
        · trivial
        · have ha : s.ActiveAt i := ⟨j, State.jobNamed_slot hj, by rw [not_not.mp hrun]; rfl⟩
          exact (s.suspend_keeps i j ha).settle_offlineQuiet h

theorem resumeJobAction_leavesQuiet : (resumeJobAction p s).Leaves State.OfflineQuiet := by
  unfold resumeJobAction
  split
  · trivial
  · next i j hj =>
    split
    · trivial
    · next hsus =>
      have hl : s.LiveAt i := by
        intro k hk
        rw [State.jobNamed_slot hj] at hk
        cases hk
        rw [not_not.mp hsus]
        rfl
      exact (s.resume_keeps i j hl).settle_offlineQuiet h

theorem abortJobAction_leavesQuiet : (abortJobAction p s).Leaves State.OfflineQuiet := by
  unfold abortJobAction
  split
  · trivial
  · split
    · trivial
    · exact (s.abort_keeps _ _).settle_offlineQuiet h

theorem jobStatusAction_leavesQuiet : (jobStatusAction p s).Leaves State.OfflineQuiet := by
  unfold jobStatusAction
  split
  · trivial
  · exact State.offlineQuiet_of_ports (by split <;> rfl) h

theorem readDefectsAction_leavesQuiet : (readDefectsAction p s).Leaves State.OfflineQuiet := by
  simp only [readDefectsAction]
  split
  · trivial
  · exact h

theorem removeDefectAction_leavesQuiet : (removeDefectAction p s).Leaves State.OfflineQuiet := by
  unfold removeDefectAction
  split
  · trivial
  · split
    · exact ((State.admission_keeps (s.dropRecord _)).trans (State.evaluate_keeps _ _)).settle_offlineQuiet h
    · trivial

theorem State.OfflineQuiet.retryRecord (r : Record) : (s.retryRecord r).OfflineQuiet := by
  simp only [State.retryRecord]
  split
  · exact ((s.modRecord_keeps _ _).trans (rpuChoice_keeps _)).toKeeps.settle_offlineQuiet h
  · exact (s.modRecord_keeps _ _).toKeeps.settle_offlineQuiet h

theorem retryDefectAction_leavesQuiet : (retryDefectAction p s).Leaves State.OfflineQuiet := by
  unfold retryDefectAction
  split
  · trivial
  · split
    · trivial
    · split
      · trivial
      · split
        · trivial
        · exact h.retryRecord _

end actions

/-! ### Resets and start-up (R62, R187, R189) -/

/-- A port as start-up finds it (R62): its lines sampled, before a label read begins. -/
def Port.sampled (q : Port) (cfg : PortSettings) : Port :=
  { Port.cleared with
    gnt := q.gnt, yld := q.yld, lines := q.lines, settings := cfg
    state := if q.lines.fault then .offline else .normal
    cause := if q.lines.fault then some .start else none
    grant := if q.gnt then .releasing else .idle }

/-- Whether start-up begins a label read: MEDIA high and FAULT low (R62). -/
def Port.readsLabel (q : Port) : Bool := q.lines.media && !q.lines.fault

/-- Start-up adds to the port it finds a label read, where one begins (R56, R62). -/
theorem Port.startUp_eq (q : Port) (cfg : PortSettings) : q.startUp cfg =
    { q.sampled cfg with volume := if q.readsLabel then .labelRead else .noMedia, labelClaim := q.readsLabel } := by
  have hstart : q.startUp cfg = if q.readsLabel then (q.sampled cfg).beginLabelRead else q.sampled cfg := rfl
  rw [hstart]
  cases q.readsLabel with
  | true => rfl
  | false => rfl

theorem Port.readsLabel_of_fault {q : Port} (h : q.lines.fault = true) : q.readsLabel = false := by
  simp [Port.readsLabel, h]

theorem Port.startUp_quiet (q : Port) (cfg : PortSettings) (h : (q.startUp cfg).state = .offline) :
    (q.startUp cfg).Quiet := by
  rw [Port.startUp_eq] at h ⊢
  cases hf : q.lines.fault with
  | true =>
    rw [Port.readsLabel_of_fault hf]
    exact ⟨rfl, rfl, rfl, rfl⟩
  | false => simp [Port.sampled, hf] at h

/-- After a reset no port is OFFLINE. -/
theorem State.resetBy_offlineQuiet (s : State) (k : ResetKind) : (s.resetBy k).OfflineQuiet := by
  intro n hn
  have hport : (s.resetBy k).port n = (s.port n).atReset := s.port_mapPorts (fun _ q => q.atReset) n
  rw [hport] at hn
  cases hn

theorem State.startUpLoad_offlineQuiet (s : State) : s.startUpLoad.OfflineQuiet := by
  intro n hn
  have hport : s.startUpLoad.port n = (s.port n).startUp (startSettings s.siu.judged.storedImage n) :=
    s.port_mapPorts (fun p q => q.startUp (startSettings s.siu.judged.storedImage p)) n
  rw [hport] at hn ⊢
  exact Port.startUp_quiet _ _ hn

theorem State.OfflineQuiet.finishStartUp {s : State} (h : s.OfflineQuiet) : s.finishStartUp.OfflineQuiet := by
  have hnotice : ∀ (u : State) (n : Notice), (takePosted (u.post n)).ports = u.ports := by
    intro u n
    rw [takePosted_frame]
    exact (u.post_frame n).2.2.2.1
  simp only [State.finishStartUp]
  have hposted := State.offlineQuiet_of_ports
    (hnotice { s with mode := s.startMode } (startUpNotice { s with mode := s.startMode })) h
  generalize takePosted _ = t at hposted ⊢
  split
  · exact ((evaluateAll_keeps { t with pts := { t.pts with timerRunning := true } }).trans
      (rpuChoice_keeps _).toKeeps).offlineQuiet hposted
  · exact hposted

theorem State.OfflineQuiet.startUpEnd {s : State} (h : s.OfflineQuiet) :
    ∃ t, execStartUpEnd s = .next t ∧ t.OfflineQuiet := by
  refine ⟨_, rfl, ?_⟩
  split
  · refine (settle_settles _).offlineQuiet (State.OfflineQuiet.finishStartUp ?_)
    split
    · exact h
    · exact s.startUpLoad_offlineQuiet
  · exact h

theorem State.OfflineQuiet.storeEnds {s : State} (h : s.OfflineQuiet) (finish : StoreFinish) :
    ∃ t, execStoreEnds finish s = .next t ∧ t.OfflineQuiet := by
  refine ⟨_, rfl, ?_⟩
  split
  · exact h
  · next j _ =>
    have hposted : (s.finishStore j finish).OfflineQuiet := State.offlineQuiet_of_ports (State.post_frame _ _).2.2.2.1 h
    exact (settle_settles _).offlineQuiet hposted

theorem State.OfflineQuiet.minuteExpiry {s : State} (h : s.OfflineQuiet) :
    ∃ t, execMinuteExpiry s = .next t ∧ t.OfflineQuiet := by
  refine ⟨_, rfl, ?_⟩
  split
  · exact (evaluateAll_keeps { s with pts := s.pts.expire }).settle_offlineQuiet h
  · exact h

/-! ### Every command -/

/-- Every command keeps OFFLINE ports quiet. -/
theorem exec_offlineQuiet (c : Instr) {s : State} (h : s.OfflineQuiet) : ∃ t, exec c s = .next t ∧ t.OfflineQuiet := by
  have request : ∀ {k act}, (∀ r, s.Takes k r → (act r.payload s).Leaves State.OfflineQuiet) →
      ∃ t, Host.Outcome.next (s.runRequest k act) = (.next t : Host.Outcome State Fault Refusal) ∧ t.OfflineQuiet :=
    fun ha => ⟨_, rfl, State.runRequest_offlineQuiet h ha⟩
  have event : ∀ {p}, c ∈ portEvents p [] → ∃ t, exec c s = .next t ∧ t.OfflineQuiet :=
    fun hc => (exec_actsOn hc h).offlineQuiet h
  cases c with
  | powerOnResetAssert =>
    refine ⟨_, rfl, ?_⟩
    split
    · exact h
    · exact s.resetBy_offlineQuiet .powerOn
  | resetPinAssert =>
    refine ⟨_, rfl, ?_⟩
    split
    · exact h
    · exact s.resetBy_offlineQuiet .pin
  | powerOnResetRelease | resetPinRelease => exact ⟨_, rfl, h⟩
  | startUpEnd => exact h.startUpEnd
  | receiveFrame | badByteInHunt | gapTimerExpiry =>
    exact ⟨_, rfl, State.offlineQuiet_of_ports (by split <;> rfl) h⟩
  | frameSent =>
    refine ⟨_, rfl, ?_⟩
    split
    · exact s.resetBy_offlineQuiet _
    · exact h
  | unknownRequest =>
    refine ⟨_, rfl, State.offlineQuiet_of_ports ?_ h⟩
    split
    · rfl
    · split
      · split <;> rfl
      · rfl
  | storeEnds finish => exact h.storeEnds finish
  | minuteExpiry => exact h.minuteExpiry
  | identify | status | setNotices | reset => exact request fun _ _ => h
  | setMode => exact request fun _ _ => setModeAction_leavesQuiet h _
  | setTime => exact request fun _ _ => setTimeAction_leavesQuiet h _
  | setPatrol => exact request fun _ _ => setPatrolAction_leavesQuiet h _
  | convert => exact request fun _ _ => convertAction_leavesQuiet h _
  | portConfig => exact request fun _ _ => portConfigAction_leavesQuiet h _
  | portStatus => exact request fun _ _ => portStatusAction_leavesQuiet h _
  | portOnline => exact request fun _ _ => portOnlineAction_leavesQuiet h _
  | marginRead => exact request fun _ _ => marginReadAction_leavesQuiet h _
  | addReel => exact request fun _ _ => addReelAction_leavesQuiet h _
  | editReel => exact request fun _ _ => editReelAction_leavesQuiet h _
  | removeReel => exact request fun _ _ => removeReelAction_leavesQuiet h _
  | readReel => exact request fun _ _ => readReelAction_leavesQuiet h _
  | listReels => exact request fun _ _ => listReelsAction_leavesQuiet h _
  | freezeReel => exact request fun _ _ => freezeReelAction_leavesQuiet h _
  | store => exact request fun _ _ => storeAction_leavesQuiet h []
  | restoreFactory => exact request fun _ _ => restoreFactoryAction_leavesQuiet h []
  | lockReel | unlockReel => exact request fun _ _ => lockAction_leavesQuiet h _ _
  | lockAll | unlockAll => exact request fun _ _ => lockAllAction_leavesQuiet h [] _
  | startScrub => exact request fun _ hr => startScrubAction_leavesQuiet h _ (hr.run (.inl rfl))
  | startVerify => exact request fun _ hr => startVerifyAction_leavesQuiet h _ (hr.run (.inr rfl))
  | suspendJob => exact request fun _ _ => suspendJobAction_leavesQuiet h _
  | resumeJob => exact request fun _ _ => resumeJobAction_leavesQuiet h _
  | abortJob => exact request fun _ _ => abortJobAction_leavesQuiet h _
  | jobStatus => exact request fun _ _ => jobStatusAction_leavesQuiet h _
  | readDefects => exact request fun _ _ => readDefectsAction_leavesQuiet h _
  | removeDefect => exact request fun _ _ => removeDefectAction_leavesQuiet h _
  | retryDefect => exact request fun _ _ => retryDefectAction_leavesQuiet h _
  | driveReply p bytes => exact (execDriveReply_actsOn s p bytes h).offlineQuiet h
  | commandTimeout p | readyRise p | readyFall p | mediaRise p | mediaFall p | wprotRise p | wprotFall p
  | faultRise p | faultFall p | gntRise p | gntFall p | yldRise p | yldFall p =>
    exact event (p := p) (by simp [portEvents])

/-- A part that idles keeps OFFLINE ports quiet, be it that it takes steps 2 to 4 of R187 (log 4). -/
theorem idle_offlineQuiet {s : State} (h : s.OfflineQuiet) : (idle s).OfflineQuiet := by
  unfold idle
  split
  · exact (settle_settles _).offlineQuiet s.startUpLoad_offlineQuiet
  · exact h

end Sys2Proof.Machine
end

section
/-! SUPPORT. What the requests on ports come to: PORT_CONFIG and the settings it takes (R61, R145), PORT_STATUS (R45),
PORT_ONLINE (R55) and MARGIN_READ (R146). -/

namespace Sys2Proof.Machine

open Sys2Proof

/-! ### The settings taken (R61, R145) -/

theorem clamp_eq_max_min {lo hi : Nat} (h : lo ≤ hi) (n : Nat) : clamp lo hi n = max lo (min hi n) := by
  unfold clamp
  split
  · omega
  · split <;> omega

/-- The settings a payload asks for, each the nearest value of its range; a threshold field holds no more than 65,535. -/
theorem settingsAsked_eq (p : List Byte) : settingsAsked p =
    { timeout := max 1 (min 6000 (field p 1 2))
      threshold := max 1 (field p 3 2)
      hysteresis := min (field p 5 2) (max 1 (field p 3 2) - 1)
      debounce := max 1 (min 15 (field p 7 1))
      filterShift := min 6 (field p 8 1) } := by
  have hthreshold : clamp 1 65535 (field p 3 2) = max 1 (field p 3 2) := by
    have hlt : field p 3 2 < 65536 := field_lt p 3 2
    rw [clamp_eq_max_min (by decide)]
    omega
  simp only [settingsAsked, clampSettings, hthreshold, clamp_eq_max_min (Nat.zero_le _), Nat.zero_max,
    clamp_eq_max_min (show 1 ≤ 6000 by decide), clamp_eq_max_min (show 1 ≤ 15 by decide), Nat.min_comm (field p 5 2)]

theorem settingsAsked_inRange (p : List Byte) : (settingsAsked p).inRange = true := by
  have hlt : field p 3 2 < 65536 := field_lt p 3 2
  rw [settingsAsked_eq]
  have hmax : Config.word16Max = 65535 := rfl
  simp only [PortSettings.inRange, Bool.and_eq_true, decide_eq_true_eq]
  omega

/-! ### The actions -/

section actions

variable {p : List Byte} {s : State}

/-- A port number of 8 or more is refused by each request that names a port. -/
theorem portActions_noPort (h : 8 ≤ field p 0 1) :
    portConfigAction p s = .refuse .badArgument ∧ portStatusAction p s = .refuse .badArgument ∧
      portOnlineAction p s = .refuse .badArgument ∧ marginReadAction p s = .refuse .badArgument := by
  simp only [portConfigAction, portStatusAction, portOnlineAction, marginReadAction, portOfNat_of_le h, and_self]

variable {n : PortId} (h : field p 0 1 = n.val)
include h

theorem portConfigAction_ok : portConfigAction p s =
    .perform (s.modPort n (fun q => q.withSettings (settingsAsked p))) .ok (settingsAsked p).fields := by
  simp only [portConfigAction, h, portOfNat_val]

theorem portStatusAction_ok : portStatusAction p s =
    .perform (s.modPort n (fun q => { q with delta := Lines.allLow })) .ok (s.port n).statusFields := by
  simp only [portStatusAction, h, portOfNat_val]

theorem marginReadAction_ok : marginReadAction p s = .perform s .ok (s.port n).marginFields := by
  simp only [marginReadAction, h, portOfNat_val]

theorem portOnlineAction_live (hs : (s.port n).state ≠ .offline) : portOnlineAction p s = .perform s .ok [] := by
  simp only [portOnlineAction, h, portOfNat_val, (s.isOffline_eq_false n).mpr hs, if_true]

theorem portOnlineAction_fault (hs : (s.port n).state = .offline) (hf : (s.port n).lines.fault = true) :
    portOnlineAction p s = .refuse .portOffline := by
  simp only [portOnlineAction, h, portOfNat_val, (s.isOffline_iff n).mpr hs, hf, Bool.true_eq_false, if_false, if_true]

theorem portOnlineAction_back (hs : (s.port n).state = .offline) (hf : (s.port n).lines.fault = false) :
    portOnlineAction p s = .perform (settle (s.bringOnline n)) .ok [] := by
  simp only [portOnlineAction, h, portOfNat_val, (s.isOffline_iff n).mpr hs, hf, Bool.true_eq_false,
    Bool.false_eq_true, if_false]

end actions

/-! ### A port brought back (R55) -/

/-- A label read begun changes the volume state and the claims alone (R56). -/
theorem Port.beginLabelRead_frame (q : Port) :
    q.beginLabelRead.state = q.state ∧ q.beginLabelRead.cause = q.cause ∧ q.beginLabelRead.lines = q.lines ∧
      q.beginLabelRead.delta = q.delta ∧ q.beginLabelRead.volume = .labelRead := by
  unfold Port.beginLabelRead
  dsimp only
  split
  · exact ⟨rfl, rfl, rfl, rfl, rfl⟩
  · exact ⟨rfl, rfl, rfl, rfl, rfl⟩

/-- A port brought back, before a label read begins on it (R55). -/
def Port.broughtBack (q : Port) : Port := { q with state := .normal, cause := none }

/-- The state with a port brought back and its PORT_EVENT posted (R55). -/
def State.broughtBack (s : State) (n : PortId) : State := (s.modPort n Port.broughtBack).postPortEvent n .port

theorem State.broughtBack_port (s : State) (n : PortId) : (s.broughtBack n).port n = (s.port n).broughtBack := by
  simp only [State.broughtBack, State.postPortEvent, State.post_port, State.port_modPort_same]

/-- A label read begins where MEDIA is high (R55, R56). -/
theorem State.bringOnline_eq (s : State) (n : PortId) : s.bringOnline n =
    if (s.port n).lines.media then (s.broughtBack n).beginLabel n else s.broughtBack n := by
  show (if ((s.broughtBack n).port n).lines.media then (s.broughtBack n).beginLabel n else s.broughtBack n) = _
  rw [s.broughtBack_port n]
  rfl

theorem State.bringOnline_port (s : State) (n : PortId) : (s.bringOnline n).port n =
    if (s.port n).lines.media then (s.port n).broughtBack.beginLabelRead else (s.port n).broughtBack := by
  rw [State.bringOnline_eq]
  split
  · rw [State.beginLabel, State.port_modPort_same, State.broughtBack_port]
  · exact s.broughtBack_port n

/-- Bringing a port back changes that port and the notices posted, nothing else. -/
theorem State.bringOnline_frame (s : State) (n : PortId) :
    (s.bringOnline n).cat = s.cat ∧ (s.bringOnline n).jbu = s.jbu ∧ (s.bringOnline n).pts = s.pts ∧
      (s.bringOnline n).siu = s.siu ∧ (s.bringOnline n).mode = s.mode := by
  have hk := State.post_keeps (s.modPort n Port.broughtBack) (portEvent n .port ((s.modPort n Port.broughtBack).port n))
  have hposted : (s.broughtBack n).cat = s.cat ∧ (s.broughtBack n).jbu = s.jbu ∧ (s.broughtBack n).pts = s.pts ∧
      (s.broughtBack n).siu = s.siu ∧ (s.broughtBack n).mode = s.mode :=
    ⟨State.post_cat _ _, State.post_jbu _ _, hk.pts, hk.siu, hk.mode⟩
  rw [State.bringOnline_eq]
  split
  · exact hposted
  · exact hposted

/-- The end of the step leaves a port brought back as it is, but for its handshake. -/
theorem settle_bringOnline (s : State) (n : PortId) : ∃ q : Port,
    (settle (s.bringOnline n)).port n = q ∧ q.state = .normal ∧ q.cause = none ∧ q.delta = (s.port n).delta ∧
      q.lines = (s.port n).lines ∧ q.volume = if (s.port n).lines.media then .labelRead else (s.port n).volume := by
  have hk := (settle_settles (s.bringOnline n)).port n
  have hport := s.bringOnline_port n
  refine ⟨_, rfl, ?_⟩
  rw [hk.state, hk.cause, hk.delta, hk.lines, hk.volume, hport]
  split
  · obtain ⟨hstate, hcause, hlines, hdelta, hvolume⟩ := (s.port n).broughtBack.beginLabelRead_frame
    exact ⟨hstate, hcause, hdelta, hlines, hvolume⟩
  · exact ⟨rfl, rfl, rfl, rfl, rfl⟩

end Sys2Proof.Machine
end

section
/-! SUPPORT. The end of a step at one port: the grant handshake and the command boundary (R46, R47, R49) as a function of
that port alone. -/

namespace Sys2Proof.Machine

open Sys2Proof

/-- What the grant handshake and the arbiter make of a port at the end of a step (R46, R47, R49). -/
def Port.handshake (q : Port) : Port :=
  if q.state = .offline then q
  else match q.grant with
    | .idle => if q.hasClaims && !q.yld then { q with grant := .requesting, req := true } else q
    | .requesting => if q.hasClaims then q else { q with grant := .idle, req := false }
    | .granted =>
      match q.outstanding, q.nextClaim with
      | some _, _ => q
      | none, none => { q with grant := .releasing, req := false }
      | none, some (c, claim, isReissue) => q.issue c claim isReissue
    | .releasing => if q.outstanding.isSome then q else { q with req := false }

/-! ### The handshake is what the ports' settling does -/

theorem State.countAttempt_port (s : State) (k : PortId) : s.countAttempt.port k = s.port k := by
  unfold State.countAttempt
  split <;> rfl

theorem State.settlePort_same (s : State) (p : PortId) : (s.settlePort p).port p = (s.port p).handshake := by
  unfold State.settlePort Port.handshake
  dsimp only
  split
  · rfl
  · cases (s.port p).grant with
    | idle | requesting => dsimp only; split <;> simp
    | granted =>
      cases (s.port p).outstanding with
      | some o => rfl
      | none =>
        cases (s.port p).nextClaim with
        | none => simp
        | some x =>
          obtain ⟨c, claim, isReissue⟩ := x
          dsimp only
          split
          · rw [State.countAttempt_port, State.port_setPort_same]
          · rw [State.port_setPort_same]
    | releasing => cases (s.port p).outstanding <;> simp

theorem State.foldSettle_port (p : PortId) (l : List PortId) : ∀ s : State, l.Nodup →
    (l.foldl State.settlePort s).port p = if p ∈ l then (s.port p).handshake else s.port p := by
  induction l with
  | nil => intro s _; simp
  | cons k rest ih =>
    intro s hn
    obtain ⟨hk, hrest⟩ := List.nodup_cons.mp hn
    rw [List.foldl_cons, ih _ hrest]
    by_cases e : p = k
    · subst e
      simp [hk, s.settlePort_same]
    · simp [e, s.settlePort_other e]

/-- At the end of a step each port takes its own handshake, once start-up has set the ports (R62; log 6). -/
theorem settle_port {s : State} (h : s.portsSet = true) (p : PortId) :
    ((settle s).port p) = (s.port p).handshake := by
  have hports : (settle s).port p = (settlePorts s).port p := by
    unfold settle
    rw [takePosted_frame]
    rfl
  rw [hports, settlePorts, if_pos h, State.foldSettle_port p allPorts s (by decide), if_pos (mem_allPorts p)]

section replaced

variable {s : State} (h : s.portsSet = true) (p : PortId)
include h

theorem settle_setPort (q : Port) : (settle (s.setPort p q)).port p = q.handshake := by
  rw [settle_port (s := s.setPort p q) h, State.port_setPort_same]

theorem settle_modPort (f : Port → Port) : (settle (s.modPort p f)).port p = (f (s.port p)).handshake :=
  settle_setPort h p _

theorem settle_setPort_posted (q : Port) (c : PortEventCause) :
    (settle ((s.setPort p q).postPortEvent p c)).port p = q.handshake := by
  have hset : ((s.setPort p q).postPortEvent p c).portsSet = true := (State.post_keeps _ _).portsSet.trans h
  rw [settle_port hset, State.postPortEvent, State.post_port, State.port_setPort_same]

end replaced

/-- Of two replacements of a port the last counts. -/
theorem State.setPort_setPort (s : State) (p : PortId) (q r : Port) : (s.setPort p q).setPort p r = s.setPort p r := by
  simp [State.setPort]

/-! ### The handshake case by case -/

section cases

variable {q : Port}

/-- An IDLE port without claims, or with YLD high, asks for nothing (R46). -/
theorem Port.handshake_rests (hg : q.grant = .idle) (h : q.hasClaims = false ∨ q.yld = true) : q.handshake = q := by
  unfold Port.handshake
  rw [hg]
  split
  · rfl
  · rcases h with h | h <;> simp [h]

/-- An IDLE port with claims and YLD low requests (R46). -/
theorem Port.handshake_requests (hs : q.state ≠ .offline) (hg : q.grant = .idle) (hc : q.hasClaims = true)
    (hy : q.yld = false) : q.handshake = { q with grant := .requesting, req := true } := by
  unfold Port.handshake
  rw [if_neg hs, hg]
  simp [hc, hy]

/-- At a command boundary the next claim is issued (R49). -/
theorem Port.handshake_issues {c : Claimant} {claim : Claim} {re : Bool} (hs : q.state ≠ .offline)
    (hg : q.grant = .granted) (ho : q.outstanding = none) (hn : q.nextClaim = some (c, claim, re)) :
    q.handshake = q.issue c claim re := by
  unfold Port.handshake
  rw [if_neg hs, hg, ho, hn]

/-- A RELEASING port holds REQ only while a command is outstanding (R47). -/
theorem Port.handshake_releases (hg : q.grant = .releasing) (h : q.outstanding = none → q.req = false) :
    q.handshake = q := by
  unfold Port.handshake
  rw [hg]
  split
  · rfl
  · dsimp only
    split
    · rfl
    · next ho =>
      have hlow : q.req = false := h (by simpa using ho)
      rw [← hg, ← hlow]

/-- Without a grant the handshake moves the grant state and REQ alone: claims and command stay. -/
theorem Port.handshake_ungranted (hg : q.grant ≠ .granted) : ∃ g b, q.handshake = { q with grant := g, req := b } := by
  unfold Port.handshake
  split
  · exact ⟨q.grant, q.req, rfl⟩
  · cases hq : q.grant with
    | granted => exact absurd hq hg
    | idle =>
      dsimp only
      split
      · exact ⟨_, _, rfl⟩
      · exact ⟨q.grant, q.req, rfl⟩
    | requesting =>
      dsimp only
      split
      · exact ⟨q.grant, q.req, rfl⟩
      · exact ⟨_, _, rfl⟩
    | releasing =>
      dsimp only
      split
      · exact ⟨q.grant, q.req, rfl⟩
      · exact ⟨.releasing, false, rfl⟩

end cases

end Sys2Proof.Machine
end

section
/-! SUPPORT. The rules of the status lines (R44, R53, R56, R58, R59): what each makes of its port once the level and the
delta flag have been recorded. -/

namespace Sys2Proof.Machine

open Sys2Proof

/-! ### Labels and media -/

section rules

variable (s : State) (p : PortId)

/-- The same levels and delta flags on a port. -/
def Port.SameLines (q r : Port) : Prop := r.lines = q.lines ∧ r.delta = q.delta

theorem Port.Keeps.sameLines {q r : Port} (h : q.Keeps r) : q.SameLines r := ⟨h.lines, h.delta⟩

theorem State.beginLabel_port : (s.port p).SameLines ((s.beginLabel p).port p) ∧
    ((s.beginLabel p).port p).volume = .labelRead := by
  rw [State.beginLabel, State.port_modPort_same]
  obtain ⟨-, -, hlines, hdelta, hvolume⟩ := (s.port p).beginLabelRead_frame
  exact ⟨⟨hlines, hdelta⟩, hvolume⟩

/-- READY rising with MEDIA high leaves the port in LABEL_READ, be it that its media drop (R59). -/
theorem State.rereadLabel_port : (s.port p).SameLines ((s.rereadLabel p).port p) ∧
    ((s.rereadLabel p).port p).volume = .labelRead := by
  obtain ⟨⟨hlines, hdelta⟩, hvolume⟩ := s.beginLabel_port p
  unfold State.rereadLabel
  split
  · have hk := (State.mediaDrop_keeps (s.beginLabel p) p).port p
    exact ⟨⟨hk.lines.trans hlines, hk.delta.trans hdelta⟩, hk.volume.trans hvolume⟩
  · exact ⟨⟨hlines, hdelta⟩, hvolume⟩

/-- MEDIA falling leaves NO_MEDIA (R58). -/
theorem State.loseMedia_port : (s.port p).SameLines ((s.loseMedia p).port p) ∧
    ((s.loseMedia p).port p).volume = .noMedia := by
  have hk := (State.mediaDrop_keeps (s.modPort p (fun q => { q.withdraw .label with volume := .noMedia })) p).port p
  rw [State.port_modPort_same] at hk
  exact ⟨hk.sameLines, hk.volume⟩

/-- FAULT rising leaves the port OFFLINE with cause FAULT, also where it was OFFLINE before (R53). -/
theorem State.faultRisen_port : (s.port p).SameLines ((s.faultRisen p).port p) ∧
    ((s.faultRisen p).port p).state = .offline ∧ ((s.faultRisen p).port p).cause = some .fault := by
  unfold State.faultRisen
  split
  · next h =>
    rw [State.port_modPort_same]
    exact ⟨⟨rfl, rfl⟩, (s.isOffline_iff p).mp h, rfl⟩
  · have hk := (s.enterOffline_keeps p .fault).port p
    rw [State.port_modPort_same] at hk
    exact ⟨hk.sameLines, hk.state, hk.cause⟩

/-! ### A line's change -/

/-- A rule of port `p` that acts on that port and leaves its lines. -/
def LineRule (p : PortId) (act : State → State) : Prop :=
  ∀ t : State, t.WorksOn p (act t) ∧ (t.port p).SameLines ((act t).port p)

theorem LineRule.of_keeps {act : State → State} (h : ∀ t : State, t.Keeps (act t)) : LineRule p act :=
  fun t => ⟨(h t).worksOn p, ((h t).port p).sameLines⟩

/-- A line of port `p` is at a new level with its delta flag set, and the lines of other ports stay (R44). -/
def State.LineRecorded (k : Line) (b : Bool) (t : State) : Prop :=
  (t.port p).lines = (s.port p).lines.put k b ∧ (t.port p).delta = (s.port p).delta.put k true ∧
    ∀ o, o ≠ p → (t.port o).lines = (s.port o).lines ∧ (t.port o).delta = (s.port o).delta

/-- A line's change on a port that start-up has set: its level and its delta flag are recorded, other ports keep theirs,
and state and volume are what the line's rule leaves (R44). -/
theorem State.lineChange_after {k : Line} {b : Bool} {act : State → State} (hset : s.portsSet = true)
    (hk : (s.port p).lines.get k = !b) (ha : LineRule p act) :
    ∃ t, (Host.Outcome.next (s.lineChange p k b act) : Host.Outcome State Fault Refusal) = .next t ∧
      s.LineRecorded p k b t ∧
      (t.port p).state = ((act (s.recordLine p k b)).port p).state ∧
      (t.port p).cause = ((act (s.recordLine p k b)).port p).cause ∧
      (t.port p).volume = ((act (s.recordLine p k b)).port p).volume := by
  obtain ⟨hwork, hlines, hdelta⟩ := ha (s.recordLine p k b)
  have hne : (s.port p).lines.get k ≠ b := by simp [hk]
  have hs := (settle_settles (act (s.recordLine p k b))).port p
  have hspares := ((s.recordLine_worksOn p k b).trans hwork).spares.settle
  rw [State.recordLine_port_same] at hlines hdelta
  exact ⟨_, congrArg _ (s.lineChange_set p act hset hne),
    ⟨hs.lines.trans hlines, hs.delta.trans hdelta, fun o ho => ⟨(hspares o ho).lines, (hspares o ho).delta⟩⟩,
    hs.state, hs.cause, hs.volume⟩

/-- A line whose rule keeps leaves state and volume of its port. -/
theorem State.lineChange_stands {k : Line} {b : Bool} {act : State → State} (hset : s.portsSet = true)
    (hk : (s.port p).lines.get k = !b) (ha : ∀ t : State, t.Keeps (act t)) :
    ∃ t, (Host.Outcome.next (s.lineChange p k b act) : Host.Outcome State Fault Refusal) = .next t ∧
      s.LineRecorded p k b t ∧
      (t.port p).state = (s.port p).state ∧ (t.port p).volume = (s.port p).volume := by
  obtain ⟨t, ht, hafter, hstate, -, hvolume⟩ := s.lineChange_after p hset hk (LineRule.of_keeps p ha)
  have hkept := (ha (s.recordLine p k b)).port p
  rw [State.recordLine_port_same] at hkept
  exact ⟨t, ht, hafter, hstate.trans hkept.state, hvolume.trans hkept.volume⟩

/-! ### The rules that depend on the port -/

/-- READY has risen: with MEDIA high on a port that is not OFFLINE the label is read again (R59). -/
def State.readyRule (t : State) : State := if (t.port p).lines.media && !t.isOffline p then t.rereadLabel p else t

/-- MEDIA has risen: a label read begins on a port that is not OFFLINE (R56). -/
def State.mediaRiseRule (t : State) : State := if t.isOffline p then t else t.beginLabel p

/-- MEDIA has fallen: its media drop, on a port that is not OFFLINE (R58). -/
def State.mediaFallRule (t : State) : State := if t.isOffline p then t else t.loseMedia p

theorem readyRule_lineRule : LineRule p (State.readyRule p) := by
  intro t
  unfold State.readyRule
  split
  · next hc =>
    simp only [Bool.and_eq_true, Bool.not_eq_true', State.isOffline_eq_false] at hc
    exact ⟨t.rereadLabel_worksOn p hc.2, (t.rereadLabel_port p).1⟩
  · exact ⟨.refl p t, rfl, rfl⟩

theorem mediaRiseRule_lineRule : LineRule p (State.mediaRiseRule p) := by
  intro t
  unfold State.mediaRiseRule
  split
  · exact ⟨.refl p t, rfl, rfl⟩
  · next hc => exact ⟨t.beginLabel_worksOn p (mt (t.isOffline_iff p).mpr hc), (t.beginLabel_port p).1⟩

theorem mediaFallRule_lineRule : LineRule p (State.mediaFallRule p) := by
  intro t
  unfold State.mediaFallRule
  split
  · exact ⟨.refl p t, rfl, rfl⟩
  · next hc => exact ⟨t.loseMedia_worksOn p (mt (t.isOffline_iff p).mpr hc), (t.loseMedia_port p).1⟩

end rules

section cases

variable {t : State} {p : PortId}

theorem readyRule_rereads (hm : (t.port p).lines.media = true) (hs : (t.port p).state ≠ .offline) :
    State.readyRule p t = t.rereadLabel p := by
  simp [State.readyRule, hm, (t.isOffline_eq_false p).mpr hs]

theorem readyRule_nothing (h : (t.port p).lines.media = false ∨ (t.port p).state = .offline) :
    State.readyRule p t = t := by
  rcases h with hm | hs
  · simp [State.readyRule, hm]
  · simp [State.readyRule, (t.isOffline_iff p).mpr hs]

theorem mediaRules_offline (hs : (t.port p).state = .offline) :
    State.mediaRiseRule p t = t ∧ State.mediaFallRule p t = t :=
  have hoff := (t.isOffline_iff p).mpr hs
  ⟨if_pos hoff, if_pos hoff⟩

theorem mediaRules_live (hs : (t.port p).state ≠ .offline) :
    State.mediaRiseRule p t = t.beginLabel p ∧ State.mediaFallRule p t = t.loseMedia p :=
  have hlive := mt (t.isOffline_iff p).mp hs
  ⟨if_neg hlive, if_neg hlive⟩

/-- Recording a line leaves state and volume of its port. -/
theorem State.recordLine_stands (s : State) (p : PortId) (k : Line) (b : Bool) :
    ((s.recordLine p k b).port p).state = (s.port p).state ∧
      ((s.recordLine p k b).port p).volume = (s.port p).volume := by
  rw [State.recordLine_port_same]
  exact ⟨rfl, rfl⟩

end cases

end Sys2Proof.Machine
end

section
/-! SUPPORT. GNT and YLD (R46 to R49, R83): what their events come to on a port that start-up has set. -/

namespace Sys2Proof.Machine

open Sys2Proof

/-! ### The commands -/

section commands

variable {s : State} {p : PortId} (hset : s.portsSet = true)
include hset

theorem exec_gntRise (h : (s.port p).gnt = false) :
    exec (.gntRise p) s = .next (settle (s.modPort p Port.gntRisen)) := by
  show execGntRise p s = _
  simp only [execGntRise, h, hset, Bool.false_eq_true, if_false, if_true]

theorem exec_gntFall (h : (s.port p).gnt = true) : exec (.gntFall p) s = .next (settle (s.gntFallen p)) := by
  show execGntFall p s = _
  simp only [execGntFall, h, hset, Bool.not_true, Bool.false_eq_true, if_false, if_true]

theorem exec_yldRise (h : (s.port p).yld = false) :
    exec (.yldRise p) s = .next (settle ((s.modPort p Port.yldRisen).jobYields p)) := by
  show execYldRise p s = _
  simp only [execYldRise, h, hset, Bool.false_eq_true, if_false, if_true]

theorem exec_yldFall (h : (s.port p).yld = true) :
    exec (.yldFall p) s = .next (settle ((s.modPort p (fun q => { q with yld := false })).jobUnyields p)) := by
  show execYldFall p s = _
  simp only [execYldFall, h, hset, Bool.not_true, Bool.false_eq_true, if_false, if_true]

end commands

/-! ### GNT rises (R40, R42, R46, R49) -/

/-- A command issued carries the next tag and the timeout setting; the grant stands (R40, R42). -/
theorem Port.issue_command (q : Port) (c : Claimant) (claim : Claim) (re : Bool) :
    (q.issue c claim re).grant = q.grant ∧ (q.issue c claim re).gnt = q.gnt ∧
      (q.issue c claim re).outstanding = some ⟨claim, q.nextTag, some c, q.settings.timeout⟩ ∧
      (q.issue c claim re).nextTag = !q.nextTag := by
  have hdrop : (q.dropClaim c re).grant = q.grant ∧ (q.dropClaim c re).gnt = q.gnt := by
    cases re with
    | true => exact ⟨rfl, rfl⟩
    | false => cases c <;> exact ⟨rfl, rfl⟩
  exact ⟨hdrop.1, hdrop.2, rfl, rfl⟩

section nextClaim

variable {q : Port}

theorem Port.nextClaim_reissue {c : Claimant} {claim : Claim} (h : q.reissue = some (c, claim)) :
    q.nextClaim = some (c, claim, true) := by
  simp only [Port.nextClaim, h]

theorem Port.nextClaim_label (hr : q.reissue = none) (hl : q.labelClaim = true) :
    q.nextClaim = some (.label, labelReadClaim, false) := by
  simp only [Port.nextClaim, hr, hl, if_true]

theorem Port.nextClaim_rpu {c : Claim} (hr : q.reissue = none) (hl : q.labelClaim = false) (h : q.rpuClaim = some c) :
    q.nextClaim = some (.rpu, c, false) := by
  simp only [Port.nextClaim, hr, hl, h, Bool.false_eq_true, if_false]

theorem Port.nextClaim_job {c : Claim} (hr : q.reissue = none) (hl : q.labelClaim = false) (hu : q.rpuClaim = none)
    (h : q.jobClaim = some c) : q.nextClaim = some (.job, c, false) := by
  simp only [Port.nextClaim, hr, hl, hu, h, Bool.false_eq_true, if_false]

theorem Port.hasClaims_eq_false : q.hasClaims = false ↔
    q.labelClaim = false ∧ q.rpuClaim = none ∧ q.jobClaim = none ∧ q.reissue = none := by
  simp [Port.hasClaims, and_assoc]

theorem Port.nextClaim_none (h : q.hasClaims = false) : q.nextClaim = none := by
  obtain ⟨hl, hu, hj, hr⟩ := Port.hasClaims_eq_false.mp h
  simp only [Port.nextClaim, hr, hl, hu, hj, Bool.false_eq_true, if_false]

end nextClaim

/-! ### GNT falls (R47, R48) -/

/-- A port whose grant has been lost (R47). -/
def Port.gntLost (q : Port) : Port := ({ q with gnt := false }).loseGrant

/-- With no command outstanding the port loses its grant, and no more. -/
theorem State.gntFallen_idle {s : State} {p : PortId} (h : (s.port p).outstanding = none) :
    s.gntFallen p = s.setPort p (s.port p).gntLost := by
  unfold State.gntFallen
  dsimp only
  split
  · rfl
  · next ho => cases h.symm.trans ho

/-- With YLD low an outstanding command is a port error (R48). -/
theorem State.gntFallen_error {s : State} {p : PortId} {o : Outstanding} (h : (s.port p).outstanding = some o)
    (hy : (s.port p).yld = false) : s.gntFallen p = (s.setPort p (s.port p).gntLost).portError p := by
  unfold State.gntFallen
  dsimp only
  split
  · next ho => cases h.symm.trans ho
  · rw [if_neg (by simp [hy])]
    rfl

/-- With YLD high an outstanding command is cut, and its claimant is told (R48). -/
theorem State.gntFallen_cut {s : State} {p : PortId} {o : Outstanding} (h : (s.port p).outstanding = some o)
    (hy : (s.port p).yld = true) :
    s.gntFallen p = ((s.setPort p (s.port p).gntLost).modPort p Port.finish).tellCut p o := by
  unfold State.gntFallen
  dsimp only
  split
  · next ho => cases h.symm.trans ho
  · next o' ho =>
    cases h.symm.trans ho
    exact if_pos hy

/-- A port error in NORMAL: RECOVERY, with a reissue for the claimant of a command that is no orphan (R51). -/
def Port.errorOf (q : Port) (o : Outstanding) : Port :=
  { q.finish with
    state := .recovery
    reissue := match o.claimant with
      | some c => some (c, o.claim)
      | none => q.reissue }

theorem State.portError_normal {s : State} {p : PortId} {o : Outstanding} (ho : (s.port p).outstanding = some o)
    (hs : (s.port p).state = .normal) :
    s.portError p = (s.setPort p ((s.port p).errorOf o)).postPortEvent p .port := by
  unfold State.portError
  dsimp only
  split
  · next hn => cases ho.symm.trans hn
  · next o' ho' =>
    cases ho.symm.trans ho'
    split
    · rfl
    · next hr => cases hs.symm.trans hr
    · next hr => cases hs.symm.trans hr

/-- A port's handshake with its drive as it was: state, grant and lines of the link, and whether a command is out. -/
structure Port.SameLink (q r : Port) : Prop where
  state : r.state = q.state
  grant : r.grant = q.grant
  req : r.req = q.req
  gnt : r.gnt = q.gnt
  yld : r.yld = q.yld
  command : r.outstanding.isSome = q.outstanding.isSome

theorem Port.SameLink.refl (q : Port) : q.SameLink q := ⟨rfl, rfl, rfl, rfl, rfl, rfl⟩

theorem Port.Keeps.sameLink {q r : Port} (h : q.Keeps r) : q.SameLink r :=
  ⟨h.state, h.grant, h.req, h.gnt, h.yld, h.command⟩

/-- Whatever the claimant of a cut command does, it leaves the link of the port alone (R48, R78, R91, R129). -/
theorem State.tellCut_sameLink (s : State) (p : PortId) (o : Outstanding) :
    (s.tellCut p o).portsSet = s.portsSet ∧ (s.port p).SameLink ((s.tellCut p o).port p) := by
  have keeps : ∀ {t : State}, s.Keeps t → t.portsSet = s.portsSet ∧ (s.port p).SameLink (t.port p) :=
    fun h => ⟨h.portsSet, (h.port p).sameLink⟩
  unfold State.tellCut
  split
  · exact keeps (.refl s)
  · split
    · rw [State.port_modPort_same]
      exact ⟨rfl, rfl, rfl, rfl, rfl, rfl, rfl⟩
    · exact keeps (.refl s)
  · exact keeps (s.rpuCut_keeps p _).toKeeps
  · split
    · exact keeps (.refl s)
    · next i hi =>
      have ha := State.activeSlot_activeAt hi
      split
      · exact keeps (.refl s)
      · split
        · exact keeps ((s.modJob_keeps i (fun j => { j with state := .suspended })
            (fun k hk => Job.Tame.ofLive rfl (ha.live k hk) rfl)).trans (State.followUp_keeps _ p))
        · exact keeps ((s.enterWaiting_active_keeps i _ ha).trans (State.followUp_keeps _ p))

theorem State.tellCut_rpu {s : State} {p : PortId} {o : Outstanding} (h : o.claimant = some .rpu) :
    s.tellCut p o = s.rpuCut p o.claim := by
  simp only [State.tellCut, h]

theorem State.uncountAttempt_port (s : State) (k : PortId) : s.uncountAttempt.port k = s.port k := by
  unfold State.uncountAttempt
  split <;> rfl

/-- RPU places the claim of its cut command again, on a port that is not OFFLINE (R129). -/
theorem State.rpuCut_rpuClaim {s : State} {p : PortId} (c : Claim) (h : (s.port p).state ≠ .offline) :
    ((s.rpuCut p c).port p).rpuClaim = some c := by
  have hplace : ∀ t : State, t.port p = s.port p → ((t.placeRpuClaim p c).port p).rpuClaim = some c := by
    intro t ht
    rw [State.placeRpuClaim, State.port_modPort_same, ht, Port.placeRpu, if_neg h]
  unfold State.rpuCut
  split
  · exact hplace _ (s.uncountAttempt_port p)
  · exact hplace s rfl

/-! ### YLD rises and falls (R46, R47, R83) -/

/-- YLD up, the port waits without a grant (R46, R47). -/
theorem Port.yldRisen_frame (q : Port) :
    q.yldRisen.yld = true ∧ q.yldRisen.grant ≠ .granted ∧ q.yldRisen.jobPending = q.jobPending ∧
      q.yldRisen.outstanding = q.outstanding := by
  unfold Port.yldRisen
  split
  · exact ⟨rfl, GrantState.noConfusion, rfl, rfl⟩
  · exact ⟨rfl, GrantState.noConfusion, rfl, rfl⟩
  · next h => exact ⟨rfl, by simp [h], rfl, rfl⟩
  · next h => exact ⟨rfl, by simp [h], rfl, rfl⟩

theorem Port.yldRisen_requesting {q : Port} (h : q.grant = .requesting) :
    q.yldRisen = { q with yld := true, grant := .idle, req := false } := by
  simp only [Port.yldRisen, h]

theorem Port.yldRisen_granted {q : Port} (h : q.grant = .granted) :
    q.yldRisen = { q with yld := true, grant := .releasing, req := q.outstanding.isSome } := by
  simp only [Port.yldRisen, h]

/-- Withdrawn, the job's claim is not pending (R50). -/
theorem Port.withdraw_jobPending (q : Port) : (q.withdraw .job).jobPending = false := by
  have hclaim : (q.withdraw .job).jobClaim = none := rfl
  have hreissue : (q.withdraw .job).reissueOf .job = false := by
    cases h : q.reissueOf .job with
    | true =>
      have hnone : (q.withdraw .job).reissue = none := by simp [Port.withdraw, h]
      simp only [Port.reissueOf, hnone]
    | false =>
      have hsame : (q.withdraw .job).reissue = q.reissue := by simp [Port.withdraw, h]
      rw [← h]
      simp only [Port.reissueOf, hsame]
  simp [Port.jobPending, hclaim, hreissue]

/-- A RUNNING job with its claim pending withdraws it and yields (R83). -/
theorem State.jobYields_running {s : State} {p : PortId} {i : SlotId} {j : Job} (hi : s.activeSlot p = some i)
    (hj : s.slot i = some j) (hr : j.state = .running) (hp : (s.port p).jobPending = true) :
    s.jobYields p = ((s.modPort p (fun q => q.withdraw .job)).setSlot i (some { j with state := .yielded })).post
      (jobWaitNotice { j with state := .yielded }) := by
  rw [← State.enterWaiting_of_slot (s := s.modPort p (fun q => q.withdraw .job)) hj .yielded]
  simp only [State.jobYields, hi, hj, hr, hp, decide_true, Bool.and_self, if_true]

theorem State.jobUnyields_none {s : State} {p : PortId} (h : s.activeSlot p = none) : s.jobUnyields p = s := by
  simp only [State.jobUnyields, h]

/-- A YIELDED job is RUNNING again, at a boundary (R83). -/
theorem State.jobUnyields_yielded {s : State} {p : PortId} {i : SlotId} {j : Job} (hi : s.activeSlot p = some i)
    (hj : s.slot i = some j) (hy : j.state = .yielded) : s.jobUnyields p =
      ((s.modJob i (fun j => { j with state := .running })).boundary i).followUp p := by
  simp only [State.jobUnyields, hi, hj, hy, if_true]

end Sys2Proof.Machine
end

section
/-! SUPPORT. A port that enters OFFLINE fails all its jobs (R54, R86). -/

namespace Sys2Proof.Machine

open Sys2Proof

/-! ### The port's jobs -/

theorem State.mem_insertQueued (s : State) (i k : SlotId) (l : List SlotId) :
    k ∈ s.insertQueued i l ↔ k = i ∨ k ∈ l := by
  induction l with
  | nil => simp [State.insertQueued]
  | cons x rest ih =>
    unfold State.insertQueued
    split
    · exact List.mem_cons
    · rw [List.mem_cons, List.mem_cons, ih]
      tauto

theorem State.mem_queueOf (s : State) (p : PortId) (k : SlotId) : k ∈ s.queueOf p ↔ k ∈ s.queuedSlots p := by
  unfold State.queueOf
  induction s.queuedSlots p with
  | nil => exact Iff.rfl
  | cons x rest ih => rw [List.foldr_cons, State.mem_insertQueued, ih, List.mem_cons]

/-- Every job of the port that is not terminal is one of its jobs: active, queued, suspended or waiting (Table 4-2). -/
theorem State.mem_portJobs {s : State} {p : PortId} {i : SlotId} {j : Job} (hj : s.slot i = some j) (hp : j.port = p)
    (hl : j.state.terminal = false) : i ∈ s.portJobs p := by
  unfold State.portJobs
  rw [List.mem_append, List.mem_append, State.mem_queueOf, or_assoc]
  cases hs : j.state with
  | running | suspending | yielded | stalled =>
    exact .inl (State.slotsWhere_mem hj (by simp [hp, hs, JobState.active]))
  | queued => exact .inr (.inl (State.slotsWhere_mem hj (by simp [hp, hs])))
  | suspended | waitMedia => exact .inr (.inr (State.slotsWhere_mem hj (by simp [hp, hs])))
  | done | aborted | failed => rw [hs] at hl; cases hl

/-! ### Their end -/

/-- Renumbering the end orders moves no job and leaves its state and port (R67). -/
theorem State.renumberEnds_slot (s : State) : ∃ f : Job → Job, (∀ j, (f j).state = j.state ∧ (f j).port = j.port) ∧
    ∀ k, s.renumberEnds.slot k = (s.slot k).map f := by
  have hcounter : ∀ (t : State) (n : Nat) (k : SlotId),
      ({ t with jbu := { t.jbu with endOrder := n } } : State).slot k = t.slot k := fun _ _ _ => rfl
  unfold State.renumberEnds
  split
  · exact ⟨id, fun j => ⟨rfl, rfl⟩, fun k => by rw [Option.map_id]; rfl⟩
  · dsimp only
    generalize hf : (fun j : Job => if j.ended then
      { j with endOrder := some (s.rankBelow Job.ended (fun k => k.endOrder.getD 0) (j.endOrder.getD 0) + 1) }
      else j) = f
    refine ⟨f, fun j => ?_, fun k => (hcounter _ _ k).trans (s.slot_mapJobs f k)⟩
    subst hf
    dsimp only
    split <;> exact ⟨rfl, rfl⟩

/-- A job that ends is in the state it ends in, if its slot is not freed; the other slots are as the end orders'
renumbering leaves them (R67, R68). -/
theorem State.endJob_slot (s : State) (i : SlotId) (st : JobState) (r : EndReason) :
    (∀ k, k ≠ i → (s.endJob i st r).slot k = s.renumberEnds.slot k) ∧
      ∀ l, (s.endJob i st r).slot i = some l → l.state = st := by
  unfold State.endJob
  generalize s.renumberEnds = s1
  dsimp only
  have hother : ∀ (f : Job → Job) (n : Nat) (k : SlotId), k ≠ i →
      (({ s1 with jbu := { s1.jbu with endOrder := n } } : State).modJob i f).slot k = s1.slot k :=
    fun f n k hk => State.slot_modJob_ne _ f hk
  split
  · next hn => exact ⟨fun k hk => hother _ _ k hk, fun l hl => by rw [hn] at hl; cases hl⟩
  · next j hj =>
    split
    · refine ⟨fun k hk => ?_, fun l hl => ?_⟩
      · rw [State.slot_setSlot_ne _ _ hk, State.post_slot, hother _ _ k hk]
      · rw [State.slot_setSlot_same] at hl
        cases hl
    · refine ⟨fun k hk => ?_, fun l hl => ?_⟩
      · rw [State.post_slot, hother _ _ k hk]
      · rw [State.post_slot, State.slot_modJob_same] at hl
        obtain ⟨m, -, rfl⟩ := Option.map_eq_some_iff.mp hl
        rfl

/-- After a job has failed, every job not terminal is another one, and was there before in its state and on its port
(R86). -/
theorem State.failJob_live {s : State} {i k : SlotId} {l : Job} (h : (s.failJob i).slot k = some l)
    (hl : l.state.terminal = false) : k ≠ i ∧ ∃ j, s.slot k = some j ∧ j.state = l.state ∧ j.port = l.port := by
  obtain ⟨hother, hown⟩ := (s.dropWork i).endJob_slot i .failed .portOffline
  have hne : k ≠ i := by
    rintro rfl
    rw [hown l h] at hl
    cases hl
  obtain ⟨f, hf, hslots⟩ := (s.dropWork i).renumberEnds_slot
  refine ⟨hne, ?_⟩
  rw [State.failJob, hother k hne, hslots, State.dropWork_slot, if_neg hne] at h
  obtain ⟨j, hj, rfl⟩ := Option.map_eq_some_iff.mp h
  exact ⟨j, hj, (hf j).1.symm, (hf j).2.symm⟩

theorem State.foldFail_live {k : SlotId} {m : Job} (l : List SlotId) : ∀ s : State,
    (l.foldl State.failJob s).slot k = some m → m.state.terminal = false →
      k ∉ l ∧ ∃ j, s.slot k = some j ∧ j.state = m.state ∧ j.port = m.port := by
  induction l with
  | nil => exact fun s h _ => ⟨List.not_mem_nil, m, h, rfl, rfl⟩
  | cons i rest ih =>
    intro s h hm
    obtain ⟨hrest, j, hj, hstate, hport⟩ := ih _ h hm
    obtain ⟨hne, j0, hj0, hstate0, hport0⟩ := State.failJob_live hj (hstate ▸ hm)
    exact ⟨fun hk => (List.mem_cons.mp hk).elim hne hrest, j0, hj0, hstate0.trans hstate, hport0.trans hport⟩

/-- No job of a port is left that is not terminal. -/
def State.AllEnded (s : State) (p : PortId) : Prop := ∀ i j, s.slot i = some j → j.port = p → j.state.terminal = true

theorem State.foldFail_allEnded (s : State) (p : PortId) : ((s.portJobs p).foldl State.failJob s).AllEnded p := by
  intro i j hj hp
  by_contra hl
  obtain ⟨hnot, j0, hj0, hstate, hport⟩ := State.foldFail_live _ s hj (by simpa using hl)
  exact hnot (State.mem_portJobs hj0 (hport.trans hp) (by rw [hstate]; simpa using hl))

/-- With all its jobs ended nothing follows on an OFFLINE port: none becomes active, and PTS evaluates no OFFLINE port
(R71, R158). -/
theorem State.followUp_offline {s : State} {p : PortId} (ho : (s.port p).state = .offline) (he : s.AllEnded p) :
    s.followUp p = s := by
  have hactive : s.activeSlot p = none := by
    cases h : s.activeSlot p with
    | none => rfl
    | some i =>
      obtain ⟨j, hj, hp, ha⟩ := State.activeSlot_spec h
      rw [JobState.active_of_terminal (he i j hj hp)] at ha
      cases ha
  have hhead : s.queueHead p = none := by
    cases h : s.queueHead p with
    | none => rfl
    | some i =>
      obtain ⟨j, hj, hp, hq⟩ := State.queueHead_queued h
      have ht := he i j hj hp
      rw [hq] at ht
      cases ht
  have hactivate : s.activatePort p = s := by
    simp only [State.activatePort, Config.jobSlots, State.activate, hactive, hhead]
  have heligible : s.eligible p = false := by simp [State.eligible, ho]
  simp only [State.followUp, hactivate, State.evaluate, heligible, Bool.false_eq_true, if_false]

/-- A port that enters OFFLINE is quiet, with its cause, and its jobs have ended (R54, R86). -/
theorem State.enterOffline_spec (s : State) (p : PortId) (c : OfflineCause) :
    ((s.enterOffline p c).port p).state = .offline ∧ ((s.enterOffline p c).port p).cause = some c ∧
      ((s.enterOffline p c).port p).Quiet ∧ (s.enterOffline p c).AllEnded p := by
  have hport := (s.enterOffline_keeps p c).port p
  rw [State.port_modPort_same] at hport
  refine ⟨hport.state, hport.cause, hport.toQuiet rfl (Port.goOffline_quiet _ c), ?_⟩
  have hended := (s.modPort p (fun q => q.goOffline c)).foldFail_allEnded p
  have hoffline : ((((s.modPort p (fun q => q.goOffline c)).portJobs p).foldl State.failJob
      (s.modPort p (fun q => q.goOffline c))).port p).state = .offline := by
    rw [((State.foldFail_keeps _ _).port p).state, State.port_modPort_same]
    rfl
  intro i j hj hp
  rw [State.enterOffline, State.postPortEvent, State.post_slot, (State.rpuPortLost_keeps _ p).slot,
    State.followUp_offline hoffline hended] at hj
  exact hended i j hj hp

/-- In RECOVERY a port error makes the port OFFLINE with cause ESCALATION (R52). -/
theorem State.portError_recovery {s : State} {p : PortId} {o : Outstanding} (ho : (s.port p).outstanding = some o)
    (hs : (s.port p).state = .recovery) :
    s.portError p = (s.setPort p (s.port p).finish).enterOffline p .escalation := by
  unfold State.portError
  dsimp only
  split
  · next hn => cases ho.symm.trans hn
  · split
    · next hr => cases hs.symm.trans hr
    · rfl
    · next hr => cases hs.symm.trans hr

/-- The timeout of the outstanding command is a port error (R42, R51). -/
theorem exec_commandTimeout {s : State} {p : PortId} {o : Outstanding} (ho : (s.port p).outstanding = some o) :
    exec (.commandTimeout p) s = .next (settle (s.portError p)) := by
  show execCommandTimeout p s = _
  simp only [execCommandTimeout, ho]

end Sys2Proof.Machine
end

section
/-! SUPPORT. Replies of the drives (R41, R43): when one is taken, how it is judged, and what an outcome comes to. -/

namespace Sys2Proof.Machine

open Sys2Proof

/-! ### The statuses (Table 11-12) -/

/-- The byte of a status. -/
def DriveStatus.code : DriveStatus → Nat
  | .good => 0
  | .mediumError => 1
  | .notReady => 2
  | .writeProtected => 3
  | .driveError => 4

theorem DriveStatus.ofByte_eq_none {b : Byte} : DriveStatus.ofByte b = none ↔ 5 ≤ b.toNat := by
  unfold DriveStatus.ofByte
  split <;> simp_all
  omega

theorem DriveStatus.code_of_ofByte {b : Byte} {st : DriveStatus} (h : DriveStatus.ofByte b = some st) :
    b.toNat = st.code := by
  unfold DriveStatus.ofByte at h
  split at h <;> cases h <;> assumption

/-! ### Well-formed replies (R41) -/

section judged

variable {c : Claim} {r : DriveReply}

/-- The reply of a WRITE carries no data. -/
theorem replyStatus_write {w : List Byte} (hc : c.transfer = .write w) :
    replyStatus c r = if r.data = [] then DriveStatus.ofByte r.status else none := by
  unfold replyStatus
  cases DriveStatus.ofByte r.status with
  | none => simp
  | some st => simp only [hc]

/-- Whether the reply of a READ carries data: one that is GOOD or MEDIUM_ERROR. -/
def DriveStatus.carriesData (st : DriveStatus) : Prop := st = .good ∨ st = .mediumError

/-- The data, the list and the status of a READ's reply as R41 has them. -/
def ReadSound (c : Claim) (r : DriveReply) (st : DriveStatus) : Prop :=
  (st.carriesData → r.data.length = c.blocks * Config.blockBytes) ∧ (¬ st.carriesData → r.data = []) ∧
    (r.offsets.Pairwise (· < ·) ∧ ∀ x ∈ r.offsets, x < c.blocks) ∧ (st = .good → r.offsets = []) ∧
    (st = .mediumError → r.offsets ≠ []) ∧ st ≠ .writeProtected

variable {st : DriveStatus}

theorem ofByte_of_replyStatus (h : replyStatus c r = some st) : DriveStatus.ofByte r.status = some st := by
  unfold replyStatus at h
  split at h
  case h_1 => cases h
  case h_2 hs _ =>
    split_ifs at h
    exact hs.trans h
  case h_3 hs _ =>
    dsimp only at h
    split_ifs at h <;> exact hs.trans h

/-- The reply of a READ is well formed where R41 finds it sound. -/
theorem replyStatus_read {form : ReadForm} (hc : c.transfer = .read form)
    (hs : DriveStatus.ofByte r.status = some st) : replyStatus c r = none ↔ ¬ ReadSound c r st := by
  unfold ReadSound DriveStatus.carriesData replyStatus
  rw [← offsetsOk_iff, hs, hc]
  cases st with
  | good => simp
  | mediumError => simp
  | notReady => simp
  | writeProtected => simp
  | driveError => simp

/-- What makes the reply of a READ unsound, by the code of its status (R41). -/
theorem not_readSound_iff (hn : r.status.toNat = st.code) : ¬ ReadSound c r st ↔
    (r.status.toNat = 0 ∧ r.offsets ≠ []) ∨ (r.status.toNat = 1 ∧ r.offsets = []) ∨
      (¬ r.offsets.Pairwise (· < ·) ∨ ∃ x ∈ r.offsets, c.blocks ≤ x) ∨ r.status.toNat = 3 ∨
      (r.status.toNat ≤ 1 ∧ r.data.length ≠ c.blocks * 4096) ∨ (2 ≤ r.status.toNat ∧ r.data ≠ []) := by
  have hlist : (r.offsets.Pairwise (· < ·) ∧ ∀ x ∈ r.offsets, x < c.blocks) ↔
      ¬ (¬ r.offsets.Pairwise (· < ·) ∨ ∃ x ∈ r.offsets, c.blocks ≤ x) := by
    simp
  unfold ReadSound DriveStatus.carriesData
  rw [hlist, hn]
  generalize (¬ r.offsets.Pairwise (· < ·) ∨ ∃ x ∈ r.offsets, c.blocks ≤ x) = unordered
  cases st with
  | good =>
    simp [DriveStatus.code, Config.blockBytes]
    tauto
  | mediumError =>
    simp [DriveStatus.code, Config.blockBytes]
    tauto
  | notReady =>
    simp [DriveStatus.code]
    tauto
  | writeProtected => simp [DriveStatus.code]
  | driveError =>
    simp [DriveStatus.code]
    tauto

/-- The malformed replies (R41). -/
theorem replyStatus_eq_none :
    let read := ∃ form, c.transfer = .read form
    replyStatus c r = none ↔
      5 ≤ r.status.toNat ∨ (read ∧ r.status.toNat = 0 ∧ r.offsets ≠ []) ∨
        (read ∧ r.status.toNat = 1 ∧ r.offsets = []) ∨
        (read ∧ (¬ r.offsets.Pairwise (· < ·) ∨ ∃ x ∈ r.offsets, c.blocks ≤ x)) ∨
        (read ∧ r.status.toNat = 3) ∨
        (read ∧ r.status.toNat ≤ 1 ∧ r.data.length ≠ c.blocks * 4096) ∨
        ((¬ read ∨ 2 ≤ r.status.toNat) ∧ r.data ≠ []) := by
  intro read
  cases hs : DriveStatus.ofByte r.status with
  | none =>
    have hnone : replyStatus c r = none := by
      simp only [replyStatus, hs]
    exact iff_of_true hnone (Or.inl (DriveStatus.ofByte_eq_none.mp hs))
  | some st =>
    have hknown : ¬ 5 ≤ r.status.toNat := by
      rw [← DriveStatus.ofByte_eq_none, hs]
      nofun
    cases hc : c.transfer with
    | read form =>
      have hread : read := ⟨form, hc⟩
      rw [replyStatus_read hc hs, not_readSound_iff (DriveStatus.code_of_ofByte hs)]
      simp only [hknown, hread, true_and, false_or, not_true_eq_false]
    | write w =>
      have hread : ¬ read := by
        rintro ⟨form, hform⟩
        exact nomatch hc.symm.trans hform
      rw [replyStatus_write hc, hs]
      simp [hknown, hread]

end judged

/-! ### A reply on the link (R41) -/

section commands

variable {s : State} {p : PortId} {bytes : List Byte}

/-- Bytes that end within the record are no reply yet (log 13). -/
theorem exec_driveReply_incomplete (h : DriveReply.ofBytes bytes = none) : exec (.driveReply p bytes) s = .next s := by
  show execDriveReply p bytes s = _
  simp only [execDriveReply, h]

variable {r : DriveReply} (h : DriveReply.ofBytes bytes = some r)
include h

theorem exec_driveReply_unasked (ho : (s.port p).outstanding = none) : exec (.driveReply p bytes) s = .next s := by
  show execDriveReply p bytes s = _
  simp only [execDriveReply, h, State.offerReply, ho]

theorem exec_driveReply_otherTag {o : Outstanding} (ho : (s.port p).outstanding = some o)
    (ht : r.tag.toNat ≠ o.tag.toNat) : exec (.driveReply p bytes) s = .next s := by
  show execDriveReply p bytes s = _
  simp only [execDriveReply, h, State.offerReply, ho, if_neg ht]

end commands

/-- A malformed reply and a DRIVE_ERROR are port errors (R43, R51). -/
theorem State.takeReply_error {s : State} {p : PortId} {o : Outstanding} {r : DriveReply}
    (h : replyStatus o.claim r = none ∨ replyStatus o.claim r = some .driveError) :
    s.takeReply p o r = s.portError p := by
  unfold State.takeReply
  rcases h with h | h <;> rw [h]

/-! ### An outcome (R43, R52, R137) -/

/-- The command is finished, and a port in RECOVERY is NORMAL again (R43, R52). -/
theorem State.returnToNormal_finish (s : State) (p : PortId) :
    (s.setPort p (s.port p).finish).returnToNormal p =
      if (s.port p).state = .recovery
      then (s.setPort p { (s.port p).finish with state := .normal }).postPortEvent p .port
      else s.setPort p (s.port p).finish := by
  unfold State.returnToNormal
  rw [State.modPort, State.port_setPort_same, State.setPort_setPort]
  rfl

theorem State.returnToNormal_jbu (s : State) (p : PortId) : (s.returnToNormal p).jbu = s.jbu := by
  unfold State.returnToNormal
  split
  · exact State.post_jbu _ _
  · rfl

theorem State.feedReply_jbu (s : State) (p : PortId) (c : Claim) (r : DriveReply) (st : DriveStatus) :
    (s.feedReply p c r st).jbu = s.jbu := by
  unfold State.feedReply
  split
  · unfold State.feedMargin
    dsimp only
    split
    · rfl
    · exact State.post_jbu _ _
  · rfl

theorem State.activeSlot_of_jbu {s t : State} (h : t.jbu = s.jbu) (p : PortId) : t.activeSlot p = s.activeSlot p := by
  simp only [State.activeSlot, State.slotsWhere, State.slot, h]

/-- The state in which the claimant takes its outcome (R43). -/
def State.judgedReply (s : State) (p : PortId) (o : Outstanding) (r : DriveReply) (st : DriveStatus) : State :=
  ((s.setPort p (s.port p).finish).returnToNormal p).feedReply p o.claim r st

theorem State.judgedReply_activeSlot (s : State) (p : PortId) (o : Outstanding) (r : DriveReply) (st : DriveStatus) :
    (s.judgedReply p o r st).activeSlot p = s.activeSlot p :=
  State.activeSlot_of_jbu ((State.feedReply_jbu _ _ _ _ _).trans (State.returnToNormal_jbu _ _)) p

section outcome

variable {s : State} {p : PortId} {o : Outstanding} {r : DriveReply} {st : DriveStatus}

/-- An orphan's outcome is no claimant's. -/
theorem State.takeOutcome_orphan (h : o.claimant = none) : s.takeOutcome p o r st = s.judgedReply p o r st := by
  simp only [State.takeOutcome, State.judgedReply, State.handOutcome, h]

theorem State.takeOutcome_label (h : o.claimant = some .label) : s.takeOutcome p o r st =
    (s.judgedReply p o r st).settleLabel p (outcomeOf (s.port p) o.claim r st) := by
  simp only [State.takeOutcome, State.judgedReply, State.handOutcome, h]

theorem State.takeOutcome_rpu (h : o.claimant = some .rpu) : s.takeOutcome p o r st =
    (s.judgedReply p o r st).rpuOutcome p (outcomeOf (s.port p) o.claim r st) := by
  simp only [State.takeOutcome, State.judgedReply, State.handOutcome, h]

/-- The outcome of a job's command with no active job on the port is nobody's. -/
theorem State.takeOutcome_noJob (h : o.claimant = some .job) (hn : s.activeSlot p = none) :
    s.takeOutcome p o r st = s.judgedReply p o r st := by
  have hactive := (s.judgedReply_activeSlot p o r st).trans hn
  simp only [State.judgedReply] at hactive
  simp only [State.takeOutcome, State.judgedReply, State.handOutcome, h, hactive]

theorem State.takeOutcome_job (h : o.claimant = some .job) {i : SlotId} (hi : s.activeSlot p = some i) :
    s.takeOutcome p o r st =
      ((s.judgedReply p o r st).readOutcome i (outcomeOf (s.port p) o.claim r st)).followUp p := by
  have hactive := (s.judgedReply_activeSlot p o r st).trans hi
  simp only [State.judgedReply] at hactive
  simp only [State.takeOutcome, State.judgedReply, State.handOutcome, h, hactive]

end outcome

end Sys2Proof.Machine
end

section
open Sys2Proof Sys2Proof.Machine

/-- Settles O39: every event comes to work on its port and the end of the step, and neither touches the rest. -/
theorem portEventsLeaveTheRest : Obligations.PortEventsLeaveTheRest := by
  intro p bytes c s t hq hc ht
  obtain ⟨u, hu, he | he⟩ := exec_actsOn hc hq
  · cases he.symm.trans ht
    have hm := hu.moves
    exact ⟨⟨hm.mode, hm.mask, hm.autoRun, hm.resetAsked, hm.pts, hm.siu, hm.supplyLow, hm.resetPin, hm.resetKind,
      hm.portsSet⟩, hm.received, hm.reels, fun o ho => (hu.spares o ho).all⟩
  · cases he.symm.trans ht
    have hm := hu.moves
    have hk := settle_settles u
    obtain ⟨hframer, herror, hqueue⟩ := settle_received u
    obtain ⟨hframer', herror', hqueue'⟩ := hm.received
    exact ⟨⟨hk.mode.trans hm.mode, hk.mask.trans hm.mask, hk.autoRun.trans hm.autoRun,
        hk.resetAsked.trans hm.resetAsked, hk.pts.trans hm.pts, hk.siu.trans hm.siu, hk.supplyLow.trans hm.supplyLow,
        hk.resetPin.trans hm.resetPin, hk.resetKind.trans hm.resetKind, hk.portsSet.trans hm.portsSet⟩,
      ⟨hframer.trans hframer', herror.trans herror', hqueue.trans hqueue'⟩,
      (congrArg _ hk.cat).trans hm.reels, fun o ho => (hu.spares.settle o ho).all⟩

/-- Settles O6: every command keeps OFFLINE ports quiet, and so does a part that idles. -/
theorem stepKeepsOfflinePortsQuiet : Obligations.StepKeepsOfflinePortsQuiet := by
  intro s t h ht
  unfold step at ht
  split at ht
  · cases ht
    exact idle_offlineQuiet h
  · next c rest _ =>
    obtain ⟨u, hu, hquiet⟩ := exec_offlineQuiet c (s := { s with pending := rest }) h
    cases hu.symm.trans ht
    exact hquiet

/-- Settles O22: a port number of 8 or more is refused; else the settings asked for are taken, the delta flags clear, or
nothing changes. -/
theorem portRequestsAnswer : Obligations.PortRequestsAnswer := by
  intro s r
  refine ⟨fun hp => ?_, fun p hp => ?_⟩
  · obtain ⟨hconfig, hstatus, -, hmargin⟩ := portActions_noPort (s := s) hp
    exact ⟨fun h => exec_refuse rfl h hconfig, fun h => exec_refuse rfl h hstatus, fun h => exec_refuse rfl h hmargin⟩
  · refine ⟨fun h => ?_, fun h => exec_perform rfl h (portStatusAction_ok hp),
      fun h => exec_perform rfl h (marginReadAction_ok hp)⟩
    have hc := settingsAsked_eq r.payload
    intro threshold c
    rw [← show settingsAsked r.payload = c from hc]
    exact ⟨settingsAsked_inRange r.payload, exec_perform rfl h (portConfigAction_ok hp)⟩

/-- Settles O23: the checks of the action, and what the port is once it has been brought back. -/
theorem portOnlineBringsBack : Obligations.PortOnlineBringsBack := by
  intro s r h
  refine ⟨fun hp => ?_, fun p hp => ⟨fun hs => ?_, fun hs hf => ?_, fun hs hf => ?_⟩⟩
  · obtain ⟨-, -, honline, -⟩ := portActions_noPort (s := s) hp
    exact exec_refuse rfl h honline
  · exact exec_perform rfl h (portOnlineAction_live hp hs)
  · exact exec_refuse rfl h (portOnlineAction_fault hp hs hf)
  · obtain ⟨q, hq, hstate, hcause, hdelta, hlines, hvolume⟩ := settle_bringOnline s p
    obtain ⟨hcat, hjbu, hpts, hsiu, hmode⟩ := s.bringOnline_frame p
    have hk := settle_settles (s.bringOnline p)
    refine ⟨_, exec_perform rfl h (portOnlineAction_back hp hs hf), ?_⟩
    simp only [State.answer_port, State.answer_cat, State.answer_jbu, State.answer_pts, State.answer_siu,
      State.answer_mode, hq]
    exact ⟨hstate, hcause, hdelta, hlines, fun hm => by rw [hvolume, if_pos hm],
      fun hm => by rw [hvolume, hm, if_neg Bool.false_ne_true], hk.cat.trans hcat, hk.jbu.trans hjbu, hk.pts.trans hpts,
      hk.siu.trans hsiu, hk.mode.trans hmode⟩

/-- Settles O34: a port as it is sampled, and the label read that begins on it with MEDIA high and FAULT low. -/
theorem portSetAtStartUp : Obligations.PortSetAtStartUp := by
  intro q cfg r
  have hr : r = { q.sampled cfg with
    volume := if q.readsLabel then .labelRead else .noMedia, labelClaim := q.readsLabel } := q.startUp_eq cfg
  rw [hr]
  refine ⟨⟨rfl, rfl, rfl, rfl⟩, fun hf => ?_, fun hf => ?_, ⟨rfl, rfl⟩, ⟨rfl, rfl, rfl, rfl, rfl⟩, fun hm hf => ?_,
    fun hno => ?_, rfl, rfl, rfl, rfl⟩
  · simp [Port.sampled, hf]
  · simp [Port.sampled, hf]
  · simp [Port.readsLabel, hm, hf]
  · have hreads : q.readsLabel = false := by
      rcases hno with hm | hf
      · simp [Port.readsLabel, hm]
      · exact Port.readsLabel_of_fault hf
    rw [hreads]
    exact ⟨rfl, rfl⟩

/-- Settles O40: each line event records its line, and then the line's own rule says what the port becomes. -/
theorem lineEventsTakeEffect : Obligations.LineEventsTakeEffect := by
  intro s p hset q after stands
  refine ⟨fun h => ?_, fun h => ?_, fun h => ?_, fun h => ?_, fun h => ?_, fun h => ?_, fun h => ?_, fun h => ?_⟩
  · obtain ⟨t, ht, hafter, hstate, -, hvolume⟩ :=
      s.lineChange_after p (k := .ready) (b := true) hset h (readyRule_lineRule p)
    have hmedia : ((s.recordLine p .ready true).port p).lines.media = q.lines.media := by
      rw [State.recordLine_port_same]
      rfl
    obtain ⟨hs', hv'⟩ := s.recordLine_stands p .ready true
    refine ⟨t, ht, hafter, fun hm hs => ?_, fun hno => ?_⟩
    · rw [hvolume, readyRule_rereads (hmedia.trans hm) (hs'.trans_ne hs)]
      exact (State.rereadLabel_port _ p).2
    · rw [readyRule_nothing (hno.imp hmedia.trans hs'.trans)] at hstate hvolume
      exact ⟨hstate.trans hs', hvolume.trans hv'⟩
  · exact s.lineChange_stands p (k := .ready) hset h .refl
  · obtain ⟨t, ht, hafter, hstate, -, hvolume⟩ :=
      s.lineChange_after p (k := .media) (b := true) hset h (mediaRiseRule_lineRule p)
    obtain ⟨hs', hv'⟩ := s.recordLine_stands p .media true
    refine ⟨t, ht, hafter, fun hs => ?_, fun hs => ?_⟩
    · rw [hvolume, (mediaRules_live (hs'.trans_ne hs)).1]
      exact (State.beginLabel_port _ p).2
    · rw [(mediaRules_offline (hs'.trans hs)).1] at hstate hvolume
      exact ⟨hstate.trans hs', hvolume.trans hv'⟩
  · obtain ⟨t, ht, hafter, hstate, -, hvolume⟩ :=
      s.lineChange_after p (k := .media) (b := false) hset h (mediaFallRule_lineRule p)
    obtain ⟨hs', hv'⟩ := s.recordLine_stands p .media false
    refine ⟨t, ht, hafter, fun hs => ?_, fun hs => ?_⟩
    · rw [hvolume, (mediaRules_live (hs'.trans_ne hs)).2]
      exact (State.loseMedia_port _ p).2
    · rw [(mediaRules_offline (hs'.trans hs)).2] at hstate hvolume
      exact ⟨hstate.trans hs', hvolume.trans hv'⟩
  · exact s.lineChange_stands p (k := .wprot) hset h fun t => (t.clearHold_keeps p).toKeeps
  · exact s.lineChange_stands p (k := .wprot) hset h fun t => ((t.setHold_keeps p false).trans (rpuChoice_keeps _)).toKeeps
  · obtain ⟨t, ht, hafter, hstate, hcause, -⟩ := s.lineChange_after p (k := .fault) (b := true) hset h
      fun t => ⟨t.faultRisen_worksOn p, (t.faultRisen_port p).1⟩
    obtain ⟨-, hoffline, hfault⟩ := (s.recordLine p .fault true).faultRisen_port p
    exact ⟨t, ht, hafter, hstate.trans hoffline, hcause.trans hfault⟩
  · exact s.lineChange_stands p (k := .fault) hset h .refl

/-- Settles O41: GNT raised leaves the claims, of which the handshake issues the first. -/
theorem grantIssuesTheFirstClaim : Obligations.GrantIssuesTheFirstClaim := by
  refine ⟨fun s p hset hgnt => ⟨fun c claim re hg hs ho hn => ?_, fun hg => ?_⟩, fun q => ⟨?_, ?_, ?_, ?_, ?_⟩⟩
  · have hrisen : (s.port p).gntRisen = { s.port p with gnt := true, grant := .granted } := by
      simp only [Port.gntRisen, hg]
    have hissued : (s.port p).gntRisen.handshake = (s.port p).gntRisen.issue c claim re := by
      rw [hrisen]
      exact Port.handshake_issues hs rfl ho hn
    obtain ⟨hgrant, hgnt', hcommand, htag⟩ := (s.port p).gntRisen.issue_command c claim re
    refine ⟨_, exec_gntRise hset hgnt, ?_⟩
    rw [settle_modPort hset, hissued, hgrant, hgnt', hcommand, htag, hrisen]
    exact ⟨rfl, rfl, rfl, rfl⟩
  · have hrisen : (s.port p).gntRisen = { s.port p with gnt := true, grant := .releasing, req := false } := by
      simp only [Port.gntRisen, hg]
    refine ⟨_, exec_gntRise hset hgnt, ?_⟩
    rw [settle_modPort hset, hrisen, Port.handshake_releases rfl fun _ => rfl]
    exact ⟨rfl, rfl, rfl, rfl⟩
  · exact fun c claim => Port.nextClaim_reissue
  · exact Port.nextClaim_label
  · exact fun c => Port.nextClaim_rpu
  · exact fun c => Port.nextClaim_job
  · exact Port.nextClaim_none

/-- Settles O42: the grant is lost, the command out on the link is none, an error or cut, and the handshake then rests or
requests again. -/
theorem grantLost : Obligations.GrantLost := by
  intro s p hset hgnt
  refine ⟨fun ho hrest => ?_, fun ho hc hy hs => ?_, fun o ho hy hs => ?_, fun o ho hy => ?_⟩
  · refine ⟨_, exec_gntFall hset hgnt, ?_⟩
    rw [State.gntFallen_idle ho, settle_setPort hset, Port.handshake_rests (q := (s.port p).gntLost) rfl hrest]
    exact ⟨rfl, rfl, rfl, rfl⟩
  · refine ⟨_, exec_gntFall hset hgnt, ?_⟩
    rw [State.gntFallen_idle ho, settle_setPort hset, Port.handshake_requests (q := (s.port p).gntLost) hs rfl hc hy]
    exact ⟨rfl, rfl, rfl, rfl⟩
  · have hfallen : s.gntFallen p = (s.setPort p ((s.port p).gntLost.errorOf o)).postPortEvent p .port := by
      have hlost := s.port_setPort_same p (s.port p).gntLost
      rw [State.gntFallen_error ho hy, State.portError_normal (o := o) (by rw [hlost]; exact ho) (by rw [hlost]; exact hs),
        hlost, State.setPort_setPort]
    obtain ⟨g, b, hungranted⟩ := Port.handshake_ungranted (q := (s.port p).gntLost.errorOf o) GrantState.noConfusion
    refine ⟨_, exec_gntFall hset hgnt, ?_⟩
    rw [hfallen, settle_setPort_posted hset, hungranted]
    exact ⟨rfl, rfl, rfl, fun c hc => by simp only [Port.errorOf, hc],
      fun hn => by simp only [Port.errorOf, hn]; rfl⟩
  · have hcut := State.gntFallen_cut ho hy
    have hlost : ((s.setPort p (s.port p).gntLost).modPort p Port.finish).port p = (s.port p).gntLost.finish := by
      rw [State.port_modPort_same, State.port_setPort_same]
    have htold := State.tellCut_sameLink ((s.setPort p (s.port p).gntLost).modPort p Port.finish) p o
    rw [hlost, ← hcut] at htold
    obtain ⟨hset', hlink⟩ := htold
    have hrests : ((settle (s.gntFallen p)).port p) = (s.gntFallen p).port p := by
      rw [settle_port (hset'.trans hset)]
      exact Port.handshake_rests hlink.grant (.inr (hlink.yld.trans hy))
    refine ⟨_, exec_gntFall hset hgnt, ?_⟩
    rw [hrests]
    refine ⟨by simpa [Port.finish] using hlink.command, hlink.gnt, hlink.grant, hlink.req, hlink.state, fun hc hs => ?_⟩
    rw [hcut, State.tellCut_rpu hc]
    exact State.rpuCut_rpuClaim o.claim (by rw [hlost]; exact hs)

/-- Settles O43: YLD raised leaves the port without a grant, so that the handshake rests; a job yields or goes on. -/
theorem yieldFollowsYld : Obligations.YieldFollowsYld := by
  intro s p hset
  refine ⟨fun hy => ?_, fun hy => ⟨fun hi => ?_, fun i j hi hj hr => ?_⟩⟩
  · have hkeeps := State.jobYields_keeps (s.modPort p Port.yldRisen) p
    have hset' : ((s.modPort p Port.yldRisen).jobYields p).portsSet = true := hkeeps.portsSet.trans hset
    have hport := hkeeps.port p
    rw [State.port_modPort_same] at hport
    refine ⟨fun hg => ⟨_, exec_yldRise hset hy, ?_⟩, fun hg => ⟨_, exec_yldRise hset hy, ?_⟩, fun i j hi hj hr hp =>
      ⟨_, exec_yldRise hset hy, ?_⟩⟩
    · rw [Port.yldRisen_requesting hg] at hport
      rw [settle_port hset', Port.handshake_rests hport.grant (.inr hport.yld)]
      exact ⟨hport.yld, hport.grant, hport.req⟩
    · rw [Port.yldRisen_granted hg] at hport
      have hreq : (((s.modPort p Port.yldRisen).jobYields p).port p).outstanding = none →
          (((s.modPort p Port.yldRisen).jobYields p).port p).req = false := by
        intro hn
        have hcommand := hport.command
        rw [hn] at hcommand
        exact hport.req.trans hcommand.symm
      rw [settle_port hset', Port.handshake_releases hport.grant hreq]
      exact ⟨hport.yld, hport.grant, hport.req, hport.command⟩
    · obtain ⟨-, hungranted, hpending, -⟩ := (s.port p).yldRisen_frame
      have hyields := State.jobYields_running (s := s.modPort p Port.yldRisen) hi hj hr
        (by rw [State.port_modPort_same, hpending]; exact hp)
      refine ⟨?_, ?_⟩
      · rw [(settle_settles _).slot, hyields, State.post_slot, State.slot_setSlot_same]
      · obtain ⟨g, b, hhandshake⟩ := Port.handshake_ungranted (hport.grant.trans_ne hungranted)
        rw [settle_port hset', hhandshake]
        show (((s.modPort p Port.yldRisen).jobYields p).port p).jobPending = false
        rw [hyields, State.post_port, State.setSlot_port, State.port_modPort_same]
        exact Port.withdraw_jobPending _
  · refine ⟨_, exec_yldFall hset hy, ?_⟩
    rw [State.jobUnyields_none (s := s.modPort p _) hi]
    exact ⟨((settle_settles _).port p).yld.trans (by rw [State.port_modPort_same]), (settle_settles _).jbu⟩
  · rw [exec_yldFall hset hy, State.jobUnyields_yielded (s := s.modPort p _) hi hj hr]

/-- Settles O44: a port error in NORMAL, and in RECOVERY the OFFLINE that fails every job of the port. -/
theorem timeoutEscalates : Obligations.TimeoutEscalates := by
  intro s p o ho
  refine ⟨fun hs => ?_, fun hs => ?_⟩
  · rw [exec_commandTimeout ho, State.portError_normal ho hs]
    rfl
  · obtain ⟨hstate, hcause, hquiet, hended⟩ := (s.setPort p (s.port p).finish).enterOffline_spec p .escalation
    rw [← State.portError_recovery ho hs] at hstate hcause hquiet hended
    have hk := settle_settles (s.portError p)
    refine ⟨_, exec_commandTimeout ho, ?_⟩
    rw [(hk.port p).offline hstate]
    exact ⟨hstate, hcause, hquiet, fun i j hj => hended i j (hk.slot i ▸ hj)⟩

/-- Settles O45: a reply is judged by R41 and R43, and its bytes are those of Table 11-12. -/
theorem repliesJudged : Obligations.RepliesJudged := by
  unfold Obligations.RepliesJudged
  refine ⟨fun s p bytes => ⟨exec_driveReply_incomplete, fun r hb => ⟨exec_driveReply_unasked hb, fun o ho =>
      ⟨exec_driveReply_otherTag hb ho, fun ht herr => ?_, fun st ht hst hne => ?_⟩⟩⟩,
    fun tag status corrected offsets data => DriveReply.ofBytes_bytes ⟨tag, status, corrected, offsets, data⟩,
    fun c r => ⟨?_, fun st hst => ?_⟩,
    fun q c r st => ⟨rfl, rfl, fun form hc => ?_, fun w hc => ?_⟩⟩
  · rw [exec_driveReply_taken hb ho ht, State.takeReply_error herr]
  · rw [exec_driveReply_taken hb ho ht, State.takeReply_outcome hst hne]
    intro done judged fed outcome
    have hfed : s.judgedReply p o r st = fed := by
      unfold State.judgedReply State.feedReply feedsMargin
      rw [State.returnToNormal_finish]
      subst fed
      cases o.claim.transfer <;> cases st <;> rfl
    rw [← hfed]
    exact ⟨fun h => by rw [State.takeOutcome_orphan h],
      fun h => by rw [State.takeOutcome_label h],
      fun h => by rw [State.takeOutcome_rpu h],
      fun h => ⟨fun hn => by rw [State.takeOutcome_noJob h hn], fun i hi => by rw [State.takeOutcome_job h hi]⟩⟩
  · exact replyStatus_eq_none
  · have hn := DriveStatus.code_of_ofByte (ofByte_of_replyStatus hst)
    cases st <;> exact hn
  · unfold outcomeOf
    rw [hc]
    exact ⟨rfl, rfl, rfl, rfl⟩
  · unfold outcomeOf
    rw [hc]
    exact ⟨rfl, rfl⟩

end

section
/-! SUPPORT. At most one active job on each port (R66) under every command: units' work keeps it so, events come to such
work, and most requests leave JBU as it is. -/

namespace Sys2Proof.Machine

open Sys2Proof

/-! ### What keeps it -/

/-- A state that may follow `s` where at most one job is active on each port (R66). -/
def State.SparesActive (s t : State) : Prop := s.OneActive → t.OneActive

namespace State.SparesActive

variable {s t u : State}

theorem of_jbu (h : t.jbu = s.jbu) : s.SparesActive t := State.oneActive_of_jbu h

theorem trans (h : s.SparesActive t) (k : t.SparesActive u) : s.SparesActive u := k ∘ h

theorem settle (h : s.SparesActive t) : s.SparesActive (settle t) := h.trans (settle_settles t).oneActive

end State.SparesActive

theorem State.Keeps.sparesActive {s t : State} (h : s.Keeps t) : s.SparesActive t := h.active

theorem State.Moves.sparesActive {s t : State} (h : s.Moves t) : s.SparesActive t := h.active

/-- With every slot FREE no job is active. -/
theorem State.oneActive_of_free {s : State} (h : s.jbu = Jbu.cleared) : s.OneActive := by
  intro i k j l hi
  have hfree : s.slot i = none := by simp [State.slot, h, Jbu.cleared]
  rw [hfree] at hi
  cases hi

/-! ### Requests that leave JBU as it is -/

/-- A request keeps what its action and every reply keep. -/
theorem State.runRequest_leaves {P : State → Prop} {s : State} {k : RequestKind} {act : List Byte → State → Action}
    (hreply : ∀ (t : State) (st : Status) (p : List Byte), P t → P (t.answer st p)) (h : P s)
    (ha : ∀ r, s.Takes k r → (act r.payload s).Leaves P) : P (s.runRequest k act) := by
  rcases s.runRequest_cases k act with e | ⟨st, e⟩ | ⟨r, t, st, p, hr, hp, e⟩
  · rw [e]; exact h
  · rw [e]; exact hreply s st [] h
  · rw [e]
    have ht := ha r hr
    rw [hp] at ht
    exact hreply t st p ht

theorem Action.Leaves.imp {P Q : State → Prop} {a : Action} (h : a.Leaves P) (hpq : ∀ t, P t → Q t) : a.Leaves Q := by
  cases a with
  | refuse => trivial
  | perform t => exact hpq t h

/-- The same slots, counters and orders of JBU. -/
def State.SameJobs (s t : State) : Prop := t.jbu = s.jbu

section sameJobs

variable (p : List Byte) (s : State)

theorem convertAction_sameJobs : (convertAction p s).Leaves s.SameJobs := by
  simp only [convertAction]
  split
  · trivial
  · split
    · trivial
    · split
      · split
        exacts [trivial, rfl]
      · split
        exacts [rfl, trivial]

theorem portConfigAction_sameJobs : (portConfigAction p s).Leaves s.SameJobs := by
  unfold portConfigAction
  split
  exacts [trivial, rfl]

theorem portStatusAction_sameJobs : (portStatusAction p s).Leaves s.SameJobs := by
  unfold portStatusAction
  split
  exacts [trivial, rfl]

theorem portOnlineAction_sameJobs : (portOnlineAction p s).Leaves s.SameJobs := by
  unfold portOnlineAction
  split
  · trivial
  · split
    · rfl
    · split
      · trivial
      · obtain ⟨-, hjbu, -⟩ := s.bringOnline_frame ‹PortId›
        exact (settle_settles _).jbu.trans hjbu

theorem marginReadAction_sameJobs : (marginReadAction p s).Leaves s.SameJobs := by
  unfold marginReadAction
  split
  exacts [trivial, rfl]

theorem addReelAction_sameJobs : (addReelAction p s).Leaves s.SameJobs := by
  simp only [addReelAction]
  split
  · trivial
  · split
    · trivial
    · split
      · trivial
      · split
        exacts [trivial, rfl]

theorem editReelAction_sameJobs : (editReelAction p s).Leaves s.SameJobs := by
  simp only [editReelAction]
  split
  · trivial
  · split
    exacts [trivial, rfl]

theorem removeReelAction_sameJobs : (removeReelAction p s).Leaves s.SameJobs := by
  unfold removeReelAction
  split
  exacts [trivial, rfl]

theorem readReelAction_sameJobs : (readReelAction p s).Leaves s.SameJobs := by
  unfold readReelAction
  split
  exacts [trivial, rfl]

theorem listReelsAction_sameJobs : (listReelsAction p s).Leaves s.SameJobs := by
  simp only [listReelsAction]
  split
  exacts [trivial, rfl]

theorem freezeReelAction_sameJobs : (freezeReelAction p s).Leaves s.SameJobs := by
  unfold freezeReelAction
  split
  · trivial
  · split
    exacts [trivial, rfl]

theorem storeAction_sameJobs : (storeAction p s).Leaves s.SameJobs := by
  unfold storeAction
  split
  exacts [trivial, rfl]

theorem restoreFactoryAction_sameJobs : (restoreFactoryAction p s).Leaves s.SameJobs := by
  obtain ⟨-, -, hjbu, -⟩ := s.restored_frame
  unfold restoreFactoryAction
  split
  · trivial
  · split
    exacts [trivial, hjbu]

theorem lockAction_sameJobs (b : Bool) : (lockAction b p s).Leaves s.SameJobs := by
  unfold lockAction
  split
  · trivial
  · split
    exacts [rfl, (settle_settles _).jbu.trans (s.lockReel_keeps _ b).jbu]

theorem lockAllAction_sameJobs (b : Bool) : (lockAllAction b p s).Leaves s.SameJobs :=
  (settle_settles _).jbu.trans (s.lockEvery_keeps b).jbu

theorem readDefectsAction_sameJobs : (readDefectsAction p s).Leaves s.SameJobs := by
  simp only [readDefectsAction]
  split
  exacts [trivial, rfl]

theorem State.retryRecord_jbu (r : Record) : (s.retryRecord r).jbu = s.jbu := by
  simp only [State.retryRecord]
  split
  · exact (settle_settles _).jbu.trans (rpuChoice_keeps _).jbu
  · exact (settle_settles _).jbu

theorem retryDefectAction_sameJobs : (retryDefectAction p s).Leaves s.SameJobs := by
  unfold retryDefectAction
  split
  · trivial
  · split
    · trivial
    · split
      · trivial
      · split
        exacts [trivial, s.retryRecord_jbu _]

end sameJobs

/-! ### Requests on which jobs are created, resumed, suspended or ended -/

section sparesActive

variable (p : List Byte) (s : State)

theorem setModeAction_sparesActive : (setModeAction p s).Leaves s.SparesActive := by
  have hrun : ∀ a, s.SparesActive (s.setRun a) := by
    intro a
    simp only [State.setRun]
    split
    · exact .of_jbu rfl
    · exact (evaluateAll_keeps { s with autoRun := a, mode := .run }).sparesActive.trans
        (rpuChoice_keeps _).sparesActive |>.settle
  simp only [setModeAction]
  split
  · trivial
  · split
    · trivial
    · split
      · split
        exacts [trivial, .of_jbu rfl]
      · exact hrun _

theorem setTimeAction_sparesActive : (setTimeAction p s).Leaves s.SparesActive :=
  (evaluateAll_keeps (s.setClock _)).sparesActive.settle

theorem setPatrolAction_sparesActive : (setPatrolAction p s).Leaves s.SparesActive := by
  simp only [setPatrolAction]
  split
  · trivial
  · split
    · split
      · trivial
      · split
        exacts [.of_jbu rfl, (evaluateAll_keeps (s.setPatrol true)).sparesActive.settle]
    · exact .of_jbu rfl

/-- A job created by a request (R88, R89), in RUN. -/
theorem State.startJob_sparesActive (hm : s.mode = .run) (i : SlotId) {j : Job} (hj : j.state = .queued) :
    s.SparesActive (s.startJob i j) :=
  ((s.createJob_keeps i j hm hj).trans (State.followUp_keeps _ _)).sparesActive.settle

theorem startScrubAction_sparesActive (hm : s.mode = .run) : (startScrubAction p s).Leaves s.SparesActive := by
  unfold startScrubAction
  split
  · trivial
  · split
    · trivial
    · split
      · trivial
      · split
        · trivial
        · split
          · trivial
          · split
            exacts [trivial, s.startJob_sparesActive hm _ (newJob_state _ _ _ _ _ _ _)]

theorem startVerifyAction_sparesActive (hm : s.mode = .run) : (startVerifyAction p s).Leaves s.SparesActive := by
  unfold startVerifyAction
  split
  · trivial
  · split
    · trivial
    · split
      · trivial
      · split
        exacts [trivial, s.startJob_sparesActive hm _ (newJob_state _ _ _ _ _ _ _)]

theorem suspendJobAction_sparesActive : (suspendJobAction p s).Leaves s.SparesActive := by
  unfold suspendJobAction
  split
  · trivial
  · next i j hj =>
    split
    · exact .of_jbu rfl
    · split
      · trivial
      · next hrun =>
        split
        · trivial
        · have ha : s.ActiveAt i := ⟨j, State.jobNamed_slot hj, by rw [not_not.mp hrun]; rfl⟩
          exact (s.suspend_keeps i j ha).sparesActive.settle

theorem resumeJobAction_sparesActive : (resumeJobAction p s).Leaves s.SparesActive := by
  unfold resumeJobAction
  split
  · trivial
  · next i j hj =>
    split
    · trivial
    · next hsus =>
      have hl : s.LiveAt i := by
        intro k hk
        rw [State.jobNamed_slot hj] at hk
        cases hk
        rw [not_not.mp hsus]
        rfl
      exact (s.resume_keeps i j hl).sparesActive.settle

theorem abortJobAction_sparesActive : (abortJobAction p s).Leaves s.SparesActive := by
  unfold abortJobAction
  split
  · trivial
  · split
    exacts [trivial, (s.abort_keeps _ _).sparesActive.settle]

theorem jobStatusAction_sparesActive : (jobStatusAction p s).Leaves s.SparesActive := by
  unfold jobStatusAction
  split
  · trivial
  · next i j _ =>
    show s.SparesActive (if j.state.terminal then s.setSlot i none else s)
    split
    exacts [(s.freeSlot_keeps i).sparesActive, .of_jbu rfl]

theorem removeDefectAction_sparesActive : (removeDefectAction p s).Leaves s.SparesActive := by
  unfold removeDefectAction
  split
  · trivial
  · split
    · exact ((State.admission_keeps (s.dropRecord _)).trans (State.evaluate_keeps _ _)).sparesActive.settle
    · trivial

end sparesActive

/-! ### Events of a drive port -/

section events

variable (s : State) (p : PortId)

theorem State.settleLabel_sparesActive (o : DriveOutcome) : s.SparesActive (s.settleLabel p o) :=
  (s.settleLabel_keeps p o).sparesActive

theorem State.handOutcome_sparesActive (c : Option Claimant) (o : DriveOutcome) :
    s.SparesActive (s.handOutcome p c o) := by
  unfold State.handOutcome
  split
  · exact .of_jbu rfl
  · exact s.settleLabel_sparesActive p o
  · exact (s.rpuOutcome_keeps p o).sparesActive
  · split
    · exact .of_jbu rfl
    · next i hi =>
      exact ((s.readOutcome_keeps i o (State.activeSlot_activeAt hi)).trans (State.followUp_keeps _ p)).sparesActive

theorem State.takeReply_sparesActive (o : Outstanding) (r : DriveReply) : s.SparesActive (s.takeReply p o r) := by
  unfold State.takeReply
  split
  · exact (s.portError_moves p).sparesActive
  · exact (s.portError_moves p).sparesActive
  · exact (((s.finish_moves p).trans (State.returnToNormal_moves _ p)).trans
      (State.feedReply_moves _ p _ _ _)).sparesActive.trans (State.handOutcome_sparesActive _ p _ _)

theorem execDriveReply_sparesActive (bytes : List Byte) :
    ∃ t, execDriveReply p bytes s = .next t ∧ s.SparesActive t := by
  refine ⟨_, rfl, ?_⟩
  split
  · exact .of_jbu rfl
  · unfold State.offerReply
    split
    · exact .of_jbu rfl
    · split
      exacts [(s.takeReply_sparesActive p _ _).settle, .of_jbu rfl]

/-- The claimant of a cut command is told (R48): of the jobs only the active one of the port is touched. -/
theorem State.tellCut_sparesActive (o : Outstanding) : s.SparesActive (s.tellCut p o) := by
  unfold State.tellCut
  split
  · exact .of_jbu rfl
  · split <;> exact .of_jbu rfl
  · exact (s.rpuCut_keeps p _).sparesActive
  · split
    · exact .of_jbu rfl
    · next i hi =>
      have ha := State.activeSlot_activeAt hi
      split
      · exact .of_jbu rfl
      · split
        · exact ((s.modJob_keeps i (fun j => { j with state := .suspended })
            (fun k hk => Job.Tame.ofLive rfl (ha.live k hk) rfl)).trans (State.followUp_keeps _ p)).sparesActive
        · exact ((s.enterWaiting_active_keeps i _ ha).trans (State.followUp_keeps _ p)).sparesActive

theorem State.gntFallen_sparesActive : s.SparesActive (s.gntFallen p) := by
  simp only [State.gntFallen]
  split
  · exact .of_jbu rfl
  · split
    · refine State.SparesActive.trans ?_ (State.tellCut_sparesActive _ p _)
      exact .of_jbu rfl
    · refine State.SparesActive.trans ?_ (State.portError_moves _ p).sparesActive
      exact .of_jbu rfl

theorem execGntFall_sparesActive : ∃ t, execGntFall p s = .next t ∧ s.SparesActive t := by
  refine ⟨_, rfl, ?_⟩
  split
  · exact .of_jbu rfl
  · split
    exacts [(s.gntFallen_sparesActive p).settle, .of_jbu rfl]

/-- An event that comes to work on its port. -/
theorem State.ActsOn.sparesActive {o : Host.Outcome State Fault Refusal} (h : s.ActsOn p o) :
    ∃ t, o = .next t ∧ s.SparesActive t := by
  obtain ⟨u, hu, rfl | rfl⟩ := h
  · exact ⟨u, rfl, hu.moves.sparesActive⟩
  · exact ⟨settle u, rfl, hu.moves.sparesActive.settle⟩

end events

/-! ### Resets, start-up and the timers -/

theorem State.finishStartUp_sparesActive (s : State) : s.SparesActive s.finishStartUp := by
  have hposted : ∀ (u : State) (n : Notice), (takePosted (u.post n)).jbu = u.jbu := by
    intro u n
    rw [takePosted_frame]
    exact State.post_jbu u n
  have hloaded : s.SparesActive (takePosted
      (State.post { s with mode := s.startMode } (startUpNotice { s with mode := s.startMode }))) :=
    .of_jbu (hposted _ _)
  simp only [State.finishStartUp]
  generalize takePosted _ = t at hloaded ⊢
  split
  · exact hloaded.trans ((evaluateAll_keeps { t with pts := { t.pts with timerRunning := true } }).trans
      (rpuChoice_keeps _).toKeeps).sparesActive
  · exact hloaded

theorem execStartUpEnd_sparesActive (s : State) : ∃ t, execStartUpEnd s = .next t ∧ s.SparesActive t := by
  refine ⟨_, rfl, ?_⟩
  split
  · have hload : s.SparesActive (if s.portsSet then s else s.startUpLoad) := by
      split
      exacts [.of_jbu rfl, fun _ => State.oneActive_of_free rfl]
    exact (hload.trans (State.finishStartUp_sparesActive _)).settle
  · exact .of_jbu rfl

theorem execStoreEnds_sparesActive (finish : StoreFinish) (s : State) :
    ∃ t, execStoreEnds finish s = .next t ∧ s.SparesActive t := by
  refine ⟨_, rfl, ?_⟩
  split
  · exact .of_jbu rfl
  · exact State.SparesActive.settle (.of_jbu (State.post_jbu _ _))

theorem execMinuteExpiry_sparesActive (s : State) : ∃ t, execMinuteExpiry s = .next t ∧ s.SparesActive t := by
  refine ⟨_, rfl, ?_⟩
  split
  · exact (evaluateAll_keeps { s with pts := s.pts.expire }).sparesActive.settle
  · exact .of_jbu rfl

/-! ### Every command -/

/-- Every command keeps at most one active job on each port (R66). -/
theorem exec_sparesActive (c : Instr) (s : State) : ∃ t, exec c s = .next t ∧ s.SparesActive t := by
  have request : ∀ {k act}, (∀ r, s.Takes k r → (act r.payload s).Leaves s.SparesActive) →
      ∃ t, Host.Outcome.next (s.runRequest k act) = (.next t : Host.Outcome State Fault Refusal) ∧ s.SparesActive t :=
    fun ha => ⟨_, rfl, State.runRequest_leaves (P := s.SparesActive) (fun _ _ _ h => h) (.of_jbu rfl) ha⟩
  have sparing : ∀ {k act}, (∀ p, (act p s).Leaves s.SameJobs) →
      ∃ t, Host.Outcome.next (s.runRequest k act) = (.next t : Host.Outcome State Fault Refusal) ∧ s.SparesActive t :=
    fun ha => request fun _ _ => (ha _).imp fun _ => .of_jbu
  cases c with
  | powerOnResetAssert | resetPinAssert =>
    refine ⟨_, rfl, ?_⟩
    split
    exacts [.of_jbu rfl, fun _ => State.oneActive_of_free rfl]
  | powerOnResetRelease | resetPinRelease => exact ⟨_, rfl, .of_jbu rfl⟩
  | frameSent =>
    refine ⟨_, rfl, ?_⟩
    split
    exacts [fun _ => State.oneActive_of_free rfl, .of_jbu rfl]
  | startUpEnd => exact execStartUpEnd_sparesActive s
  | receiveFrame | badByteInHunt | gapTimerExpiry => exact ⟨_, rfl, .of_jbu (by split <;> rfl)⟩
  | unknownRequest =>
    refine ⟨_, rfl, .of_jbu ?_⟩
    split
    · rfl
    · split
      · split <;> rfl
      · rfl
  | storeEnds finish => exact execStoreEnds_sparesActive finish s
  | minuteExpiry => exact execMinuteExpiry_sparesActive s
  | identify | status | setNotices | reset => exact sparing fun _ => rfl
  | convert => exact sparing (convertAction_sameJobs · s)
  | portConfig => exact sparing (portConfigAction_sameJobs · s)
  | portStatus => exact sparing (portStatusAction_sameJobs · s)
  | portOnline => exact sparing (portOnlineAction_sameJobs · s)
  | marginRead => exact sparing (marginReadAction_sameJobs · s)
  | addReel => exact sparing (addReelAction_sameJobs · s)
  | editReel => exact sparing (editReelAction_sameJobs · s)
  | removeReel => exact sparing (removeReelAction_sameJobs · s)
  | readReel => exact sparing (readReelAction_sameJobs · s)
  | listReels => exact sparing (listReelsAction_sameJobs · s)
  | freezeReel => exact sparing (freezeReelAction_sameJobs · s)
  | store => exact sparing (storeAction_sameJobs · s)
  | restoreFactory => exact sparing (restoreFactoryAction_sameJobs · s)
  | lockReel | unlockReel => exact sparing (lockAction_sameJobs · s _)
  | lockAll | unlockAll => exact sparing (lockAllAction_sameJobs · s _)
  | readDefects => exact sparing (readDefectsAction_sameJobs · s)
  | retryDefect => exact sparing (retryDefectAction_sameJobs · s)
  | setMode => exact request fun _ _ => setModeAction_sparesActive _ s
  | setTime => exact request fun _ _ => setTimeAction_sparesActive _ s
  | setPatrol => exact request fun _ _ => setPatrolAction_sparesActive _ s
  | startScrub => exact request fun _ hr => startScrubAction_sparesActive _ s (hr.run (.inl rfl))
  | startVerify => exact request fun _ hr => startVerifyAction_sparesActive _ s (hr.run (.inr rfl))
  | suspendJob => exact request fun _ _ => suspendJobAction_sparesActive _ s
  | resumeJob => exact request fun _ _ => resumeJobAction_sparesActive _ s
  | abortJob => exact request fun _ _ => abortJobAction_sparesActive _ s
  | jobStatus => exact request fun _ _ => jobStatusAction_sparesActive _ s
  | removeDefect => exact request fun _ _ => removeDefectAction_sparesActive _ s
  | driveReply p bytes => exact execDriveReply_sparesActive s p bytes
  | gntFall p => exact execGntFall_sparesActive s p
  | commandTimeout p => exact (execCommandTimeout_actsOn s p).sparesActive
  | readyRise p => exact (execReadyRise_actsOn s p).sparesActive
  | mediaRise p => exact (execMediaRise_actsOn s p).sparesActive
  | mediaFall p => exact (execMediaFall_actsOn s p).sparesActive
  | wprotFall p => exact (execWprotFall_actsOn s p).sparesActive
  | gntRise p => exact (execGntRise_actsOn s p).sparesActive
  | yldRise p => exact (execYldRise_actsOn s p).sparesActive
  | yldFall p => exact (execYldFall_actsOn s p).sparesActive
  | readyFall p => exact (s.lineChange_actsOn p .ready false (.refl p)).sparesActive
  | faultFall p => exact (s.lineChange_actsOn p .fault false (.refl p)).sparesActive
  | wprotRise p =>
    exact (s.lineChange_actsOn p .wprot true fun t => (t.clearHold_keeps p).toKeeps.worksOn p).sparesActive
  | faultRise p => exact (s.lineChange_actsOn p .fault true fun t => t.faultRisen_worksOn p).sparesActive

/-- A part that idles has at most one active job on each port, be it that it takes steps 2 to 4 of R187 (log 4). -/
theorem idle_sparesActive (s : State) : s.SparesActive (idle s) := by
  unfold idle
  split
  · exact State.SparesActive.settle fun _ => State.oneActive_of_free rfl
  · exact .of_jbu rfl

end Sys2Proof.Machine
end

section
/-! SUPPORT. Ids not in use (R64, R101), the creation of a job (R64, R67, R69), and the head of a queue (R70). -/

namespace Sys2Proof.Machine

open Sys2Proof

/-! ### Ids not in use -/

/-- The ids from `n` on, 1 after 65,535. -/
theorem nextIdAfter_iterate {n : Nat} (h1 : 1 ≤ n) (h2 : n ≤ 65535) (k : Nat) :
    nextIdAfter^[k] n = (n - 1 + k) % 65535 + 1 := by
  induction k with
  | zero => simp only [Function.iterate_zero, id_eq]; omega
  | succ k ih =>
    rw [Function.iterate_succ_apply', ih]
    unfold nextIdAfter
    split <;> simp only [Config.word16Max] at * <;> omega

/-- The search stops at the first id not in use, or at the end of its fuel. -/
theorem freeId_spec (inUse : List Nat) (fuel : Nat) : ∀ n, ∃ k, freeId inUse fuel n = nextIdAfter^[k] n ∧
    (∀ m < k, nextIdAfter^[m] n ∈ inUse) ∧ (k = fuel ∨ nextIdAfter^[k] n ∉ inUse) := by
  induction fuel with
  | zero => exact fun n => ⟨0, rfl, by simp, .inl rfl⟩
  | succ fuel ih =>
    intro n
    by_cases hn : n ∈ inUse
    · obtain ⟨k, hk, hbefore, hend⟩ := ih (nextIdAfter n)
      refine ⟨k + 1, by simpa [freeId, hn] using hk, fun m hm => ?_, by simpa using hend⟩
      cases m with
      | zero => exact hn
      | succ m => exact hbefore m (by omega)
    · exact ⟨0, by simp [freeId, hn], by simp, .inr hn⟩

section freeId

variable {inUse : List Nat} {n : Nat} (h1 : 1 ≤ n) (h2 : n ≤ 65535)
include h1 h2

theorem freeId_range (fuel : Nat) : 1 ≤ freeId inUse fuel n ∧ freeId inUse fuel n ≤ 65535 := by
  obtain ⟨k, hk, -⟩ := freeId_spec inUse fuel n
  rw [hk, nextIdAfter_iterate h1 h2]
  omega

/-- Fewer than 65,535 ids cannot be all of them: the search finds one not in use. -/
theorem freeId_not_mem (hl : inUse.length < 65535) : freeId inUse inUse.length n ∉ inUse := by
  obtain ⟨k, hk, hbefore, hend⟩ := freeId_spec inUse inUse.length n
  rw [hk]
  intro hmem
  obtain rfl : k = inUse.length := hend.resolve_right (not_not_intro hmem)
  have hall : (List.range (inUse.length + 1)).map (fun m => nextIdAfter^[m] n) ⊆ inUse := by
    intro x hx
    obtain ⟨m, hm, rfl⟩ := List.mem_map.mp hx
    rcases Nat.lt_or_eq_of_le (Nat.lt_succ_iff.mp (List.mem_range.mp hm)) with hlt | rfl
    · exact hbefore m hlt
    · exact hmem
  have hdistinct : ((List.range (inUse.length + 1)).map (fun m => nextIdAfter^[m] n)).Nodup := by
    refine List.Nodup.map_on (fun a ha b hb hab => ?_) List.nodup_range
    rw [List.mem_range] at ha hb
    simp only [nextIdAfter_iterate h1 h2] at hab
    omega
  have hle := (List.subperm_of_subset hdistinct hall).length_le
  simp at hle

end freeId

theorem freeId_of_not_mem {inUse : List Nat} {n : Nat} (h : n ∉ inUse) (fuel : Nat) : freeId inUse fuel n = n := by
  cases fuel with
  | zero => rfl
  | succ fuel => simp [freeId, h]

theorem State.mem_jobIds (s : State) (n : Nat) : n ∈ s.jobIds ↔ ∃ k j, s.slot k = some j ∧ j.id = n := by
  simp only [State.jobIds, List.mem_filterMap, Option.map_eq_some_iff]
  exact exists_congr fun k => ⟨fun ⟨_, h⟩ => h, fun h => ⟨mem_allSlots k, h⟩⟩

theorem State.jobIds_length (s : State) : s.jobIds.length < 65535 :=
  Nat.lt_of_le_of_lt (List.length_filterMap_le _ allSlots) (by decide)

/-- The ids that a job in slot `i` may not take are those of the other slots (R64, R67). -/
theorem State.mem_jobIds_freed (s : State) (i : SlotId) (n : Nat) :
    n ∈ (s.setSlot i none).jobIds ↔ ∃ k j, k ≠ i ∧ s.slot k = some j ∧ j.id = n := by
  rw [State.mem_jobIds]
  refine exists_congr fun k => exists_congr fun j => ?_
  by_cases hk : k = i
  · subst hk; simp
  · simp [State.slot_setSlot_ne s none hk, hk]

/-! ### Creation (R64, R67, R69) -/

@[simp] theorem Job.bind_id (j : Job) (v : VolumeState) : (j.bind v).id = j.id := by
  unfold Job.bind
  split <;> rfl

/-- A job created without its media waits in its slot (R85, R88, R89). -/
theorem State.createJob_waits {s : State} {j : Job} (i : SlotId) (hm : s.mediaReady j = false) :
    s.createJob i j = (({ s with jbu := { s.jbu with nextId := nextIdAfter j.id } } : State).setSlot i
      (some (j.bind (s.port j.port).volume))).enterWaitMedia i := by
  have hm' : ({ s with jbu := { s.jbu with nextId := nextIdAfter j.id } } : State).mediaReady j = false := hm
  unfold State.createJob
  dsimp only
  rw [hm']
  rfl

/-- Creating a job leaves every other slot as it is. -/
theorem State.createJob_other {s : State} {i k : SlotId} (j : Job) (hs : s.jbu.sequence < 4294967295) (hk : k ≠ i) :
    (s.createJob i j).slot k = s.slot k := by
  cases hm : s.mediaReady j with
  | true =>
    rw [State.createJob_ready i hs hm]
    exact State.slot_setSlot_ne _ _ hk
  | false =>
    obtain ⟨-, hother, -⟩ := State.enterWaitMedia_spec (State.slot_setSlot_same
      ({ s with jbu := { s.jbu with nextId := nextIdAfter j.id } } : State) i (some (j.bind (s.port j.port).volume)))
    rw [State.createJob_waits i hm]
    exact (hother k hk).trans (State.slot_setSlot_ne _ _ hk)

/-! ### The head of a queue (R70) -/

/-- A job's place in a queue: REQUESTED before PATROL, then by queue sequence (R70). -/
def Job.queuePlace (j : Job) : Nat ×ₗ Nat :=
  toLex (match j.origin with
    | .requested => 0
    | .patrol => 1, j.sequence)

theorem Job.ahead_iff (j k : Job) : j.ahead k = true ↔ j.queuePlace < k.queuePlace := by
  simp only [Job.queuePlace, Prod.Lex.toLex_lt_toLex, Job.ahead]
  cases j.origin <;> cases k.origin <;> simp

/-- Whether the job in slot `i` stands ahead of the one in slot `k`. -/
def State.slotAhead (s : State) (i k : SlotId) : Bool :=
  match s.slot i, s.slot k with
  | some j, some l => j.ahead l
  | _, _ => false

theorem State.slotAhead_of_slots {s : State} {i k : SlotId} {j l : Job} (hi : s.slot i = some j)
    (hk : s.slot k = some l) : s.slotAhead i k = j.ahead l := by simp [State.slotAhead, hi, hk]

theorem State.slotAhead_iff {s : State} {i k : SlotId} {j l : Job} (hi : s.slot i = some j) (hk : s.slot k = some l) :
    s.slotAhead i k = true ↔ j.queuePlace < l.queuePlace := by
  rw [State.slotAhead_of_slots hi hk, Job.ahead_iff]

theorem State.slotAhead_eq_false {s : State} {i k : SlotId} {j l : Job} (hi : s.slot i = some j)
    (hk : s.slot k = some l) : s.slotAhead i k = false ↔ l.queuePlace ≤ j.queuePlace := by
  rw [← not_lt, ← State.slotAhead_iff hi hk, Bool.not_eq_true]

/-- No QUEUED job of the port stands ahead of the head of its queue (R70). -/
theorem State.queueHead_first {s : State} {p : PortId} {i k : SlotId} {j l : Job} (h : s.queueHead p = some i)
    (hj : s.slot i = some j) (hl : s.slot k = some l) (hq : l.state = .queued) (hp : l.port = p) :
    l.ahead j = false := by
  have hk : k ∈ s.queuedSlots p := State.slotsWhere_mem hl (by simp [hq, hp])
  unfold State.queueHead at h
  split at h
  · cases h
  · next first rest hlist =>
    have hok : ∀ x ∈ first :: rest, ∃ m, s.slot x = some m := fun x hx => by
      obtain ⟨m, hm, -⟩ := State.mem_slotsWhere (hlist ▸ hx)
      exact ⟨m, hm⟩
    obtain ⟨-, hleast⟩ := foldl_least s.slotAhead s.aheadOf (fun x => ∃ m, s.slot x = some m)
      (fun a b ⟨m, ha⟩ ⟨n, hb⟩ => by simp [State.aheadOf, State.slotAhead, ha, hb])
      (fun a b c ⟨l, ha⟩ ⟨m, hb⟩ ⟨n, hc⟩ => by
        rw [State.slotAhead_iff hb ha, State.slotAhead_iff hc hb, State.slotAhead_iff hc ha]
        exact fun hab hbc => hbc.trans hab)
      (fun a b c ⟨l, ha⟩ ⟨m, hb⟩ ⟨n, hc⟩ => by
        rw [State.slotAhead_eq_false hb ha, State.slotAhead_eq_false hc hb, State.slotAhead_eq_false hc ha]
        exact fun hab hbc => hab.trans hbc)
      (fun a => by
        cases ha : s.slot a with
        | none => simp [State.slotAhead, ha]
        | some m => exact (State.slotAhead_eq_false ha ha).mpr le_rfl)
      rest first (hok first (by simp)) (fun x hx => hok x (by simp [hx]))
    rw [Option.some.inj h] at hleast
    rw [← State.slotAhead_of_slots hl hj]
    exact hleast k (hlist ▸ hk)

theorem Job.ahead_eq_false {j k : Job} (h : j.ahead k = false) :
    ¬ (j.origin = .requested ∧ k.origin = .patrol) ∧ ¬ (j.origin = k.origin ∧ j.sequence < k.sequence) := by
  unfold Job.ahead at h
  constructor
  · rintro ⟨hj, hk⟩
    simp [hj, hk] at h
  · rintro ⟨ho, hlt⟩
    cases hk : k.origin <;> simp [ho, hk, hlt] at h

end Sys2Proof.Machine
end

section
/-! SUPPORT. What the requests that name a job come to (R90 to R94): their checks one by one, and what becomes of it. -/

namespace Sys2Proof.Machine

open Sys2Proof

/-! ### What becomes of the job -/

theorem State.withdrawJob_frame (s : State) (j : Job) :
    (s.withdrawJob j).jbu = s.jbu ∧ (s.withdrawJob j).dfl = s.dfl ∧ (s.withdrawJob j).cat = s.cat := by
  unfold State.withdrawJob
  split <;> exact ⟨rfl, rfl, rfl⟩

/-- An active job's claim withdrawn is pending no more (R50). -/
theorem State.withdrawJob_jobPending (s : State) {j : Job} (ha : j.state.active = true) :
    ((s.withdrawJob j).port j.port).jobPending = false := by
  rw [State.withdrawJob, if_pos ha, State.port_modPort_same]
  exact Port.withdraw_jobPending _

section named

variable {s : State} {i : SlotId} {j : Job} (hj : s.slot i = some j)
include hj

theorem State.withdrawJob_slot : (s.withdrawJob j).slot i = some j := ((s.withdrawJob_keeps j).slot i).trans hj

/-- A job suspended with no command outstanding (R90). -/
theorem State.suspend_idle (h : (s.port j.port).jobOutstanding = false) : s.suspend i j =
    ((s.withdrawJob j).setSlot i (some { j with state := .suspended })).followUp j.port := by
  rw [State.suspend, h, State.modJob_of_slot (State.withdrawJob_slot hj)]
  rfl

/-- A job enters QUEUED with the next queue sequence (R69). -/
theorem State.enterQueued_slot (hseq : s.jbu.sequence < 4294967295) :
    (s.enterQueued i).slot i = some { j with state := .queued, sequence := s.jbu.sequence + 1 } := by
  rw [State.enterQueued, State.slot_modJob_same, State.nextSequence_of_lt hseq]
  exact congrArg (Option.map _) hj

/-- An aborted job before its end: claim, finding and offsets gone (R93). -/
theorem State.withdrawn_dropWork_slot :
    ((s.withdrawJob j).dropWork i).slot i = some { j with finding := none, settling := none } := by
  rw [State.dropWork_slot, if_pos rfl, State.withdrawJob_slot hj]
  rfl

end named

/-! ### The actions -/

/-- No job of the id named: all four requests are refused. -/
theorem jobActions_noJob {s : State} {p : List Byte} (h : s.jobNamed (field p 0 2) = none) :
    suspendJobAction p s = .refuse .noSuchJob ∧ resumeJobAction p s = .refuse .noSuchJob ∧
      abortJobAction p s = .refuse .noSuchJob ∧ jobStatusAction p s = .refuse .noSuchJob := by
  simp [suspendJobAction, resumeJobAction, abortJobAction, jobStatusAction, h]

section actions

variable {s : State} {p : List Byte} {i : SlotId} {j : Job} (hj : s.jobNamed (field p 0 2) = some (i, j))
include hj

theorem suspendJobAction_verify (hk : j.kind = .volumeVerify) : suspendJobAction p s = .perform s .ignored [] := by
  simp [suspendJobAction, hj, hk]

theorem suspendJobAction_notRunning (hk : j.kind ≠ .volumeVerify) (hr : j.state ≠ .running) :
    suspendJobAction p s = .refuse .notRunning := by
  simp [suspendJobAction, hj, hk, hr]

theorem suspendJobAction_tooSoon (hk : j.kind ≠ .volumeVerify) (hr : j.state = .running) (he : j.resumedEver = true)
    (hs : j.sinceResume < 16) : suspendJobAction p s = .refuse .tooSoon := by
  simp [suspendJobAction, hj, hk, hr, he, hs]

theorem suspendJobAction_ok (hk : j.kind ≠ .volumeVerify) (hr : j.state = .running)
    (hs : j.resumedEver = false ∨ 16 ≤ j.sinceResume) :
    suspendJobAction p s = .perform (settle (s.suspend i j)) .ok [] := by
  have hsoon : ¬ (j.resumedEver = true ∧ j.sinceResume < 16) := by
    rintro ⟨he, hlt⟩
    rcases hs with h | h
    · simp [h] at he
    · omega
  simp [suspendJobAction, hj, hk, hr, hsoon]

theorem resumeJobAction_notSuspended (hs : j.state ≠ .suspended) : resumeJobAction p s = .refuse .notSuspended := by
  simp [resumeJobAction, hj, hs]

theorem resumeJobAction_ok (hs : j.state = .suspended) :
    resumeJobAction p s = .perform (settle (s.resume i j)) .ok [] := by
  simp [resumeJobAction, hj, hs]

theorem abortJobAction_ended (ht : j.state.terminal = true) : abortJobAction p s = .refuse .notRunning := by
  simp [abortJobAction, hj, ht]

theorem abortJobAction_ok (ht : j.state.terminal = false) :
    abortJobAction p s = .perform (settle (s.abort i j)) .ok [] := by
  simp [abortJobAction, hj, ht]

theorem jobStatusAction_eq : jobStatusAction p s =
    .perform (if j.state.terminal then s.setSlot i none else s) .ok j.statusFields := by
  simp [jobStatusAction, hj]

end actions

end Sys2Proof.Machine
end

section
/-! SUPPORT. What the requests on the defect list come to (R109 to R112), and stall admission job by job (R84, R106). -/

namespace Sys2Proof.Machine

open Sys2Proof

/-! ### The record named -/

theorem State.namedRecord_eq_none {s : State} {n : Nat} (h : n = 0 ∨ s.record n = none) : s.namedRecord n = none := by
  unfold State.namedRecord
  split
  · rfl
  · next h0 => exact h.resolve_left h0

theorem State.namedRecord_eq_some {s : State} {n : Nat} {x : Record} (h0 : n ≠ 0) (hx : s.record n = some x) :
    s.namedRecord n = some x := (if_neg h0).trans hx

theorem State.record_id {s : State} {n : Nat} {x : Record} (h : s.record n = some x) : x.id = n :=
  of_decide_eq_true (List.find?_some (p := fun r : Record => decide (r.id = n)) h)

theorem State.record_mem {s : State} {n : Nat} {x : Record} (h : s.record n = some x) : x ∈ s.dfl.records :=
  List.mem_of_find?_eq_some h

/-- What stands first of those that pass a test is the first to be taken out. -/
theorem eraseP_eq_erase_of_find? {α : Type} [DecidableEq α] {test : α → Bool} {l : List α} {x : α}
    (h : l.find? test = some x) : l.eraseP test = l.erase x := by
  induction l with
  | nil => cases h
  | cons y rest ih =>
    cases hy : test y with
    | true =>
      rw [List.find?_cons_of_pos hy] at h
      cases h
      rw [List.eraseP_cons_of_pos hy, List.erase_cons_head]
    | false =>
      rw [List.find?_cons_of_neg (by simp [hy])] at h
      have hne : y ≠ x := by
        rintro rfl
        have := List.find?_some h
        simp [hy] at this
      rw [List.eraseP_cons_of_neg (by simp [hy]), List.erase_cons_tail (by simpa using hne), ih h]

theorem State.dropRecord_records {s : State} {n : Nat} {x : Record} (h : s.record n = some x) :
    (s.dropRecord x.id).dfl.records = s.dfl.records.erase x :=
  State.record_id h ▸ eraseP_eq_erase_of_find? h

theorem State.keyLive_iff (s : State) (x : Record) :
    s.keyLive x = true ↔ ∃ y ∈ s.dfl.records, y.matchesKey x.place = true := List.any_eq_true

/-! ### The actions -/

theorem readDefectsAction_pastEnd {p : List Byte} (h : 256 ≤ field p 0 2) (s : State) :
    readDefectsAction p s = .refuse .badArgument := if_pos h

theorem readDefectsAction_ok {p : List Byte} (h : field p 0 2 < 256) (s : State) :
    readDefectsAction p s = .perform s .ok (le 2 s.dfl.records.length ++ u8 s.dfl.stallOrder.length ++ le 2 (field p 0 2)
      ++ u8 (s.recordsFrom (field p 0 2)).length ++ (s.recordsFrom (field p 0 2)).flatMap Record.bytes) :=
  if_neg (Nat.not_le.mpr h)

/-- No record of the id named: both requests are refused. -/
theorem defectActions_noRecord {s : State} {p : List Byte} (h : s.namedRecord (field p 0 2) = none) :
    removeDefectAction p s = .refuse .noSuchDefect ∧ retryDefectAction p s = .refuse .noSuchDefect := by
  simp [removeDefectAction, retryDefectAction, h]

section actions

variable {s : State} {p : List Byte} {x : Record} (hx : s.namedRecord (field p 0 2) = some x)
include hx

theorem removeDefectAction_live (ht : x.state.terminal = false) : removeDefectAction p s = .refuse .notTerminal := by
  simp [removeDefectAction, hx, ht]

theorem removeDefectAction_ok (ht : x.state.terminal = true) :
    removeDefectAction p s = .perform (s.removeRecord x) .ok [] := by
  simp [removeDefectAction, hx, ht]

theorem retryDefectAction_noted (hs : x.state = .noted) : retryDefectAction p s = .refuse .badArgument := by
  simp [retryDefectAction, hx, hs]

theorem retryDefectAction_notTerminal (hs : x.state ≠ .noted) (hl : x.state ≠ .lost) (hf : x.state ≠ .repairFailed) :
    retryDefectAction p s = .refuse .notTerminal := by
  simp [retryDefectAction, hx, hs, hl, hf]

section ended

variable (hs : x.state = .lost ∨ x.state = .repairFailed)
include hs

theorem retryDefectAction_checked : retryDefectAction p s =
    if s.keyLive x then .refuse .reelBusy else .perform (s.retryRecord x) .ok (u8 (s.createdState x.place).code) := by
  rcases hs with h | h <;> simp [retryDefectAction, hx, h]

theorem retryDefectAction_busy (hk : ∃ y ∈ s.dfl.records, y.matchesKey x.place = true) :
    retryDefectAction p s = .refuse .reelBusy := by
  rw [retryDefectAction_checked hx hs, if_pos ((s.keyLive_iff x).mpr hk)]

theorem retryDefectAction_ok (hk : ∀ y ∈ s.dfl.records, y.matchesKey x.place = false) :
    retryDefectAction p s = .perform (s.retryRecord x) .ok (u8 (s.createdState x.place).code) := by
  rw [retryDefectAction_checked hx hs, if_neg]
  rw [s.keyLive_iff]
  rintro ⟨y, hy, hmatch⟩
  simp [hk y hy] at hmatch

end ended

end actions

/-! ### Stall admission (R106) -/

/-- Admission takes place where a removal has left 255 records, and nowhere else. -/
theorem State.admission_of_ne {s : State} (h : s.dfl.records.length ≠ 255) : s.admission = s := if_neg h

theorem State.admission_of_eq {s : State} (h : s.dfl.records.length = 255) : s.admission =
    (State.admitStalled s.dfl.stallOrder.length s []).2.foldl State.goOn
      (State.admitStalled s.dfl.stallOrder.length s []).1 := if_pos h

/-- With no job stalled the walk ends at once. -/
theorem State.admitStalled_nil {s : State} (h : s.dfl.stallOrder = []) (n : Nat) (told : List (SlotId × Finding)) :
    State.admitStalled n s told = (s, told) := by
  cases n with
  | zero => rfl
  | succ n => simp [State.admitStalled, h]

section front

variable {s : State} {i : SlotId} {rest : List SlotId} {j : Job} {f : Finding} (ho : s.dfl.stallOrder = i :: rest)
  (hj : s.slot i = some j) (hf : j.finding = some f)
include ho hj hf

/-- The front job's finding is added: it is the last one admitted. -/
theorem State.admitStalled_added (ha : (s.takeFinding f).1 = .added) (n : Nat) (told : List (SlotId × Finding)) :
    State.admitStalled (n + 1) s told = ((s.takeFinding f).2.leaveStall i, told ++ [(i, f)]) := by
  have hp : s.pendingFinding i = some f := by simp [State.pendingFinding, hj, hf]
  unfold State.admitStalled
  rw [ho]
  dsimp only
  rw [hp]
  dsimp only
  generalize s.takeFinding f = x at ha ⊢
  obtain ⟨a, t⟩ := x
  cases ha
  rfl

/-- The front job's finding is a duplicate: the place is still free for the next job. -/
theorem State.admitStalled_duplicate (ha : (s.takeFinding f).1 = .duplicate) (n : Nat)
    (told : List (SlotId × Finding)) : State.admitStalled (n + 1) s told =
      State.admitStalled n ((s.takeFinding f).2.leaveStall i) (told ++ [(i, f)]) := by
  have hp : s.pendingFinding i = some f := by simp [State.pendingFinding, hj, hf]
  conv_lhs => unfold State.admitStalled
  rw [ho]
  dsimp only
  rw [hp]
  dsimp only
  generalize s.takeFinding f = x at ha ⊢
  obtain ⟨a, t⟩ := x
  cases ha
  rfl

end front

/-! ### An admitted job goes on (R84) -/

/-- The last of two writes to a slot stands. -/
theorem State.setSlot_setSlot (s : State) (i : SlotId) (j k : Option Job) :
    (s.setSlot i j).setSlot i k = s.setSlot i k := by
  simp [State.setSlot]

section goOn

variable {s : State} {i : SlotId} {j : Job} (hj : s.slot i = some j) (hs : j.state = .stalled) (f : Finding)
include hj hs

theorem State.goOn_yielded (hy : (s.port j.port).yld = true) : s.goOn (i, f) =
    ((s.setSlot i (some { j.completeFinding f with finding := none, state := .yielded })).post
      (jobWaitNotice { j.completeFinding f with finding := none, state := .yielded })).followUp j.port := by
  simp only [State.goOn, hj, hs, if_true, State.modJob_of_slot hj, State.setSlot_port, hy]
  rw [State.enterWaiting_of_slot (State.slot_setSlot_same _ _ _), State.setSlot_setSlot]

theorem State.goOn_running (hy : (s.port j.port).yld = false) : s.goOn (i, f) =
    ((s.setSlot i (some { j.completeFinding f with finding := none, state := .running })).boundary i).followUp
      j.port := by
  simp only [State.goOn, hj, hs, if_true, State.modJob_of_slot hj, State.setSlot_port, hy, Bool.false_eq_true, if_false]
  rw [State.modJob_of_slot (State.slot_setSlot_same _ _ _), State.setSlot_setSlot]

end goOn

end Sys2Proof.Machine
end

section
/-! SUPPORT. What the outcomes of jobs' reads come to (R72 to R77, R80 to R82): a scrub's read outcome by outcome, its
claims, the end of a job, and a verify's read. -/

namespace Sys2Proof.Machine

open Sys2Proof

/-! ### What a scrub finds (R75 to R77) -/

/-- The origin of a scrub's findings (R77). -/
theorem Job.findingOrigin_scrub {j : Job} (hk : j.kind ≠ .volumeVerify) :
    j.findingOrigin = if j.origin = .patrol then .patrol else .requested := by
  unfold Job.findingOrigin
  cases hkind : j.kind with
  | volumeVerify => exact absurd hkind hk
  | reelScrub | rangeScrub => cases j.origin <;> rfl

/-- The finding that a manifest block gives no references (R75). -/
theorem Job.scrubFindingAt_manifest {j : Job} (hk : j.kind ≠ .volumeVerify) (t : Target) :
    j.scrubFindingAt t .manifest none none =
      { kind := .manifest, port := j.port, place := .manifest t.reel t.copy (j.cursor / 1023)
        expected := none, found := none, origin := if j.origin = .patrol then .patrol else .requested } := by
  rw [← Job.findingOrigin_scrub hk]
  rfl

/-- The finding of a frame (R76). -/
theorem Job.scrubFindingAt_frame {j : Job} (hk : j.kind ≠ .volumeVerify) (t : Target) {kind : DefectKind}
    (hd : kind = .mismatch ∨ kind = .unreadable) (expected found : Option Digest) :
    j.scrubFindingAt t kind expected found =
      { kind := kind, port := j.port, place := .frame t.reel t.copy j.cursor
        expected := expected, found := found, origin := if j.origin = .patrol then .patrol else .requested } := by
  rw [← Job.findingOrigin_scrub hk]
  rcases hd with rfl | rfl <;> rfl

/-! ### The manifest block of the cursor (R72, R74, R76) -/

theorem Job.manifestLoaded_eq_false {j : Job} (h : ∀ m, j.manifest = some m → m.index ≠ j.cursor / 1023) :
    j.manifestLoaded = false := by
  rw [← Bool.not_eq_true, Job.manifestLoaded_iff]
  rintro ⟨m, hload, hindex⟩
  exact h m hload hindex

theorem scrubClaim_manifest {j : Job} (h : j.manifestLoaded = false) (e : StoredEntry) (c : CopyDesc) :
    scrubClaim e c j = ⟨.read .blockCheck, c.manifestBlock + j.cursor / 1023, 1⟩ := by
  rw [scrubClaim, h]
  rfl

theorem scrubClaim_frame {j : Job} (h : j.manifestLoaded = true) (e : StoredEntry) (c : CopyDesc) : scrubClaim e c j =
    ⟨.read (.frame e.frameBytes), c.firstFrameBlock + j.cursor * blocksPerFrame e.frameBytes,
      blocksPerFrame e.frameBytes⟩ := by
  rw [scrubClaim, if_pos h]
  rfl

theorem Job.reference_of_manifest {j : Job} {m : LoadedManifest} (h : j.manifest = some m) :
    j.reference = some (m.slots.getD (j.cursor % 1023) 0#32) := by
  simp [Job.reference, slotsPerBlock, h]

/-! ### The outcome of a scrub's read (R74 to R76) -/

section scrub

variable {s : State} {i : SlotId} {j : Job} {t : Target} {o : DriveOutcome} (hj : s.slot i = some j)
  (ht : j.target = some t)
include hj ht

theorem State.readOutcome_notReady (ho : o.status = .notReady) : s.readOutcome i o = s.enterWaitMedia i := by
  rw [State.readOutcome_scrub o hj ht, State.frameOutcome, State.manifestOutcome, ho]
  split <;> rfl

section manifest

variable (hm : j.manifestLoaded = false)
include hm

theorem State.readOutcome_manifest : s.readOutcome i o = s.manifestOutcome i j t o := by
  rw [State.readOutcome_scrub o hj ht, hm]
  rfl

theorem State.readOutcome_manifestSound {slots : List Digest} {check : Digest} (ho : o.status = .good)
    (hr : o.result = .block true slots check) : s.readOutcome i o =
      (s.setSlot i (some { j with manifest := some ⟨j.cursor / 1023, slots⟩ })).boundary i := by
  rw [State.readOutcome_manifest hj ht hm, State.manifestOutcome, ho, hr, ← State.modJob_of_slot hj
    (fun j => { j with manifest := some ⟨j.cursor / 1023, slots⟩ })]
  rfl

theorem State.readOutcome_manifestUnsound {slots : List Digest} {check : Digest} (ho : o.status = .good)
    (hr : o.result = .block false slots check) :
    s.readOutcome i o = s.scrubFinding i (j.scrubFindingAt t .manifest none none) := by
  rw [State.readOutcome_manifest hj ht hm, State.manifestOutcome, ho, hr]

theorem State.readOutcome_manifestUnread (ho : o.status = .mediumError) :
    s.readOutcome i o = s.scrubFinding i (j.scrubFindingAt t .manifest none none) := by
  rw [State.readOutcome_manifest hj ht hm, State.manifestOutcome, ho]

end manifest

section frame

variable (hm : j.manifestLoaded = true)
include hm

theorem State.readOutcome_frame : s.readOutcome i o = s.frameOutcome i j t o := by
  rw [State.readOutcome_scrub o hj ht, hm]
  rfl

theorem State.readOutcome_frameGood {d : Digest} (ho : o.status = .good) (hr : o.result = .digest d)
    (hd : j.reference = some d) : s.readOutcome i o = (s.setSlot i (some { j with
      good := j.good + 1, cursor := j.cursor + 1, sinceResume := j.sinceResume + 1 })).boundary i := by
  rw [State.readOutcome_frame hj ht hm, State.frameOutcome, ho, hr]
  dsimp only
  rw [if_pos hd, State.modJob_of_slot hj]
  rfl

theorem State.readOutcome_frameMismatch {d : Digest} (ho : o.status = .good) (hr : o.result = .digest d)
    (hd : j.reference ≠ some d) :
    s.readOutcome i o = s.scrubFinding i (j.scrubFindingAt t .mismatch j.reference (some d)) := by
  rw [State.readOutcome_frame hj ht hm, State.frameOutcome, ho, hr]
  exact if_neg hd

theorem State.readOutcome_frameUnread (ho : o.status = .mediumError) :
    s.readOutcome i o = s.scrubFinding i (j.scrubFindingAt t .unreadable j.reference none) := by
  rw [State.readOutcome_frame hj ht hm, State.frameOutcome, ho]

end frame

end scrub

/-! ### The end of a job (R73, R80) -/

/-- A job that is DONE: its copy's last_scrub written, JBU and the link changed, and nothing else. -/
theorem State.finishJob_spec {s : State} {i : SlotId} {j : Job} (hj : s.slot i = some j) :
    (s.finishJob i j).cat = (s.recordScrub j).cat ∧ (s.finishJob i j).dfl = s.dfl ∧
      (∀ p, (s.finishJob i j).port p = s.port p) ∧
      (j.origin = .patrol → (s.finishJob i j).slot i = none) ∧
      (j.origin = .requested → ∃ n, (s.finishJob i j).slot i = some { j with
        state := .done, endReason := some .complete, endOrder := some n }) := by
  obtain ⟨hdfl, hjbu, hports⟩ := s.recordScrub_frame j
  have hslot : (s.recordScrub j).slot i = some j := by simpa [State.slot, hjbu] using hj
  obtain ⟨hdfl', hcat, hport, -, hpatrol, hrequested⟩ := State.endJob_spec hslot .done .complete
  exact ⟨hcat, hdfl'.trans hdfl, fun p => (hport p).trans (by simp [State.port, hports]), hpatrol, hrequested⟩

/-! ### The outcome of a verify's read (R80 to R82) -/

section verify

variable {s : State} {i : SlotId} {j : Job} {o : DriveOutcome} (hj : s.slot i = some j)

theorem State.verifyOutcome_notReady (ho : o.status = .notReady) : s.verifyOutcome i o = s.enterWaitMedia i := by
  unfold State.verifyOutcome
  rw [ho]

include hj

theorem State.verifyOutcome_good (ho : o.status = .good) : s.verifyOutcome i o = (s.setSlot i (some { j with
    blocksRead := j.blocksRead + o.blocks, cursor := j.cursor + o.blocks })).boundary i := by
  unfold State.verifyOutcome
  rw [ho, State.modJob_of_slot hj]

/-- A verify's boundary with YLD high (R80 step 1, R83). -/
theorem State.boundary_verifyYield (hk : j.kind = .volumeVerify) (hy : (s.port j.port).yld = true) :
    s.boundary i = (s.setSlot i (some { j with state := .yielded })).post
      (jobWaitNotice { j with state := .yielded }) := by
  rw [State.boundary_verify hj hk, State.verifyBoundary, if_pos hy, State.enterWaiting_of_slot hj]

theorem State.boundary_verifyDone {e : Nat} (hk : j.kind = .volumeVerify) (hr : j.state = .running)
    (hy : (s.port j.port).yld = false) (hs : j.settling = none) (he : j.rangeEnd = some e) (hc : e < j.cursor) :
    (s.boundary i).cat = s.cat ∧ (s.boundary i).dfl = s.dfl ∧
      (j.origin = .requested → ∃ n, (s.boundary i).slot i = some { j with
        state := .done, endReason := some .complete, endOrder := some n }) := by
  rw [State.boundary_verifyEnd hj hk hr hy hs he hc]
  obtain ⟨hcat, hdfl, -, -, hrequested⟩ := State.finishJob_spec hj
  exact ⟨hcat.trans ((s.recordScrub_cat j).2 (.inl (by simp [hk]))), hdfl, hrequested⟩

section full

variable {a total : Nat} {rest : List Nat} (hl : 256 ≤ s.dfl.records.length)
  (hn : ∀ x ∈ s.dfl.records, x.place = s.verifyPlace j (j.cursor + a) →
    x.state.terminal = true ∨ ∃ b, s.verifyPlace j (j.cursor + a) = .block b)
include hl hn

/-- A verify read whose first finding meets a full list: the job is STALLED with the offsets left (R82, R84). -/
theorem State.verifyOutcome_stalls (hs : o.status = .mediumError) (ho : o.offsets = a :: rest) :
    (s.verifyOutcome i o).slot i = some { j with
        state := .stalled, finding := some (s.verifyFinding j a)
        settling := some ⟨s.stillRemaining j (s.verifyPlace j (j.cursor + a)) rest, o.offsets.length⟩ } ∧
      (s.verifyOutcome i o).dfl = { s.dfl with stallOrder := s.dfl.stallOrder ++ [i] } := by
  rw [State.verifyOutcome_full hj hs ho hl hn]
  obtain ⟨hslot, hdfl, -⟩ := State.stallJob_spec (State.slot_setSlot_same s i (some { j with
    settling := some ⟨s.stillRemaining j (s.verifyPlace j (j.cursor + a)) rest, o.offsets.length⟩ }))
    (s.verifyFinding j a)
  exact ⟨hslot, hdfl⟩

/-- A verify at a boundary whose next finding meets a full list is STALLED again (R80 step 2, R82, R84). -/
theorem State.boundary_verifyStalls (hk : j.kind = .volumeVerify) (hy : (s.port j.port).yld = false)
    (hs : j.settling = some ⟨a :: rest, total⟩) :
    (s.boundary i).slot i = some { j with
        state := .stalled, finding := some (s.verifyFinding j a)
        settling := some ⟨s.stillRemaining j (s.verifyPlace j (j.cursor + a)) rest, total⟩ } ∧
      (s.boundary i).dfl.stallOrder = s.dfl.stallOrder ++ [i] := by
  rw [State.verifyBoundary_full hj hk hy hs hl hn]
  obtain ⟨hslot, hdfl, -⟩ := State.stallJob_spec (State.slot_setSlot_same s i (some { j with
    settling := some ⟨s.stillRemaining j (s.verifyPlace j (j.cursor + a)) rest, total⟩ })) (s.verifyFinding j a)
  exact ⟨hslot, congrArg Dfl.stallOrder hdfl⟩

end full

end verify

theorem State.stillRemaining_length (s : State) (j : Job) (pl : Place) (rest : List Nat) :
    (s.stillRemaining j pl rest).length ≤ rest.length := List.length_filter_le _ _

end Sys2Proof.Machine
end

section
/-! SUPPORT. A whole reply to a job's read (R43, R76, R77): what later work leaves of the records, the state in which the
job takes its outcome, and a port whose active job goes on. -/

namespace Sys2Proof.Machine

open Sys2Proof

/-! ### What later work leaves of a record (R103) -/

/-- A record but for what repairs and locks change: state, attempts and detail. -/
def Record.made (r : Record) : Record := { r with state := .noted, attempts := 0, detail := none }

/-- The same records in the same order, but for their states, attempts and details. -/
def State.KeepsMade (s t : State) : Prop := t.dfl.records.map Record.made = s.dfl.records.map Record.made

namespace State.KeepsMade

variable {s t u : State}

theorem of_dfl (h : t.dfl = s.dfl) : s.KeepsMade t := congrArg (fun d : Dfl => d.records.map Record.made) h

theorem refl (s : State) : s.KeepsMade s := of_dfl rfl

theorem trans (h : s.KeepsMade t) (k : t.KeepsMade u) : s.KeepsMade u := Eq.trans k h

theorem length (h : s.KeepsMade t) : t.dfl.records.length = s.dfl.records.length := by
  simpa using congrArg List.length h

/-- The newest record is the one it was when made. -/
theorem getLast {records : List Record} {r : Record} (h : s.KeepsMade t) (hs : s.dfl.records = records ++ [r]) :
    ∃ x, t.dfl.records.getLast? = some x ∧ x.made = r.made := by
  have hlast := congrArg List.getLast? h
  simp only [hs, List.getLast?_map, List.getLast?_append, List.getLast?_singleton, Option.some_or, Option.map_some,
    Option.map_eq_some_iff] at hlast
  exact hlast

end State.KeepsMade

theorem State.modRecord_keepsMade (s : State) (id : Nat) {f : Record → Record} (h : ∀ r, (f r).made = r.made) :
    s.KeepsMade (s.modRecord id f) := by
  show (s.dfl.records.map _).map _ = _
  rw [List.map_map]
  refine List.map_congr_left fun r _ => ?_
  simp only [Function.comp]
  split
  exacts [h r, rfl]

theorem State.giveResult_keepsMade (s : State) (id : Nat) (st : DefectState) (d : Option OutcomeDetail) :
    s.KeepsMade (s.giveResult id st d) := by
  have hmod := s.modRecord_keepsMade id (f := fun r => { r with state := st, detail := d }) fun _ => rfl
  simp only [State.giveResult]
  split
  · exact hmod
  · refine hmod.trans (.of_dfl ((State.post_dfl _ _).trans ?_))
    split <;> rfl

theorem State.takeRecord_keepsMade (s : State) (r : Record) (t : Target) (src tgt : CopyDesc) :
    s.KeepsMade (s.takeRecord r t src tgt) := by
  have henter : ∀ u : State, u.enterReference.dfl = u.dfl ∧ u.enterSource.dfl = u.dfl := by
    intro u
    unfold State.enterReference State.enterSource
    constructor <;> split <;> rfl
  refine (s.modRecord_keepsMade r.id (f := fun r => { r with state := .repairing, detail := none })
    fun _ => rfl).trans ?_
  unfold State.takeRecord
  dsimp only
  split
  exacts [.of_dfl (henter _).1, .of_dfl (henter _).2]

theorem State.choose_keepsMade (l : List Record) : ∀ s : State, s.KeepsMade (s.choose l) := by
  induction l with
  | nil => exact State.KeepsMade.refl
  | cons r rest ih =>
    intro s
    unfold State.choose
    split
    · exact s.takeRecord_keepsMade r _ _ _
    · exact (s.modRecord_keepsMade r.id (f := fun r => { r with detail := some .writeProtected })
        fun _ => rfl).trans (ih _)
    · exact (s.giveResult_keepsMade _ _ _).trans (ih _)
    · exact ih s

/-- A choice leaves the records as they were made (R117). -/
theorem rpuChoice_keepsMade (s : State) : s.KeepsMade (rpuChoice s) := by
  unfold rpuChoice
  split
  exacts [State.choose_keepsMade _ s, .refl s]

theorem State.settlePort_keepsMade (s : State) (p : PortId) : s.KeepsMade (s.settlePort p) := by
  have hcount : ∀ u : State, u.KeepsMade u.countAttempt := by
    intro u
    unfold State.countAttempt
    split
    exacts [u.modRecord_keepsMade _ fun _ => rfl, .refl u]
  unfold State.settlePort
  dsimp only
  split
  · exact .refl s
  · split
    · split <;> exact .refl s
    · split <;> exact .refl s
    · split
      · exact .refl s
      · split
        · exact .refl s
        · split
          · exact hcount (s.setPort p _)
          · exact .refl s
    · split <;> exact .refl s

/-- The end of a step leaves the records as they were made. -/
theorem settle_keepsMade (s : State) : s.KeepsMade (settle s) := by
  have hfold : ∀ (l : List PortId) (u : State), u.KeepsMade (l.foldl State.settlePort u) := by
    intro l
    induction l with
    | nil => exact State.KeepsMade.refl
    | cons p rest ih => exact fun u => (u.settlePort_keepsMade p).trans (ih _)
  have hports : s.KeepsMade (settlePorts s) := by
    unfold settlePorts
    split
    exacts [hfold _ s, .refl s]
  refine hports.trans (.of_dfl ?_)
  rw [settle, takePosted_frame]

/-- A finding that no record waits for, with room in the list: its record is the newest (R103). -/
theorem State.takeFinding_added {s : State} {f : Finding} (hl : s.dfl.records.length < 256)
    (hn : ∀ x ∈ s.dfl.records, x.place = f.place → x.state.terminal = true) :
    (s.takeFinding f).1 = .added ∧ (s.takeFinding f).2.dfl.records.length = s.dfl.records.length + 1 ∧
      ∃ held : State, held.dfl.records = s.dfl.records ++ [s.newRecord f] ∧ held.KeepsMade (s.takeFinding f).2 := by
  have hnone : s.dfl.records.find? (fun r => r.matchesKey f.place) = none := by
    refine List.find?_eq_none.mpr fun x hx hmatch => ?_
    simp only [Record.matchesKey, Bool.and_eq_true, decide_eq_true_eq, Bool.not_eq_true'] at hmatch
    simp [hn x hx hmatch.1.2] at hmatch
  have htake : s.takeFinding f = (.added, s.addRecord f) := by
    unfold State.takeFinding
    rw [hnone]
    exact if_pos hl
  have hkeeps : State.KeepsMade { s with dfl := { s.dfl with
      records := s.dfl.records ++ [s.newRecord f], nextId := nextIdAfter (s.newRecord f).id } } (s.addRecord f) := by
    unfold State.addRecord
    dsimp only
    split
    exacts [.trans (.of_dfl (State.post_dfl _ _)) (rpuChoice_keepsMade _), .of_dfl (State.post_dfl _ _)]
  rw [htake]
  exact ⟨rfl, by simpa using hkeeps.length, _, rfl, hkeeps⟩

/-! ### The state in which the claimant takes its outcome (R43) -/

theorem State.judgedReply_frame (s : State) (p : PortId) (o : Outstanding) (r : DriveReply) (st : DriveStatus) :
    (s.judgedReply p o r st).jbu = s.jbu ∧ (s.judgedReply p o r st).dfl = s.dfl ∧
      (s.judgedReply p o r st).cat = s.cat ∧ (s.judgedReply p o r st).pts = s.pts ∧
      ((s.judgedReply p o r st).port p).yld = (s.port p).yld := by
  have hnormal : ((s.setPort p (s.port p).finish).returnToNormal p).dfl = s.dfl ∧
      ((s.setPort p (s.port p).finish).returnToNormal p).cat = s.cat ∧
      (((s.setPort p (s.port p).finish).returnToNormal p).port p).yld = (s.port p).yld := by
    rw [State.returnToNormal_finish]
    split <;> simp [State.postPortEvent, Port.finish]
  have hfeed : ∀ u : State, (u.feedReply p o.claim r st).dfl = u.dfl ∧ (u.feedReply p o.claim r st).cat = u.cat ∧
      ((u.feedReply p o.claim r st).port p).yld = (u.port p).yld := by
    intro u
    unfold State.feedReply
    split
    · simp only [State.feedMargin]
      split <;> simp
    · exact ⟨rfl, rfl, rfl⟩
  obtain ⟨hdfl, hcat, hyld⟩ := hnormal
  obtain ⟨hdfl', hcat', hyld'⟩ := hfeed ((s.setPort p (s.port p).finish).returnToNormal p)
  exact ⟨(State.feedReply_jbu _ _ _ _ _).trans (State.returnToNormal_jbu _ _), hdfl'.trans hdfl, hcat'.trans hcat,
    (((s.finish_moves p).trans (State.returnToNormal_moves _ p)).trans (State.feedReply_moves _ p _ _ _)).pts,
    hyld'.trans hyld⟩

/-! ### A port whose active job goes on -/

/-- With a job active on the port there is nothing to activate, and the port is not eligible (R71, R158). -/
theorem State.followUp_active {s : State} {p : PortId} {i : SlotId} {j : Job} (hj : s.slot i = some j)
    (hp : j.port = p) (ha : j.state.active = true) : s.followUp p = s := by
  have hactivate : s.activatePort p = s := by
    cases hslot : s.activeSlot p with
    | none => simp [State.activeSlot_none hslot hj hp] at ha
    | some k => simp [State.activatePort, Config.jobSlots, State.activate, hslot]
  have heligible : s.eligible p = false := by
    by_contra h
    obtain ⟨-, -, -, -, -, hjobs⟩ := (s.eligible_iff p).mp (by simpa using h)
    rcases hjobs i j hj hp (JobState.terminal_of_active ha) with h | h <;> simp [h, JobState.active] at ha
  rw [State.followUp, hactivate, State.evaluate, heligible]
  rfl

/-- A scrub with frames left and YLD low places its claim at a boundary, if its copy is there, and changes nothing else
(R72 steps 4 and 5). -/
theorem State.boundary_goesOn {s : State} {i : SlotId} {j : Job} {e : Nat} (hj : s.slot i = some j)
    (hk : j.kind ≠ .volumeVerify) (hs : j.state ≠ .suspending) (hy : (s.port j.port).yld = false)
    (he : j.rangeEnd = some e) (hc : j.cursor ≤ e) :
    (s.boundary i).jbu = s.jbu ∧ (s.boundary i).dfl = s.dfl ∧ (s.boundary i).cat = s.cat := by
  have hp : j.pastEnd = false := by simp [Job.pastEnd, he, Nat.not_lt.mpr hc]
  rw [State.boundary_scrub hj hk, State.scrubBoundary, if_neg hs, if_neg (by simp [hy]), hp]
  simp only [Bool.false_eq_true, if_false]
  split <;> exact ⟨rfl, rfl, rfl⟩

/-- What a job that goes on shows at the end of the step. -/
theorem settle_followUp_active {s : State} {p : PortId} {i : SlotId} {j : Job} (hj : s.slot i = some j)
    (hp : j.port = p) (ha : j.state.active = true) :
    (settle (s.followUp p)).slot i = some j ∧ (settle (s.followUp p)).cat = s.cat ∧
      s.KeepsMade (settle (s.followUp p)) ∧ (settle (s.followUp p)).dfl.stallOrder = s.dfl.stallOrder := by
  rw [State.followUp_active hj hp ha]
  have hsettles := settle_settles s
  exact ⟨(hsettles.slot i).trans hj, hsettles.cat, settle_keepsMade s, hsettles.stallOrder⟩

theorem State.slot_of_jbu {s t : State} (h : t.jbu = s.jbu) (i : SlotId) : t.slot i = s.slot i := by
  simp only [State.slot, h]

/-! ### A GOOD reply to a scrub's frame read (R76, R77, R103, R104) -/

section reply

variable {s : State} {p : PortId} {bytes : List Byte} {r : DriveReply} {o : Outstanding} {i : SlotId} {j : Job}
  {t : Target} {d : Digest} {e : Nat}

/-- A GOOD reply to a job's read: the job takes its outcome, its port is followed up, and the step ends (R43). -/
theorem exec_driveReply_job (hb : DriveReply.ofBytes bytes = some r) (ho : (s.port p).outstanding = some o)
    (hc : o.claimant = some .job) (htag : r.tag.toNat = o.tag.toNat) (hst : replyStatus o.claim r = some .good)
    (hi : s.activeSlot p = some i) : exec (.driveReply p bytes) s = .next (settle
      (((s.judgedReply p o r .good).readOutcome i (outcomeOf (s.port p) o.claim r .good)).followUp p)) := by
  rw [exec_driveReply_taken hb ho htag, State.takeReply_outcome hst (by decide), State.takeOutcome_job hc hi]

theorem outcomeOf_digest {q : Port} (hr : ∃ form, o.claim.transfer = .read form)
    (hd : q.engine.result r.data = .digest d) : (outcomeOf q o.claim r .good).result = .digest d := by
  obtain ⟨form, hform⟩ := hr
  simp only [outcomeOf, hform, if_true, hd]

section taken

variable (hd : (outcomeOf (s.port p) o.claim r .good).result = .digest d) (hj : s.slot i = some j) (hp : j.port = p)
  (ht : j.target = some t) (hm : j.manifestLoaded = true)
include hd hj hp ht hm

section goesOn

variable (hy : (s.port p).yld = false) (hrun : j.state = .running) (hk : j.kind ≠ .volumeVerify)
  (he : j.rangeEnd = some e) (hc : j.cursor < e)
include hy hrun hk he hc

/-- The digest of the frame is that of its reference: the frame is counted good, and the scrub reads on (R76). -/
theorem settle_frameGood (href : j.reference = some d) :
    let u := settle (((s.judgedReply p o r .good).readOutcome i (outcomeOf (s.port p) o.claim r .good)).followUp p)
    u.slot i = some { j with good := j.good + 1, cursor := j.cursor + 1, sinceResume := j.sinceResume + 1 } ∧
      u.dfl.records.length = s.dfl.records.length ∧ u.cat = s.cat := by
  obtain ⟨hjbu, hdfl, hcat, -, hyld⟩ := s.judgedReply_frame p o r .good
  generalize s.judgedReply p o r .good = v at hjbu hdfl hcat hyld ⊢
  have hv : v.slot i = some j := (State.slot_of_jbu hjbu i).trans hj
  rw [State.readOutcome_frameGood hv ht hm rfl hd href]
  have hput := State.slot_setSlot_same v i
    (some { j with good := j.good + 1, cursor := j.cursor + 1, sinceResume := j.sinceResume + 1 })
  obtain ⟨bjbu, bdfl, bcat⟩ := State.boundary_goesOn hput hk (by simp [hrun])
    (by rw [State.setSlot_port, hp, hyld, hy]) he hc
  obtain ⟨hslot, hcat', hmade, -⟩ := settle_followUp_active ((State.slot_of_jbu bjbu i).trans hput) hp
    (by rw [hrun]; rfl)
  exact ⟨hslot, by rw [hmade.length, bdfl, State.setSlot_dfl, hdfl], hcat'.trans (bcat.trans hcat)⟩

/-- Another digest, with room in the list: a MISMATCH record is added, the frame is counted defective, and the scrub
reads on (R76, R77, R103). -/
theorem settle_frameMismatch (href : j.reference ≠ some d) (hl : s.dfl.records.length < 256)
    (hn : ∀ x ∈ s.dfl.records, x.place = .frame t.reel t.copy j.cursor → x.state.terminal = true) :
    let u := settle (((s.judgedReply p o r .good).readOutcome i (outcomeOf (s.port p) o.claim r .good)).followUp p)
    u.slot i = some { j with
        defective := j.defective + 1, cursor := j.cursor + 1, sinceResume := j.sinceResume + 1 } ∧
      u.dfl.records.length = s.dfl.records.length + 1 ∧
      ∃ x, u.dfl.records.getLast? = some x ∧ x.kind = .mismatch ∧ x.place = .frame t.reel t.copy j.cursor ∧
        x.expected = j.reference ∧ x.found = some d ∧ x.seen = 1 ∧
        x.minute = (if s.pts.clockSet then some s.pts.clock else none) := by
  obtain ⟨hjbu, hdfl, -, hpts, hyld⟩ := s.judgedReply_frame p o r .good
  generalize s.judgedReply p o r .good = v at hjbu hdfl hpts hyld ⊢
  have hv : v.slot i = some j := (State.slot_of_jbu hjbu i).trans hj
  rw [State.readOutcome_frameMismatch hv ht hm rfl hd href]
  generalize hf : j.scrubFindingAt t .mismatch j.reference (some d) = f
  have hplace : f.place = .frame t.reel t.copy j.cursor := by rw [← hf]; rfl
  obtain ⟨hadded, hlength, held, hheld, hmade⟩ := State.takeFinding_added (s := v) (f := f) (by rw [hdfl]; exact hl)
    (by rw [hdfl, hplace]; exact hn)
  rw [State.scrubFinding_taken hv (by rw [hadded]; decide), Job.completeFinding_frame hk hplace]
  have hput := State.slot_setSlot_same (v.takeFinding f).2 i
    (some { j with defective := j.defective + 1, cursor := j.cursor + 1, sinceResume := j.sinceResume + 1 })
  obtain ⟨bjbu, bdfl, -⟩ := State.boundary_goesOn hput hk (by simp [hrun])
    (by rw [State.setSlot_port, (v.takeFinding_port f _).yld, hp, hyld, hy]) he hc
  obtain ⟨hslot, -, hmade', -⟩ := settle_followUp_active ((State.slot_of_jbu bjbu i).trans hput) hp (by rw [hrun]; rfl)
  obtain ⟨x, hlast, hx⟩ := (hmade.trans (.trans (.of_dfl bdfl) hmade')).getLast hheld
  refine ⟨hslot, by rw [hmade'.length, bdfl, State.setSlot_dfl, hlength, hdfl], x, hlast, ?_⟩
  have hminute : x.minute = v.reading := congrArg Record.minute hx
  subst hf
  exact ⟨congrArg Record.kind hx, congrArg Record.place hx, congrArg Record.expected hx, congrArg Record.found hx,
    congrArg Record.seen hx, by rw [hminute, State.reading, hpts]⟩

end goesOn

/-- Another digest against a full list: the scrub stalls, holding its finding (R77, R84, R104). -/
theorem settle_frameStalled (href : j.reference ≠ some d) (hl : 256 ≤ s.dfl.records.length)
    (hn : ∀ x ∈ s.dfl.records, x.place = .frame t.reel t.copy j.cursor → x.state.terminal = true) :
    let u := settle (((s.judgedReply p o r .good).readOutcome i (outcomeOf (s.port p) o.claim r .good)).followUp p)
    u.slot i = some { j with
        state := .stalled, finding := some (j.scrubFindingAt t .mismatch j.reference (some d)) } ∧
      u.dfl.records.length = s.dfl.records.length ∧ u.dfl.stallOrder = s.dfl.stallOrder ++ [i] := by
  obtain ⟨hjbu, hdfl, -⟩ := s.judgedReply_frame p o r .good
  generalize s.judgedReply p o r .good = v at hjbu hdfl ⊢
  have hv : v.slot i = some j := (State.slot_of_jbu hjbu i).trans hj
  have hrefused := State.takeFinding_refused (s := v) (f := j.scrubFindingAt t .mismatch j.reference (some d))
    (by rw [hdfl]; exact hl) (fun x hx hplace => .inl (hn x (hdfl ▸ hx) hplace))
  rw [State.readOutcome_frameMismatch hv ht hm rfl hd href, State.scrubFinding_full (by rw [hrefused])]
  obtain ⟨hslot, hstall, -⟩ := State.stallJob_spec hv (j.scrubFindingAt t .mismatch j.reference (some d))
  obtain ⟨hslot', -, hmade, horder⟩ := settle_followUp_active hslot hp rfl
  exact ⟨hslot', by rw [hmade.length, hstall, hdfl], by rw [horder, hstall, hdfl]⟩

end taken

end reply

end Sys2Proof.Machine
end

section
open Sys2Proof Sys2Proof.Machine

/-- Settles O7: every command keeps at most one active job on each port, and so does a part that idles. -/
theorem stepKeepsOneActiveJob : Obligations.StepKeepsOneActiveJob := by
  intro s t h ht
  unfold step at ht
  split at ht
  · cases ht
    exact idle_sparesActive s h
  · next c rest _ =>
    obtain ⟨u, hu, hspares⟩ := exec_sparesActive c { s with pending := rest }
    cases hu.symm.trans ht
    exact hspares (State.oneActive_of_jbu rfl h)

/-- Settles O48: a slot is found as R67 says, the job created stands in it with an id of no other slot, and the head of
a queue is a QUEUED job that no other stands ahead of. -/
theorem createdJobTakesItsPlace : Obligations.CreatedJobTakesItsPlace := by
  refine ⟨fun s => ⟨State.findSlot_free, fun hfull hended => ?_, s.findSlot_none_iff⟩,
    ⟨fun s i j hseq => ⟨fun hm => ?_, fun hm => ?_, fun k hk => State.createJob_other j hseq hk⟩,
      fun s i h1 h2 => ?_⟩,
    fun s p => ⟨s.queueHead_none_iff p, fun i hi => ?_⟩⟩
  · obtain ⟨i, j, hi, hj, ht, hleast⟩ := State.findSlot_reclaim hfull hended
    exact ⟨i, j, hi, hj, ht, fun k l a b hk hl ha hb => by simpa [ha, hb] using hleast k l hk hl⟩
  · rw [State.createJob_ready i hseq hm]
    exact ⟨State.slot_setSlot_same _ _ _, rfl, rfl⟩
  · obtain ⟨hslot, -, -, -, -, -, -, hlink⟩ := State.enterWaitMedia_spec (State.slot_setSlot_same
      ({ s with jbu := { s.jbu with nextId := nextIdAfter j.id } } : State) i (some (j.bind (s.port j.port).volume)))
    rw [State.createJob_waits i hm]
    exact ⟨_, hslot, rfl, Job.bind_id _ _, hlink.trans (State.post_link_congr _ rfl rfl rfl)⟩
  · have hfree := freeId_not_mem (inUse := (s.setSlot i none).jobIds) h1 h2 (State.jobIds_length _)
    rw [State.mem_jobIds_freed] at hfree
    obtain ⟨hge, hle⟩ := freeId_range (inUse := (s.setSlot i none).jobIds) h1 h2 (s.setSlot i none).jobIds.length
    refine ⟨fun k j hk hj hid => hfree ⟨k, j, hk, hj, hid⟩, hge, hle, fun hunused => freeId_of_not_mem ?_ _⟩
    rw [State.mem_jobIds_freed]
    rintro ⟨k, j, hk, hj, hid⟩
    exact hunused k j hk hj hid
  · obtain ⟨j, hj, hp, hq⟩ := State.queueHead_queued hi
    exact ⟨j, hj, hq, hp, fun k l hl hlq hlp => Job.ahead_eq_false (State.queueHead_first hi hj hl hlq hlp)⟩

/-- Settles O49: each request's checks in order, and the job suspended, queued again, ended or reported. -/
theorem jobRequestsAct : Obligations.JobRequestsAct := by
  intro s r
  refine ⟨fun hn => ?_, fun i j hn => ?_⟩
  · obtain ⟨hsuspend, hresume, habort, hstatus⟩ := jobActions_noJob hn
    exact ⟨fun h => exec_refuse rfl h hsuspend, fun h => exec_refuse rfl h hresume,
      fun h => exec_refuse rfl h habort, fun h => exec_refuse rfl h hstatus⟩
  have hj : s.slot i = some j := State.jobNamed_slot hn
  refine ⟨fun h => ⟨fun hk => exec_perform rfl h (suspendJobAction_verify hn hk),
      fun hk hr => exec_refuse rfl h (suspendJobAction_notRunning hn hk hr),
      fun hk hr he hs => exec_refuse rfl h (suspendJobAction_tooSoon hn hk hr he hs), fun hk hr hs => ?_⟩,
    fun h => ⟨fun hs => exec_refuse rfl h (resumeJobAction_notSuspended hn hs), fun hs hseq => ?_⟩,
    fun h => ⟨fun ht => exec_refuse rfl h (abortJobAction_ended hn ht), fun ht => ?_⟩,
    fun h => ⟨fun ht => (exec_perform rfl h (jobStatusAction_eq hn)).trans (by simp [ht]),
      fun ht => (exec_perform rfl h (jobStatusAction_eq hn)).trans (by simp [ht])⟩⟩
  · have hexec := exec_perform (c := .suspendJob) rfl h (suspendJobAction_ok hn hk hr hs)
    refine ⟨fun ho => ?_, fun ho => ⟨(s.withdrawJob j).setSlot i (some { j with state := .suspended }),
      State.slot_setSlot_same _ _ _, s.withdrawJob_jobPending (by rw [hr]; rfl), ?_⟩⟩
    · rw [hexec, State.suspend, if_pos ho, State.modJob_of_slot hj]
    · rw [hexec, State.suspend_idle hj ho]
  · refine ⟨(s.modJob i fun j => { j with sinceResume := 0, resumedEver := true }).enterQueued i, ?_,
      exec_perform rfl h (resumeJobAction_ok hn hs)⟩
    rw [State.modJob_of_slot hj]
    exact State.enterQueued_slot (State.slot_setSlot_same _ _ _) hseq
  · obtain ⟨hdfl, hcat, hport, -, hpatrol, hrequested⟩ :=
      State.endJob_spec (State.withdrawn_dropWork_slot hj) .aborted .aborted
    refine ⟨((s.withdrawJob j).dropWork i).endJob i .aborted .aborted, hpatrol, fun ho => ?_, ?_,
      hcat.trans (s.withdrawJob_frame j).2.2, fun ha => ?_, exec_perform rfl h (abortJobAction_ok hn ht)⟩
    · obtain ⟨n, hslot⟩ := hrequested ho
      exact ⟨_, hslot, rfl, rfl, rfl, rfl, rfl, rfl, rfl, rfl⟩
    · rw [hdfl]
      simp [State.dropWork, State.leaveStall]
    · rw [hport]
      exact s.withdrawJob_jobPending ha

/-- Settles O50: a whole GOOD reply to a frame read, then each outcome of a read, what becomes of its findings, the
boundaries, and the place of a block. -/
theorem framesSettle : Obligations.FramesSettle := by
  refine ⟨fun s p bytes r o i j t d e hb ho hc htag hst hr hd hy hi hj hp hrun ht hk hm href he hcur => ?_,
    fun s p bytes r o i j t d e hb ho hc htag hst hr hd hy hi hj hp hrun ht hk hm href he hcur hn => ?_,
    fun s i j t o hj ht hk => ?_, fun s i j f hj => ?_, fun j f hk => ?_, fun s i j hj hk => ?_,
    fun s i j hj => State.enterWaitMedia_spec hj, fun s i j o e hj hk ht hrun he => ?_, fun s i j hj hk hrun => ?_,
    fun j f st e hk hs he => ?_, fun s j vol n a hv => State.verifyPlace_spec hv a⟩
  · exact ⟨_, exec_driveReply_job hb ho hc htag hst hi,
      settle_frameGood (outcomeOf_digest hr hd) hj hp ht hm hy hrun hk he hcur href⟩
  · have hexec := exec_driveReply_job hb ho hc htag hst hi
    have hd' := outcomeOf_digest hr hd
    refine ⟨fun hl => ?_, fun hl => ?_⟩
    · obtain ⟨hslot, hlength, x, hx⟩ := settle_frameMismatch hd' hj hp ht hm hy hrun hk he hcur href hl hn
      exact ⟨_, x, hexec, hslot, hlength, hx⟩
    · obtain ⟨hslot, hlength, horder⟩ := settle_frameStalled hd' hj hp ht hm href hl hn
      exact ⟨_, _, hexec, hslot, rfl, rfl, rfl, hlength, horder⟩
  · intro origin noReferences frame
    refine ⟨State.readOutcome_notReady hj ht, fun hunloaded => ?_, fun m hload hindex => ?_⟩
    · have hm := Job.manifestLoaded_eq_false hunloaded
      have hfinding : j.scrubFindingAt t .manifest none none = noReferences := Job.scrubFindingAt_manifest hk t
      rw [← hfinding]
      exact ⟨fun slots check => State.readOutcome_manifestSound hj ht hm,
        fun slots check => State.readOutcome_manifestUnsound hj ht hm, State.readOutcome_manifestUnread hj ht hm⟩
    · have hm : j.manifestLoaded = true := j.manifestLoaded_iff.mpr ⟨m, hload, hindex⟩
      have href := Job.reference_of_manifest hload
      refine ⟨fun d hs hd => ⟨fun heq => ?_, fun hne => ?_⟩, fun hs => ?_⟩
      · exact State.readOutcome_frameGood hj ht hm hs hd (by rw [href, heq])
      · have hother : j.reference ≠ some d := by
          rw [href]
          exact fun h => hne (Option.some.inj h).symm
        rw [State.readOutcome_frameMismatch hj ht hm hs hd hother, Job.scrubFindingAt_frame hk t (.inl rfl), href]
      · rw [State.readOutcome_frameUnread hj ht hm hs, Job.scrubFindingAt_frame hk t (.inr rfl), href]
  · exact ⟨State.scrubFinding_full, State.scrubFinding_taken hj, State.stallJob_spec hj f⟩
  · exact ⟨fun n k c => Job.completeFinding_frame hk, fun n k m e => Job.completeFinding_manifest hk⟩
  · refine ⟨State.boundary_suspend hj hk, State.boundary_yield hj hk, fun e hs hy he hc => ?_,
      fun e t en c hs hy he hc ht hen hcopy => ?_⟩
    · rw [State.boundary_end hj hk hs hy he hc]
      obtain ⟨hcat, hdfl, hport, hpatrol, hrequested⟩ := State.finishJob_spec hj
      obtain ⟨hscrub, hsame⟩ := s.recordScrub_cat j
      exact ⟨hpatrol, hrequested, fun t hreel ht hset => hcat.trans (hscrub t hreel ht hset),
        fun h => hcat.trans (hsame h), hdfl, hport⟩
    · rw [State.boundary_claim hj hk hs hy he hc ht hen hcopy]
      refine ⟨fun hunloaded => ?_, fun m hload hindex => ?_⟩
      · rw [scrubClaim_manifest (Job.manifestLoaded_eq_false hunloaded)]
        rfl
      · rw [scrubClaim_frame (j.manifestLoaded_iff.mpr ⟨m, hload, hindex⟩)]
        rfl
  · intro n finding settled
    rw [State.readOutcome_verify o hj ht]
    refine ⟨State.verifyOutcome_notReady, State.verifyOutcome_good hj,
      fun hs hl => State.verifyOutcome_room hj hrun he hs hl, fun a rest hs ho hl => ?_⟩
    intro f hn left
    have hfinding : s.verifyFinding j a = f := rfl
    have hleft : s.stillRemaining j (s.verifyPlace j (j.cursor + a)) rest = left :=
      congrArg (rest.filter ·) (funext fun b => congrArg not (Bool.and_comm ..))
    obtain ⟨hslot, hdfl⟩ := State.verifyOutcome_stalls hj hl hn hs ho
    rw [hfinding, hleft] at hslot
    exact ⟨_, rfl, hslot, hdfl⟩
  · refine ⟨State.boundary_verifyYield hj hk, fun e hy hs he => ⟨State.boundary_verifyDone hj hk hrun hy hs he,
      State.boundary_verifyClaim hj hk hrun hy hs he⟩, fun st e hy hs he => ⟨fun hl => ?_, fun hne hl hended => ?_⟩⟩
    · obtain ⟨v, hboundary, hslot⟩ := State.verifyBoundary_room hj hk hrun hy hs hl
      exact ⟨v, hboundary, by rw [hslot, Job.settled_eq he]⟩
    · obtain ⟨remaining, total⟩ := st
      cases remaining with
      | nil => exact absurd rfl hne
      | cons a rest =>
        obtain ⟨hslot, horder⟩ := State.boundary_verifyStalls hj hl (fun x hx _ => .inl (hended x hx)) hk hy hs
        exact ⟨_, _, hslot, Nat.lt_succ_of_le (s.stillRemaining_length _ _ rest), horder⟩
  · intro n
    rw [Job.completeFinding_verify hk hs]
    exact ⟨fun h => by rw [if_pos h, Job.settled_eq he], fun h => if_neg h⟩

/-- Settles O52: the checks of the three requests in order, and stall admission one job at a time. -/
theorem defectRequestsAct : Obligations.DefectRequestsAct := by
  refine ⟨fun s r => ⟨fun h => ⟨fun hn => exec_refuse rfl h (readDefectsAction_pastEnd hn s),
      fun hn => exec_perform rfl h (readDefectsAction_ok hn s)⟩, fun hn => ?_, fun x h0 hx => ?_⟩,
    fun s => ⟨fun h => ?_, State.admission_of_eq, fun told n ho => State.admitStalled_nil ho n told,
      fun i rest j f told n ho hj hf => ⟨fun ha => State.admitStalled_added ho hj hf ha n told,
        fun ha => State.admitStalled_duplicate ho hj hf ha n told⟩,
      fun i rest j f hl ho hj hf ha => ?_,
      fun i j f hj hs => ⟨State.goOn_yielded hj hs f, State.goOn_running hj hs f⟩⟩⟩
  · obtain ⟨hremove, hretry⟩ := defectActions_noRecord (State.namedRecord_eq_none hn)
    exact ⟨fun h => exec_refuse rfl h hremove, fun h => exec_refuse rfl h hretry⟩
  · have hnamed := State.namedRecord_eq_some h0 hx
    have hid := State.record_id hx
    refine ⟨fun h => ⟨fun ht => exec_refuse rfl h (removeDefectAction_live hnamed ht), fun ht => ?_⟩,
      fun h => ⟨fun hs => exec_refuse rfl h (retryDefectAction_noted hnamed hs),
        fun hs hl hf => exec_refuse rfl h (retryDefectAction_notTerminal hnamed hs hl hf),
        fun hs => ⟨fun hk => exec_refuse rfl h (retryDefectAction_busy hnamed hs hk), fun hk => ⟨_, rfl, ?_⟩⟩⟩⟩
    · have hexec := exec_perform (c := .removeDefect) rfl h (removeDefectAction_ok hnamed ht)
      have hrecords := State.dropRecord_records hx
      refine ⟨s.dropRecord x.id, hrecords, ?_, rfl, rfl, rfl, fun hl => ?_, fun _ => hexec⟩
      · rw [hrecords, List.length_erase_add_one (State.record_mem hx)]
      · rw [hexec, State.removeRecord, State.admission_of_ne hl]
    · rw [← hid]
      exact exec_perform rfl h (retryDefectAction_ok hnamed hs hk)
  · by_cases hl : s.dfl.records.length = 255
    · have ho := h.resolve_left (not_not_intro hl)
      rw [State.admission_of_eq hl, State.admitStalled_nil ho]
      rfl
    · exact State.admission_of_ne hl
  · rw [State.admission_of_eq hl, ho, List.length_cons, State.admitStalled_added ho hj hf ha]
    rfl

end

section
/-! SUPPORT. Findings judged (R101 to R104): what a choice of RPU leaves of the list, and each way a finding can go. -/

namespace Sys2Proof.Machine

open Sys2Proof

/-! ### What a choice leaves of the list (R117 to R119) -/

/-- A record but for what a choice changes: state and detail. -/
def Record.unchosen (r : Record) : Record := { r with state := .noted, detail := none }

/-- A defect list but for the states and details of its records. -/
def Dfl.unchosen (d : Dfl) : Dfl := { d with records := d.records.map Record.unchosen }

/-- The same defect list, but for the states and details of its records. -/
def State.KeepsList (s t : State) : Prop := t.dfl.unchosen = s.dfl.unchosen

namespace State.KeepsList

variable {s t u : State}

theorem of_dfl (h : t.dfl = s.dfl) : s.KeepsList t := congrArg Dfl.unchosen h

theorem trans (h : s.KeepsList t) (k : t.KeepsList u) : s.KeepsList u := Eq.trans k h

theorem records (h : s.KeepsList t) : t.dfl.records.map Record.unchosen = s.dfl.records.map Record.unchosen :=
  congrArg Dfl.records h

theorem size (h : s.KeepsList t) : t.dfl.records.length = s.dfl.records.length := by
  simpa using congrArg List.length h.records

theorem stallOrder (h : s.KeepsList t) : t.dfl.stallOrder = s.dfl.stallOrder :=
  show t.dfl.unchosen.stallOrder = s.dfl.unchosen.stallOrder from congrArg Dfl.stallOrder h

/-- The newest record is the one it was, but for its state and detail. -/
theorem newest {rest : List Record} {r : Record} (h : s.KeepsList t) (hs : s.dfl.records = rest ++ [r]) :
    ∃ x, t.dfl.records.getLast? = some x ∧ x.unchosen = r.unchosen := by
  have hlast := congrArg List.getLast? h.records
  simpa [hs] using hlast

end State.KeepsList

theorem State.modRecord_keepsList (s : State) (id : Nat) {f : Record → Record} (h : ∀ r, (f r).unchosen = r.unchosen) :
    s.KeepsList (s.modRecord id f) := by
  have hrecords : (s.modRecord id f).dfl.records.map Record.unchosen = s.dfl.records.map Record.unchosen := by
    simp only [State.modRecord, List.map_map]
    refine List.map_congr_left fun r _ => ?_
    simp only [Function.comp]
    split
    exacts [h r, rfl]
  exact congrArg (fun l => { s.dfl with records := l }) hrecords

theorem State.giveResult_keepsList (s : State) (id : Nat) (st : DefectState) (d : Option OutcomeDetail) :
    s.KeepsList (s.giveResult id st d) := by
  have hmod := s.modRecord_keepsList id (f := fun r => { r with state := st, detail := d }) fun _ => rfl
  simp only [State.giveResult]
  split
  · exact hmod
  · refine hmod.trans (.of_dfl ((State.post_dfl _ _).trans ?_))
    split <;> rfl

/-- Entering the first step of a repair leaves the list as it is (R121, R122). -/
theorem State.enterRepair_dfl (s : State) : s.enterReference.dfl = s.dfl ∧ s.enterSource.dfl = s.dfl := by
  unfold State.enterReference State.enterSource
  constructor <;> split <;> rfl

theorem State.takeRecord_keepsList (s : State) (r : Record) (t : Target) (src tgt : CopyDesc) :
    s.KeepsList (s.takeRecord r t src tgt) := by
  refine (s.modRecord_keepsList r.id (f := fun r => { r with state := .repairing, detail := none })
    fun _ => rfl).trans ?_
  simp only [State.takeRecord]
  split
  exacts [.of_dfl (State.enterRepair_dfl _).1, .of_dfl (State.enterRepair_dfl _).2]

theorem State.choose_keepsList (l : List Record) : ∀ s : State, s.KeepsList (s.choose l) := by
  induction l with
  | nil => exact fun s => .of_dfl rfl
  | cons r rest ih =>
    intro s
    unfold State.choose
    split
    · exact s.takeRecord_keepsList r _ _ _
    · exact (s.modRecord_keepsList r.id (f := fun r => { r with detail := some .writeProtected })
        fun _ => rfl).trans (ih _)
    · exact (s.giveResult_keepsList _ _ _).trans (ih _)
    · exact ih s

theorem rpuChoice_keepsList (s : State) : s.KeepsList (rpuChoice s) := by
  unfold rpuChoice
  split
  exacts [State.choose_keepsList _ s, .of_dfl rfl]

/-! ### Each way a finding can go (R102, R103, R104) -/

/-- The state with a finding's record at the newest position, and the id counter after its id (R101, R103). -/
def State.enlist (s : State) (f : Finding) : State :=
  { s with dfl := { s.dfl with
    records := s.dfl.records ++ [s.newRecord f], nextId := nextIdAfter (s.newRecord f).id } }

/-- The record enlisted and its DEFECT_FOUND posted (R103, R113). -/
def State.announce (s : State) (f : Finding) : State :=
  (s.enlist f).post (defectFound (s.newRecord f) (s.dfl.records.length + 1))

theorem State.announce_dfl (s : State) (f : Finding) : (s.announce f).dfl = (s.enlist f).dfl := State.post_dfl _ _

/-- A record that begins PENDING is told to RPU (R100, R103). -/
theorem State.addRecord_eq (s : State) (f : Finding) :
    s.addRecord f = if s.createdState f.place = .pending then rpuChoice (s.announce f) else s.announce f := by
  have hsize : (s.enlist f).dfl.records.length = s.dfl.records.length + 1 := by simp [State.enlist]
  rw [State.announce, ← hsize]
  rfl

theorem State.addRecord_keepsList (s : State) (f : Finding) : (s.enlist f).KeepsList (s.addRecord f) := by
  rw [State.addRecord_eq]
  split
  exacts [.trans (.of_dfl (s.announce_dfl f)) (rpuChoice_keepsList _), .of_dfl (s.announce_dfl f)]

/-- Where RPU is not told of a new record, or makes no choice, the record stands as it was made (R103, R117). -/
theorem State.addRecord_records {s : State} {f : Finding}
    (h : s.createdState f.place ≠ .pending ∨ s.mode ≠ .run ∨ s.rpu.phase ≠ .idle) :
    (s.addRecord f).dfl.records = s.dfl.records ++ [s.newRecord f] := by
  have hannounced : (s.announce f).dfl.records = s.dfl.records ++ [s.newRecord f] :=
    congrArg Dfl.records (s.announce_dfl f)
  rw [State.addRecord_eq]
  split
  · next hpending =>
    have hpost := (s.enlist f).post_keeps (defectFound (s.newRecord f) (s.dfl.records.length + 1))
    obtain ⟨-, -, -, -, hrpu⟩ := (s.enlist f).post_frame (defectFound (s.newRecord f) (s.dfl.records.length + 1))
    have hbusy := h.resolve_left (not_not_intro hpending)
    rw [rpuChoice_eq_self (s.announce f) (hbusy.imp (hpost.mode ▸ ·) (fun k e => k (hrpu ▸ e)))]
    exact hannounced
  · exact hannounced

section ways

variable {s : State} {f : Finding}

theorem State.takeFinding_duplicate {x : Record} (h : s.dfl.records.find? (fun r => r.matchesKey f.place) = some x) :
    s.takeFinding f = (.duplicate, s.modRecord x.id (fun r => { r with seen := saturate 255 r.seen })) := by
  simp only [State.takeFinding, h]

variable (h : s.dfl.records.find? (fun r => r.matchesKey f.place) = none)
include h

theorem State.takeFinding_new (hl : s.dfl.records.length < 256) : s.takeFinding f = (.added, s.addRecord f) := by
  simp only [State.takeFinding, h]
  exact if_pos hl

theorem State.takeFinding_listFull (hl : 256 ≤ s.dfl.records.length) : s.takeFinding f = (.full, s) := by
  simp only [State.takeFinding, h]
  exact if_neg (Nat.not_lt.mpr hl)

end ways

/-- Judging a finding leaves the stall order, and makes the list longer by one exactly where the finding is added. -/
theorem State.takeFinding_size (s : State) (f : Finding) :
    (s.takeFinding f).2.dfl.stallOrder = s.dfl.stallOrder ∧ (s.takeFinding f).2.dfl.records.length =
      if (s.takeFinding f).1 = .added then s.dfl.records.length + 1 else s.dfl.records.length := by
  cases hfind : s.dfl.records.find? (fun r => r.matchesKey f.place) with
  | some x =>
    obtain ⟨hsize, horder, -⟩ := s.modRecord_dfl x.id (fun r => { r with seen := saturate 255 r.seen })
    rw [State.takeFinding_duplicate hfind]
    exact ⟨horder, hsize⟩
  | none =>
    by_cases hl : s.dfl.records.length < 256
    · have hlist := s.addRecord_keepsList f
      rw [State.takeFinding_new hfind hl]
      exact ⟨hlist.stallOrder, hlist.size.trans (by simp [State.enlist])⟩
    · rw [State.takeFinding_listFull hfind (Nat.not_lt.mp hl)]
      exact ⟨rfl, rfl⟩

/-! ### The record made (R101, R103) -/

/-- 65,535 is followed by 1. -/
theorem nextIdAfter_eq (n : Nat) : nextIdAfter n = if n < 65535 then n + 1 else 1 := by
  by_cases h : n < 65535
  · rw [if_pos h]
    exact if_neg (Nat.not_le.mpr h)
  · rw [if_neg h]
    exact if_pos (Nat.not_lt.mp h)

/-- A block's record begins NOTED, as no reel is named (R99, R103). -/
theorem State.createdState_block (s : State) (a : Nat) : s.createdState (.block a) = .noted := rfl

/-- A record of a catalogued reel begins as the reel's lock says (R103). -/
theorem State.createdState_of_entry {s : State} {pl : Place} {t : Target} {e : Entry} (ht : pl.target = some t)
    (he : s.entry t.reel = some e) : s.createdState pl = if e.locked then .held else .pending := by
  simp only [State.createdState, ht, he]

/-- An id not in use is taken as it stands (R101). -/
theorem State.newDefectId_free {s : State} (h : ∀ y ∈ s.dfl.records, y.id ≠ s.dfl.nextId) :
    s.newDefectId = s.dfl.nextId := by
  refine freeId_of_not_mem (fun hmem => ?_) _
  obtain ⟨y, hy, hid⟩ := List.mem_map.mp hmem
  exact h y hy hid

end Sys2Proof.Machine
end

section
/-! SUPPORT. Stall admission after a removal (R104, R106): it ends with the list full, or with no job stalled. -/

namespace Sys2Proof.Machine

open Sys2Proof

theorem Dfl.sound_of_no_stall {d : Dfl} (hl : d.records.length ≤ 256) (ho : d.stallOrder = []) : d.Sound :=
  ⟨hl, fun h => absurd ho h⟩

theorem Dfl.sound_of_full {d : Dfl} (hl : d.records.length = 256) : d.Sound := ⟨hl.le, fun _ => hl⟩

/-- The front job leaves the stall order. -/
theorem State.leaveStall_shorter {s : State} {i : SlotId} {rest : List SlotId} (h : s.dfl.stallOrder = i :: rest) :
    (s.leaveStall i).dfl.stallOrder.length ≤ rest.length := by
  have hfront : (s.leaveStall i).dfl.stallOrder = rest.filter (fun k => decide (k ≠ i)) := by
    simp [State.leaveStall, h]
  rw [hfront]
  exact List.length_filter_le _ _

/-- With 255 records the walk ends with 256, or after the last stalled job (R106). -/
theorem State.admitStalled_sound (n : Nat) : ∀ (s : State) (told : List (SlotId × Finding)),
    s.dfl.records.length = 255 → s.dfl.stallOrder.length ≤ n → (State.admitStalled n s told).1.dfl.Sound := by
  induction n with
  | zero =>
    intro s told hl hn
    exact Dfl.sound_of_no_stall (hl.trans_le (by decide)) (List.length_eq_zero_iff.mp (Nat.le_zero.mp hn))
  | succ n ih =>
    intro s told hl hn
    unfold State.admitStalled
    split
    · next ho => exact Dfl.sound_of_no_stall (hl.trans_le (by decide)) ho
    · next i rest ho =>
      have hrest : rest.length ≤ n := by simpa [ho] using hn
      split
      · exact ih _ _ hl ((State.leaveStall_shorter ho).trans hrest)
      · next f _ =>
        obtain ⟨horder, hsize⟩ := s.takeFinding_size f
        split
        · next s1 e =>
          exact absurd (congrArg Prod.fst e) (State.takeFinding_room f (by rw [hl]; decide))
        · next s1 e =>
          rw [e] at horder hsize
          exact ih _ _ (hsize.trans hl) ((State.leaveStall_shorter (horder.trans ho)).trans hrest)
        · next s1 e =>
          rw [e] at hsize
          exact Dfl.sound_of_full (hsize.trans (congrArg (· + 1) hl))

/-- A record taken out of a sound list, and the admission that follows, leave a sound list (R97, R106). -/
theorem State.admission_sound {s : State} {n : Nat} {x : Record} (hx : s.record n = some x) (h : s.dfl.Sound) :
    (s.dropRecord x.id).admission.dfl.Sound := by
  have hsize : (s.dropRecord x.id).dfl.records.length + 1 = s.dfl.records.length := by
    rw [State.dropRecord_records hx, List.length_erase_add_one (State.record_mem hx)]
  have hcap : s.dfl.records.length ≤ 256 := h.capacity
  by_cases hl : (s.dropRecord x.id).dfl.records.length = 255
  · rw [State.admission_of_eq hl]
    exact (State.foldGoOn_keeps _ _).defects (State.admitStalled_sound _ _ _ hl le_rfl)
  · rw [State.admission_of_ne hl]
    refine Dfl.sound_of_no_stall (by omega) ?_
    by_contra ho
    have hfull : s.dfl.records.length = 256 := h.stalled ho
    omega

theorem State.record_of_namedRecord {s : State} {n : Nat} {x : Record} (h : s.namedRecord n = some x) :
    s.record n = some x := by
  unfold State.namedRecord at h
  split at h
  exacts [(nomatch h), h]

end Sys2Proof.Machine
end

section
/-! SUPPORT. The defect list stays sound (R97, R104) under every command: units' work keeps it so, a removal admits
stalled jobs, resets and start-up empty the list, and the other commands leave it. -/

namespace Sys2Proof.Machine

open Sys2Proof

/-! ### What keeps it -/

/-- A state that may follow `s` where the defect list is sound (R97, R104). -/
def State.SparesDefects (s t : State) : Prop := s.dfl.Sound → t.dfl.Sound

namespace State.SparesDefects

variable {s t u : State}

theorem of_dfl (h : t.dfl = s.dfl) : s.SparesDefects t := fun k => h ▸ k

theorem of_cleared (h : t.dfl = Dfl.cleared) : s.SparesDefects t := fun _ =>
  h ▸ Dfl.sound_of_no_stall (Nat.zero_le _) rfl

theorem trans (h : s.SparesDefects t) (k : t.SparesDefects u) : s.SparesDefects u := k ∘ h

theorem settle (h : s.SparesDefects t) : s.SparesDefects (settle t) := h.trans (settle_settles t).dflSound

end State.SparesDefects

theorem State.Keeps.sparesDefects {s t : State} (h : s.Keeps t) : s.SparesDefects t := h.defects

theorem State.KeepsJobs.sparesDefects {s t : State} (h : s.KeepsJobs t) : s.SparesDefects t := h.defects

theorem State.Moves.sparesDefects {s t : State} (h : s.Moves t) : s.SparesDefects t := h.defects

/-- Entering RUN is units' work (R180). -/
theorem enterRun_keeps (s : State) : s.Keeps (enterRun s) := (evaluateAll_keeps s).trans (rpuChoice_keeps _).toKeeps

/-! ### Requests on the part and its ports -/

section actions

variable (p : List Byte) (s : State)

theorem setModeAction_sparesDefects : (setModeAction p s).Leaves s.SparesDefects := by
  have hrun : ∀ a, s.SparesDefects (s.setRun a) := by
    intro a
    simp only [State.setRun]
    split
    exacts [.of_dfl rfl, (enterRun_keeps { s with autoRun := a, mode := .run }).sparesDefects.settle]
  simp only [setModeAction]
  split
  · trivial
  · split
    · trivial
    · split
      · split
        exacts [trivial, .of_dfl rfl]
      · exact hrun _

theorem setTimeAction_sparesDefects : (setTimeAction p s).Leaves s.SparesDefects :=
  (evaluateAll_keeps (s.setClock _)).sparesDefects.settle

theorem setPatrolAction_sparesDefects : (setPatrolAction p s).Leaves s.SparesDefects := by
  simp only [setPatrolAction]
  split
  · trivial
  · split
    · split
      · trivial
      · split
        exacts [.of_dfl rfl, (evaluateAll_keeps (s.setPatrol true)).sparesDefects.settle]
    · exact .of_dfl rfl

theorem convertAction_sparesDefects : (convertAction p s).Leaves s.SparesDefects := by
  simp only [convertAction]
  split
  · trivial
  · split
    · trivial
    · split
      · split
        exacts [trivial, .of_dfl rfl]
      · split
        exacts [.of_dfl rfl, trivial]

theorem portConfigAction_sparesDefects : (portConfigAction p s).Leaves s.SparesDefects := by
  unfold portConfigAction
  split
  exacts [trivial, .of_dfl rfl]

theorem portStatusAction_sparesDefects : (portStatusAction p s).Leaves s.SparesDefects := by
  unfold portStatusAction
  split
  exacts [trivial, .of_dfl rfl]

/-- Bringing a port back posts a notice and changes that port (R55). -/
theorem State.bringOnline_dfl (n : PortId) : (s.bringOnline n).dfl = s.dfl := by
  have hback : (s.broughtBack n).dfl = s.dfl := State.post_dfl _ _
  rw [State.bringOnline_eq]
  split
  exacts [hback, hback]

theorem portOnlineAction_sparesDefects : (portOnlineAction p s).Leaves s.SparesDefects := by
  unfold portOnlineAction
  split
  · trivial
  · split
    · exact .of_dfl rfl
    · split
      exacts [trivial, State.SparesDefects.settle (.of_dfl (s.bringOnline_dfl _))]

theorem marginReadAction_sparesDefects : (marginReadAction p s).Leaves s.SparesDefects := by
  unfold marginReadAction
  split
  exacts [trivial, .of_dfl rfl]

/-! ### Requests on the catalogue and on stores -/

theorem addReelAction_sparesDefects : (addReelAction p s).Leaves s.SparesDefects := by
  simp only [addReelAction]
  split
  · trivial
  · split
    · trivial
    · split
      · trivial
      · split
        exacts [trivial, .of_dfl rfl]

theorem editReelAction_sparesDefects : (editReelAction p s).Leaves s.SparesDefects := by
  simp only [editReelAction]
  split
  · trivial
  · split
    exacts [trivial, .of_dfl rfl]

theorem removeReelAction_sparesDefects : (removeReelAction p s).Leaves s.SparesDefects := by
  unfold removeReelAction
  split
  exacts [trivial, .of_dfl rfl]

theorem readReelAction_sparesDefects : (readReelAction p s).Leaves s.SparesDefects := by
  unfold readReelAction
  split
  exacts [trivial, .of_dfl rfl]

theorem listReelsAction_sparesDefects : (listReelsAction p s).Leaves s.SparesDefects := by
  simp only [listReelsAction]
  split
  exacts [trivial, .of_dfl rfl]

theorem freezeReelAction_sparesDefects : (freezeReelAction p s).Leaves s.SparesDefects := by
  unfold freezeReelAction
  split
  · trivial
  · split
    exacts [trivial, .of_dfl rfl]

theorem storeAction_sparesDefects : (storeAction p s).Leaves s.SparesDefects := by
  unfold storeAction
  split
  exacts [trivial, .of_dfl rfl]

theorem restoreFactoryAction_sparesDefects : (restoreFactoryAction p s).Leaves s.SparesDefects := by
  obtain ⟨-, hdfl, -⟩ := s.restored_frame
  unfold restoreFactoryAction
  split
  · trivial
  · split
    exacts [trivial, .of_dfl hdfl]

theorem lockAction_sparesDefects (b : Bool) : (lockAction b p s).Leaves s.SparesDefects := by
  unfold lockAction
  split
  · trivial
  · split
    exacts [.of_dfl rfl, (s.lockReel_keeps _ b).sparesDefects.settle]

theorem lockAllAction_sparesDefects (b : Bool) : (lockAllAction b p s).Leaves s.SparesDefects :=
  (s.lockEvery_keeps b).sparesDefects.settle

/-! ### Requests on jobs -/

/-- A job created by a request (R88, R89), in RUN. -/
theorem State.startJob_sparesDefects (hm : s.mode = .run) (i : SlotId) {j : Job} (hj : j.state = .queued) :
    s.SparesDefects (s.startJob i j) :=
  ((s.createJob_keeps i j hm hj).trans (State.followUp_keeps _ _)).sparesDefects.settle

theorem startScrubAction_sparesDefects (hm : s.mode = .run) : (startScrubAction p s).Leaves s.SparesDefects := by
  unfold startScrubAction
  split
  · trivial
  · split
    · trivial
    · split
      · trivial
      · split
        · trivial
        · split
          · trivial
          · split
            exacts [trivial, s.startJob_sparesDefects hm _ (newJob_state _ _ _ _ _ _ _)]

theorem startVerifyAction_sparesDefects (hm : s.mode = .run) : (startVerifyAction p s).Leaves s.SparesDefects := by
  unfold startVerifyAction
  split
  · trivial
  · split
    · trivial
    · split
      · trivial
      · split
        exacts [trivial, s.startJob_sparesDefects hm _ (newJob_state _ _ _ _ _ _ _)]

theorem suspendJobAction_sparesDefects : (suspendJobAction p s).Leaves s.SparesDefects := by
  unfold suspendJobAction
  split
  · trivial
  · next i j hj =>
    split
    · exact .of_dfl rfl
    · split
      · trivial
      · next hrun =>
        have ha : s.ActiveAt i := ⟨j, State.jobNamed_slot hj, by rw [not_not.mp hrun]; rfl⟩
        split
        exacts [trivial, (s.suspend_keeps i j ha).sparesDefects.settle]

theorem resumeJobAction_sparesDefects : (resumeJobAction p s).Leaves s.SparesDefects := by
  unfold resumeJobAction
  split
  · trivial
  · next i j hj =>
    split
    · trivial
    · next hsuspended =>
      have hl : s.LiveAt i := by
        intro k hk
        cases (State.jobNamed_slot hj).symm.trans hk
        rw [not_not.mp hsuspended]
        rfl
      exact (s.resume_keeps i j hl).sparesDefects.settle

theorem abortJobAction_sparesDefects : (abortJobAction p s).Leaves s.SparesDefects := by
  unfold abortJobAction
  split
  · trivial
  · split
    exacts [trivial, (s.abort_keeps _ _).sparesDefects.settle]

theorem jobStatusAction_sparesDefects : (jobStatusAction p s).Leaves s.SparesDefects := by
  unfold jobStatusAction
  split
  · trivial
  · refine .of_dfl ?_
    split <;> rfl

/-! ### Requests on the defect list -/

theorem readDefectsAction_sparesDefects : (readDefectsAction p s).Leaves s.SparesDefects := by
  simp only [readDefectsAction]
  split
  exacts [trivial, .of_dfl rfl]

theorem removeDefectAction_sparesDefects : (removeDefectAction p s).Leaves s.SparesDefects := by
  unfold removeDefectAction
  split
  · trivial
  · next x hx =>
    have hadmission : s.SparesDefects (s.dropRecord x.id).admission :=
      State.admission_sound (State.record_of_namedRecord hx)
    split
    exacts [(hadmission.trans (State.evaluate_keeps _ _).sparesDefects).settle, trivial]

theorem State.retryRecord_sparesDefects (r : Record) : s.SparesDefects (s.retryRecord r) := by
  have hput := s.modRecord_keeps r.id
    (fun x => { x with state := s.createdState r.place, attempts := 0, detail := none })
  simp only [State.retryRecord]
  split
  exacts [(hput.trans (rpuChoice_keeps _)).sparesDefects.settle, hput.sparesDefects.settle]

theorem retryDefectAction_sparesDefects : (retryDefectAction p s).Leaves s.SparesDefects := by
  unfold retryDefectAction
  split
  · trivial
  · split
    · trivial
    · split
      · trivial
      · split
        exacts [trivial, s.retryRecord_sparesDefects _]

end actions

/-! ### Events of a drive port -/

section events

variable (s : State) (p : PortId)

theorem State.handOutcome_sparesDefects (c : Option Claimant) (o : DriveOutcome) :
    s.SparesDefects (s.handOutcome p c o) := by
  unfold State.handOutcome
  split
  · exact .of_dfl rfl
  · exact (s.settleLabel_keeps p o).sparesDefects
  · exact (s.rpuOutcome_keeps p o).sparesDefects
  · split
    · exact .of_dfl rfl
    · next i hi =>
      exact ((s.readOutcome_keeps i o (State.activeSlot_activeAt hi)).trans (State.followUp_keeps _ p)).sparesDefects

theorem State.takeReply_sparesDefects (o : Outstanding) (r : DriveReply) : s.SparesDefects (s.takeReply p o r) := by
  unfold State.takeReply
  split
  · exact (s.portError_moves p).sparesDefects
  · exact (s.portError_moves p).sparesDefects
  · exact (((s.finish_moves p).trans (State.returnToNormal_moves _ p)).trans
      (State.feedReply_moves _ p _ _ _)).sparesDefects.trans (State.handOutcome_sparesDefects _ p _ _)

theorem execDriveReply_sparesDefects (bytes : List Byte) :
    ∃ t, execDriveReply p bytes s = .next t ∧ s.SparesDefects t := by
  refine ⟨_, rfl, ?_⟩
  split
  · exact .of_dfl rfl
  · unfold State.offerReply
    split
    · exact .of_dfl rfl
    · split
      exacts [(s.takeReply_sparesDefects p _ _).settle, .of_dfl rfl]

/-- The claimant of a cut command is told (R48): no finding comes of it. -/
theorem State.tellCut_sparesDefects (o : Outstanding) : s.SparesDefects (s.tellCut p o) := by
  unfold State.tellCut
  split
  · exact .of_dfl rfl
  · split <;> exact .of_dfl rfl
  · exact (s.rpuCut_keeps p _).sparesDefects
  · split
    · exact .of_dfl rfl
    · next i hi =>
      split
      · exact .of_dfl rfl
      · split
        · exact (State.followUp_keeps (s.modJob i _) p).sparesDefects
        · exact ((s.enterWaiting_active_keeps i _ (State.activeSlot_activeAt hi)).trans
            (State.followUp_keeps _ p)).sparesDefects

theorem State.gntFallen_sparesDefects : s.SparesDefects (s.gntFallen p) := by
  simp only [State.gntFallen]
  split
  · exact .of_dfl rfl
  · split
    · exact State.tellCut_sparesDefects (State.modPort (s.setPort p _) p Port.finish) p _
    · exact (State.portError_moves (s.setPort p _) p).sparesDefects

theorem execGntFall_sparesDefects : ∃ t, execGntFall p s = .next t ∧ s.SparesDefects t := by
  refine ⟨_, rfl, ?_⟩
  split
  · exact .of_dfl rfl
  · split
    exacts [(s.gntFallen_sparesDefects p).settle, .of_dfl rfl]

/-- An event that comes to work on its port. -/
theorem State.ActsOn.sparesDefects {o : Host.Outcome State Fault Refusal} (h : s.ActsOn p o) :
    ∃ t, o = .next t ∧ s.SparesDefects t := by
  obtain ⟨u, hu, rfl | rfl⟩ := h
  exacts [⟨u, rfl, hu.moves.sparesDefects⟩, ⟨settle u, rfl, hu.moves.sparesDefects.settle⟩]

end events

/-! ### Resets, start-up and the timers -/

theorem State.finishStartUp_sparesDefects (s : State) : s.SparesDefects s.finishStartUp := by
  have hposted : ∀ (u : State) (n : Notice), (takePosted (u.post n)).dfl = u.dfl := by
    intro u n
    rw [takePosted_frame]
    exact State.post_dfl u n
  have hloaded : s.SparesDefects (takePosted
      (State.post { s with mode := s.startMode } (startUpNotice { s with mode := s.startMode }))) :=
    .of_dfl (hposted _ _)
  simp only [State.finishStartUp]
  generalize takePosted _ = t at hloaded ⊢
  split
  exacts [hloaded.trans (enterRun_keeps { t with pts := { t.pts with timerRunning := true } }).sparesDefects, hloaded]

theorem execStartUpEnd_sparesDefects (s : State) : ∃ t, execStartUpEnd s = .next t ∧ s.SparesDefects t := by
  refine ⟨_, rfl, ?_⟩
  split
  · have hload : s.SparesDefects (if s.portsSet then s else s.startUpLoad) := by
      split
      exacts [.of_dfl rfl, .of_cleared rfl]
    exact (hload.trans (State.finishStartUp_sparesDefects _)).settle
  · exact .of_dfl rfl

theorem execStoreEnds_sparesDefects (finish : StoreFinish) (s : State) :
    ∃ t, execStoreEnds finish s = .next t ∧ s.SparesDefects t := by
  refine ⟨_, rfl, ?_⟩
  split
  exacts [.of_dfl rfl, State.SparesDefects.settle (.of_dfl (State.post_dfl _ _))]

theorem execMinuteExpiry_sparesDefects (s : State) : ∃ t, execMinuteExpiry s = .next t ∧ s.SparesDefects t := by
  refine ⟨_, rfl, ?_⟩
  split
  exacts [(evaluateAll_keeps { s with pts := s.pts.expire }).sparesDefects.settle, .of_dfl rfl]

/-! ### Every command -/

/-- Every command keeps the defect list within 256 records, and full while a job is stalled (R97, R104). -/
theorem exec_sparesDefects (c : Instr) (s : State) : ∃ t, exec c s = .next t ∧ s.SparesDefects t := by
  have request : ∀ {k act}, (∀ r, s.Takes k r → (act r.payload s).Leaves s.SparesDefects) →
      ∃ t, Host.Outcome.next (s.runRequest k act) = (.next t : Host.Outcome State Fault Refusal) ∧ s.SparesDefects t :=
    fun ha => ⟨_, rfl, State.runRequest_leaves (P := s.SparesDefects) (fun _ _ _ h => h) (.of_dfl rfl) ha⟩
  cases c with
  | powerOnResetAssert | resetPinAssert =>
    refine ⟨_, rfl, ?_⟩
    split
    exacts [.of_dfl rfl, .of_cleared rfl]
  | powerOnResetRelease | resetPinRelease => exact ⟨_, rfl, .of_dfl rfl⟩
  | frameSent =>
    refine ⟨_, rfl, ?_⟩
    split
    exacts [.of_cleared rfl, .of_dfl rfl]
  | startUpEnd => exact execStartUpEnd_sparesDefects s
  | receiveFrame | badByteInHunt | gapTimerExpiry => exact ⟨_, rfl, .of_dfl (by split <;> rfl)⟩
  | unknownRequest =>
    refine ⟨_, rfl, .of_dfl ?_⟩
    split
    · rfl
    · split
      · split <;> rfl
      · rfl
  | storeEnds finish => exact execStoreEnds_sparesDefects finish s
  | minuteExpiry => exact execMinuteExpiry_sparesDefects s
  | identify | status | setNotices | reset => exact request fun _ _ => .of_dfl rfl
  | setMode => exact request fun _ _ => setModeAction_sparesDefects _ s
  | setTime => exact request fun _ _ => setTimeAction_sparesDefects _ s
  | setPatrol => exact request fun _ _ => setPatrolAction_sparesDefects _ s
  | convert => exact request fun _ _ => convertAction_sparesDefects _ s
  | portConfig => exact request fun _ _ => portConfigAction_sparesDefects _ s
  | portStatus => exact request fun _ _ => portStatusAction_sparesDefects _ s
  | portOnline => exact request fun _ _ => portOnlineAction_sparesDefects _ s
  | marginRead => exact request fun _ _ => marginReadAction_sparesDefects _ s
  | addReel => exact request fun _ _ => addReelAction_sparesDefects _ s
  | editReel => exact request fun _ _ => editReelAction_sparesDefects _ s
  | removeReel => exact request fun _ _ => removeReelAction_sparesDefects _ s
  | readReel => exact request fun _ _ => readReelAction_sparesDefects _ s
  | listReels => exact request fun _ _ => listReelsAction_sparesDefects _ s
  | freezeReel => exact request fun _ _ => freezeReelAction_sparesDefects _ s
  | store => exact request fun _ _ => storeAction_sparesDefects _ s
  | restoreFactory => exact request fun _ _ => restoreFactoryAction_sparesDefects _ s
  | lockReel | unlockReel => exact request fun _ _ => lockAction_sparesDefects _ s _
  | lockAll | unlockAll => exact request fun r _ => lockAllAction_sparesDefects r.payload s _
  | startScrub => exact request fun _ hr => startScrubAction_sparesDefects _ s (hr.run (.inl rfl))
  | startVerify => exact request fun _ hr => startVerifyAction_sparesDefects _ s (hr.run (.inr rfl))
  | suspendJob => exact request fun _ _ => suspendJobAction_sparesDefects _ s
  | resumeJob => exact request fun _ _ => resumeJobAction_sparesDefects _ s
  | abortJob => exact request fun _ _ => abortJobAction_sparesDefects _ s
  | jobStatus => exact request fun _ _ => jobStatusAction_sparesDefects _ s
  | readDefects => exact request fun _ _ => readDefectsAction_sparesDefects _ s
  | removeDefect => exact request fun _ _ => removeDefectAction_sparesDefects _ s
  | retryDefect => exact request fun _ _ => retryDefectAction_sparesDefects _ s
  | driveReply p bytes => exact execDriveReply_sparesDefects s p bytes
  | gntFall p => exact execGntFall_sparesDefects s p
  | commandTimeout p => exact (execCommandTimeout_actsOn s p).sparesDefects
  | readyRise p => exact (execReadyRise_actsOn s p).sparesDefects
  | mediaRise p => exact (execMediaRise_actsOn s p).sparesDefects
  | mediaFall p => exact (execMediaFall_actsOn s p).sparesDefects
  | wprotFall p => exact (execWprotFall_actsOn s p).sparesDefects
  | gntRise p => exact (execGntRise_actsOn s p).sparesDefects
  | yldRise p => exact (execYldRise_actsOn s p).sparesDefects
  | yldFall p => exact (execYldFall_actsOn s p).sparesDefects
  | readyFall p => exact (s.lineChange_actsOn p .ready false (.refl p)).sparesDefects
  | faultFall p => exact (s.lineChange_actsOn p .fault false (.refl p)).sparesDefects
  | wprotRise p =>
    exact (s.lineChange_actsOn p .wprot true fun t => (t.clearHold_keeps p).toKeeps.worksOn p).sparesDefects
  | faultRise p => exact (s.lineChange_actsOn p .fault true fun t => t.faultRisen_worksOn p).sparesDefects

/-- A part that idles keeps the defect list sound, be it that it takes steps 2 to 4 of R187 (log 4). -/
theorem idle_sparesDefects (s : State) : s.SparesDefects (idle s) := by
  unfold idle
  split
  exacts [State.SparesDefects.settle (.of_cleared rfl), .of_dfl rfl]

end Sys2Proof.Machine
end

section
open Sys2Proof Sys2Proof.Machine

/-- Settles O9: every command keeps the defect list sound, and so does a part that idles. -/
theorem stepKeepsDefectListSound : Obligations.StepKeepsDefectListSound := by
  intro s t h ht
  unfold step at ht
  split at ht
  · cases ht
    exact idle_sparesDefects s h
  · next c rest _ =>
    obtain ⟨u, hu, hspares⟩ := exec_sparesDefects c { s with pending := rest }
    cases hu.symm.trans ht
    exact hspares h

/-- Settles O51: each way a finding can go, the record it makes, and what a choice of RPU leaves of that record. -/
theorem findingsJudged : Obligations.FindingsJudged := by
  refine ⟨fun s f => ⟨fun x hx => ?_, fun hnone => ⟨State.takeFinding_listFull hnone, fun hl => ?_⟩⟩,
    fun s pl => ⟨fun a ha => ha ▸ s.createdState_block a, fun _ _ => State.createdState_of_entry⟩,
    fun s => State.newDefectId_free⟩
  · rw [State.takeFinding_duplicate hx]
    exact ⟨rfl, rfl⟩
  · rw [State.takeFinding_new hnone hl]
    refine ⟨rfl, rfl, rfl, ?_, ?_, fun hidle => ⟨_, State.addRecord_records hidle, rfl, rfl⟩⟩
    · rw [State.addRecord_eq, ← nextIdAfter_eq]
      rfl
    · have hlist := s.addRecord_keepsList f
      obtain ⟨x, hlast, hx⟩ := hlist.newest rfl
      refine ⟨x, hlast, hlist.size.trans (by simp [State.enlist]), ?_⟩
      simpa [Record.unchosen, State.newRecord, State.reading, and_assoc] using hx

end

section
/-! SUPPORT. What a result does (R127): the record and the copy it changes, read back, and the notice it posts. -/

namespace Sys2Proof.Machine

open Sys2Proof

/-! ### Reading back a record or an entry just changed -/

/-- What is found under a key after the elements of that key are changed is what was found before, changed. -/
theorem find?_map_ite_key {α : Type} (key : α → Nat) (n : Nat) {f : α → α} (hf : ∀ a, key (f a) = key a) (l : List α) :
    (l.map (fun a => if key a = n then f a else a)).find? (fun a => decide (key a = n)) =
      (l.find? (fun a => decide (key a = n))).map f := by
  induction l with
  | nil => rfl
  | cons a rest ih =>
    by_cases ha : key a = n
    · simp [ha, hf a]
    · simpa [ha] using ih

/-- The record just changed. -/
theorem State.record_modRecord_same (s : State) (id : Nat) {f : Record → Record} (hf : ∀ r, (f r).id = r.id) :
    (s.modRecord id f).record id = (s.record id).map f :=
  find?_map_ite_key Record.id id hf s.dfl.records

/-- The copy descriptor just changed. -/
theorem Entry.copy_modCopy_same (e : Entry) (k : CopyId) (f : CopyDesc → CopyDesc) :
    (e.modCopy k f).copy k = (e.copy k).map f := by
  cases k <;> rfl

/-- The entry of the copy just changed. -/
theorem State.entry_modCopy_same (s : State) (t : Target) (f : CopyDesc → CopyDesc) :
    (s.modCopy t f).entry t.reel = (s.entry t.reel).map (fun e => e.modCopy t.copy f) :=
  find?_map_ite_key (fun e : Entry => e.reel) t.reel (fun e => e.modCopy_reel t.copy f) s.cat

/-! ### The notice -/

/-- Outside STARTING a notice of an enabled kind is posted (R172, R174). -/
theorem State.post_enabled {s : State} {n : Notice} (hm : s.mode ≠ .starting)
    (hk : s.mask.getLsbD n.kind.index = true) : (s.post n).link.posted = s.link.posted ++ [n] := by
  rw [State.post, if_neg hm, noticeEnabled, if_pos hk]

/-! ### The result -/

/-- A count saturates at 65,535 (section 0.4). -/
theorem countResult_counts (st : DefectState) (c : CopyDesc) :
    (countResult st c).repairedCount =
        (if st = .repaired ∧ c.repairedCount < 65535 then c.repairedCount + 1 else c.repairedCount) ∧
      (countResult st c).lostCount =
        (if st = .lost ∧ c.lostCount < 65535 then c.lostCount + 1 else c.lostCount) ∧
      (countResult st c).lastScrub = c.lastScrub := by
  cases st with
  | repaired => by_cases h : c.repairedCount < 65535 <;> simp [countResult, saturate, Config.word16Max, h]
  | lost => by_cases h : c.lostCount < 65535 <;> simp [countResult, saturate, Config.word16Max, h]
  | held | pending | repairing | repairFailed | noted => simp [countResult]

/-- A record with its result: state and detail (R127 step 1). -/
def Record.withResult (r : Record) (st : DefectState) (detail : Option OutcomeDetail) : Record :=
  { r with state := st, detail := detail }

/-- A result given and counted, its notice not yet posted (R127 steps 1 and 2). -/
def State.resultCounted (s : State) (id : Nat) (t : Target) (st : DefectState) (detail : Option OutcomeDetail) : State :=
  (s.modRecord id (fun r => r.withResult st detail)).modCopy t (countResult st)

theorem State.resultCounted_entry {s : State} {t : Target} {e : Entry} (he : s.entry t.reel = some e) (id : Nat)
    (st : DefectState) (detail : Option OutcomeDetail) :
    (s.resultCounted id t st detail).entry t.reel = some (e.modCopy t.copy (countResult st)) := by
  rw [State.resultCounted, State.entry_modCopy_same, State.modRecord_entry, he, Option.map_some]

section result

variable {s : State} {id : Nat} {x : Record} (hx : s.record id = some x) (st : DefectState)
  (detail : Option OutcomeDetail)
include hx

theorem State.resultCounted_record (t : Target) :
    (s.resultCounted id t st detail).record id = some (x.withResult st detail) := by
  rw [State.resultCounted, State.modCopy_record,
    State.record_modRecord_same s id (f := fun r => r.withResult st detail) fun _ => rfl, hx, Option.map_some]

/-- The result of a record of a reel copy is given and counted, and then DEFECT_RESOLVED is posted (R127). -/
theorem State.giveResult_eq {t : Target} (ht : x.place.target = some t) :
    s.giveResult id st detail = (s.resultCounted id t st detail).post
      (defectResolved (s.resultCounted id t st detail) (x.withResult st detail)) := by
  have hmod : (s.modRecord id (fun r => { r with state := st, detail := detail })).record id =
      some (x.withResult st detail) := s.resultCounted_record hx st detail t
  have htarget : (x.withResult st detail).place.target = some t := ht
  simp only [State.giveResult, hmod, htarget]
  rfl

end result

end Sys2Proof.Machine
end

section
/-! SUPPORT. Each step of a repair (R116, R121 to R126): the record in hand seen in the catalogue, the claims of the
phases, the write step, and what each outcome leads to. -/

namespace Sys2Proof.Machine

open Sys2Proof

/-! ### The record in hand (R116) -/

theorem State.repairView_of {s : State} {id : Nat} {x : Record} {t : Target} {e : Entry} {src tgt : CopyDesc}
    (hr : s.rpu.record = some id) (hx : s.record id = some x) (ht : x.place.target = some t)
    (he : s.entry t.reel = some e) (hs : e.copy t.copy.other = some src) (hc : e.copy t.copy = some tgt) :
    s.repairView = some ⟨x, e, src, tgt⟩ := by
  simp only [State.repairView, hr, Option.bind_some, hx, ht, he, hs, hc]

theorem State.repairView_id {s : State} {v : RepairView} {id : Nat} (hv : s.repairView = some v)
    (hr : s.rpu.record = some id) : v.record.id = id := by
  unfold State.repairView at hv
  rw [hr, Option.bind_some] at hv
  split at hv
  · cases hv
  · next x hx =>
    split at hv
    · cases hv
    · split at hv
      · cases hv
      · split at hv
        · cases hv
          exact State.record_id hx
        · cases hv

/-! ### Claims of RPU (R54, R128) -/

theorem State.placeRpuClaim_eq {s : State} {p : PortId} (h : (s.port p).state ≠ .offline) (c : Claim) :
    s.placeRpuClaim p c = s.modPort p (fun q => { q with rpuClaim := some c }) := by
  simp only [State.placeRpuClaim, State.modPort, Port.placeRpu, if_neg h]

theorem State.placeRpuClaim_port {s : State} {p : PortId} (h : (s.port p).state ≠ .offline) (c : Claim) :
    ((s.placeRpuClaim p c).port p).rpuClaim = some c := by
  rw [State.placeRpuClaim_eq h, State.port_modPort_same]

/-- The READ of the manifest block that holds a frame's reference (R121). -/
def referenceRead (c : CopyDesc) (pl : Place) : Claim :=
  { transfer := .read .blockCheck, address := c.manifestBlock + pl.frameIndex / slotsPerBlock, blocks := 1 }

section phases

variable {s : State} {v : RepairView} (hv : s.repairView = some v)
include hv

theorem State.enterReference_eq : s.enterReference =
    (s.rpuPhase .reference).placeRpuClaim v.source.port (referenceRead v.source v.record.place) := by
  simp only [State.enterReference, hv]
  rfl

theorem State.enterSource_eq : s.enterSource =
    (s.rpuPhase .source).placeRpuClaim v.source.port (placeRead v.entry.toStoredEntry v.source v.record.place) := by
  simp only [State.enterSource, hv]

theorem State.enterReadback_eq : s.enterReadback =
    (s.rpuPhase .readback).placeRpuClaim v.target.port (placeRead v.entry.toStoredEntry v.target v.record.place) := by
  simp only [State.enterReadback, hv]

/-! ### The write step (R124) -/

/-- Attempts first, then the reel's lock, then WPROT. -/
theorem State.writeStep_eq : s.writeStep =
    if 2 ≤ v.record.attempts then (s.rpuPhase .write).enterReadback
    else if v.entry.locked then (s.rpuPhase .write).returnRecord .held none
    else if (s.port v.target.port).lines.wprot then
      (s.rpuPhase .write).returnRecord .pending (some .writeProtected)
    else (s.rpuPhase .write).placeRpuClaim v.target.port
      (placeWrite v.entry.toStoredEntry v.target v.record.place s.rpu.buffer) := by
  have hview : (s.rpuPhase .write).repairView = some v := hv
  simp only [State.writeStep, hview]
  rfl

theorem State.writeStep_attempted (ha : 2 ≤ v.record.attempts) :
    s.writeStep = (s.rpuPhase .write).enterReadback := by
  rw [State.writeStep_eq hv, if_pos ha]

variable (ha : v.record.attempts < 2)
include ha

theorem State.writeStep_locked (hl : v.entry.locked = true) :
    s.writeStep = (s.rpuPhase .write).returnRecord .held none := by
  rw [State.writeStep_eq hv, if_neg (Nat.not_le.mpr ha), if_pos hl]

variable (hl : v.entry.locked = false)
include hl

theorem State.writeStep_protected (hw : (s.port v.target.port).lines.wprot = true) :
    s.writeStep = (s.rpuPhase .write).returnRecord .pending (some .writeProtected) := by
  rw [State.writeStep_eq hv, if_neg (Nat.not_le.mpr ha), if_neg (Bool.eq_false_iff.mp hl), if_pos hw]

theorem State.writeStep_writes (hw : (s.port v.target.port).lines.wprot = false) :
    s.writeStep = (s.rpuPhase .write).placeRpuClaim v.target.port
      (placeWrite v.entry.toStoredEntry v.target v.record.place s.rpu.buffer) := by
  rw [State.writeStep_eq hv, if_neg (Nat.not_le.mpr ha), if_neg (Bool.eq_false_iff.mp hl),
    if_neg (Bool.eq_false_iff.mp hw)]

end phases

/-! ### Leaving a record (R116, R127, R132) -/

section leaving

variable {s : State} {id : Nat} (hr : s.rpu.record = some id) (st : DefectState) (detail : Option OutcomeDetail)
include hr

theorem State.endRepair_eq : s.endRepair st detail = rpuChoice (s.giveResult id st detail).rpuIdle := by
  simp only [State.endRepair, hr]

theorem State.returnRecord_eq : s.returnRecord st detail =
    rpuChoice (s.modRecord id (fun r => { r with state := st, detail := detail })).rpuIdle := by
  simp only [State.returnRecord, hr]

theorem State.uncountAttempt_eq :
    s.uncountAttempt = s.modRecord id (fun r => { r with attempts := r.attempts - 1 }) := by
  simp only [State.uncountAttempt, hr]

end leaving

/-- A port that holds nothing of RPU: no claim, no reissue, and no command outstanding but as an orphan (R50). -/
def Port.FreeOfRpu (q : Port) : Prop :=
  q.rpuClaim = none ∧ (∀ cl, q.reissue ≠ some (.rpu, cl)) ∧ ∀ o, q.outstanding = some o → o.claimant ≠ some .rpu

theorem Port.withdraw_freeOfRpu (q : Port) : (q.withdraw .rpu).FreeOfRpu := by
  refine ⟨rfl, fun cl hcl => ?_, fun o ho => ?_⟩
  · simp only [Port.withdraw] at hcl
    split at hcl
    · cases hcl
    · next hother => exact hother (by simp [Port.reissueOf, hcl])
  · simp only [Port.withdraw, Option.map_eq_some_iff] at ho
    obtain ⟨o, -, rfl⟩ := ho
    split
    · exact fun hnone => nomatch hnone
    · next hother => exact hother

theorem State.withdrawRpuAt_rpu (s : State) (e : Option RpuEnd) : (s.withdrawRpuAt e).rpu = s.rpu := by
  unfold State.withdrawRpuAt
  split <;> rfl

theorem State.withdrawRpuAt_same (s : State) (x : RpuEnd) : ((s.withdrawRpuAt (some x)).port x.port).FreeOfRpu := by
  rw [State.withdrawRpuAt, State.port_modPort_same]
  exact Port.withdraw_freeOfRpu _

/-- A port free of RPU stays so while another is freed. -/
theorem State.withdrawRpuAt_freeOfRpu {s : State} {p : PortId} (h : (s.port p).FreeOfRpu) (e : Option RpuEnd) :
    ((s.withdrawRpuAt e).port p).FreeOfRpu := by
  cases e with
  | none => exact h
  | some x =>
    by_cases hp : p = x.port
    · exact hp ▸ s.withdrawRpuAt_same x
    · rw [State.withdrawRpuAt, State.port_modPort_ne _ _ hp]
      exact h

theorem State.rpuIdle_rpu (s : State) : s.rpuIdle.rpu = { s.rpu with
    phase := .idle, record := none, source := none, target := none, filled := false, sourceCheck := none } := by
  simp only [State.rpuIdle, State.withdrawRpuAt_rpu]

/-- RPU IDLE, both ports of the repair are free of it (R116). -/
theorem State.rpuIdle_freeOfRpu {s : State} {x : RpuEnd} (h : s.rpu.source = some x ∨ s.rpu.target = some x) :
    (s.rpuIdle.port x.port).FreeOfRpu := by
  show (((s.withdrawRpuAt s.rpu.source).withdrawRpuAt s.rpu.target).port x.port).FreeOfRpu
  rcases h with h | h <;> rw [h]
  · exact State.withdrawRpuAt_freeOfRpu (s.withdrawRpuAt_same x) _
  · exact State.withdrawRpuAt_same _ x

theorem Rpu.usesPort_iff (r : Rpu) (p : PortId) :
    r.usesPort p = true ↔ ∃ x, (r.source = some x ∨ r.target = some x) ∧ x.port = p := by
  cases hs : r.source <;> cases ht : r.target <;> simp [Rpu.usesPort, hs, ht]

/-! ### The outcomes (R121 to R126) -/

section outcomes

variable {s : State} {p : PortId} {v : RepairView} {o : DriveOutcome}

section phase

variable (hv : s.repairView = some v)
include hv

theorem State.rpuOutcome_reference (h : s.rpu.phase = .reference) : s.rpuOutcome p o = s.referenceOutcome p v o := by
  simp only [State.rpuOutcome, hv, h]

theorem State.rpuOutcome_source (h : s.rpu.phase = .source) : s.rpuOutcome p o = s.sourceOutcome p v o := by
  simp only [State.rpuOutcome, hv, h]

theorem State.rpuOutcome_write (h : s.rpu.phase = .write) : s.rpuOutcome p o = s.writeOutcome p v o := by
  simp only [State.rpuOutcome, hv, h]

theorem State.rpuOutcome_readback (h : s.rpu.phase = .readback) : s.rpuOutcome p o = s.readbackOutcome p v o := by
  simp only [State.rpuOutcome, hv, h]

end phase

/-! REFERENCE (R121) -/

theorem State.referenceOutcome_notReady (h : o.status = .notReady) :
    s.referenceOutcome p v o = (s.setHold p true).returnRecord .pending none := by
  simp only [State.referenceOutcome, h]

theorem State.referenceOutcome_sound {slots : List Digest} {check : Digest} (h : o.status = .good)
    (hb : o.result = .block true slots check) : s.referenceOutcome p v o = (s.modRecord v.record.id (fun r =>
      { r with expected := some (slots.getD (r.place.frameIndex % slotsPerBlock) 0#32) })).enterSource := by
  simp only [State.referenceOutcome, h, hb]

theorem State.referenceOutcome_unsound {slots : List Digest} {check : Digest} (h : o.status = .good)
    (hb : o.result = .block false slots check) :
    s.referenceOutcome p v o = s.endRepair .repairFailed (some .noReference) := by
  simp only [State.referenceOutcome, h, hb]

theorem State.referenceOutcome_mediumError (h : o.status = .mediumError) :
    s.referenceOutcome p v o = s.endRepair .repairFailed (some .noReference) := by
  simp only [State.referenceOutcome, h]

/-! SOURCE (R122, R123) -/

theorem State.sourceOutcome_notReady (h : o.status = .notReady) :
    s.sourceOutcome p v o = ((s.placeInBuffer o.data).setHold p true).returnRecord .pending none := by
  simp only [State.sourceOutcome, h]

section frame

variable {n i : Nat} {k : CopyId} (hf : v.record.place = .frame n k i)
include hf

theorem State.sourceOutcome_frame {d : Digest} (h : o.status = .good) (hd : o.result = .digest d) :
    s.sourceOutcome p v o = if v.record.expected = some d then (s.placeInBuffer o.data).fillBuffer none
      else (s.placeInBuffer o.data).endRepair .lost (some .sourceMismatch) := by
  simp only [State.sourceOutcome, h, hf, hd]

theorem State.sourceOutcome_frame_mediumError (h : o.status = .mediumError) :
    s.sourceOutcome p v o = (s.placeInBuffer o.data).endRepair .lost (some .sourceUnreadable) := by
  simp only [State.sourceOutcome, h, hf]

end frame

section manifest

variable {n m : Nat} {k : CopyId} (hm : v.record.place = .manifest n k m)
include hm

theorem State.sourceOutcome_manifest_sound {slots : List Digest} {check : Digest} (h : o.status = .good)
    (hb : o.result = .block true slots check) :
    s.sourceOutcome p v o = (s.placeInBuffer o.data).fillBuffer (some check) := by
  simp only [State.sourceOutcome, h, hm, hb]

theorem State.sourceOutcome_manifest_unsound {slots : List Digest} {check : Digest} (h : o.status = .good)
    (hb : o.result = .block false slots check) :
    s.sourceOutcome p v o = (s.placeInBuffer o.data).endRepair .lost (some .sourceManifestUnsound) := by
  simp only [State.sourceOutcome, h, hm, hb]

theorem State.sourceOutcome_manifest_mediumError (h : o.status = .mediumError) :
    s.sourceOutcome p v o = (s.placeInBuffer o.data).endRepair .lost (some .sourceManifestUnsound) := by
  simp only [State.sourceOutcome, h, hm]

end manifest

/-! WRITE (R125) -/

theorem State.writeOutcome_good (h : o.status = .good) : s.writeOutcome p v o = s.enterReadback := by
  simp only [State.writeOutcome, h]

theorem State.writeOutcome_mediumError (h : o.status = .mediumError) :
    s.writeOutcome p v o = if v.record.attempts < 2 then s.writeStep
      else s.endRepair .repairFailed (some .writeFailed) := by
  simp only [State.writeOutcome, h]

theorem State.writeOutcome_writeProtected (h : o.status = .writeProtected) :
    s.writeOutcome p v o = (s.uncountAttempt.setHold p true).returnRecord .pending (some .writeProtected) := by
  simp only [State.writeOutcome, h]

theorem State.writeOutcome_notReady (h : o.status = .notReady) :
    s.writeOutcome p v o = (s.uncountAttempt.setHold p true).returnRecord .pending none := by
  simp only [State.writeOutcome, h]

/-! READBACK (R126) -/

/-- The target matches: GOOD, and a frame's digest is the one expected, or a manifest block is sound with the check kept
of the source block (R126). -/
theorem readbackMatches_iff (v : RepairView) (kept : Option Digest) (o : DriveOutcome) :
    readbackMatches v kept o = true ↔ o.status = .good ∧
      ((∃ n k i d, v.record.place = .frame n k i ∧ o.result = .digest d ∧ v.record.expected = some d) ∨
        (∃ n k m slots check, v.record.place = .manifest n k m ∧ o.result = .block true slots check ∧
          kept = some check)) := by
  constructor
  · intro h
    unfold readbackMatches at h
    split at h
    · next hgood hd hf => exact ⟨hgood, .inl ⟨_, _, _, _, hf, hd, of_decide_eq_true h⟩⟩
    · next hgood hb hm => exact ⟨hgood, .inr ⟨_, _, _, _, _, hm, hb, of_decide_eq_true h⟩⟩
    · cases h
  · rintro ⟨hgood, ⟨n, k, i, d, hf, hd, he⟩ | ⟨n, k, m, slots, check, hm, hb, hkept⟩⟩
    · simp only [readbackMatches, hgood, hd, hf, he, decide_true]
    · simp only [readbackMatches, hgood, hb, hm, hkept, decide_true]

theorem State.readbackOutcome_notReady (h : o.status = .notReady) :
    s.readbackOutcome p v o = (s.setHold p true).returnRecord .pending none := if_pos h

theorem State.readbackOutcome_matches (h : readbackMatches v s.rpu.sourceCheck o = true) :
    s.readbackOutcome p v o = s.endRepair .repaired none := by
  have hgood := ((readbackMatches_iff _ _ _).mp h).1
  rw [State.readbackOutcome, if_neg (by simp [hgood]), if_pos h]

theorem State.readbackOutcome_differs (hn : o.status ≠ .notReady)
    (h : ¬ readbackMatches v s.rpu.sourceCheck o = true) :
    s.readbackOutcome p v o = if v.record.attempts < 2 then s.writeStep
      else s.endRepair .repairFailed (some .readbackMismatch) := by
  rw [State.readbackOutcome, if_neg hn, if_neg h]

end outcomes

end Sys2Proof.Machine
end

section
/-! SUPPORT. The choice of RPU (R117 to R121): what it makes of one record, its walk, and the record it takes. -/

namespace Sys2Proof.Machine

open Sys2Proof

/-- A copy that is PRESENT lies on a port that is not OFFLINE (R26). -/
theorem State.online_of_present {s : State} {e : StoredEntry} {c : CopyDesc} (h : s.presence e c = .present) :
    (s.port c.port).state ≠ .offline := by
  intro hoff
  rw [State.presence, presenceOn_offline hoff] at h
  cases h

/-! ### One record (R117, R118, R119) -/

section judged

variable {s : State} {x : Record} {rest : List Record}

theorem State.choose_notPending (h : x.state ≠ .pending) : s.choose (x :: rest) = s.choose rest := by
  simp only [State.choose, State.judgeRecord, if_pos h]

/-- Records that are not PENDING are passed over (R117). -/
theorem State.choose_append_notPending {a : List Record} (h : ∀ y ∈ a, y.state ≠ .pending) (l : List Record) :
    s.choose (a ++ l) = s.choose l := by
  induction a with
  | nil => rfl
  | cons y rest ih =>
    obtain ⟨hy, hrest⟩ := List.forall_mem_cons.mp h
    exact (State.choose_notPending hy).trans (ih hrest)

variable {t : Target} {e : Entry} (hx : x.state = .pending) (ht : x.place.target = some t)
  (he : s.entry t.reel = some e)
include hx ht he

theorem State.choose_singleCopy (hb : e.copyB = none) :
    s.choose (x :: rest) = (s.giveResult x.id .lost (some .sourceUnreadable)).choose rest := by
  have hjudged : s.judgeRecord x = .lost := by simp [State.judgeRecord, hx, ht, he, hb]
  simp only [State.choose, hjudged]

variable {src tgt : CopyDesc} (hb : e.copyB ≠ none) (hs : e.copy t.copy.other = some src)
  (hc : e.copy t.copy = some tgt)
include hb hs hc

/-- With two copies, presence decides first, then WPROT of the target's port, then the holds. -/
theorem State.judgeRecord_twoCopies : s.judgeRecord x =
    if s.presence e.toStoredEntry src = .present ∧ s.presence e.toStoredEntry tgt = .present then
      if (s.port tgt.port).lines.wprot then .markWriteProtected
      else if s.held src.port || s.held tgt.port then .pass
      else .take t src tgt
    else .pass := by
  simp only [State.judgeRecord, hx, ht, he, hs, hc, Option.isNone_iff_eq_none, hb, ne_eq, not_true, if_false]

theorem State.choose_absent
    (hp : ¬ (s.presence e.toStoredEntry src = .present ∧ s.presence e.toStoredEntry tgt = .present)) :
    s.choose (x :: rest) = s.choose rest := by
  simp only [State.choose, State.judgeRecord_twoCopies hx ht he hb hs hc, if_neg hp]

variable (hp : s.presence e.toStoredEntry src = .present ∧ s.presence e.toStoredEntry tgt = .present)
include hp

theorem State.choose_writeProtected (hw : (s.port tgt.port).lines.wprot = true) : s.choose (x :: rest) =
    (s.modRecord x.id (fun y => { y with detail := some .writeProtected })).choose rest := by
  simp only [State.choose, State.judgeRecord_twoCopies hx ht he hb hs hc, if_pos hp, if_pos hw]

variable (hw : (s.port tgt.port).lines.wprot = false)
include hw

theorem State.choose_held (hh : s.held src.port = true ∨ s.held tgt.port = true) :
    s.choose (x :: rest) = s.choose rest := by
  have hholds : (s.held src.port || s.held tgt.port) = true := Bool.or_eq_true_iff.mpr hh
  simp only [State.choose, State.judgeRecord_twoCopies hx ht he hb hs hc, if_pos hp, hw, Bool.false_eq_true, if_false,
    if_pos hholds]

theorem State.choose_eligible (hsrc : s.held src.port = false) (htgt : s.held tgt.port = false) :
    s.choose (x :: rest) = s.takeRecord x t src tgt := by
  simp only [State.choose, State.judgeRecord_twoCopies hx ht he hb hs hc, if_pos hp, hw, hsrc, htgt, Bool.or_self,
    Bool.false_eq_true, if_false]

end judged

/-- IDLE and in RUN, a choice walks the whole list (R117). -/
theorem rpuChoice_walks {s : State} (hm : s.mode = .run) (hi : s.rpu.phase = .idle) :
    rpuChoice s = s.choose s.dfl.records := if_pos ⟨hi, hm⟩

/-! ### The record taken (R116, R121) -/

/-- A record as RPU takes it: REPAIRING, with no detail (R116). -/
def Record.taken (r : Record) : Record := { r with state := .repairing, detail := none }

/-- RPU with a record in hand, before the first step of its repair (R116). -/
def State.inHand (s : State) (x : Record) (t : Target) (src tgt : CopyDesc) : State :=
  { s.modRecord x.id Record.taken with rpu := { s.rpu with
    record := some x.id, source := some ⟨t.copy.other, src.port⟩, target := some ⟨t.copy, tgt.port⟩,
    filled := false, sourceCheck := none } }

theorem State.takeRecord_eq (s : State) (x : Record) (t : Target) (src tgt : CopyDesc) :
    s.takeRecord x t src tgt = if x.needsReference then (s.inHand x t src tgt).enterReference
      else (s.inHand x t src tgt).enterSource := rfl

/-- The phase a repair begins in (R121). -/
def Record.firstPhase (r : Record) : RpuPhase := if r.needsReference then .reference else .source

/-- The READ a repair begins with, on the source copy (R121, R122, R123). -/
def Record.firstRead (r : Record) (e : StoredEntry) (src : CopyDesc) : Claim :=
  if r.needsReference then referenceRead src r.place else placeRead e src r.place

theorem Record.first_of_reference {r : Record} (h : r.needsReference = true) (e : StoredEntry) (src : CopyDesc) :
    r.firstPhase = .reference ∧ r.firstRead e src = referenceRead src r.place := ⟨if_pos h, if_pos h⟩

theorem Record.first_of_source {r : Record} (h : r.needsReference = false) (e : StoredEntry) (src : CopyDesc) :
    r.firstPhase = .source ∧ r.firstRead e src = placeRead e src r.place := by
  simp only [Record.firstPhase, Record.firstRead, h, Bool.false_eq_true, if_false, and_self]

theorem Record.firstPhase_ne_idle (r : Record) : r.firstPhase ≠ .idle := by
  unfold Record.firstPhase
  split <;> decide

theorem Record.needsReference_of_none {r : Record} (hk : r.kind = .mismatch ∨ r.kind = .unreadable)
    (he : r.expected = none) : r.needsReference = true := by
  rcases hk with hk | hk <;> simp [Record.needsReference, hk, he]

theorem Record.needsReference_of_expected {r : Record} (he : r.expected ≠ none) : r.needsReference = false := by
  obtain ⟨d, hd⟩ := Option.ne_none_iff_exists'.mp he
  cases hk : r.kind <;> simp [Record.needsReference, hk, hd]

theorem Record.needsReference_of_manifest {r : Record} (hk : r.kind = .manifest) : r.needsReference = false := by
  simp only [Record.needsReference, hk]

section taken

variable {s : State} {x : Record} {t : Target} {e : Entry} {src tgt : CopyDesc}

/-- RPU takes a record: it is in hand, and the first READ of its repair is claimed on the source's port (R116, R121). -/
theorem State.takeRecord_begins (hx : s.record x.id = some x) (ht : x.place.target = some t)
    (he : s.entry t.reel = some e) (hs : e.copy t.copy.other = some src) (hc : e.copy t.copy = some tgt) :
    s.takeRecord x t src tgt = ((s.inHand x t src tgt).rpuPhase x.firstPhase).placeRpuClaim src.port
      (x.firstRead e.toStoredEntry src) := by
  have hrecord : (s.inHand x t src tgt).record x.id = some x.taken := by
    show (s.modRecord x.id Record.taken).record x.id = _
    rw [State.record_modRecord_same s x.id (f := Record.taken) fun _ => rfl, hx, Option.map_some]
  have hview : (s.inHand x t src tgt).repairView = some ⟨x.taken, e, src, tgt⟩ :=
    State.repairView_of (t := t) rfl hrecord ht he hs hc
  rw [State.takeRecord_eq, Record.firstPhase, Record.firstRead]
  split
  · exact State.enterReference_eq hview
  · exact State.enterSource_eq hview

variable {a b : List Record} (hl : s.dfl.records = a ++ x :: b) (hid : ∀ y ∈ a ++ b, y.id ≠ x.id)
include hl hid

/-- A record of an id of its own is found by it. -/
theorem State.record_of_unique : s.record x.id = some x := by
  have ha : a.find? (fun r => decide (r.id = x.id)) = none :=
    List.find?_eq_none.mpr fun y hy => by simpa using hid y (List.mem_append_left b hy)
  rw [State.record, hl, List.find?_append, ha, Option.none_or, List.find?_cons_of_pos (by simp)]

/-- A record of an id of its own is changed in its position, and no other is (R97). -/
theorem State.modRecord_records_of_unique (f : Record → Record) :
    (s.modRecord x.id f).dfl.records = a ++ f x :: b := by
  have hother : ∀ l : List Record, (∀ y ∈ l, y.id ≠ x.id) → l.map (fun r => if r.id = x.id then f r else r) = l :=
    fun l h => (List.map_congr_left fun y hy => if_neg (h y hy)).trans (List.map_id' l)
  obtain ⟨ha, hb⟩ := List.forall_mem_append.mp hid
  simp only [State.modRecord, hl, List.map_append, List.map_cons, hother a ha, hother b hb, if_true]

/-- IDLE and in RUN, a choice takes the first PENDING record where it is eligible (R117). -/
theorem rpuChoice_takes (hm : s.mode = .run) (hi : s.rpu.phase = .idle) (ha : ∀ y ∈ a, y.state ≠ .pending)
    (hx : x.state = .pending) (ht : x.place.target = some t) (he : s.entry t.reel = some e) (hb : e.copyB ≠ none)
    (hs : e.copy t.copy.other = some src) (hc : e.copy t.copy = some tgt)
    (hp : s.presence e.toStoredEntry src = .present ∧ s.presence e.toStoredEntry tgt = .present)
    (hw : (s.port tgt.port).lines.wprot = false) (hsrc : s.held src.port = false) (htgt : s.held tgt.port = false) :
    rpuChoice s = ((s.inHand x t src tgt).rpuPhase x.firstPhase).placeRpuClaim src.port
      (x.firstRead e.toStoredEntry src) := by
  rw [rpuChoice_walks hm hi, hl, State.choose_append_notPending ha,
    State.choose_eligible hx ht he hb hs hc hp hw hsrc htgt]
  exact State.takeRecord_begins (State.record_of_unique hl hid) ht he hs hc

end taken

end Sys2Proof.Machine
end

section
open Sys2Proof Sys2Proof.Machine

/-- Settles O54: the result stands in the record, its count in the target copy, and its notice is posted last. -/
theorem resultsCounted : Obligations.ResultsCounted := by
  intro s id x t e c st detail hx ht he hc
  have hgive := State.giveResult_eq hx st detail ht
  dsimp only
  rw [hgive]
  refine ⟨?_, ⟨e.modCopy t.copy (countResult st), countResult st c, ?_, ?_, countResult_counts st c⟩, fun hm hk => ?_⟩
  · rw [State.record, State.post_dfl]
    exact State.resultCounted_record hx st detail t
  · rw [State.entry, State.post_cat]
    exact State.resultCounted_entry he id st detail
  · rw [Entry.copy_modCopy_same, hc, Option.map_some]
  · exact ⟨_, rfl, State.post_enabled hm hk⟩

/-- Settles O53: the choice takes the first eligible record, and each branch of the write step and of the four phases'
outcomes is the one its rule gives. -/
theorem repairChoosesAndWrites : Obligations.RepairChoosesAndWrites := by
  refine ⟨fun s => ⟨rpuChoice_eq_self s, rpuChoice_walks, ?takes⟩,
    fun s x rest => ⟨State.choose_notPending, ?judges⟩, fun s v hv => ?writes, fun s p v o id hv hr => ?outcomes,
    fun s v hv => ?enters, fun s => ⟨⟨s.rpuIdle_rpu, fun x hx => State.rpuIdle_freeOfRpu hx⟩, ?lost, ?spared⟩⟩
  case takes =>
    intro a x b t e src tgt hm hi hl ha hid hx ht he hb hs hc hps hpt hw hhs hht
    have hu := rpuChoice_takes hl hid hm hi ha hx ht he hb hs hc ⟨hps, hpt⟩ hw hhs hht
    have hclaim : ((rpuChoice s).port src.port).rpuClaim = some (x.firstRead e.toStoredEntry src) :=
      hu ▸ State.placeRpuClaim_port (s := (s.inHand x t src tgt).rpuPhase x.firstPhase)
        (State.online_of_present hps) _
    have hphase : (rpuChoice s).rpu.phase = x.firstPhase := hu ▸ rfl
    dsimp only
    rw [hclaim, hphase]
    refine ⟨hu ▸ State.modRecord_records_of_unique hl hid Record.taken, hu ▸ rfl, x.firstPhase_ne_idle, hu ▸ rfl,
      hu ▸ rfl, hu ▸ rfl, hu ▸ rfl, fun n k i hf hk hn => ?_, fun n k i hf hn => ?_, fun n k m hf hk => ?_⟩
    · obtain ⟨hp, hread⟩ := Record.first_of_reference (Record.needsReference_of_none hk hn) e.toStoredEntry src
      exact ⟨hp, by rw [hread, hf]; rfl⟩
    · obtain ⟨hp, hread⟩ := Record.first_of_source (Record.needsReference_of_expected hn) e.toStoredEntry src
      exact ⟨hp, by rw [hread, hf]; rfl⟩
    · obtain ⟨hp, hread⟩ := Record.first_of_source (Record.needsReference_of_manifest hk) e.toStoredEntry src
      exact ⟨hp, by rw [hread, hf]; rfl⟩
  case judges =>
    intro t e hx ht he
    exact ⟨State.choose_singleCopy hx ht he, fun src tgt hb hs hc => ⟨State.choose_absent hx ht he hb hs hc,
      State.choose_writeProtected hx ht he hb hs hc, State.choose_held hx ht he hb hs hc,
      State.choose_eligible hx ht he hb hs hc⟩⟩
  case writes =>
    refine ⟨State.writeStep_attempted hv, State.writeStep_locked hv, State.writeStep_protected hv,
      fun ha hlock hw hon => ?_⟩
    rw [State.writeStep_writes hv ha hlock hw]
    exact State.placeRpuClaim_eq (s := s.rpuPhase .write) hon _
  case outcomes =>
    have hheld : ∀ u : State, u.rpu.record = some id → (u.setHold p true).rpu.record = some id := fun _ h => h
    have hbrought : (s.placeInBuffer o.data).rpu.record = some id := hr
    have huntried : s.uncountAttempt.rpu.record = some id := by rw [State.uncountAttempt_rpu, hr]
    refine ⟨fun hph => ?_, fun hph => ?_, fun hph => ?_, fun hph => ?_⟩
    · rw [State.rpuOutcome_reference hv hph]
      refine ⟨fun h => ?_, fun n k i slots check h hb _ => ?_, fun slots check h hb => ?_, fun h => ?_⟩
      · exact (State.referenceOutcome_notReady h).trans (State.returnRecord_eq (hheld s hr) _ _)
      · exact ⟨_, State.referenceOutcome_sound h hb, by rw [State.repairView_id hv hr]; rfl⟩
      · exact (State.referenceOutcome_unsound h hb).trans (State.endRepair_eq hr _ _)
      · exact (State.referenceOutcome_mediumError h).trans (State.endRepair_eq hr _ _)
    · rw [State.rpuOutcome_source hv hph]
      refine ⟨fun h => ?_, fun n k i hf => ⟨fun d h hd => ⟨fun he => ?_, fun he => ?_⟩, fun h => ?_⟩,
        fun n k m hm => ⟨fun slots check h hb => ?_, fun slots check h hb => ?_, fun h => ?_⟩⟩
      · exact (State.sourceOutcome_notReady h).trans (State.returnRecord_eq (hheld _ hbrought) _ _)
      · exact (State.sourceOutcome_frame hf h hd).trans (if_pos he)
      · exact ((State.sourceOutcome_frame hf h hd).trans (if_neg he)).trans (State.endRepair_eq hbrought _ _)
      · exact (State.sourceOutcome_frame_mediumError hf h).trans (State.endRepair_eq hbrought _ _)
      · exact State.sourceOutcome_manifest_sound hm h hb
      · exact (State.sourceOutcome_manifest_unsound hm h hb).trans (State.endRepair_eq hbrought _ _)
      · exact (State.sourceOutcome_manifest_mediumError hm h).trans (State.endRepair_eq hbrought _ _)
    · rw [State.rpuOutcome_write hv hph]
      refine ⟨State.writeOutcome_good, fun h ha => ?_, fun h ha => ?_, fun h => ?_, fun h => ?_⟩
      · exact (State.writeOutcome_mediumError h).trans (if_pos ha)
      · exact ((State.writeOutcome_mediumError h).trans (if_neg (Nat.not_lt.mpr ha))).trans (State.endRepair_eq hr _ _)
      · rw [State.writeOutcome_writeProtected h, State.returnRecord_eq (hheld _ huntried), State.uncountAttempt_eq hr]
        rfl
      · rw [State.writeOutcome_notReady h, State.returnRecord_eq (hheld _ huntried), State.uncountAttempt_eq hr]
        rfl
    · rw [State.rpuOutcome_readback hv hph]
      dsimp only
      rw [← readbackMatches_iff]
      refine ⟨fun h => ?_, fun h => ?_, fun hn h ha => ?_, fun hn h ha => ?_⟩
      · exact (State.readbackOutcome_notReady h).trans (State.returnRecord_eq (hheld s hr) _ _)
      · exact (State.readbackOutcome_matches h).trans (State.endRepair_eq hr _ _)
      · exact (State.readbackOutcome_differs hn h).trans (if_pos ha)
      · exact ((State.readbackOutcome_differs hn h).trans (if_neg (Nat.not_lt.mpr ha))).trans
          (State.endRepair_eq hr _ _)
  case enters =>
    intro place enters
    have hread : ∀ c cl, place c = some cl → placeRead v.entry.toStoredEntry c v.record.place = cl := by
      intro c cl hcl
      simp only [place] at hcl
      split at hcl
      · next hp => exact hp ▸ Option.some.inj hcl
      · next hp => exact hp ▸ Option.some.inj hcl
      · cases hcl
    refine ⟨fun cl hcl hon => ?_, fun cl hcl hon => ?_⟩
    · rw [State.enterSource_eq hv, hread v.source cl hcl]
      exact State.placeRpuClaim_eq (s := s.rpuPhase .source) hon cl
    · rw [State.enterReadback_eq hv, hread v.target cl hcl]
      exact State.placeRpuClaim_eq (s := s.rpuPhase .readback) hon cl
  case lost =>
    intro p id hr back x hx hp
    have huses : s.rpu.usesPort p = true := (s.rpu.usesPort_iff p).mpr ⟨x, hx, hp⟩
    exact (if_pos huses).trans (State.returnRecord_eq hr _ _)
  case spared =>
    intro p hp
    refine if_neg fun huses => ?_
    obtain ⟨x, hx, hxp⟩ := (s.rpu.usesPort_iff p).mp huses
    exact hp x hx hxp

end

section
/-! SUPPORT. The margin monitor (R137 to R144): what a close makes of each field, the moves of the margin state, and the
baseline's step as a signed quantity. -/

namespace Sys2Proof.Machine

open Sys2Proof

/-! ### The moves of the margin state (R141, R142) -/

section moves

variable {cfg : PortSettings} {st : MarginState} {count difference : Nat}

theorem marginMove_counts (ha : pointsAway cfg st difference = true) (hc : count + 1 < cfg.debounce) :
    marginMove cfg st count difference = (st, count + 1) := by
  simp only [marginMove, ha, if_true, if_neg (Nat.not_le.mpr hc)]

theorem marginMove_flips (ha : pointsAway cfg st difference = true) (hc : cfg.debounce ≤ count + 1) :
    marginMove cfg st count difference = (st.flip, 0) := by
  simp only [marginMove, ha, if_true, if_pos hc]

theorem marginMove_stays (ha : pointsAway cfg st difference = false) :
    marginMove cfg st count difference = (st, 0) := by
  simp only [marginMove, ha, Bool.false_eq_true, if_false]

theorem pointsAway_steady : pointsAway cfg .steady difference = true ↔ cfg.threshold ≤ difference := by
  simp only [pointsAway, decide_eq_true_eq]

theorem pointsAway_low : pointsAway cfg .low difference = true ↔ difference < cfg.threshold - cfg.hysteresis := by
  simp only [pointsAway, decide_eq_true_eq]

end moves

/-! ### The difference (R140) -/

theorem marginDifference_of_lt {raw baseline : Nat} (h : baseline < raw) :
    marginDifference raw baseline = raw - baseline := if_pos h

theorem marginDifference_of_le {raw baseline : Nat} (h : raw ≤ baseline) : marginDifference raw baseline = 0 :=
  if_neg (Nat.not_lt.mpr h)

theorem marginDifference_le (raw baseline : Nat) : marginDifference raw baseline ≤ raw := by
  unfold marginDifference
  split <;> omega

/-! ### A close, field by field (R138 to R143) -/

section close

variable (cfg : PortSettings) (m : Margin)

/-- Seeding (R139). -/
theorem Margin.close_unseeded {m : Margin} (h : m.seeded = false) : m.close cfg =
    { m with windowSum := 0, windowBlocks := 0, raw := m.windowSum, baseline := m.windowSum, difference := 0
             seeded := true } := by
  simp only [Margin.close, h, Bool.not_false, if_true]

theorem Margin.close_seeded {m : Margin} (h : m.seeded = true) : m.close cfg =
    let difference := marginDifference m.windowSum m.baseline
    let move := marginMove cfg m.state m.debounceCount difference
    { m with windowSum := 0, windowBlocks := 0, raw := m.windowSum, difference := difference
             state := move.1, debounceCount := move.2
             baseline := if move.1 = .steady ∧ move.2 = 0 then baselineStep cfg.filterShift m.windowSum m.baseline
               else m.baseline } := by
  simp only [Margin.close, h, Bool.not_true, Bool.false_eq_true, if_false]

/-- A close leaves the window empty and the raw value at the window sum, seeded or not (R138). -/
@[simp] theorem Margin.close_raw : (m.close cfg).raw = m.windowSum := by
  cases h : m.seeded with
  | false => rw [Margin.close_unseeded cfg h]
  | true => rw [Margin.close_seeded cfg h]

@[simp] theorem Margin.close_window : (m.close cfg).windowSum = 0 ∧ (m.close cfg).windowBlocks = 0 := by
  cases h : m.seeded with
  | false => rw [Margin.close_unseeded cfg h]; exact ⟨rfl, rfl⟩
  | true => rw [Margin.close_seeded cfg h]; exact ⟨rfl, rfl⟩

section seeded

variable {m} (h : m.seeded = true)
include h

theorem Margin.close_difference : (m.close cfg).difference = marginDifference m.windowSum m.baseline := by
  rw [Margin.close_seeded cfg h]

theorem Margin.close_move : ((m.close cfg).state, (m.close cfg).debounceCount) =
    marginMove cfg m.state m.debounceCount (m.close cfg).difference := by
  rw [Margin.close_seeded cfg h]

theorem Margin.close_baseline : (m.close cfg).baseline =
    if (m.close cfg).state = .steady ∧ (m.close cfg).debounceCount = 0 then
      baselineStep cfg.filterShift m.windowSum m.baseline
    else m.baseline := by
  rw [Margin.close_seeded cfg h]

/-- A close whose difference points away counts toward the debounce setting (R141, R142). -/
theorem Margin.close_counts (ha : pointsAway cfg m.state (m.close cfg).difference = true)
    (hc : m.debounceCount + 1 < cfg.debounce) :
    (m.close cfg).state = m.state ∧ (m.close cfg).debounceCount = m.debounceCount + 1 :=
  Prod.mk.inj ((Margin.close_move cfg h).trans (marginMove_counts ha hc))

/-- At the debounce setting the margin state changes (R141, R142). -/
theorem Margin.close_flips (ha : pointsAway cfg m.state (m.close cfg).difference = true)
    (hc : cfg.debounce ≤ m.debounceCount + 1) :
    (m.close cfg).state = m.state.flip ∧ (m.close cfg).debounceCount = 0 :=
  Prod.mk.inj ((Margin.close_move cfg h).trans (marginMove_flips ha hc))

/-- A close whose difference does not point away clears the debounce count (R141, R142). -/
theorem Margin.close_stays (ha : pointsAway cfg m.state (m.close cfg).difference = false) :
    (m.close cfg).state = m.state ∧ (m.close cfg).debounceCount = 0 :=
  Prod.mk.inj ((Margin.close_move cfg h).trans (marginMove_stays ha))

end seeded

end close

/-! ### A reply fed to the monitor (R137, R138, R144) -/

section feed

variable (cfg : PortSettings) (m : Margin) (n b : Nat)

theorem Margin.add_windowSum_le : (m.add n b).windowSum ≤ 65535 := Nat.min_le_left _ _

theorem Margin.feed_open (h : m.windowBlocks + b < 256) : m.feed cfg n b = m.add n b :=
  if_neg (Nat.not_le.mpr h)

theorem Margin.feed_closes (h : 256 ≤ m.windowBlocks + b) : m.feed cfg n b = (m.add n b).close cfg := if_pos h

/-- Before it is seeded a monitor stays in its margin state (R139). -/
theorem Margin.feed_state_unseeded {m : Margin} (h : m.seeded = false) : (m.feed cfg n b).state = m.state := by
  rcases Nat.lt_or_ge (m.windowBlocks + b) 256 with hb | hb
  · rw [Margin.feed_open cfg m n b hb]
    rfl
  · have hadd : (m.add n b).seeded = false := h
    rw [Margin.feed_closes cfg m n b hb, Margin.close_unseeded cfg hadd]
    rfl

/-- MARGIN is queued exactly where the margin state changes (R144). -/
theorem marginQueued_holds (s : State) (p : PortId) : marginQueued s p n b := rfl

/-- A reply that does not change the margin state queues nothing (R144). -/
theorem State.feedMargin_link {s : State} {p : PortId}
    (h : ((s.port p).margin.feed (s.port p).settings n b).state = (s.port p).margin.state) :
    (s.feedMargin p n b).link = s.link := by
  have hqueued := marginQueued_holds n b s p
  simp only [marginQueued, if_pos h] at hqueued
  rw [hqueued, State.setPort_link]

end feed

/-! ### The baseline's step (R143) -/

section baseline

/-- The step of R143 as a signed quantity: `delta / 2^k` cut toward zero, and one toward delta's sign where that is 0. -/
def signedStep (k : Nat) (delta : Int) : Int :=
  let cut := Int.tdiv delta (2 ^ k)
  if cut = 0 ∧ 0 < delta then 1 else if cut = 0 ∧ delta < 0 then -1 else cut

variable {k raw baseline : Nat}

theorem baselineStep_of_lt (h : baseline < raw) :
    baselineStep k raw baseline = baseline + max 1 ((raw - baseline) / 2 ^ k) := if_pos h

theorem baselineStep_of_gt (h : raw < baseline) :
    baselineStep k raw baseline = baseline - max 1 ((baseline - raw) / 2 ^ k) :=
  (if_neg (Nat.not_lt.mpr h.le)).trans (if_pos h)

@[simp] theorem baselineStep_self : baselineStep k raw raw = raw :=
  (if_neg (Nat.lt_irrefl raw)).trans (if_neg (Nat.lt_irrefl raw))

/-- A step of the baseline is no longer than the way it has to go. -/
theorem stepLength_le {n : Nat} (k : Nat) (h : 0 < n) : max 1 (n / 2 ^ k) ≤ n :=
  Nat.max_le.mpr ⟨h, Nat.div_le_self n _⟩

/-- A rising baseline does not pass raw (R143). -/
theorem baselineStep_rises (h : baseline ≤ raw) :
    baseline ≤ baselineStep k raw baseline ∧ baselineStep k raw baseline ≤ raw := by
  rcases h.eq_or_lt with rfl | hlt
  · simp
  · have hlength := stepLength_le k (Nat.sub_pos_of_lt hlt)
    rw [baselineStep_of_lt hlt]
    omega

/-- A falling baseline does not pass raw (R143). -/
theorem baselineStep_falls (h : raw ≤ baseline) :
    raw ≤ baselineStep k raw baseline ∧ baselineStep k raw baseline ≤ baseline := by
  rcases h.eq_or_lt with rfl | hlt
  · simp
  · have hlength := stepLength_le k (Nat.sub_pos_of_lt hlt)
    rw [baselineStep_of_gt hlt]
    omega

/-- With `k = 0` the step is all of delta (R143). -/
theorem baselineStep_zero : baselineStep 0 raw baseline = raw := by
  rcases Nat.lt_trichotomy baseline raw with h | rfl | h
  · rw [baselineStep_of_lt h, Nat.pow_zero, Nat.div_one]
    omega
  · exact baselineStep_self
  · rw [baselineStep_of_gt h, Nat.pow_zero, Nat.div_one]
    omega

theorem signedStep_natCast {n : Nat} (k : Nat) (h : 0 < n) : signedStep k n = (max 1 (n / 2 ^ k) : Nat) := by
  have hcut : Int.tdiv n (2 ^ k) = (n / 2 ^ k : Nat) := by push_cast; exact Int.tdiv_eq_ediv_of_nonneg (by omega)
  simp only [signedStep, hcut]
  generalize n / 2 ^ k = length
  split <;> omega

/-- Truncation toward zero treats both signs alike. -/
theorem signedStep_neg (k : Nat) (delta : Int) : signedStep k (-delta) = -signedStep k delta := by
  simp only [signedStep, Int.neg_tdiv]
  generalize Int.tdiv delta (2 ^ k) = cut
  split_ifs <;> omega

/-- The baseline moves by the signed step (R143). -/
theorem baselineStep_eq_add_signedStep (k raw baseline : Nat) :
    (baselineStep k raw baseline : Int) = baseline + signedStep k ((raw : Int) - baseline) := by
  rcases Nat.lt_trichotomy baseline raw with h | rfl | h
  · have hdelta : (raw : Int) - baseline = (raw - baseline : Nat) := by omega
    rw [hdelta, signedStep_natCast k (Nat.sub_pos_of_lt h), baselineStep_of_lt h, Nat.cast_add]
  · simp [signedStep]
  · have hdelta : (raw : Int) - baseline = -((baseline - raw : Nat) : Int) := by omega
    have hlength := stepLength_le k (Nat.sub_pos_of_lt h)
    rw [hdelta, signedStep_neg, signedStep_natCast k (Nat.sub_pos_of_lt h), baselineStep_of_gt h]
    omega

end baseline

end Sys2Proof.Machine
end

section
open Sys2Proof Sys2Proof.Machine

/-- Settles O55: seeding leaves the margin state alone, so that no MARGIN is queued. -/
theorem firstWindowSeeds : Obligations.FirstWindowSeeds := by
  intro cfg m h
  dsimp only
  rw [Margin.close_unseeded cfg h]
  refine ⟨⟨rfl, rfl, rfl, rfl⟩, ⟨rfl, rfl⟩, fun s p n b hm hcfg => ?_, rfl, rfl, rfl⟩
  subst hm
  exact State.feedMargin_link n b (Margin.feed_state_unseeded _ n b h)

/-- Settles O56: the difference by its two cases, and a window sum that saturates. -/
theorem differenceAboveBaseline : Obligations.DifferenceAboveBaseline := by
  refine ⟨fun cfg m h => ?_, fun cfg m n b => ⟨Margin.feed_open cfg m n b, fun hb => ?_⟩⟩
  · dsimp only
    rw [Margin.close_difference cfg h, Margin.close_raw]
    have hle := marginDifference_le m.windowSum m.baseline
    exact ⟨marginDifference_of_lt, marginDifference_of_le, hle, rfl, fun hsum => ⟨hsum, hle.trans hsum⟩,
      Margin.add_windowSum_le m⟩
  · have hclose := Margin.feed_closes cfg m n b hb
    exact ⟨hclose, hclose ▸ Margin.close_window cfg (m.add n b)⟩

/-- Settles O57: in STEADY the difference points away at the threshold or above it. -/
theorem steadyCountsTowardLow : Obligations.SteadyCountsTowardLow := by
  refine ⟨fun cfg m h hst => ?_, fun s p n b => marginQueued_holds n b s p⟩
  have haway : ∀ d, pointsAway cfg m.state d = true ↔ cfg.threshold ≤ d := fun d => hst ▸ pointsAway_steady
  have hflips := fun hd => Margin.close_flips cfg h ((haway _).mpr hd)
  rw [hst] at hflips
  refine ⟨fun hd => ⟨fun hc => ?_, hflips hd⟩, fun hd => ?_, fun hone hd => (hflips hd (by omega)).1⟩
  · exact hst ▸ Margin.close_counts cfg h ((haway _).mpr hd) hc
  · exact hst ▸ Margin.close_stays cfg h (Bool.eq_false_iff.mpr (mt (haway _).mp (Nat.not_le.mpr hd)))

/-- Settles O58: in LOW the difference points away below the threshold less the hysteresis. -/
theorem lowCountsTowardSteady : Obligations.LowCountsTowardSteady := by
  refine ⟨fun cfg m h hst => ?_, fun s p n b => marginQueued_holds n b s p⟩
  have haway : ∀ d, pointsAway cfg m.state d = true ↔ d < cfg.threshold - cfg.hysteresis :=
    fun d => hst ▸ pointsAway_low
  refine ⟨fun hd => ⟨fun hc => ?_, fun hc => ?_⟩, fun hd => ?_, Nat.sub_pos_of_lt⟩
  · exact hst ▸ Margin.close_counts cfg h ((haway _).mpr hd) hc
  · have hflips := Margin.close_flips cfg h ((haway _).mpr hd) hc
    rwa [hst] at hflips
  · exact hst ▸ Margin.close_stays cfg h (Bool.eq_false_iff.mpr (mt (haway _).mp (Nat.not_lt.mpr hd)))

/-- Settles O59: the baseline stays or moves by the signed step, whose length is at most that of delta. -/
theorem baselineSteps : Obligations.BaselineSteps := by
  intro cfg m h
  have hbaseline := Margin.close_baseline cfg h
  dsimp only
  rw [Margin.close_raw]
  by_cases hsteps : (m.close cfg).state = .steady ∧ (m.close cfg).debounceCount = 0
  · rw [if_pos hsteps] at hbaseline
    rw [hbaseline]
    refine ⟨fun _ _ => baselineStep_eq_add_signedStep _ _ _, fun hstays => ?_, baselineStep_rises, baselineStep_falls,
      fun hk _ _ => hk ▸ baselineStep_zero⟩
    rcases hstays with hlow | hcount
    · cases hlow.symm.trans hsteps.1
    · exact absurd hsteps.2 hcount
  · rw [if_neg hsteps] at hbaseline
    rw [hbaseline]
    exact ⟨fun hst hc => absurd ⟨hst, hc⟩ hsteps, fun _ => rfl, fun hle => ⟨le_rfl, hle⟩, fun hle => ⟨hle, le_rfl⟩,
      fun _ hst hc => absurd ⟨hst, hc⟩ hsteps⟩

end

section
/-! SUPPORT. The Patrol Scheduler: due times, what an eligible port holds, and the start of the job that an evaluation
creates (R71, R147, R157 to R160). -/

namespace Sys2Proof.Machine

open Sys2Proof

/-! ### Due times and the choice (R147, R159) -/

section due

variable {e : StoredEntry} {c : CopyDesc}

theorem dueTime_unscrubbed (m : MarginState) (h : c.lastScrub = none) : dueTime e c m = 0 := by
  simp only [dueTime, h]

theorem effectiveInterval_low (days : Nat) : effectiveInterval days .low = max 1 (days / 2) := by
  simp only [effectiveInterval]
  split <;> omega

theorem dueTime_scrubbed (m : MarginState) {t : Nat} (h : c.lastScrub = some t) :
    dueTime e c m = t + effectiveInterval e.intervalDays m * 1440 := by
  simp only [dueTime, h]

end due

theorem Candidate.before_iff (a b : Candidate) : a.before b = true ↔
    a.due < b.due ∨ (a.due = b.due ∧ (a.target.reel < b.target.reel ∨
      (a.target.reel = b.target.reel ∧ a.target.copy = .a ∧ b.target.copy = .b))) := by
  simp only [Candidate.before, Bool.or_eq_true, Bool.and_eq_true, decide_eq_true_eq, and_assoc]

section candidate

variable {s : State} {p : PortId} {d : Candidate} (h : d ∈ s.candidates p)
include h

theorem State.candidate_due : d.due ≤ s.pts.clock := by
  obtain ⟨e, -, k, c, -, -, -, -, hdue, rfl⟩ := (s.mem_candidates p d).mp h
  exact hdue

/-- Where entries are found by their number, a candidate names a catalogued copy that is PRESENT (R159). -/
theorem State.candidate_copy (hcat : ∀ e ∈ s.cat, s.entry e.reel = some e) :
    ∃ e c, s.entry d.target.reel = some e ∧ e.copy d.target.copy = some c ∧
      s.presence e.toStoredEntry c = .present := by
  obtain ⟨e, he, k, c, hc, rfl, hpresent, -, -, rfl⟩ := (s.mem_candidates p d).mp h
  exact ⟨e, c, hcat e he, hc, hpresent⟩

end candidate

/-! ### What an eligible port holds (R158) -/

/-- A port none of whose jobs is active has no active slot (R66). -/
theorem State.activeSlot_eq_none {s : State} {p : PortId}
    (h : ∀ k l, s.slot k = some l → l.port = p → l.state.active = false) : s.activeSlot p = none := by
  cases hslot : s.activeSlot p with
  | none => rfl
  | some k =>
    obtain ⟨l, hl, hp, ha⟩ := State.activeSlot_spec hslot
    cases (h k l hl hp).symm.trans ha

section quiet

variable {s : State} {p : PortId} (h : s.eligible p = true) {i : SlotId} {j : Job}
include h

theorem State.inactive_of_eligible (hj : s.slot i = some j) (hp : j.port = p) : j.state.active = false := by
  obtain ⟨-, -, -, -, -, hjobs⟩ := (s.eligible_iff p).mp h
  cases hend : j.state.terminal with
  | true => exact JobState.active_of_terminal hend
  | false => rcases hjobs i j hj hp hend with hs | hs <;> simp only [hs, JobState.active]

theorem State.notQueued_of_eligible (hj : s.slot i = some j) (hp : j.port = p) : j.state ≠ .queued := by
  obtain ⟨-, -, -, -, -, hjobs⟩ := (s.eligible_iff p).mp h
  intro hq
  rcases hjobs i j hj hp (by simp only [hq, JobState.terminal]) with hs | hs <;> cases hq.symm.trans hs

theorem State.activeSlot_of_eligible : s.activeSlot p = none :=
  State.activeSlot_eq_none fun _ _ hj hp => State.inactive_of_eligible h hj hp

theorem State.queuedSlots_of_eligible : s.queuedSlots p = [] := by
  refine List.eq_nil_iff_forall_not_mem.mpr fun k hk => ?_
  obtain ⟨j, hj, hf⟩ := State.mem_slotsWhere hk
  simp only [Bool.and_eq_true, decide_eq_true_eq] at hf
  exact State.notQueued_of_eligible h hj hf.1 hf.2

end quiet

/-- What makes a port ineligible (R158). -/
theorem State.eligible_eq_false {s : State} {p : PortId} (h : s.mode ≠ .run ∨ s.pts.enabled = false ∨
    s.pts.clockSet = false ∨ (s.port p).state ≠ .normal ∨ (s.port p).yld = true ∨ s.activeSlot p ≠ none ∨
    s.queuedSlots p ≠ []) : s.eligible p = false := by
  by_contra hc
  have heligible : s.eligible p = true := by simpa using hc
  obtain ⟨hmode, hpatrol, hclock, hnormal, hyld, -⟩ := (s.eligible_iff p).mp heligible
  rcases h with h | h | h | h | h | h | h
  · exact h hmode
  · cases h.symm.trans hpatrol
  · cases h.symm.trans hclock
  · exact h hnormal
  · cases h.symm.trans hyld
  · exact h (State.activeSlot_of_eligible heligible)
  · exact h (State.queuedSlots_of_eligible heligible)

/-! ### The branches of an evaluation (R157, R160) -/

section evaluate

variable {s : State} {p : PortId}

theorem State.evaluate_ineligible (h : s.eligible p = false) : s.evaluate p = s :=
  if_neg (by simp [h])

theorem State.evaluate_without (h : s.chosen p = none ∨ s.findSlot = none) : s.evaluate p = s := by
  unfold State.evaluate
  rcases h with hchosen | hslot
  · simp only [hchosen, ite_self]
  · cases s.chosen p <;> simp only [hslot, ite_self]

/-- The job an evaluation creates for a copy: a PATROL REEL_SCRUB of the whole reel (R160). -/
def State.patrolJob (s : State) (p : PortId) (i : SlotId) (c : Candidate) : Job :=
  newJob (s.idFor i) .reelScrub .patrol (some c.target) p 0 (some (c.frames - 1))

theorem State.evaluate_creates {c : Candidate} {i : SlotId} (h : s.eligible p = true) (hc : s.chosen p = some c)
    (hi : s.findSlot = some i) : s.evaluate p = (s.createJob i (s.patrolJob p i c)).activatePort p := by
  simp only [State.evaluate, h, if_true, hc, hi, State.patrolJob]

end evaluate

/-! ### The job that becomes active (R71) -/

/-- A port with an active job activates no other (R71). -/
theorem State.activate_active {s : State} {p : PortId} {i : SlotId} {j : Job} (hj : s.slot i = some j)
    (hp : j.port = p) (ha : j.state.active = true) (fuel : Nat) : State.activate fuel s p = s := by
  cases fuel with
  | zero => rfl
  | succ n =>
    cases hslot : s.activeSlot p with
    | none => simp [State.activeSlot_none hslot hj hp] at ha
    | some k => simp only [State.activate, hslot]

/-- The one QUEUED job of a port is the head of its queue (R70). -/
theorem State.queueHead_of_only {s : State} {p : PortId} {i : SlotId} {j : Job} (hj : s.slot i = some j)
    (hp : j.port = p) (hq : j.state = .queued)
    (honly : ∀ k l, k ≠ i → s.slot k = some l → l.port = p → l.state ≠ .queued) : s.queueHead p = some i := by
  cases hhead : s.queueHead p with
  | none => exact absurd hq ((s.queueHead_none_iff p).mp hhead i j hj hp)
  | some k =>
    obtain ⟨l, hl, hlp, hlq⟩ := State.queueHead_queued hhead
    by_cases hk : k = i
    · rw [hk]
    · exact absurd hlq (honly k l hk hl hlp)

/-- The head of the queue becomes RUNNING where its media is ready and no job is active, and the test is made again
after its first boundary (R71). -/
theorem State.activate_head {s : State} {p : PortId} {i : SlotId} {j : Job} (hidle : s.activeSlot p = none)
    (hhead : s.queueHead p = some i) (hj : s.slot i = some j) (hready : s.mediaReady j = true) (fuel : Nat) :
    State.activate (fuel + 1) s p = State.activate fuel
      ((s.setSlot i (some { j.bind (s.port p).volume with state := .running })).boundary i) p := by
  simp only [State.activate, hidle, hhead, hj, hready, if_true, State.modJob, Option.map_some]

/-! ### The job an evaluation creates (R160) -/

/-- A job created with its media ready moves JBU alone. -/
theorem State.createJob_ready_frame {s : State} {j : Job} (i : SlotId) (hs : s.jbu.sequence < 4294967295)
    (hm : s.mediaReady j = true) : (s.createJob i j).link = s.link ∧ (s.createJob i j).cat = s.cat := by
  rw [State.createJob_ready i hs hm]
  exact ⟨rfl, rfl⟩

/-- The same job once it is active, with the queue sequence it was given (R69, R71). -/
def State.patrolRunning (s : State) (p : PortId) (i : SlotId) (c : Candidate) : Job :=
  { s.patrolJob p i c with state := .running, sequence := s.jbu.sequence + 1 }

/-- The part once that job is active, before its first boundary (R71). -/
def State.patrolStarted (s : State) (p : PortId) (i : SlotId) (c : Candidate) : State :=
  (s.createJob i (s.patrolJob p i c)).setSlot i (some (s.patrolRunning p i c))

theorem State.patrolStarted_slot (s : State) (p : PortId) (i : SlotId) (c : Candidate) :
    (s.patrolStarted p i c).slot i = some (s.patrolRunning p i c) := State.slot_setSlot_same _ i _

section created

variable {s : State} {p : PortId} {d : Candidate}

/-- The copy that is chosen is PRESENT, so that the job it gets is QUEUED (R88, R159). -/
theorem State.patrolJob_ready (hd : s.chosen p = some d) (hcat : ∀ e ∈ s.cat, s.entry e.reel = some e) (i : SlotId) :
    s.mediaReady (s.patrolJob p i d) = true := by
  obtain ⟨hmem, -⟩ := State.chosen_spec hd
  obtain ⟨e, c, he, hc, hpresent⟩ := State.candidate_copy hmem hcat
  show s.targetPresent d.target = true
  simp only [State.targetPresent, he, hc, hpresent, decide_true]

/-- A job created on an eligible port is the only one there that is QUEUED, and none is active (R158). -/
theorem State.createJob_alone {i : SlotId} {j l : Job} (h : s.eligible p = true) (hseq : s.jbu.sequence < 4294967295)
    (hl : (s.createJob i j).slot i = some l) (hp : l.port = p) (hq : l.state = .queued) :
    (s.createJob i j).activeSlot p = none ∧ (s.createJob i j).queueHead p = some i := by
  have hother : ∀ k, k ≠ i → (s.createJob i j).slot k = s.slot k := fun k => State.createJob_other j hseq
  refine ⟨State.activeSlot_eq_none fun k m hm hmp => ?_, State.queueHead_of_only hl hp hq fun k m hk hm hmp => ?_⟩
  · by_cases hk : k = i
    · subst hk
      cases hl.symm.trans hm
      rw [hq]
      rfl
    · exact State.inactive_of_eligible h ((hother k hk).symm.trans hm) hmp
  · exact State.notQueued_of_eligible h ((hother k hk).symm.trans hm) hmp

variable (h : s.eligible p = true) (hd : s.chosen p = some d) (hcat : ∀ e ∈ s.cat, s.entry e.reel = some e)
  (hseq : s.jbu.sequence < 4294967295)
include h hd hcat hseq

/-- The activation test makes the created job RUNNING (R71). -/
theorem State.activatePort_patrolJob (i : SlotId) : (s.createJob i (s.patrolJob p i d)).activatePort p =
    State.activate 15 ((s.patrolStarted p i d).boundary i) p := by
  have hready := State.patrolJob_ready hd hcat i
  have hcreated := State.createJob_ready i hseq hready
  have hjob : (s.createJob i (s.patrolJob p i d)).slot i =
      some { s.patrolJob p i d with sequence := s.jbu.sequence + 1 } := by
    rw [hcreated]
    exact State.slot_setSlot_same _ _ _
  obtain ⟨hidle, hhead⟩ := State.createJob_alone h hseq hjob rfl rfl
  exact State.activate_head hidle hhead hjob (by rw [hcreated]; exact hready) 15

/-- Its first boundary claims its first read: YLD is low, and block 0 of its range is left (R72). -/
theorem State.patrolStarted_claims (i : SlotId) : ∃ claim,
    (s.patrolStarted p i d).boundary i = (s.patrolStarted p i d).placeJobClaim p claim := by
  obtain ⟨hmem, -⟩ := State.chosen_spec hd
  obtain ⟨e, c, he, hc, -⟩ := State.candidate_copy hmem hcat
  obtain ⟨-, -, -, -, hyld, -⟩ := (s.eligible_iff p).mp h
  have hcreated := State.createJob_ready i hseq (State.patrolJob_ready hd hcat i)
  have hyld' : ((s.patrolStarted p i d).port p).yld = false := by
    rw [State.patrolStarted, hcreated]
    exact hyld
  have he' : (s.patrolStarted p i d).entry d.target.reel = some e := by
    rw [State.patrolStarted, hcreated]
    exact he
  exact ⟨_, State.boundary_claim (s.patrolStarted_slot p i d) (fun hverify => by cases hverify)
    (fun hsuspending => by cases hsuspending) hyld' rfl (Nat.zero_le _) rfl he' hc⟩

/-- An evaluation that creates a job, with entries found by their number and a sequence left: the job is RUNNING in its
slot, and its first read is claimed (R157, R160). -/
theorem State.evaluate_starts {i : SlotId} (hi : s.findSlot = some i) :
    ∃ claim, s.evaluate p = (s.patrolStarted p i d).placeJobClaim p claim := by
  obtain ⟨claim, hclaims⟩ := State.patrolStarted_claims h hd hcat hseq i
  have hrunning : ((s.patrolStarted p i d).placeJobClaim p claim).slot i = some (s.patrolRunning p i d) :=
    (State.placeJobClaim_slot ..).trans (s.patrolStarted_slot p i d)
  refine ⟨claim, ?_⟩
  calc s.evaluate p = (s.createJob i (s.patrolJob p i d)).activatePort p := State.evaluate_creates h hd hi
    _ = State.activate 15 ((s.patrolStarted p i d).boundary i) p := State.activatePort_patrolJob h hd hcat hseq i
    _ = State.activate 15 ((s.patrolStarted p i d).placeJobClaim p claim) p := by rw [hclaims]
    _ = (s.patrolStarted p i d).placeJobClaim p claim := State.activate_active hrunning rfl rfl 15

end created

end Sys2Proof.Machine
end

section
open Sys2Proof Sys2Proof.Machine

/-- Settles O60: the choice is the least candidate, and the job it gets is alone on its eligible port, so that it is the
one that becomes active. -/
theorem evaluationChoosesEarliest : Obligations.EvaluationChoosesEarliest := by
  refine ⟨fun e c m => ⟨dueTime_unscrubbed m, fun t ht => ⟨?steady, ?low⟩⟩, State.eligible_iff, State.mem_candidates,
    fun s p => ⟨s.chosen_none_iff p, fun c hc => ?least⟩, fun s p => ⟨State.evaluate_ineligible,
      fun h => State.evaluate_ineligible (State.eligible_eq_false h), State.evaluate_without,
      fun c i he hc hi => ⟨State.evaluate_creates he hc hi, fun hcat hseq => ?starts⟩⟩⟩
  case steady =>
    rintro rfl
    exact dueTime_scrubbed .steady ht
  case low =>
    rintro rfl
    rw [dueTime_scrubbed .low ht, effectiveInterval_low]
  case least =>
    obtain ⟨hmem, hleast⟩ := State.chosen_spec hc
    refine ⟨hmem, State.candidate_due hmem, fun d hd hbefore => ?_⟩
    exact Bool.false_ne_true ((hleast d hd).symm.trans ((d.before_iff c).mpr hbefore))
  case starts =>
    obtain ⟨claim, hu⟩ := State.evaluate_starts he hc hcat hseq hi
    obtain ⟨hlink, hcat'⟩ := State.createJob_ready_frame i hseq (State.patrolJob_ready hc hcat i)
    dsimp only
    rw [hu, State.placeJobClaim_link, State.placeJobClaim_cat]
    simp only [State.placeJobClaim_slot]
    refine ⟨s.patrolStarted_slot p i c, fun k hk => ?_, hlink, hcat'⟩
    exact (State.slot_setSlot_ne _ _ hk).trans (State.createJob_other _ hseq hk)

end

section
/-! SUPPORT. What a reset leaves (R62, R153, R189 to R191): the part as Table 10-4 has it, with every invariant, and what
each command that asserts or releases one comes to. -/

namespace Sys2Proof.Machine

open Sys2Proof

/-! ### The part after a reset -/

theorem Port.atReset_resetFrom (q : Port) : q.ResetFrom q.atReset :=
  ⟨rfl, rfl, rfl, rfl, rfl, rfl, rfl, rfl, rfl, rfl, rfl⟩

section resetBy

variable (s : State) (k : ResetKind)

theorem State.resetBy_port (p : PortId) : (s.resetBy k).port p = (s.port p).atReset :=
  s.port_mapPorts (fun _ q => q.atReset) p

theorem State.resetBy_slot (i : SlotId) : (s.resetBy k).slot i = none := by
  simp [State.resetBy, State.slot, Jbu.cleared]

theorem State.resetBy_held (p : PortId) : (s.resetBy k).held p = false := by
  simp [State.resetBy, State.held, Rpu.cleared]

theorem State.resetBy_resetFrom : s.ResetFrom (s.resetBy k) where
  mode := rfl
  link := rfl
  cat := rfl
  jobs := s.resetBy_slot k
  counters := ⟨rfl, rfl, rfl⟩
  records := ⟨rfl, rfl, rfl⟩
  repair := ⟨rfl, rfl, rfl⟩
  holds := s.resetBy_held k
  slots := rfl
  store := rfl
  timer := rfl
  ports p := by
    rw [s.resetBy_port k p]
    exact (s.port p).atReset_resetFrom

/-- A reset touches neither the supply nor the pin. -/
theorem State.resetBy_levels : (s.resetBy k).supplyLow = s.supplyLow ∧ (s.resetBy k).resetPin = s.resetPin := by
  unfold State.resetBy
  rw [State.mapPorts_frame]
  exact ⟨rfl, rfl⟩

/-- A power-on reset clears the clock and its flag (R153). -/
theorem State.resetBy_powerOn_clock :
    (s.resetBy .powerOn).pts.clock = 0 ∧ (s.resetBy .powerOn).pts.clockSet = false := ⟨rfl, rfl⟩

/-- A warm reset keeps the clock and its flag (R153). -/
theorem State.resetBy_warm_clock (h : k ≠ .powerOn) :
    (s.resetBy k).pts.clock = s.pts.clock ∧ (s.resetBy k).pts.clockSet = s.pts.clockSet :=
  ⟨if_neg h, if_neg h⟩

/-- After a reset no port is OFFLINE and no record is LOST, so that ALERT is deasserted (R60). -/
theorem State.resetBy_alert : (s.resetBy k).alert = false := by
  have hports : ∀ p, ((s.resetBy k).port p).state = .normal := fun p => by rw [s.resetBy_port k p]; rfl
  have hlost : (s.resetBy k).lostRecords = 0 := rfl
  simp [State.alert, hports, hlost]

end resetBy

/-- What a reset leaves does not depend on the levels of the supply and the pin. -/
theorem State.ResetFrom.withLevels {s t : State} (h : s.ResetFrom t) (supplyLow resetPin : Bool) :
    s.ResetFrom { t with supplyLow := supplyLow, resetPin := resetPin } :=
  ⟨h.mode, h.link, h.cat, h.jobs, h.counters, h.records, h.repair, h.holds, h.slots, h.store, h.timer, h.ports⟩

/-- While a reset is asserted ALERT is deasserted (R60). -/
theorem State.alert_of_resetHeld {s : State} (h : s.resetHeld = true) : s.alert = false := by
  simp [State.alert, h]

/-! ### Every invariant after a reset -/

theorem Link.cleared_sound : Link.cleared.Sound :=
  ⟨trivial, Nat.zero_le _, Nat.zero_le _, Nat.zero_le _, trivial, rfl, fun _ => ⟨rfl, rfl⟩, rfl⟩

/-- A clock of the same reading and flag is as sound. -/
theorem Pts.Sound.of_clock {p q : Pts} (h : p.Sound) (hclock : q.clock = p.clock) (hset : q.clockSet = p.clockSet) :
    q.Sound :=
  ⟨hclock ▸ h.range, fun hq => hclock.trans (h.unset (hset.symm.trans hq))⟩

/-- A clock that reads 0 is sound, set or not. -/
theorem Pts.sound_of_zero {p : Pts} (h : p.clock = 0) : p.Sound := ⟨h ▸ Nat.zero_le _, fun _ => h⟩

/-- With no store in progress no slot is a target. -/
theorem Siu.sound_of_idle {u : Siu} (h : u.store = none) : u.Sound := fun _ hj => nomatch h.symm.trans hj

theorem State.resetBy_ptsSound {s : State} (k : ResetKind) (h : s.pts.Sound) : (s.resetBy k).pts.Sound := by
  by_cases hk : k = .powerOn
  · subst hk
    exact Pts.sound_of_zero s.resetBy_powerOn_clock.1
  · obtain ⟨hclock, hset⟩ := s.resetBy_warm_clock k hk
    exact h.of_clock hclock hset

/-- Every invariant of the model holds after a reset, if the clock was sound before it. -/
theorem State.resetBy_sound {s : State} (k : ResetKind) (h : s.pts.Sound) : (s.resetBy k).Sound where
  link := Link.cleared_sound
  offline := s.resetBy_offlineQuiet k
  active := State.oneActive_of_free rfl
  outside _ := ⟨fun i _ hj => (nomatch (s.resetBy_slot k i).symm.trans hj), rfl⟩
  defects := Dfl.sound_of_no_stall (Nat.zero_le _) rfl
  catalogue := State.catSound_of_nil rfl
  clock := State.resetBy_ptsSound k h
  stores := Siu.sound_of_idle rfl

/-! ### The state after a power-on reset -/

theorem State.reset_port (p : PortId) : State.reset.port p = Port.cleared := by
  simp [State.port, State.reset]

/-- The state after a power-on reset is what a power-on reset makes of it (R189). -/
theorem State.reset_resetBy : State.reset.resetBy .powerOn = State.reset := by
  have hports : (State.reset.mapPorts fun _ q => q.atReset).ports = State.reset.ports := by
    refine Vector.ext fun n hn => ?_
    have hport := State.port_mapPorts State.reset (fun _ q => q.atReset) ⟨n, hn⟩
    rw [State.reset_port] at hport
    exact hport.trans (State.reset_port ⟨n, hn⟩).symm
  unfold State.resetBy
  rw [State.mapPorts_frame, hports]
  rfl

/-! ### The commands -/

section commands

variable {s : State}

theorem exec_powerOnResetAssert (h : s.supplyLow = false) :
    exec .powerOnResetAssert s = .next { s.resetBy .powerOn with supplyLow := true } := by
  show execPowerOnResetAssert s = _
  rw [execPowerOnResetAssert, if_neg (Bool.not_eq_true _ ▸ h)]

theorem exec_resetPinAssert (h : s.resetPin = false) :
    exec .resetPinAssert s = .next { s.resetBy .pin with resetPin := true } := by
  show execResetPinAssert s = _
  rw [execResetPinAssert, if_neg (Bool.not_eq_true _ ▸ h)]

/-- The end of the OK reply of a RESET is a warm reset (R190). -/
theorem exec_frameSent_resets {r : Reply} (h : s.link.sending = some (.reply r)) (hr : r.resets = true) :
    exec .frameSent s = .next (s.resetBy .request) := by
  have hsending : s.link.sendingResets = true := by
    rw [Link.sendingResets, h]
    exact hr
  show execFrameSent s = _
  rw [execFrameSent, if_pos hsending]

end commands

end Sys2Proof.Machine
end

section
/-! SUPPORT. What SET_TIME, the minute timer and SET_PATROL come to (R151 to R154). -/

namespace Sys2Proof.Machine

open Sys2Proof

/-- An evaluation of every port and the end of the step leave PTS as it was. -/
theorem settle_evaluateAll_pts (s : State) : (settle (evaluateAll s)).pts = s.pts :=
  (settle_settles _).pts.trans (evaluateAll_keeps s).pts

/-! ### The minute timer (R151, R153) -/

theorem Pts.expire_unset {p : Pts} (h : p.clockSet = false) : p.expire = p := by
  simp [Pts.expire, h]

theorem Pts.expire_set {p : Pts} (h : p.clockSet = true) :
    p.expire = { p with clock := if p.clock < 4294967295 then p.clock + 1 else p.clock } := by
  rw [Pts.expire, if_pos h]
  rfl

theorem exec_minuteExpiry_halted {s : State} (h : s.pts.timerRunning = false) : exec .minuteExpiry s = .next s := by
  show execMinuteExpiry s = _
  rw [execMinuteExpiry, if_neg (Bool.not_eq_true _ ▸ h)]

theorem exec_minuteExpiry_running {s : State} (h : s.pts.timerRunning = true) :
    exec .minuteExpiry s = .next (settle (evaluateAll { s with pts := s.pts.expire })) := by
  show execMinuteExpiry s = _
  rw [execMinuteExpiry, if_pos h]

/-! ### SET_TIME (R152) -/

theorem exec_setTime {s : State} {r : Request} (h : s.Takes .setTime r) : exec .setTime s =
    .next ((settle (evaluateAll (s.setClock (field r.payload 0 4)))).answer .ok
      (le 4 (field r.payload 0 4) ++ le 4 s.pts.clock ++ flagByte s.pts.clockSet)) :=
  exec_perform (act := setTimeAction) rfl h rfl

/-! ### SET_PATROL (R154) -/

section setPatrol

variable {p : List Byte} {s : State}

theorem setPatrolAction_above (h : 1 < field p 0 1) : setPatrolAction p s = .refuse .badArgument := by
  simp [setPatrolAction, h]

theorem setPatrolAction_clear (h : field p 0 1 = 0) : setPatrolAction p s = .perform (s.setPatrol false) .ok (u8 0) := by
  simp [setPatrolAction, h]

variable (h : field p 0 1 = 1)
include h

theorem setPatrolAction_timeNotSet (hset : s.pts.clockSet = false) : setPatrolAction p s = .refuse .timeNotSet := by
  simp [setPatrolAction, h, hset]

theorem setPatrolAction_already (hset : s.pts.clockSet = true) (hon : s.pts.enabled = true) :
    setPatrolAction p s = .perform s .ok (u8 1) := by
  simp [setPatrolAction, h, hset, hon]

theorem setPatrolAction_starts (hset : s.pts.clockSet = true) (hoff : s.pts.enabled = false) :
    setPatrolAction p s = .perform (settle (evaluateAll (s.setPatrol true))) .ok (u8 1) := by
  simp [setPatrolAction, h, hset, hoff]

end setPatrol

end Sys2Proof.Machine
end

section
open Sys2Proof Sys2Proof.Machine

/-- Settles O4: the state is what a power-on reset makes of it, and a reset leaves every invariant. -/
theorem resetStateIsSound : Obligations.ResetStateIsSound := by
  have hreset := State.reset.resetBy_resetFrom .powerOn
  have halert := State.reset.resetBy_alert .powerOn
  have hsound : (State.reset.resetBy .powerOn).Sound := State.resetBy_sound .powerOn (Pts.sound_of_zero rfl)
  rw [State.reset_resetBy] at hreset halert hsound
  exact ⟨hreset, rfl, rfl, rfl, halert, rfl, hsound⟩

/-- Settles O32: each assertion and the end of a RESET's reply come to `State.resetBy`, with the level of the line. -/
theorem resetsTakeEffect : Obligations.ResetsTakeEffect := by
  refine ⟨fun s => ⟨fun hs => ?powerOn, fun hp => ?pin⟩, fun s => ⟨rfl, rfl⟩, fun s r hr hresets => ?request⟩
  case powerOn =>
    obtain ⟨-, hpin⟩ := s.resetBy_levels .powerOn
    exact ⟨_, exec_powerOnResetAssert hs, (s.resetBy_resetFrom .powerOn).withLevels true _, rfl,
      s.resetBy_powerOn_clock.1, s.resetBy_powerOn_clock.2, rfl, hpin, State.alert_of_resetHeld rfl⟩
  case pin =>
    obtain ⟨hsupply, -⟩ := s.resetBy_levels .pin
    obtain ⟨hclock, hset⟩ := s.resetBy_warm_clock .pin (by decide)
    exact ⟨_, exec_resetPinAssert hp, (s.resetBy_resetFrom .pin).withLevels _ true, rfl, hclock, hset, rfl, hsupply,
      State.alert_of_resetHeld (Bool.or_true _)⟩
  case request =>
    obtain ⟨hsupply, hpin⟩ := s.resetBy_levels .request
    obtain ⟨hclock, hset⟩ := s.resetBy_warm_clock .request (by decide)
    exact ⟨_, exec_frameSent_resets hr hresets, s.resetBy_resetFrom .request, rfl, hclock, hset, hsupply, hpin⟩

/-- Settles O20: each of the three changes PTS and then evaluates every port, which leaves PTS as it is. -/
theorem clockAndPatrolSet : Obligations.ClockAndPatrolSet := by
  refine ⟨fun s r hr => ⟨_, exec_setTime hr, rfl, (State.answer_pts ..).trans (settle_evaluateAll_pts _)⟩,
    fun s => ⟨exec_minuteExpiry_halted, fun hrun => ⟨_, exec_minuteExpiry_running hrun, ?_⟩⟩,
    fun s r hr => ⟨fun hv => exec_refuse rfl hr (setPatrolAction_above hv),
      fun hv hset => exec_refuse rfl hr (setPatrolAction_timeNotSet hv hset),
      fun hv hset hon => exec_perform rfl hr (setPatrolAction_already hv hset hon),
      fun hv hset hoff => exec_perform rfl hr (setPatrolAction_starts hv hset hoff),
      fun hv => exec_perform rfl hr (setPatrolAction_clear hv)⟩⟩
  rw [settle_evaluateAll_pts]
  exact ⟨Pts.expire_unset, Pts.expire_set, rfl⟩

end

section
/-! SUPPORT. Which commands change PTS or SIU: the units' work and the events of a port leave both as
they are, and so do all requests but those on the clock, on patrol and on stores. -/

namespace Sys2Proof.Machine

open Sys2Proof

/-! ### States with the same clock and stores -/

/-- PTS and SIU as they were. -/
structure State.SameClockStores (s t : State) : Prop where
  pts : t.pts = s.pts
  siu : t.siu = s.siu

namespace State.SameClockStores

variable {s t u : State}

theorem refl (s : State) : s.SameClockStores s := ⟨rfl, rfl⟩

theorem trans (h : s.SameClockStores t) (k : t.SameClockStores u) : s.SameClockStores u :=
  ⟨k.pts.trans h.pts, k.siu.trans h.siu⟩

theorem settle (h : s.SameClockStores t) : s.SameClockStores (settle t) :=
  h.trans ⟨(settle_settles t).pts, (settle_settles t).siu⟩

end State.SameClockStores

theorem State.Keeps.sameClockStores {s t : State} (h : s.Keeps t) : s.SameClockStores t := ⟨h.pts, h.siu⟩

theorem State.KeepsJobs.sameClockStores {s t : State} (h : s.KeepsJobs t) : s.SameClockStores t := ⟨h.pts, h.siu⟩

theorem State.Moves.sameClockStores {s t : State} (h : s.Moves t) : s.SameClockStores t := ⟨h.pts, h.siu⟩

/-! ### Requests on the part and its ports -/

section actions

variable (p : List Byte) (s : State)

theorem setModeAction_sameClockStores : (setModeAction p s).Leaves s.SameClockStores := by
  have hrun : ∀ a, s.SameClockStores (s.setRun a) := by
    intro a
    simp only [State.setRun]
    split
    · exact ⟨rfl, rfl⟩
    · have hrunning := (enterRun_keeps { s with autoRun := a, mode := .run }).sameClockStores
      exact State.SameClockStores.settle ⟨hrunning.pts, hrunning.siu⟩
  simp only [setModeAction]
  split_ifs
  exacts [trivial, trivial, trivial, ⟨rfl, rfl⟩, hrun _]

theorem convertAction_sameClockStores : (convertAction p s).Leaves s.SameClockStores := by
  simp only [convertAction]
  repeat' split
  exacts [trivial, trivial, trivial, .refl s, .refl s, trivial]

theorem portConfigAction_sameClockStores : (portConfigAction p s).Leaves s.SameClockStores := by
  unfold portConfigAction
  split
  exacts [trivial, ⟨rfl, rfl⟩]

theorem portStatusAction_sameClockStores : (portStatusAction p s).Leaves s.SameClockStores := by
  unfold portStatusAction
  split
  exacts [trivial, ⟨rfl, rfl⟩]

theorem portOnlineAction_sameClockStores : (portOnlineAction p s).Leaves s.SameClockStores := by
  have hback : ∀ n, s.SameClockStores (s.bringOnline n) := by
    intro n
    obtain ⟨-, -, hpts, hsiu, -⟩ := s.bringOnline_frame n
    exact ⟨hpts, hsiu⟩
  unfold portOnlineAction
  repeat' split
  exacts [trivial, .refl s, trivial, (hback _).settle]

theorem marginReadAction_sameClockStores : (marginReadAction p s).Leaves s.SameClockStores := by
  unfold marginReadAction
  split
  exacts [trivial, .refl s]

/-! ### Requests on the catalogue -/

theorem addReelAction_sameClockStores : (addReelAction p s).Leaves s.SameClockStores := by
  simp only [addReelAction]
  repeat' split
  exacts [trivial, trivial, trivial, trivial, ⟨rfl, rfl⟩]

theorem editReelAction_sameClockStores : (editReelAction p s).Leaves s.SameClockStores := by
  simp only [editReelAction]
  repeat' split
  exacts [trivial, trivial, ⟨rfl, rfl⟩]

theorem removeReelAction_sameClockStores : (removeReelAction p s).Leaves s.SameClockStores := by
  unfold removeReelAction
  split
  exacts [trivial, ⟨rfl, rfl⟩]

theorem readReelAction_sameClockStores : (readReelAction p s).Leaves s.SameClockStores := by
  unfold readReelAction
  split
  exacts [trivial, .refl s]

theorem listReelsAction_sameClockStores : (listReelsAction p s).Leaves s.SameClockStores := by
  simp only [listReelsAction]
  split
  exacts [trivial, .refl s]

theorem lockAction_sameClockStores (b : Bool) : (lockAction b p s).Leaves s.SameClockStores := by
  unfold lockAction
  repeat' split
  exacts [trivial, .refl s, (s.lockReel_keeps _ b).sameClockStores.settle]

theorem lockAllAction_sameClockStores (b : Bool) : (lockAllAction b p s).Leaves s.SameClockStores :=
  (s.lockEvery_keeps b).sameClockStores.settle

/-! ### Requests on jobs -/

/-- A job created by a request (R88, R89), in RUN. -/
theorem State.startJob_sameClockStores (hm : s.mode = .run) (i : SlotId) {j : Job} (hj : j.state = .queued) :
    s.SameClockStores (s.startJob i j) :=
  ((s.createJob_keeps i j hm hj).trans (State.followUp_keeps _ _)).sameClockStores.settle

theorem startScrubAction_sameClockStores (hm : s.mode = .run) :
    (startScrubAction p s).Leaves s.SameClockStores := by
  unfold startScrubAction
  repeat' split
  exacts [trivial, trivial, trivial, trivial, trivial, trivial,
    s.startJob_sameClockStores hm _ (newJob_state _ _ _ _ _ _ _)]

theorem startVerifyAction_sameClockStores (hm : s.mode = .run) :
    (startVerifyAction p s).Leaves s.SameClockStores := by
  unfold startVerifyAction
  repeat' split
  exacts [trivial, trivial, trivial, trivial, s.startJob_sameClockStores hm _ (newJob_state _ _ _ _ _ _ _)]

theorem suspendJobAction_sameClockStores : (suspendJobAction p s).Leaves s.SameClockStores := by
  unfold suspendJobAction
  split
  · trivial
  · next i j hj =>
    split_ifs with _ hrun
    · exact .refl s
    · trivial
    · trivial
    · have ha : s.ActiveAt i := ⟨j, State.jobNamed_slot hj, by rw [not_not.mp hrun]; rfl⟩
      exact (s.suspend_keeps i j ha).sameClockStores.settle

theorem resumeJobAction_sameClockStores : (resumeJobAction p s).Leaves s.SameClockStores := by
  unfold resumeJobAction
  split
  · trivial
  · next i j hj =>
    split_ifs with hsuspended
    · trivial
    · have hl : s.LiveAt i := by
        intro k hk
        cases (State.jobNamed_slot hj).symm.trans hk
        rw [not_not.mp hsuspended]
        rfl
      exact (s.resume_keeps i j hl).sameClockStores.settle

theorem abortJobAction_sameClockStores : (abortJobAction p s).Leaves s.SameClockStores := by
  unfold abortJobAction
  repeat' split
  exacts [trivial, trivial, (s.abort_keeps _ _).sameClockStores.settle]

theorem jobStatusAction_sameClockStores : (jobStatusAction p s).Leaves s.SameClockStores := by
  unfold jobStatusAction
  split
  · trivial
  · next i j _ =>
    show s.SameClockStores (if j.state.terminal then s.setSlot i none else s)
    split
    exacts [⟨rfl, rfl⟩, .refl s]

/-! ### Requests on the defect list -/

theorem readDefectsAction_sameClockStores : (readDefectsAction p s).Leaves s.SameClockStores := by
  simp only [readDefectsAction]
  split
  exacts [trivial, .refl s]

theorem State.removeRecord_sameClockStores (r : Record) : s.SameClockStores (s.removeRecord r) := by
  have hdropped := ((s.dropRecord r.id).admission_keeps.trans (State.evaluate_keeps _ r.port)).sameClockStores
  exact State.SameClockStores.settle ⟨hdropped.pts, hdropped.siu⟩

theorem removeDefectAction_sameClockStores : (removeDefectAction p s).Leaves s.SameClockStores := by
  unfold removeDefectAction
  repeat' split
  exacts [trivial, s.removeRecord_sameClockStores _, trivial]

theorem State.retryRecord_sameClockStores (r : Record) : s.SameClockStores (s.retryRecord r) := by
  have hput := s.modRecord_keeps r.id
    (fun x => { x with state := s.createdState r.place, attempts := 0, detail := none })
  simp only [State.retryRecord]
  split
  exacts [(hput.trans (rpuChoice_keeps _)).sameClockStores.settle, hput.sameClockStores.settle]

theorem retryDefectAction_sameClockStores : (retryDefectAction p s).Leaves s.SameClockStores := by
  unfold retryDefectAction
  repeat' split
  exacts [trivial, trivial, trivial, trivial, s.retryRecord_sameClockStores _]

end actions

/-! ### Events of a drive port -/

section events

variable (s : State) (p : PortId)

theorem State.handOutcome_sameClockStores (c : Option Claimant) (o : DriveOutcome) :
    s.SameClockStores (s.handOutcome p c o) := by
  unfold State.handOutcome
  split
  · exact .refl s
  · exact ⟨(s.settleLabel_keeps p o).pts, (s.settleLabel_keeps p o).siu⟩
  · exact (s.rpuOutcome_keeps p o).sameClockStores
  · split
    · exact .refl s
    · next i hi =>
      exact ((s.readOutcome_keeps i o (State.activeSlot_activeAt hi)).trans (State.followUp_keeps _ p)).sameClockStores

theorem State.takeReply_sameClockStores (o : Outstanding) (r : DriveReply) :
    s.SameClockStores (s.takeReply p o r) := by
  unfold State.takeReply
  split
  · exact (s.portError_moves p).sameClockStores
  · exact (s.portError_moves p).sameClockStores
  · exact (((s.finish_moves p).trans (State.returnToNormal_moves _ p)).trans
      (State.feedReply_moves _ p _ _ _)).sameClockStores.trans (State.handOutcome_sameClockStores _ p _ _)

theorem execDriveReply_sameClockStores (bytes : List Byte) :
    ∃ t, execDriveReply p bytes s = .next t ∧ s.SameClockStores t := by
  refine ⟨_, rfl, ?_⟩
  unfold State.offerReply
  repeat' split
  exacts [.refl s, .refl s, (s.takeReply_sameClockStores p _ _).settle, .refl s]

/-- The claimant of a cut command is told (R48). -/
theorem State.tellCut_sameClockStores (o : Outstanding) : s.SameClockStores (s.tellCut p o) := by
  unfold State.tellCut
  split
  · exact .refl s
  · split
    exacts [⟨rfl, rfl⟩, .refl s]
  · exact (s.rpuCut_keeps p _).sameClockStores
  · split
    · exact .refl s
    · next i hi =>
      split
      · exact .refl s
      · split
        · have hsuspended := (State.followUp_keeps (s.modJob i fun j => { j with state := .suspended }) p).sameClockStores
          exact ⟨hsuspended.pts, hsuspended.siu⟩
        · exact ((s.enterWaiting_active_keeps i _ (State.activeSlot_activeAt hi)).trans
            (State.followUp_keeps _ p)).sameClockStores

theorem State.gntFallen_sameClockStores : s.SameClockStores (s.gntFallen p) := by
  have hlost : s.SameClockStores (s.setPort p ({ s.port p with gnt := false }).loseGrant) := ⟨rfl, rfl⟩
  simp only [State.gntFallen]
  split
  · exact hlost
  · split
    · have htold := State.tellCut_sameClockStores
        ((s.setPort p ({ s.port p with gnt := false }).loseGrant).modPort p Port.finish) p ‹_›
      exact ⟨htold.pts, htold.siu⟩
    · exact hlost.trans (State.portError_moves _ p).sameClockStores

theorem execGntFall_sameClockStores : ∃ t, execGntFall p s = .next t ∧ s.SameClockStores t := by
  refine ⟨_, rfl, ?_⟩
  split_ifs
  exacts [.refl s, (s.gntFallen_sameClockStores p).settle, ⟨rfl, rfl⟩]

/-- An event that comes to work on its port. -/
theorem State.ActsOn.sameClockStores {o : Host.Outcome State Fault Refusal} (h : s.ActsOn p o) :
    ∃ t, o = .next t ∧ s.SameClockStores t := by
  obtain ⟨u, hu, rfl | rfl⟩ := h
  exacts [⟨u, rfl, hu.moves.sameClockStores⟩, ⟨settle u, rfl, hu.moves.sameClockStores.settle⟩]

end events

/-! ### Every other command -/

/-- The commands that can change PTS or SIU: resets (the frame sent may be a RESET's reply), start-up, the minute timer,
SET_TIME, SET_PATROL, and what starts or ends a store. -/
def changesClockStores : Instr → Bool
  | .powerOnResetAssert | .resetPinAssert | .frameSent | .startUpEnd | .minuteExpiry | .setTime | .setPatrol
  | .freezeReel | .store | .restoreFactory | .storeEnds _ => true
  | _ => false

/-- Every other command leaves PTS and SIU as they are. -/
theorem exec_sameClockStores (c : Instr) (hc : changesClockStores c = false) (s : State) :
    ∃ t, exec c s = .next t ∧ s.SameClockStores t := by
  have request : ∀ {k act}, (∀ r, s.Takes k r → (act r.payload s).Leaves s.SameClockStores) →
      ∃ t, Host.Outcome.next (s.runRequest k act) = (.next t : Host.Outcome State Fault Refusal) ∧ s.SameClockStores t :=
    fun ha => ⟨_, rfl, State.runRequest_leaves (P := s.SameClockStores) (fun _ _ _ h => ⟨h.pts, h.siu⟩) (.refl s) ha⟩
  cases c with
  | powerOnResetAssert | resetPinAssert | frameSent | startUpEnd | minuteExpiry | setTime | setPatrol | freezeReel | store
  | restoreFactory | storeEnds => cases hc
  | powerOnResetRelease | resetPinRelease => exact ⟨_, rfl, ⟨rfl, rfl⟩⟩
  | receiveFrame | badByteInHunt | gapTimerExpiry =>
    refine ⟨_, rfl, ?_⟩
    split
    exacts [.refl s, ⟨rfl, rfl⟩]
  | unknownRequest =>
    refine ⟨_, rfl, ?_⟩
    repeat' split
    exacts [.refl s, ⟨rfl, rfl⟩, ⟨rfl, rfl⟩, .refl s]
  | identify | status | setNotices | reset => exact request fun _ _ => ⟨rfl, rfl⟩
  | setMode => exact request fun _ _ => setModeAction_sameClockStores _ s
  | convert => exact request fun _ _ => convertAction_sameClockStores _ s
  | portConfig => exact request fun _ _ => portConfigAction_sameClockStores _ s
  | portStatus => exact request fun _ _ => portStatusAction_sameClockStores _ s
  | portOnline => exact request fun _ _ => portOnlineAction_sameClockStores _ s
  | marginRead => exact request fun _ _ => marginReadAction_sameClockStores _ s
  | addReel => exact request fun _ _ => addReelAction_sameClockStores _ s
  | editReel => exact request fun _ _ => editReelAction_sameClockStores _ s
  | removeReel => exact request fun _ _ => removeReelAction_sameClockStores _ s
  | readReel => exact request fun _ _ => readReelAction_sameClockStores _ s
  | listReels => exact request fun _ _ => listReelsAction_sameClockStores _ s
  | lockReel | unlockReel => exact request fun _ _ => lockAction_sameClockStores _ s _
  | lockAll | unlockAll => exact request fun r _ => lockAllAction_sameClockStores r.payload s _
  | startScrub => exact request fun _ hr => startScrubAction_sameClockStores _ s (hr.run (.inl rfl))
  | startVerify => exact request fun _ hr => startVerifyAction_sameClockStores _ s (hr.run (.inr rfl))
  | suspendJob => exact request fun _ _ => suspendJobAction_sameClockStores _ s
  | resumeJob => exact request fun _ _ => resumeJobAction_sameClockStores _ s
  | abortJob => exact request fun _ _ => abortJobAction_sameClockStores _ s
  | jobStatus => exact request fun _ _ => jobStatusAction_sameClockStores _ s
  | readDefects => exact request fun _ _ => readDefectsAction_sameClockStores _ s
  | removeDefect => exact request fun _ _ => removeDefectAction_sameClockStores _ s
  | retryDefect => exact request fun _ _ => retryDefectAction_sameClockStores _ s
  | driveReply p bytes => exact execDriveReply_sameClockStores s p bytes
  | gntFall p => exact execGntFall_sameClockStores s p
  | commandTimeout p => exact (execCommandTimeout_actsOn s p).sameClockStores
  | readyRise p => exact (execReadyRise_actsOn s p).sameClockStores
  | mediaRise p => exact (execMediaRise_actsOn s p).sameClockStores
  | mediaFall p => exact (execMediaFall_actsOn s p).sameClockStores
  | wprotFall p => exact (execWprotFall_actsOn s p).sameClockStores
  | gntRise p => exact (execGntRise_actsOn s p).sameClockStores
  | yldRise p => exact (execYldRise_actsOn s p).sameClockStores
  | yldFall p => exact (execYldFall_actsOn s p).sameClockStores
  | readyFall p => exact (s.lineChange_actsOn p .ready false (.refl p)).sameClockStores
  | faultFall p => exact (s.lineChange_actsOn p .fault false (.refl p)).sameClockStores
  | wprotRise p =>
    exact (s.lineChange_actsOn p .wprot true fun t => (t.clearHold_keeps p).toKeeps.worksOn p).sameClockStores
  | faultRise p => exact (s.lineChange_actsOn p .fault true fun t => t.faultRisen_worksOn p).sameClockStores

end Sys2Proof.Machine
end

section
/-! SUPPORT. The clock and the stores stay sound (R150, R184) under the commands that change PTS or SIU: the clock set or
advanced within its range, a store started on a slot marked INVALID, and a store ended or cut off. -/

namespace Sys2Proof.Machine

open Sys2Proof

/-- A state that may follow `s` where the clock is sound (R150), and where the store in progress is (R184). -/
structure State.SparesClockStores (s t : State) : Prop where
  clock : s.pts.Sound → t.pts.Sound
  stores : s.siu.Sound → t.siu.Sound

namespace State.SparesClockStores

variable {s t u : State}

theorem trans (h : s.SparesClockStores t) (k : t.SparesClockStores u) : s.SparesClockStores u :=
  ⟨k.clock ∘ h.clock, k.stores ∘ h.stores⟩

theorem settle (h : s.SparesClockStores t) : s.SparesClockStores (settle t) :=
  ⟨fun a => (settle_settles t).pts ▸ h.clock a, fun a => (settle_settles t).siu ▸ h.stores a⟩

/-- The clock and its flag as they were, and SIU too. -/
theorem of_clock (hclock : t.pts.clock = s.pts.clock) (hset : t.pts.clockSet = s.pts.clockSet) (hsiu : t.siu = s.siu) :
    s.SparesClockStores t :=
  ⟨fun h => h.of_clock hclock hset, fun h => hsiu ▸ h⟩

end State.SparesClockStores

theorem State.SameClockStores.spares {s t : State} (h : s.SameClockStores t) : s.SparesClockStores t :=
  .of_clock (congrArg Pts.clock h.pts) (congrArg Pts.clockSet h.pts) h.siu

/-! ### The clock (R150 to R152) -/

/-- A value of four bytes is in the range of the clock (R152). -/
theorem State.setClock_sound (s : State) (p : List Byte) : (s.setClock (field p 0 4)).pts.Sound :=
  ⟨Nat.le_of_lt_succ (field_lt p 0 4), fun h => nomatch h⟩

/-- The minute timer keeps the clock in its range, where it saturates (R151). -/
theorem Pts.Sound.expire {p : Pts} (h : p.Sound) : p.expire.Sound := by
  cases hset : p.clockSet with
  | false => rwa [Pts.expire_unset hset]
  | true =>
    rw [Pts.expire_set hset]
    refine ⟨?_, fun hunset => nomatch hset.symm.trans hunset⟩
    have hrange : p.clock ≤ 4294967295 := h.range
    show (if p.clock < 4294967295 then p.clock + 1 else p.clock) ≤ 4294967295
    split <;> omega

/-- An evaluation of every port and the end of the step leave the clock and the stores. -/
theorem settle_evaluateAll_sameClockStores (s : State) : s.SameClockStores (settle (evaluateAll s)) :=
  (evaluateAll_keeps s).sameClockStores.settle

section actions

variable (p : List Byte) (s : State)

theorem setTimeAction_sparesClockStores : (setTimeAction p s).Leaves s.SparesClockStores :=
  State.SparesClockStores.trans (t := s.setClock (field p 0 4)) ⟨fun _ => s.setClock_sound p, fun h => h⟩
    (settle_evaluateAll_sameClockStores _).spares

theorem State.setPatrol_sparesClockStores (b : Bool) : s.SparesClockStores (s.setPatrol b) := .of_clock rfl rfl rfl

theorem setPatrolAction_sparesClockStores : (setPatrolAction p s).Leaves s.SparesClockStores := by
  simp only [setPatrolAction]
  split_ifs
  exacts [trivial, trivial, (State.SameClockStores.refl s).spares,
    (s.setPatrol_sparesClockStores true).trans (settle_evaluateAll_sameClockStores _).spares,
    s.setPatrol_sparesClockStores false]

/-! ### Stores (R184, R185) -/

/-- The target slot of the store that begins is marked INVALID (R184 step 4). -/
theorem State.startStore_siuSound (cause : StoreCause) : (s.startStore cause).siu.Sound := by
  intro j hj
  cases hj
  simp [State.startStore]

theorem State.startStore_sparesClockStores (cause : StoreCause) : s.SparesClockStores (s.startStore cause) :=
  ⟨fun h => h, fun _ => s.startStore_siuSound cause⟩

theorem storeAction_sparesClockStores : (storeAction p s).Leaves s.SparesClockStores := by
  unfold storeAction
  split
  exacts [trivial, s.startStore_sparesClockStores _]

theorem freezeReelAction_sparesClockStores : (freezeReelAction p s).Leaves s.SparesClockStores := by
  have hfrozen : ∀ n f, s.SparesClockStores (s.modEntry n f) := fun _ _ => .of_clock rfl rfl rfl
  unfold freezeReelAction
  repeat' split
  exacts [trivial, trivial, (hfrozen _ _).trans (State.startStore_sparesClockStores _ _)]

theorem restoreFactoryAction_sparesClockStores : (restoreFactoryAction p s).Leaves s.SparesClockStores := by
  obtain ⟨hsiu, -⟩ := s.restored_frame
  have hrestored : s.SparesClockStores s.restored :=
    .of_clock (by rw [s.restored_pts]) (by rw [s.restored_pts]) hsiu
  unfold restoreFactoryAction
  split_ifs
  exacts [trivial, trivial, hrestored.trans (State.startStore_sparesClockStores _ _)]

end actions

section commands

variable (s : State)

/-- A store ended leaves SIU IDLE (R185). -/
theorem State.finishStore_sparesClockStores (j : StoreJob) (finish : StoreFinish) :
    s.SparesClockStores (s.finishStore j finish) := by
  refine State.SparesClockStores.trans ?_ (State.post_keeps _ _).sameClockStores.spares
  exact ⟨fun h => h, fun _ => Siu.sound_of_idle rfl⟩

/-! ### Resets and start-up (R153, R187, R189) -/

/-- A reset cuts off the store in progress, and the clock stays or is cleared. -/
theorem State.resetBy_sparesClockStores (k : ResetKind) : s.SparesClockStores (s.resetBy k) :=
  ⟨State.resetBy_ptsSound k, fun _ => Siu.sound_of_idle rfl⟩

theorem State.startUpLoad_sparesClockStores : s.SparesClockStores s.startUpLoad :=
  ⟨fun h => h.of_clock rfl rfl, fun _ => Siu.sound_of_idle rfl⟩

/-- The end of start-up starts the minute timer, and leaves the clock and the stores. -/
theorem State.finishStartUp_sparesClockStores : s.SparesClockStores s.finishStartUp := by
  have hposted : ∀ (u : State) (n : Notice), u.SameClockStores (takePosted (u.post n)) := by
    intro u n
    rw [takePosted_frame]
    exact ⟨(u.post_keeps n).pts, (u.post_keeps n).siu⟩
  have hannounced := hposted { s with mode := s.startMode } (startUpNotice { s with mode := s.startMode })
  simp only [State.finishStartUp]
  generalize takePosted _ = t at hannounced ⊢
  have htimer : s.SparesClockStores { t with pts := { t.pts with timerRunning := true } } :=
    .of_clock (by rw [hannounced.pts]) (by rw [hannounced.pts]) hannounced.siu
  split
  exacts [htimer.trans (enterRun_keeps _).sameClockStores.spares, htimer]

/-! ### Every command -/

/-- Every command keeps the clock in its range, and the target of a store INVALID (R150, R184). -/
theorem exec_sparesClockStores (c : Instr) : ∃ t, exec c s = .next t ∧ s.SparesClockStores t := by
  have unchanged : s.SparesClockStores s := (State.SameClockStores.refl s).spares
  have asserted : ∀ k supplyLow resetPin,
      s.SparesClockStores { s.resetBy k with supplyLow := supplyLow, resetPin := resetPin } :=
    fun k _ _ => ⟨(s.resetBy_sparesClockStores k).clock, (s.resetBy_sparesClockStores k).stores⟩
  have request : ∀ {k act}, (∀ p, (act p s).Leaves s.SparesClockStores) →
      ∃ t, Host.Outcome.next (s.runRequest k act) = (.next t : Host.Outcome State Fault Refusal) ∧
        s.SparesClockStores t :=
    fun ha => ⟨_, rfl, State.runRequest_leaves (P := s.SparesClockStores) (fun _ _ _ h => ⟨h.clock, h.stores⟩)
      unchanged fun r _ => ha r.payload⟩
  cases hc : changesClockStores c with
  | false =>
    obtain ⟨t, ht, hsame⟩ := exec_sameClockStores c hc s
    exact ⟨t, ht, hsame.spares⟩
  | true =>
    cases c with
    | powerOnResetAssert =>
      refine ⟨_, rfl, ?_⟩
      split
      exacts [unchanged, asserted .powerOn true _]
    | resetPinAssert =>
      refine ⟨_, rfl, ?_⟩
      split
      exacts [unchanged, asserted .pin _ true]
    | frameSent =>
      refine ⟨_, rfl, ?_⟩
      split
      exacts [s.resetBy_sparesClockStores _, .of_clock rfl rfl rfl]
    | startUpEnd =>
      refine ⟨_, rfl, ?_⟩
      split
      · have hloaded : s.SparesClockStores (if s.portsSet then s else s.startUpLoad) := by
          split
          exacts [unchanged, s.startUpLoad_sparesClockStores]
        exact (hloaded.trans (State.finishStartUp_sparesClockStores _)).settle
      · exact unchanged
    | minuteExpiry =>
      refine ⟨_, rfl, ?_⟩
      split
      · exact State.SparesClockStores.trans (t := { s with pts := s.pts.expire }) ⟨Pts.Sound.expire, fun h => h⟩
          (settle_evaluateAll_sameClockStores _).spares
      · exact unchanged
    | storeEnds finish =>
      refine ⟨_, rfl, ?_⟩
      split
      exacts [unchanged, (s.finishStore_sparesClockStores _ finish).settle]
    | setTime => exact request (setTimeAction_sparesClockStores · s)
    | setPatrol => exact request (setPatrolAction_sparesClockStores · s)
    | freezeReel => exact request (freezeReelAction_sparesClockStores · s)
    | store => exact request (storeAction_sparesClockStores · s)
    | restoreFactory => exact request (restoreFactoryAction_sparesClockStores · s)
    | _ => cases hc

/-- A part that idles keeps both, be it that it takes steps 2 to 4 of R187 (log 4). -/
theorem idle_sparesClockStores : s.SparesClockStores (idle s) := by
  unfold idle
  split
  exacts [s.startUpLoad_sparesClockStores.settle, (State.SameClockStores.refl s).spares]

end commands

/-- A step keeps both: it is a command on the state with the queue's rest, or the part idles. -/
theorem step_sparesClockStores {s t : State} (h : step s = .next t) : s.SparesClockStores t := by
  unfold step at h
  split at h
  · cases h
    exact idle_sparesClockStores s
  · next c rest _ =>
    obtain ⟨u, hu, hspares⟩ := exec_sparesClockStores { s with pending := rest } c
    cases hu.symm.trans h
    exact ⟨hspares.clock, hspares.stores⟩

end Sys2Proof.Machine
end

section
open Sys2Proof Sys2Proof.Machine

/-- Settles O11: most commands leave PTS and SIU as they are, and each of the others keeps both sound. -/
theorem stepKeepsClockAndStoreSound : Obligations.StepKeepsClockAndStoreSound :=
  ⟨fun _ _ h hstep => (step_sparesClockStores hstep).clock h, fun _ _ h hstep => (step_sparesClockStores hstep).stores h⟩

end

section
/-! SUPPORT. The link stays sound (R164, R166, R167, R171, R172) under every command: units' work does no more to it
than post notices, which the end of the step queues; requests add their reply; LKU's own commands are lemmas of
`Link.Sound`. -/

namespace Sys2Proof.Machine

open Sys2Proof

/-! ### What keeps it -/

/-- Work within a step that does no more to the link than post notices. -/
def State.PostsOnly (s t : State) : Prop := { t.link with posted := s.link.posted } = s.link

namespace State.PostsOnly

variable {s t u : State}

theorem of_link (h : t.link = s.link) : s.PostsOnly t := by rw [State.PostsOnly, h]

theorem trans (h : s.PostsOnly t) (k : t.PostsOnly u) : s.PostsOnly u := by
  have hposted : ({ u.link with posted := s.link.posted } : Link) =
      { { u.link with posted := t.link.posted } with posted := s.link.posted } := rfl
  unfold State.PostsOnly at h k ⊢
  rw [hposted, k, h]

/-- But for its posted notices the link is sound where it was. -/
theorem unposted_sound (h : s.PostsOnly t) (hs : s.link.Sound) : ({ t.link with posted := [] } : Link).Sound := by
  have hlink : ({ t.link with posted := [] } : Link) = s.link := hs.posted ▸ h
  exact hlink ▸ hs

end State.PostsOnly

/-- A state that may follow `s` where the link is sound. -/
def State.SparesLink (s t : State) : Prop := s.link.Sound → t.link.Sound

theorem State.SparesLink.of_link {s t : State} (h : t.link = s.link) : s.SparesLink t := fun hs => h ▸ hs

theorem State.SparesLink.of_cleared {s t : State} (h : t.link = Link.cleared) : s.SparesLink t :=
  fun _ => h ▸ Link.cleared_sound

theorem State.SparesLink.trans {s t u : State} (h : s.SparesLink t) (k : t.SparesLink u) : s.SparesLink u := k ∘ h

/-- Once the posted notices are taken the link is sound. -/
theorem State.PostsOnly.takePosted {s t : State} (h : s.PostsOnly t) : s.SparesLink (takePosted t) :=
  fun hs => (takePosted_spec t (h.unposted_sound hs)).2

/-- Work that posts, and then the end of the step. -/
theorem State.PostsOnly.settle {s t : State} (h : s.PostsOnly t) : s.SparesLink (settle t) :=
  fun hs => settle_link t (h.unposted_sound hs)

theorem State.Moves.postsOnly {s t : State} (h : s.Moves t) : s.PostsOnly t := h.link

theorem State.Keeps.postsOnly {s t : State} (h : s.Keeps t) : s.PostsOnly t := h.link

theorem State.KeepsJobs.postsOnly {s t : State} (h : s.KeepsJobs t) : s.PostsOnly t := h.link

/-- A reply formed keeps the link sound. -/
theorem State.SparesLink.answer {s t : State} (h : s.SparesLink t) (st : Status) (fields : List Byte) :
    s.SparesLink (t.answer st fields) := fun hs => (h hs).formReply st fields t.resetAsked

/-- STATUS clears two flags (R176), on which soundness does not rest. -/
theorem State.clearLinkFlags_sparesLink (s : State) : s.SparesLink s.clearLinkFlags := fun h =>
  ⟨h.framer, h.queue, h.overflow, h.notices, h.order, h.owed, h.working, h.posted⟩

section actions

variable (p : List Byte) (s : State)

/-! ### Requests on the part and its ports -/

theorem setModeAction_sparesLink : (setModeAction p s).Leaves s.SparesLink := by
  have hrun : ∀ a, s.SparesLink (s.setRun a) := by
    intro a
    simp only [State.setRun]
    split
    · exact .of_link rfl
    · exact (enterRun_keeps { s with autoRun := a, mode := .run }).postsOnly.settle
  simp only [setModeAction]
  split_ifs
  exacts [trivial, trivial, trivial, .of_link rfl, hrun _]

theorem setTimeAction_sparesLink : (setTimeAction p s).Leaves s.SparesLink :=
  (evaluateAll_keeps (s.setClock (field p 0 4))).postsOnly.settle

theorem setPatrolAction_sparesLink : (setPatrolAction p s).Leaves s.SparesLink := by
  simp only [setPatrolAction]
  split_ifs
  exacts [trivial, trivial, .of_link rfl, (evaluateAll_keeps (s.setPatrol true)).postsOnly.settle, .of_link rfl]

theorem convertAction_sparesLink : (convertAction p s).Leaves s.SparesLink := by
  simp only [convertAction]
  repeat' split
  exacts [trivial, trivial, trivial, .of_link rfl, .of_link rfl, trivial]

theorem portConfigAction_sparesLink : (portConfigAction p s).Leaves s.SparesLink := by
  unfold portConfigAction
  split
  exacts [trivial, .of_link rfl]

theorem portStatusAction_sparesLink : (portStatusAction p s).Leaves s.SparesLink := by
  unfold portStatusAction
  split
  exacts [trivial, .of_link rfl]

/-- Bringing a port back posts its PORT_EVENT (R55). -/
theorem State.bringOnline_postsOnly (n : PortId) : s.PostsOnly (s.bringOnline n) := by
  have hback : s.PostsOnly (s.broughtBack n) := (State.post_keeps (s.modPort n Port.broughtBack) _).postsOnly
  rw [State.bringOnline_eq]
  split
  exacts [hback.trans (.of_link rfl), hback]

theorem portOnlineAction_sparesLink : (portOnlineAction p s).Leaves s.SparesLink := by
  unfold portOnlineAction
  repeat' split
  exacts [trivial, .of_link rfl, trivial, (s.bringOnline_postsOnly _).settle]

theorem marginReadAction_sparesLink : (marginReadAction p s).Leaves s.SparesLink := by
  unfold marginReadAction
  split
  exacts [trivial, .of_link rfl]

/-! ### Requests on the catalogue and on stores -/

theorem addReelAction_sparesLink : (addReelAction p s).Leaves s.SparesLink := by
  simp only [addReelAction]
  repeat' split
  exacts [trivial, trivial, trivial, trivial, .of_link rfl]

theorem editReelAction_sparesLink : (editReelAction p s).Leaves s.SparesLink := by
  simp only [editReelAction]
  repeat' split
  exacts [trivial, trivial, .of_link rfl]

theorem removeReelAction_sparesLink : (removeReelAction p s).Leaves s.SparesLink := by
  unfold removeReelAction
  split
  exacts [trivial, .of_link rfl]

theorem readReelAction_sparesLink : (readReelAction p s).Leaves s.SparesLink := by
  unfold readReelAction
  split
  exacts [trivial, .of_link rfl]

theorem listReelsAction_sparesLink : (listReelsAction p s).Leaves s.SparesLink := by
  simp only [listReelsAction]
  split
  exacts [trivial, .of_link rfl]

theorem freezeReelAction_sparesLink : (freezeReelAction p s).Leaves s.SparesLink := by
  unfold freezeReelAction
  repeat' split
  exacts [trivial, trivial, .of_link rfl]

theorem storeAction_sparesLink : (storeAction p s).Leaves s.SparesLink := by
  unfold storeAction
  split
  exacts [trivial, .of_link rfl]

theorem restoreFactoryAction_sparesLink : (restoreFactoryAction p s).Leaves s.SparesLink := by
  obtain ⟨-, -, -, -, hlink⟩ := s.restored_frame
  unfold restoreFactoryAction
  split_ifs
  exacts [trivial, trivial, .of_link hlink]

theorem lockAction_sparesLink (b : Bool) : (lockAction b p s).Leaves s.SparesLink := by
  unfold lockAction
  repeat' split
  exacts [trivial, .of_link rfl, (s.lockReel_keeps _ b).postsOnly.settle]

theorem lockAllAction_sparesLink (b : Bool) : (lockAllAction b p s).Leaves s.SparesLink :=
  (s.lockEvery_keeps b).postsOnly.settle

/-! ### Requests on jobs -/

/-- A job created by a request (R88, R89), in RUN. -/
theorem State.startJob_sparesLink (hm : s.mode = .run) (i : SlotId) {j : Job} (hj : j.state = .queued) :
    s.SparesLink (s.startJob i j) :=
  ((s.createJob_keeps i j hm hj).trans (State.followUp_keeps _ _)).postsOnly.settle

theorem startScrubAction_sparesLink (hm : s.mode = .run) : (startScrubAction p s).Leaves s.SparesLink := by
  unfold startScrubAction
  repeat' split
  exacts [trivial, trivial, trivial, trivial, trivial, trivial,
    s.startJob_sparesLink hm _ (newJob_state _ _ _ _ _ _ _)]

theorem startVerifyAction_sparesLink (hm : s.mode = .run) : (startVerifyAction p s).Leaves s.SparesLink := by
  unfold startVerifyAction
  repeat' split
  exacts [trivial, trivial, trivial, trivial, s.startJob_sparesLink hm _ (newJob_state _ _ _ _ _ _ _)]

theorem suspendJobAction_sparesLink : (suspendJobAction p s).Leaves s.SparesLink := by
  unfold suspendJobAction
  split
  · trivial
  · next i j hj =>
    split_ifs with _ hrun
    · exact .of_link rfl
    · trivial
    · trivial
    · have ha : s.ActiveAt i := ⟨j, State.jobNamed_slot hj, by rw [not_not.mp hrun]; rfl⟩
      exact (s.suspend_keeps i j ha).postsOnly.settle

theorem resumeJobAction_sparesLink : (resumeJobAction p s).Leaves s.SparesLink := by
  unfold resumeJobAction
  split
  · trivial
  · next i j hj =>
    split_ifs with hsuspended
    · trivial
    · have hl : s.LiveAt i := by
        intro k hk
        cases (State.jobNamed_slot hj).symm.trans hk
        rw [not_not.mp hsuspended]
        rfl
      exact (s.resume_keeps i j hl).postsOnly.settle

theorem abortJobAction_sparesLink : (abortJobAction p s).Leaves s.SparesLink := by
  unfold abortJobAction
  repeat' split
  exacts [trivial, trivial, (s.abort_keeps _ _).postsOnly.settle]

theorem jobStatusAction_sparesLink : (jobStatusAction p s).Leaves s.SparesLink := by
  unfold jobStatusAction
  split
  · trivial
  · refine .of_link ?_
    split <;> rfl

/-! ### Requests on the defect list -/

theorem readDefectsAction_sparesLink : (readDefectsAction p s).Leaves s.SparesLink := by
  simp only [readDefectsAction]
  split
  exacts [trivial, .of_link rfl]

theorem removeDefectAction_sparesLink : (removeDefectAction p s).Leaves s.SparesLink := by
  have hremoved : ∀ r : Record, s.SparesLink (s.removeRecord r) := fun r =>
    ((s.dropRecord r.id).admission_keeps.trans (State.evaluate_keeps _ r.port)).postsOnly.settle
  unfold removeDefectAction
  repeat' split
  exacts [trivial, hremoved _, trivial]

theorem State.retryRecord_sparesLink (r : Record) : s.SparesLink (s.retryRecord r) := by
  have hput := s.modRecord_keeps r.id
    (fun x => { x with state := s.createdState r.place, attempts := 0, detail := none })
  simp only [State.retryRecord]
  split
  exacts [(hput.trans (rpuChoice_keeps _)).postsOnly.settle, hput.postsOnly.settle]

theorem retryDefectAction_sparesLink : (retryDefectAction p s).Leaves s.SparesLink := by
  unfold retryDefectAction
  repeat' split
  exacts [trivial, trivial, trivial, trivial, s.retryRecord_sparesLink _]

end actions

/-! ### Events of a drive port -/

section events

variable (s : State) (p : PortId)

theorem State.handOutcome_postsOnly (c : Option Claimant) (o : DriveOutcome) : s.PostsOnly (s.handOutcome p c o) := by
  unfold State.handOutcome
  split
  · exact .of_link rfl
  · exact (s.settleLabel_keeps p o).postsOnly
  · exact (s.rpuOutcome_keeps p o).postsOnly
  · split
    · exact .of_link rfl
    · next i hi =>
      exact ((s.readOutcome_keeps i o (State.activeSlot_activeAt hi)).trans (State.followUp_keeps _ p)).postsOnly

theorem State.takeReply_postsOnly (o : Outstanding) (r : DriveReply) : s.PostsOnly (s.takeReply p o r) := by
  unfold State.takeReply
  split
  · exact (s.portError_moves p).postsOnly
  · exact (s.portError_moves p).postsOnly
  · exact (((s.finish_moves p).trans (State.returnToNormal_moves _ p)).trans
      (State.feedReply_moves _ p _ _ _)).postsOnly.trans (State.handOutcome_postsOnly _ p _ _)

theorem execDriveReply_sparesLink (bytes : List Byte) : ∃ t, execDriveReply p bytes s = .next t ∧ s.SparesLink t := by
  refine ⟨_, rfl, ?_⟩
  unfold State.offerReply
  repeat' split
  exacts [.of_link rfl, .of_link rfl, (s.takeReply_postsOnly p _ _).settle, .of_link rfl]

theorem execCommandTimeout_sparesLink : ∃ t, execCommandTimeout p s = .next t ∧ s.SparesLink t := by
  refine ⟨_, rfl, ?_⟩
  split
  exacts [.of_link rfl, (s.portError_moves p).postsOnly.settle]

/-- An event that a level already there leaves nothing to do, that before start-up changes its level alone, and that
otherwise comes to work and the end of the step. -/
theorem State.gated_sparesLink {same set : Prop} [Decidable same] [Decidable set] {u : State} (f : Port → Port)
    (h : s.PostsOnly u) : s.SparesLink (if same then s else if set then Machine.settle u else s.modPort p f) := by
  split_ifs
  exacts [.of_link rfl, h.settle, .of_link rfl]

theorem State.lineChange_sparesLink (k : Line) (b : Bool) {act : State → State}
    (ha : ∀ t : State, t.PostsOnly (act t)) :
    ∃ t, Host.Outcome.next (s.lineChange p k b act) = (.next t : Host.Outcome State Fault Refusal) ∧ s.SparesLink t :=
  ⟨_, rfl, s.gated_sparesLink p _ ((s.recordLine_worksOn p k b).moves.postsOnly.trans (ha _))⟩

theorem execReadyRise_sparesLink : ∃ t, execReadyRise p s = .next t ∧ s.SparesLink t := by
  refine s.lineChange_sparesLink p .ready true fun t => ?_
  split
  · unfold State.rereadLabel
    split
    · exact (State.mediaDrop_keeps (t.beginLabel p) p).postsOnly
    · exact .of_link rfl
  · exact .of_link rfl

theorem execMediaRise_sparesLink : ∃ t, execMediaRise p s = .next t ∧ s.SparesLink t := by
  refine s.lineChange_sparesLink p .media true fun t => .of_link ?_
  split <;> rfl

theorem execMediaFall_sparesLink : ∃ t, execMediaFall p s = .next t ∧ s.SparesLink t := by
  refine s.lineChange_sparesLink p .media false fun t => ?_
  split
  exacts [.of_link rfl, (State.mediaDrop_keeps (t.modPort p _) p).postsOnly]

/-- The claimant of a cut command is told (R48). -/
theorem State.tellCut_postsOnly (o : Outstanding) : s.PostsOnly (s.tellCut p o) := by
  unfold State.tellCut
  split
  · exact .of_link rfl
  · split <;> exact .of_link rfl
  · exact (s.rpuCut_keeps p _).postsOnly
  · split
    · exact .of_link rfl
    · next i hi =>
      split
      · exact .of_link rfl
      · split
        · exact (State.followUp_keeps (s.modJob i fun j => { j with state := .suspended }) p).postsOnly
        · exact ((s.enterWaiting_active_keeps i _ (State.activeSlot_activeAt hi)).trans
            (State.followUp_keeps _ p)).postsOnly

theorem State.gntFallen_postsOnly : s.PostsOnly (s.gntFallen p) := by
  simp only [State.gntFallen]
  split
  · exact .of_link rfl
  · split
    · exact State.tellCut_postsOnly (State.modPort _ p Port.finish) p _
    · exact (State.portError_moves (s.setPort p _) p).postsOnly

theorem execGntRise_sparesLink : ∃ t, execGntRise p s = .next t ∧ s.SparesLink t :=
  ⟨_, rfl, s.gated_sparesLink p _ (.of_link rfl)⟩

theorem execGntFall_sparesLink : ∃ t, execGntFall p s = .next t ∧ s.SparesLink t :=
  ⟨_, rfl, s.gated_sparesLink p _ (s.gntFallen_postsOnly p)⟩

theorem execYldRise_sparesLink : ∃ t, execYldRise p s = .next t ∧ s.SparesLink t :=
  ⟨_, rfl, s.gated_sparesLink p _ (State.jobYields_keeps (s.modPort p Port.yldRisen) p).postsOnly⟩

theorem execYldFall_sparesLink : ∃ t, execYldFall p s = .next t ∧ s.SparesLink t :=
  ⟨_, rfl, s.gated_sparesLink p _ (State.jobUnyields_keeps (s.modPort p _) p).postsOnly⟩

end events

section commands

variable (s : State)

/-! ### The link's own commands (R164, R166, R170, R171, R190) -/

theorem execReceiveFrame_sparesLink (bytes : List RxByte) :
    ∃ t, execReceiveFrame bytes s = .next t ∧ s.SparesLink t := by
  refine ⟨_, rfl, ?_⟩
  split
  exacts [.of_link rfl, fun h => Link.Sound.receiveBytes bytes h]

theorem execBadByteInHunt_sparesLink : ∃ t, execBadByteInHunt s = .next t ∧ s.SparesLink t := by
  refine ⟨_, rfl, ?_⟩
  split
  exacts [.of_link rfl, fun h => h.receiveByte ⟨0#8, false⟩]

theorem execGapTimerExpiry_sparesLink : ∃ t, execGapTimerExpiry s = .next t ∧ s.SparesLink t := by
  refine ⟨_, rfl, ?_⟩
  split
  exacts [.of_link rfl, fun h => h.receiveError]

/-- The end of a frame; after a RESET's reply the link is cleared. -/
theorem execFrameSent_sparesLink : ∃ t, execFrameSent s = .next t ∧ s.SparesLink t := by
  refine ⟨_, rfl, ?_⟩
  split
  exacts [.of_cleared rfl, fun h => h.frameSent]

theorem execUnknownRequest_sparesLink : ∃ t, execUnknownRequest s = .next t ∧ s.SparesLink t := by
  have unchanged : s.SparesLink s := .of_link rfl
  refine ⟨_, rfl, ?_⟩
  repeat' split
  exacts [unchanged, unchanged.answer _ _, unchanged.answer _ _, unchanged]

/-! ### Start-up and the timers (R151, R185, R187) -/

theorem State.startUpLoad_link : s.startUpLoad.link = s.link := by
  have hports : (s.mapPorts fun p q => q.startUp (startSettings s.siu.judged.storedImage p)).link = s.link := by
    rw [State.mapPorts_frame]
  exact hports

/-- STARTUP enters the notice queue first, and then the notices of the evaluation (R177). -/
theorem State.finishStartUp_sparesLink : s.SparesLink (Machine.settle s.finishStartUp) := by
  have hannounced : s.SparesLink (takePosted
      (State.post { s with mode := s.startMode } (startUpNotice { s with mode := s.startMode }))) :=
    (State.post_keeps { s with mode := s.startMode } _).postsOnly.takePosted
  refine hannounced.trans ?_
  simp only [State.finishStartUp]
  generalize takePosted _ = t
  split
  · exact (enterRun_keeps { t with pts := { t.pts with timerRunning := true } }).postsOnly.settle
  · exact State.PostsOnly.settle (.of_link rfl)

theorem execStartUpEnd_sparesLink : ∃ t, execStartUpEnd s = .next t ∧ s.SparesLink t := by
  refine ⟨_, rfl, ?_⟩
  split
  · refine State.SparesLink.trans (.of_link ?_) (State.finishStartUp_sparesLink _)
    split
    exacts [rfl, s.startUpLoad_link]
  · exact .of_link rfl

theorem execStoreEnds_sparesLink (finish : StoreFinish) : ∃ t, execStoreEnds finish s = .next t ∧ s.SparesLink t := by
  have hfinished : ∀ j, s.PostsOnly (s.finishStore j finish) :=
    fun j => (State.post_keeps { s with siu := _ } _).postsOnly
  refine ⟨_, rfl, ?_⟩
  split
  exacts [.of_link rfl, (hfinished _).settle]

theorem execMinuteExpiry_sparesLink : ∃ t, execMinuteExpiry s = .next t ∧ s.SparesLink t := by
  refine ⟨_, rfl, ?_⟩
  split
  exacts [(evaluateAll_keeps { s with pts := s.pts.expire }).postsOnly.settle, .of_link rfl]

/-! ### Every command -/

/-- A request keeps the link sound where its action does: its reply does too. -/
theorem State.runRequest_sparesLink {k : RequestKind} {act : List Byte → State → Action}
    (ha : ∀ r, s.Takes k r → (act r.payload s).Leaves s.SparesLink) :
    ∃ t, Host.Outcome.next (s.runRequest k act) = (.next t : Host.Outcome State Fault Refusal) ∧ s.SparesLink t :=
  ⟨_, rfl, State.runRequest_leaves (fun _ _ _ h => h.answer _ _) (.of_link rfl) ha⟩

/-- Every command keeps the link sound. -/
theorem exec_sparesLink (c : Instr) : ∃ t, exec c s = .next t ∧ s.SparesLink t := by
  have request : ∀ {k act}, (∀ p, (act p s).Leaves s.SparesLink) →
      ∃ t, Host.Outcome.next (s.runRequest k act) = (.next t : Host.Outcome State Fault Refusal) ∧ s.SparesLink t :=
    fun ha => s.runRequest_sparesLink fun r _ => ha r.payload
  cases c with
  | powerOnResetAssert | resetPinAssert =>
    refine ⟨_, rfl, ?_⟩
    split
    exacts [.of_link rfl, .of_cleared rfl]
  | powerOnResetRelease | resetPinRelease => exact ⟨_, rfl, .of_link rfl⟩
  | startUpEnd => exact execStartUpEnd_sparesLink s
  | receiveFrame bytes => exact execReceiveFrame_sparesLink s bytes
  | badByteInHunt => exact execBadByteInHunt_sparesLink s
  | gapTimerExpiry => exact execGapTimerExpiry_sparesLink s
  | frameSent => exact execFrameSent_sparesLink s
  | unknownRequest => exact execUnknownRequest_sparesLink s
  | storeEnds finish => exact execStoreEnds_sparesLink s finish
  | minuteExpiry => exact execMinuteExpiry_sparesLink s
  | status => exact request fun _ => s.clearLinkFlags_sparesLink
  | identify | setNotices | reset => exact request fun _ => .of_link rfl
  | setMode => exact request (setModeAction_sparesLink · s)
  | setTime => exact request (setTimeAction_sparesLink · s)
  | setPatrol => exact request (setPatrolAction_sparesLink · s)
  | convert => exact request (convertAction_sparesLink · s)
  | portConfig => exact request (portConfigAction_sparesLink · s)
  | portStatus => exact request (portStatusAction_sparesLink · s)
  | portOnline => exact request (portOnlineAction_sparesLink · s)
  | marginRead => exact request (marginReadAction_sparesLink · s)
  | addReel => exact request (addReelAction_sparesLink · s)
  | editReel => exact request (editReelAction_sparesLink · s)
  | removeReel => exact request (removeReelAction_sparesLink · s)
  | readReel => exact request (readReelAction_sparesLink · s)
  | listReels => exact request (listReelsAction_sparesLink · s)
  | freezeReel => exact request (freezeReelAction_sparesLink · s)
  | store => exact request (storeAction_sparesLink · s)
  | restoreFactory => exact request (restoreFactoryAction_sparesLink · s)
  | lockReel | unlockReel => exact request (lockAction_sparesLink · s _)
  | lockAll | unlockAll => exact request (lockAllAction_sparesLink · s _)
  | startScrub => exact s.runRequest_sparesLink fun _ hr => startScrubAction_sparesLink _ s (hr.run (.inl rfl))
  | startVerify => exact s.runRequest_sparesLink fun _ hr => startVerifyAction_sparesLink _ s (hr.run (.inr rfl))
  | suspendJob => exact request (suspendJobAction_sparesLink · s)
  | resumeJob => exact request (resumeJobAction_sparesLink · s)
  | abortJob => exact request (abortJobAction_sparesLink · s)
  | jobStatus => exact request (jobStatusAction_sparesLink · s)
  | readDefects => exact request (readDefectsAction_sparesLink · s)
  | removeDefect => exact request (removeDefectAction_sparesLink · s)
  | retryDefect => exact request (retryDefectAction_sparesLink · s)
  | driveReply p bytes => exact execDriveReply_sparesLink s p bytes
  | commandTimeout p => exact execCommandTimeout_sparesLink s p
  | readyRise p => exact execReadyRise_sparesLink s p
  | mediaRise p => exact execMediaRise_sparesLink s p
  | mediaFall p => exact execMediaFall_sparesLink s p
  | wprotRise p => exact s.lineChange_sparesLink p .wprot true fun t => (t.clearHold_keeps p).postsOnly
  | wprotFall p =>
    exact s.lineChange_sparesLink p .wprot false fun t =>
      ((t.setHold_keeps p false).trans (rpuChoice_keeps _)).postsOnly
  | faultRise p => exact s.lineChange_sparesLink p .fault true fun t => (t.faultRisen_moves p).postsOnly
  | readyFall p => exact s.lineChange_sparesLink p .ready false fun _ => .of_link rfl
  | faultFall p => exact s.lineChange_sparesLink p .fault false fun _ => .of_link rfl
  | gntRise p => exact execGntRise_sparesLink s p
  | gntFall p => exact execGntFall_sparesLink s p
  | yldRise p => exact execYldRise_sparesLink s p
  | yldFall p => exact execYldFall_sparesLink s p

/-- A part that idles keeps it, be it that it takes steps 2 to 4 of R187 (log 4). -/
theorem idle_sparesLink : s.SparesLink (idle s) := by
  unfold idle
  split
  exacts [(State.PostsOnly.of_link s.startUpLoad_link).settle, .of_link rfl]

end commands

/-- A step is a command on the state with the queue's rest, or the part idles. -/
theorem step_sparesLink {s t : State} (h : step s = .next t) : s.SparesLink t := by
  unfold step at h
  split at h
  · cases h
    exact idle_sparesLink s
  · next c rest _ =>
    obtain ⟨u, hu, hspares⟩ := exec_sparesLink { s with pending := rest } c
    cases hu.symm.trans h
    exact hspares

end Sys2Proof.Machine
end

section
open Sys2Proof Sys2Proof.Machine

/-- Settles O5: units' work only posts notices, and taking them, forming replies and LKU's own commands keep the link
sound. -/
theorem stepKeepsLinkSound : Obligations.StepKeepsLinkSound := fun _ _ h hstep => step_sparesLink hstep h

end

section
/-! SUPPORT. The receive framer (R162 to R165) phase by phase, and a whole frame taken in HUNT: its length judged, its
body gathered, its check compared. -/

namespace Sys2Proof.Machine

open Sys2Proof

/-! ### Frames judged (R164) -/

/-- A receive error ends any frame in progress. -/
theorem Link.receiveError_framer (l : Link) (f : Framer) :
    ({ l with framer := f } : Link).receiveError = l.receiveError := rfl

theorem Link.receiveError_hunt {l : Link} (h : l.framer = .hunt) : l.receiveError = { l with linkError := true } := by
  rw [Link.receiveError, ← h]

/-- What becomes of a request does not depend on the frame that the framer has in progress (Table 9-3). -/
theorem Link.takeRequest_framer (l : Link) (f : Framer) (kind tag : Byte) (payload : List Byte) :
    ({ l with framer := f } : Link).takeRequest kind tag payload = l.takeRequest kind tag payload := rfl

/-- The frame judged is the one in hand, whatever the framer holds. -/
theorem Link.judgeFrame_framer (l : Link) (f : Framer) (body check : List Byte) :
    ({ l with framer := f } : Link).judgeFrame body check = l.judgeFrame body check := by
  unfold Link.judgeFrame
  split
  · split
    · exact l.takeRequest_framer f _ _ _
    · exact l.receiveError_framer f
  · exact l.receiveError_framer f

/-- A frame whose check is right is a request. -/
theorem Link.judgeFrame_pass (l : Link) {kind tag : Byte} {payload check : List Byte}
    (h : (digest (kind :: tag :: payload)).toNat = unle check) :
    l.judgeFrame (kind :: tag :: payload) check = l.takeRequest kind tag payload := if_pos h

/-- A frame whose check is wrong is a receive error. -/
theorem Link.judgeFrame_fail (l : Link) {body check : List Byte} (h : (digest body).toNat ≠ unle check) :
    l.judgeFrame body check = l.receiveError := if_neg h

/-! ### The phases (Table 9-2) -/

theorem Link.takeByte_start {l : Link} (h : l.framer = .hunt) :
    l.takeByte 0xA5#8 = { l with framer := .length [] } := by
  simp [Link.takeByte, h]

/-- The two length bytes, whatever they are: a body of that length follows, or the length is out of range. -/
theorem Link.takeLength_pair (l : Link) (a b : Byte) :
    [a, b].foldl Link.takeByte { l with framer := .length [] } =
      if 2 ≤ unle [a, b] ∧ unle [a, b] ≤ 1026 then { l with framer := .body (unle [a, b]) [] } else l.receiveError := rfl

/-- A length as a field of two bytes. -/
theorem Link.takeLength (l : Link) {n : Nat} (h : n < 65536) :
    (le 2 n).foldl Link.takeByte { l with framer := .length [] } =
      if 2 ≤ n ∧ n ≤ 1026 then { l with framer := .body n [] } else l.receiveError := by
  have hpair := l.takeLength_pair (BitVec.ofNat 8 n) (BitVec.ofNat 8 (n / 256))
  have hlength : unle [BitVec.ofNat 8 n, BitVec.ofNat 8 (n / 256)] = n := unle_le_of_lt (n := 2) h
  rwa [hlength] at hpair

/-- A phase that gathers `n` bytes one by one, and is `done` with the last of them. -/
theorem Link.gather {l : Link} {n : Nat} {phase : List Byte → Framer} {done : List Byte → Link}
    (hmore : ∀ got b, got.length + 1 < n →
      ({ l with framer := phase got } : Link).takeByte b = { l with framer := phase (got ++ [b]) })
    (hlast : ∀ got b, ¬ got.length + 1 < n → ({ l with framer := phase got } : Link).takeByte b = done (got ++ [b]))
    (bytes : List Byte) : ∀ got : List Byte, bytes ≠ [] → got.length + bytes.length = n →
    bytes.foldl Link.takeByte { l with framer := phase got } = done (got ++ bytes) := by
  induction bytes with
  | nil => exact fun _ hne => absurd rfl hne
  | cons b rest ih =>
    intro got _ hn
    rw [List.length_cons] at hn
    cases rest with
    | nil => exact hlast got b (by simp at hn; omega)
    | cons c rest =>
      rw [List.length_cons] at hn
      rw [List.foldl_cons, hmore got b (by omega), ih (got ++ [b]) (List.cons_ne_nil c rest) (by simp; omega),
        List.append_assoc, List.singleton_append]

/-- The body bytes: once they are as many as the length gives, the check follows. -/
theorem Link.takeBody (l : Link) {bytes : List Byte} (h : bytes ≠ []) :
    bytes.foldl Link.takeByte { l with framer := .body bytes.length [] } = { l with framer := .check bytes [] } :=
  Link.gather (phase := .body bytes.length) (done := fun whole => { l with framer := .check whole [] })
    (fun _ _ hmore => if_pos hmore) (fun _ _ hlast => if_neg hlast) bytes [] h (Nat.zero_add _)

/-- The four check bytes: with the last of them the frame is judged. -/
theorem Link.takeCheck (l : Link) (body : List Byte) {check : List Byte} (h : check.length = 4) :
    check.foldl Link.takeByte { l with framer := .check body [] } = l.judgeFrame body check :=
  Link.gather (phase := .check body) (done := l.judgeFrame body)
    (fun _ _ hmore => if_pos hmore) (fun _ _ hlast => (if_neg hlast).trans (l.judgeFrame_framer _ _ _)) check []
    (List.ne_nil_of_length_pos (by omega)) (by simpa using h)

/-! ### Whole frames -/

/-- A frame taken in HUNT with a length in range is judged by its check. -/
theorem Link.takeFrame {l : Link} (h : l.framer = .hunt) {body check : List Byte} (hmin : 2 ≤ body.length)
    (hmax : body.length ≤ 1026) (hcheck : check.length = 4) :
    (0xA5#8 :: (le 2 body.length ++ body ++ check)).foldl Link.takeByte l = l.judgeFrame body check := by
  have hbody : body ≠ [] := List.ne_nil_of_length_pos (by omega)
  rw [List.foldl_cons, List.foldl_append, List.foldl_append, Link.takeByte_start h, l.takeLength (by omega),
    if_pos ⟨hmin, hmax⟩, l.takeBody hbody, l.takeCheck body hcheck]

/-- A frame that the part or the host forms (R163) passes the link check. -/
theorem Link.takeFrame_frameOf {l : Link} (h : l.framer = .hunt) (kind tag : Byte) {payload : List Byte}
    (hp : payload.length ≤ 1024) :
    (frameOf (kind :: tag :: payload)).foldl Link.takeByte l = l.takeRequest kind tag payload := by
  have hdigest : unle (le 4 (digest (kind :: tag :: payload)).toNat) = (digest (kind :: tag :: payload)).toNat :=
    unle_le_of_lt (BitVec.isLt _)
  exact (Link.takeFrame h (by simp) (by simp; omega) (le_length 4 _)).trans (l.judgeFrame_pass hdigest.symm)

/-- A length out of range is a receive error. -/
theorem Link.takeFrame_badLength {l : Link} (h : l.framer = .hunt) {n : Nat} (hn : n < 65536)
    (hrange : n < 2 ∨ 1026 < n) :
    (0xA5#8 :: le 2 n).foldl Link.takeByte l = l.receiveError := by
  rw [List.foldl_cons, Link.takeByte_start h, l.takeLength hn, if_neg (by omega)]

/-! ### The commands -/

/-- Bytes with their stop bits high are taken one by one. -/
theorem foldl_receiveByte_received (bytes : List Byte) (l : Link) :
    (received bytes).foldl Link.receiveByte l = bytes.foldl Link.takeByte l := by
  rw [received, List.foldl_map]
  rfl

/-- RECEIVE_FRAME with no reset asserted. -/
theorem exec_receiveFrame_received {s : State} (h : s.resetHeld = false) (bytes : List Byte) :
    exec (.receiveFrame (received bytes)) s = .next { s with link := bytes.foldl Link.takeByte s.link } := by
  rw [← foldl_receiveByte_received]
  exact congrArg _ (if_neg (by simp [h]))

/-- A bad byte sets the link-error flag and leaves the framer in HUNT, in whatever phase it comes (R162, R164). -/
theorem Link.receiveByte_bad (l : Link) (b : Byte) :
    l.receiveByte ⟨b, false⟩ = { l with framer := .hunt, linkError := true } := by
  simp only [Link.receiveByte, Bool.false_eq_true, if_false]
  split
  · next h => rw [← h]
  · rfl

theorem exec_badByteInHunt {s : State} (h : s.resetHeld = false) :
    exec .badByteInHunt s = .next { s with link := { s.link with framer := .hunt, linkError := true } } := by
  rw [← Link.receiveByte_bad s.link 0#8]
  exact congrArg _ (if_neg (by simp [h]))

end Sys2Proof.Machine
end


section
/-! SUPPORT. What Table 9-3, a formed reply, the end of a frame and a notice come to (R166 to R173), by whether the
transmitter is at work. -/

namespace Sys2Proof.Machine

open Sys2Proof

/-! ### The transmitter (R171) -/

/-- With no reply waiting an IDLE transmitter takes a reply just put in the list. -/
theorem Link.transmit_newReply {l : Link} (r : Reply) (h : l.sending = none) (hr : l.replies = []) :
    ({ l with replies := l.replies ++ [r] } : Link).transmit = { l with sending := some (.reply r) } := by
  obtain ⟨_, _, _, replies, _, _, sending, _⟩ := l
  cases h
  cases hr
  rfl

/-- With nothing waiting an IDLE transmitter takes a notice just put in the queue. -/
theorem Link.transmit_newNotice {l : Link} (n : Notice) (h : l.sending = none) (hr : l.replies = [])
    (hn : l.notices = []) :
    ({ l with notices := l.notices ++ [n] } : Link).transmit = { l with sending := some (.notice n) } := by
  obtain ⟨_, _, _, replies, notices, _, sending, _⟩ := l
  cases h
  cases hr
  cases hn
  rfl

/-- Posted notices are no part of a transmit boundary. -/
theorem Link.transmit_unposted (l : Link) (q : List Notice) :
    ({ l with posted := q } : Link).transmit = { l.transmit with posted := q } := by
  obtain ⟨_, _, _, replies, notices, _, sending, _⟩ := l
  cases sending with
  | some x => rfl
  | none =>
    cases replies with
    | cons r rest => rfl
    | nil =>
      cases notices with
      | cons n rest => rfl
      | nil => rfl

/-! ### Requests that pass the link check (Table 9-3) -/

/-- A request enters the queue while the queue holds fewer than 4. -/
theorem Link.takeRequest_queued {l : Link} (h : l.queue.length < 4) (kind tag : Byte) (payload : List Byte) :
    l.takeRequest kind tag payload =
      { l with framer := .hunt, queue := l.queue ++ [⟨kind, tag, payload, false⟩] } := if_pos h

/-- With 4 requests in the queue an overflow reply is formed, while fewer than 8 wait. -/
theorem Link.takeRequest_overflow {l : Link} (hq : 4 ≤ l.queue.length) (ho : l.overflowWaiting < 8) (kind tag : Byte)
    (payload : List Byte) : l.takeRequest kind tag payload =
      ({ l with framer := .hunt, replies := l.replies ++ [overflowReply kind tag] } : Link).transmit :=
  (if_neg (Nat.not_lt.mpr hq)).trans (if_pos ho)

/-- With 4 requests in the queue and 8 overflow replies waiting, the frame is a receive overrun. -/
theorem Link.takeRequest_overrun {l : Link} (hq : 4 ≤ l.queue.length) (ho : 8 ≤ l.overflowWaiting) (kind tag : Byte)
    (payload : List Byte) : l.takeRequest kind tag payload = l.receiveError :=
  (if_neg (Nat.not_lt.mpr hq)).trans (if_neg (Nat.not_lt.mpr ho))

theorem Link.overflowWaiting_of_nil {l : Link} (h : l.replies = []) : l.overflowWaiting = 0 := by
  rw [Link.overflowWaiting, h, List.countP_nil]

/-! ### Replies (R166, R168) -/

/-- The next request stands behind the replied ones, and ahead of the others (R166). -/
theorem Link.nextRequest_split {l : Link} {r : Request} (h : l.nextRequest = some r) :
    ∃ a b, l.queue = a ++ r :: b ∧ (∀ x ∈ a, x.replied = true) ∧ r.replied = false := by
  obtain ⟨hr, a, b, hq, ha⟩ := List.find?_eq_some_iff_append.mp h
  exact ⟨a, b, hq, fun x hx => by simpa using ha x hx, by simpa using hr⟩

/-- The front request without a reply is marked. -/
theorem markReplied_append {a b : List Request} {r : Request} (ha : ∀ x ∈ a, x.replied = true)
    (hr : r.replied = false) : markReplied (a ++ r :: b) = a ++ { r with replied := true } :: b := by
  induction a with
  | nil => simp [markReplied, hr]
  | cons x rest ih =>
    have hrest := ih fun y hy => ha y (List.mem_cons_of_mem x hy)
    simp [markReplied, ha x (List.mem_cons_self ..), hrest]

/-- A reply carries a payload with the status OK, ACCEPTED or IGNORED (R168). -/
theorem Status.carriesPayload_iff (st : Status) :
    st.carriesPayload = true ↔ st = .ok ∨ st = .accepted ∨ st = .ignored := by
  cases st <;> decide

/-- The reply of a request, field by field (R168). -/
theorem Request.reply_eq (r : Request) (st : Status) (payload : List Byte) (resets : Bool) :
    r.reply st payload resets = ⟨.ordinary, r.kind + 0x80#8, r.tag, st,
      if st = .ok ∨ st = .accepted ∨ st = .ignored then payload else [], resets⟩ := by
  simp only [Request.reply, replyKind, Status.carriesPayload_iff]

section reply

variable {l : Link} {r : Request} (h : l.nextRequest = some r) (st : Status) (payload : List Byte) (resets : Bool)
include h

/-- A reply formed: the request is marked, and the reply goes to the back of the list (R166). -/
theorem Link.formReply_eq : l.formReply st payload resets =
    ({ l with queue := markReplied l.queue, replies := l.replies ++ [r.reply st payload resets] } : Link).transmit := by
  simp only [Link.formReply, h]

theorem Link.formReply_queue : (l.formReply st payload resets).queue = markReplied l.queue := by
  obtain ⟨-, -, hqueue, -⟩ := Link.transmit_frame
    { l with queue := markReplied l.queue, replies := l.replies ++ [r.reply st payload resets] }
  rw [Link.formReply_eq h, hqueue]

/-- With the transmitter at work the reply waits. -/
theorem Link.formReply_busy (hs : l.sending ≠ none) : l.formReply st payload resets =
    { l with queue := markReplied l.queue, replies := l.replies ++ [r.reply st payload resets] } :=
  (Link.formReply_eq h st payload resets).trans (Link.transmit_busy hs)

/-- With no reply waiting and the transmitter IDLE the reply is sent at once. -/
theorem Link.formReply_idle (hs : l.sending = none) (hr : l.replies = []) : l.formReply st payload resets =
    { l with queue := markReplied l.queue, sending := some (.reply (r.reply st payload resets)) } :=
  (Link.formReply_eq h st payload resets).trans
    (Link.transmit_newReply (l := { l with queue := markReplied l.queue }) _ hs hr)

end reply

/-! ### The end of a frame (R166, R171) -/

/-- The queue once a frame has gone: an ordinary reply's request gives up the front place. -/
def Sending.queueAfter (x : Sending) (queue : List Request) : List Request :=
  match x with
  | .reply r => if r.source = .ordinary then queue.drop 1 else queue
  | .notice _ => queue

/-- The end of a frame is a transmit boundary, once its request has given up its place. -/
theorem Link.frameSent_eq {l : Link} {x : Sending} (h : l.sending = some x) :
    l.frameSent = ({ l with queue := x.queueAfter l.queue, sending := none } : Link).transmit := by
  cases x with
  | notice n => simp only [Link.frameSent, h, Sending.queueAfter]
  | reply r =>
    cases hsource : r.source with
    | ordinary => simp [Link.frameSent, h, Sending.queueAfter, hsource]
    | overflow => simp [Link.frameSent, h, Sending.queueAfter, hsource]

/-- FRAME_SENT, but for the reply of a RESET (R190): `m` is what the transmit boundary makes of the link. -/
theorem exec_frameSent {s : State} {x : Sending} {m : Link} (h : s.link.sending = some x)
    (hr : s.link.sendingResets = false)
    (hm : ({ s.link with queue := x.queueAfter s.link.queue, sending := none } : Link).transmit = m) :
    exec .frameSent s = .next { s with link := m } := by
  rw [← hm, ← Link.frameSent_eq h]
  exact congrArg _ (if_neg (by simp [hr]))

/-! ### Notices (R172) -/

/-- Nothing is posted in STARTING (R188). -/
theorem State.post_starting {s : State} (h : s.mode = .starting) (n : Notice) : s.post n = s := if_pos h

/-- Nothing is posted of a kind the mask disables. -/
theorem State.post_disabled {s : State} {n : Notice} (h : s.mask.getLsbD n.kind.index = false) : s.post n = s := by
  simp [State.post, noticeEnabled, h]

/-- A notice of an enabled kind is posted, and nothing else changes. -/
theorem State.post_eq_of_enabled {s : State} {n : Notice} (hm : s.mode ≠ .starting)
    (h : s.mask.getLsbD n.kind.index = true) :
    s.post n = { s with link := { s.link with posted := s.link.posted ++ [n] } } :=
  (if_neg hm).trans (if_pos h)

/-- While the queue holds fewer than 32 a notice goes to its back. -/
theorem Link.enqueueNotice_room {l : Link} (h : l.notices.length < 32) (n : Notice) :
    l.enqueueNotice n = ({ l with notices := l.notices ++ [n] } : Link).transmit := if_pos h

/-- At 32 a notice is lost. -/
theorem Link.enqueueNotice_full {l : Link} (h : 32 ≤ l.notices.length) (n : Notice) :
    l.enqueueNotice n = { l with noticesLost := true } := if_neg (Nat.not_lt.mpr h)

/-- What else is posted does not matter to a notice that enters. -/
theorem Link.enqueueNotice_unposted (l : Link) (q : List Notice) (n : Notice) :
    ({ l with posted := q } : Link).enqueueNotice n = { l.enqueueNotice n with posted := q } := by
  by_cases h : l.notices.length < 32
  · rw [Link.enqueueNotice_room h, Link.enqueueNotice_room (l := { l with posted := q }) h]
    exact Link.transmit_unposted { l with notices := l.notices ++ [n] } q
  · rw [Link.enqueueNotice_full (Nat.not_lt.mp h),
      Link.enqueueNotice_full (l := { l with posted := q }) (Nat.not_lt.mp h)]

/-- One notice posted: it enters. -/
theorem takePostedLoop_one {s : State} {n : Notice} (h : s.link.posted = [n]) (fuel : Nat) :
    takePostedLoop (fuel + 1) s = { s with link := ({ s.link with posted := [] } : Link).enqueueNotice n } := by
  simp only [takePostedLoop, h]

/-- Two notices posted: the one that the free value names enters first, and then the other (log 5). -/
theorem takePosted_two {s : State} {a b first second : Notice} (h : s.link.posted = [a, b])
    (hfirst : [a, b].getD (Config.noticeOrder s.freeCount % 2) a = first)
    (hsecond : [a, b].eraseIdx (Config.noticeOrder s.freeCount % 2) = [second]) :
    (takePosted s).link = (({ s.link with posted := [] } : Link).enqueueNotice first).enqueueNotice second := by
  have hloop : takePosted s = takePostedLoop 1 { s with
      freeCount := s.freeCount + 1
      link := ({ s.link with posted := [second] } : Link).enqueueNotice first } := by
    simp only [takePosted, h, List.length_cons, List.length_nil, Nat.zero_add, takePostedLoop, hfirst, hsecond]
  have hposted : (({ s.link with posted := [second] } : Link).enqueueNotice first).posted = [second] :=
    Link.enqueueNotice_posted _ first
  rw [hloop, takePostedLoop_one hposted 0]
  show Link.enqueueNotice { Link.enqueueNotice { s.link with posted := [second] } first with posted := [] } second = _
  rw [← Link.enqueueNotice_unposted]

end Sys2Proof.Machine
end


section
/-! SUPPORT. The generic checks of a request (R170) in their order, and the fields of the requests on the part (R174 to
R176). -/

namespace Sys2Proof.Machine

open Sys2Proof

/-! ### When a request is executed (R166, R190) -/

/-- The command of a request kind is the execution of its action (Table 9-7). -/
theorem exec_command (k : RequestKind) : ∃ act, ∀ s, exec k.command s = .next (s.runRequest k act) := by
  cases k <;> exact ⟨_, fun _ => rfl⟩

section execution

variable {s : State} {k : RequestKind} {r : Request} (act : List Byte → State → Action)

/-- A request of the kind at the front comes to its checks, while no RESET has been answered. -/
theorem State.runRequest_front (hfront : s.link.nextRequest = some r) (hk : r.kind.toNat = k.code)
    (hrun : s.resetAsked = false) : s.runRequest k act = s.runChecks k r.payload act := by
  simp only [State.runRequest, hfront]
  exact if_pos ⟨hk, hrun⟩

/-- With no such request, or with a RESET answered, nothing is executed (log 1). -/
theorem State.runRequest_nothing (h : s.link.nextRequest = none ∨ s.resetAsked = true ∨
    ∃ r, s.link.nextRequest = some r ∧ r.kind.toNat ≠ k.code) : s.runRequest k act = s := by
  unfold State.runRequest
  split
  · rfl
  · next r hfront =>
    refine if_neg fun ⟨hk, hrun⟩ => ?_
    rcases h with hnone | hasked | ⟨x, hx, hother⟩
    · cases hnone.symm.trans hfront
    · cases hasked.symm.trans hrun
    · cases hx.symm.trans hfront
      exact hother hk

/-! ### The checks in their order (R170) -/

variable {payload : List Byte}

theorem State.runChecks_starting (hm : s.mode = .starting) : s.runChecks k payload act = s.answer .busy [] := if_pos hm

theorem State.runChecks_badLength (hm : s.mode ≠ .starting) (hl : payload.length ≠ k.length) :
    s.runChecks k payload act = s.answer .badLength [] := (if_neg hm).trans (if_pos hl)

theorem State.runChecks_wrongMode (hm : s.mode ≠ .starting) (hl : payload.length = k.length)
    (ht : k.takenIn s.mode = false) : s.runChecks k payload act = s.answer .wrongMode [] :=
  (if_neg hm).trans ((if_neg (not_not.mpr hl)).trans (if_pos ht))

end execution

/-- The request kinds are 0x01 to 0x21. -/
theorem isRequestKind_eq_false {kind : Byte} (h : kind.toNat = 0 ∨ 0x22 ≤ kind.toNat) : isRequestKind kind = false := by
  simp only [isRequestKind, Bool.and_eq_false_iff, decide_eq_false_iff_not]
  omega

/-- A request of no request kind at the front is answered, BUSY in STARTING (R170 steps 1 and 2). -/
theorem exec_unknownRequest {s : State} {r : Request} (hfront : s.link.nextRequest = some r)
    (hk : isRequestKind r.kind = false) (hrun : s.resetAsked = false) : exec .unknownRequest s =
      .next (if s.mode = .starting then s.answer .busy [] else s.answer .unknownRequest []) := by
  show execUnknownRequest s = _
  simp only [execUnknownRequest, hfront]
  exact congrArg _ (if_pos ⟨hk, hrun⟩)

/-! ### The requests on the part -/

/-- The part's description byte by byte (R175). -/
theorem identifyFields_eq : identifyFields =
    [0x53#8, 0x43#8, 0x38#8, 0x20#8, 0x20#8, 0x20#8, 0x20#8, 0x20#8, 2#8, 8#8, 0x00#8, 0x02#8, 16#8,
      0x00#8, 0x01#8, 32#8, 4#8, 0x00#8, 0x04#8, 0x00#8, 0x10#8, 0#8, 0#8, 0#8, 4#8] := by decide

/-- The mask taken has the STARTUP enable set, and the other enables as given (R174). -/
theorem maskTaken_enables (b : Byte) :
    (maskTaken b).getLsbD 0 = true ∧ ∀ i, 1 ≤ i → (maskTaken b).getLsbD i = b.getLsbD i := by
  refine ⟨by simp [maskTaken], fun i hi => ?_⟩
  have hbit : (1#8).getLsbD i = false := by
    simp only [BitVec.getLsbD_one, Bool.and_eq_false_iff, decide_eq_false_iff_not]
    omega
  rw [maskTaken, BitVec.getLsbD_or, hbit, Bool.or_false]

end Sys2Proof.Machine
end

section
open Sys2Proof Sys2Proof.Machine

/-- Settles O12: the framer's phases in turn, the frame judged by its length and its check, and the errors outside a
frame's own bytes. -/
theorem framesJudged : Obligations.FramesJudged := by
  refine ⟨fun s kind tag payload hr hh hp => ?_, fun s hr hh => ⟨fun body check hmin hmax hlen hcheck => ?_,
    fun n hn hrange => ?_⟩, fun s => ⟨exec_badByteInHunt, fun hg => congrArg _ (if_neg hg),
    fun hg => congrArg _ (if_pos hg), fun hr => ⟨congrArg _ (if_pos hr), fun _ => congrArg _ (if_pos hr)⟩⟩⟩
  · rw [exec_receiveFrame_received hr, Link.takeFrame_frameOf hh kind tag hp]
  · rw [exec_receiveFrame_received hr, Link.takeFrame hh hmin hmax hlen, s.link.judgeFrame_fail hcheck.symm,
      Link.receiveError_hunt hh]
  · rw [exec_receiveFrame_received hr, Link.takeFrame_badLength hh hn hrange, Link.receiveError_hunt hh]

/-- Settles O13: the three lines of Table 9-3, the second with the transmitter at work and IDLE. -/
theorem requestTakenByTable93 : Obligations.RequestTakenByTable93 := by
  refine fun l kind tag payload => ⟨fun hq => Link.takeRequest_queued hq kind tag payload, fun hq ho hs => ?_,
    fun hq hs hr => ?_, fun hq ho => Link.takeRequest_overrun hq ho kind tag payload⟩
  · exact (Link.takeRequest_overflow hq ho kind tag payload).trans (Link.transmit_busy hs)
  · have hnone : l.overflowWaiting < 8 := Link.overflowWaiting_of_nil hr ▸ Nat.zero_lt_succ 7
    exact (Link.takeRequest_overflow hq hnone kind tag payload).trans
      (Link.transmit_newReply (l := { l with framer := .hunt }) _ hs hr)

/-- Settles O14: the request marked in its place, and the reply in the list or on the line. -/
theorem replyFormedInOrder : Obligations.ReplyFormedInOrder := by
  intro l r st payload resets h p m
  have hp : r.reply st payload resets = p := r.reply_eq st payload resets
  have hqueue : m.queue = markReplied l.queue := Link.formReply_queue h st payload resets
  refine ⟨?_, fun hs => ?_, fun hs hr => ?_⟩
  · obtain ⟨a, b, hq, ha, hr⟩ := Link.nextRequest_split h
    exact ⟨a, b, hq, ha, hr, by rw [hqueue, hq, markReplied_append ha hr]⟩
  · rw [hqueue, ← hp]
    exact Link.formReply_busy h st payload resets hs
  · rw [hqueue, ← hp]
    exact Link.formReply_idle h st payload resets hs hr

/-- Settles O15: the transmit boundary at the end of a frame, by what waits. -/
theorem frameSentChoosesNext : Obligations.FrameSentChoosesNext := by
  intro s x hx hresets queue
  exact ⟨fun r rest hr => exec_frameSent hx hresets (Link.transmit_reply rfl hr),
    fun n rest hr hn => exec_frameSent hx hresets (Link.transmit_notice rfl hr hn),
    fun hr hn => exec_frameSent hx hresets (Link.transmit_idle rfl hr hn)⟩

/-- Settles O16: a notice posted, a notice taken, and two of one event by the free value. -/
theorem noticesQueuedOrLost : Obligations.NoticesQueuedOrLost := by
  refine ⟨fun s n => ⟨fun h => State.post_starting h n, State.post_disabled, State.post_eq_of_enabled⟩,
    fun l n => ⟨fun h hs => ?_, fun hs hr hn => ?_, fun h => Link.enqueueNotice_full h n⟩, fun s a b h => ?_⟩
  · exact (Link.enqueueNotice_room h n).trans (Link.transmit_busy hs)
  · have hroom : l.notices.length < 32 := by rw [hn]; exact Nat.zero_lt_succ 31
    rw [Link.enqueueNotice_room hroom, Link.transmit_newNotice n hs hr hn]
  · rcases Nat.mod_two_eq_zero_or_one (Config.noticeOrder s.freeCount) with hk | hk
    · exact .inl (takePosted_two h (by rw [hk]; rfl) (by rw [hk]; rfl))
    · exact .inr (takePosted_two h (by rw [hk]; rfl) (by rw [hk]; rfl))

/-- Settles O17: the front request comes to its checks, and each check that fails answers. -/
theorem genericChecksInOrder : Obligations.GenericChecksInOrder := by
  refine ⟨fun k s r hfront hk hrun => ?_, fun s r hfront hk hrun => ?_, fun k s h => ?_⟩
  · obtain ⟨act, hact⟩ := exec_command k
    rw [hact, State.runRequest_front act hfront hk hrun]
    exact ⟨fun hm => congrArg _ (State.runChecks_starting act hm),
      fun hm hl => congrArg _ (State.runChecks_badLength act hm hl),
      fun hm hl ht => congrArg _ (State.runChecks_wrongMode act hm hl ht)⟩
  · rw [exec_unknownRequest hfront (isRequestKind_eq_false hk) hrun]
    exact ⟨fun hm => congrArg _ (if_pos hm), fun hm => congrArg _ (if_neg hm)⟩
  · obtain ⟨act, hact⟩ := exec_command k
    rw [hact, State.runRequest_nothing act h]

/-- Settles O18: each action is performed, with the fields of its reply. -/
theorem partRequestsAnswer : Obligations.PartRequestsAnswer := by
  refine ⟨fun s r h => ?_, fun s r h => exec_perform rfl h rfl,
    fun s r => ⟨fun h => ⟨exec_perform rfl h rfl, maskTaken_enables (byteAt r.payload 0)⟩,
      fun h => exec_perform rfl h rfl⟩⟩
  rw [← identifyFields_eq]
  exact exec_perform rfl h rfl

end

section
/-! SUPPORT. Jobs terminal and RPU IDLE outside RUN (R178) under every command: units' work keeps it so, events come to
such work, most requests leave the mode, the jobs and RPU as they are, and SET_MODE leaves RUN only where it holds. -/

namespace Sys2Proof.Machine

open Sys2Proof

/-! ### What keeps it -/

/-- A state that may follow `s` where nothing goes on outside RUN (R178). -/
def State.SparesQuiet (s t : State) : Prop := s.QuietOutsideRun → t.QuietOutsideRun

namespace State.SparesQuiet

variable {s t u : State}

/-- The same mode, the same jobs and the same phase of RPU. -/
theorem of_same (hmode : t.mode = s.mode) (hjobs : t.jbu = s.jbu) (hrpu : t.rpu.phase = s.rpu.phase) :
    s.SparesQuiet t := by
  intro h hm
  obtain ⟨hterminal, hidle⟩ := h (hmode ▸ hm)
  exact ⟨State.allTerminal_of_jbu hjobs hterminal, hrpu.trans hidle⟩

theorem refl (s : State) : s.SparesQuiet s := fun h => h

theorem trans (h : s.SparesQuiet t) (k : t.SparesQuiet u) : s.SparesQuiet u := k ∘ h

theorem settle (h : s.SparesQuiet t) : s.SparesQuiet (settle t) := h.trans (settle_settles t).quietOutsideRun

/-- In RUN there is nothing to keep. -/
theorem of_run (h : t.mode = .run) : s.SparesQuiet t := fun _ hm => absurd h hm

/-- With every slot FREE and RPU as a reset leaves it nothing goes on. -/
theorem of_cleared (hjobs : t.jbu = Jbu.cleared) (hrpu : t.rpu = Rpu.cleared) : s.SparesQuiet t := by
  intro _ _
  refine ⟨fun i j hj => ?_, congrArg Rpu.phase hrpu⟩
  have hfree : t.slot i = none := by simp [State.slot, hjobs, Jbu.cleared]
  cases hfree.symm.trans hj

end State.SparesQuiet

theorem State.Keeps.sparesQuiet {s t : State} (h : s.Keeps t) : s.SparesQuiet t := h.quietOutsideRun

theorem State.KeepsJobs.sparesQuiet {s t : State} (h : s.KeepsJobs t) : s.SparesQuiet t := h.toKeeps.quietOutsideRun

theorem State.Moves.sparesQuiet {s t : State} (h : s.Moves t) : s.SparesQuiet t := h.quietOutsideRun

/-! ### SET_MODE (R179, R180) -/

/-- No non-terminal job is left where every job in a slot is terminal. -/
theorem State.liveSlots_eq_nil {s : State} : s.liveSlots = [] ↔ s.AllTerminal := by
  simp only [State.liveSlots, State.slotsWhere, List.filter_eq_nil_iff, State.AllTerminal]
  refine ⟨fun h i j hj => ?_, fun h i _ => ?_⟩
  · have hi := h i (List.mem_finRange i)
    simpa [hj, Job.live] using hi
  · cases hj : s.slot i with
    | none => simp
    | some j => simp [Job.live, h i j hj]

/-- SET_MODE SETUP may leave RUN only with every job terminal and RPU IDLE (R179 step 3). -/
theorem State.leavingRunBlocked_eq_false {s : State} :
    s.leavingRunBlocked = false ↔ s.liveSlots = [] ∧ s.rpu.phase = .idle := by
  simp [State.leavingRunBlocked]

/-- SET_MODE RUN leaves the part in RUN. -/
theorem State.setRun_mode (s : State) (a : Bool) : (s.setRun a).mode = .run := by
  simp only [State.setRun]
  split
  · rfl
  · exact (settle_settles _).mode.trans (enterRun_keeps _).mode

/-! ### Requests on the part and its ports -/

section actions

variable (p : List Byte) (s : State)

theorem setModeAction_sparesQuiet : (setModeAction p s).Leaves s.SparesQuiet := by
  simp only [setModeAction]
  split_ifs with _ _ _ hblocked
  · trivial
  · trivial
  · trivial
  · intro h _
    by_cases hrun : s.mode = .run
    · have hfree : s.leavingRunBlocked = false := Bool.eq_false_iff.mpr fun hb => hblocked ⟨hrun, hb⟩
      obtain ⟨hjobs, hidle⟩ := State.leavingRunBlocked_eq_false.mp hfree
      exact ⟨State.liveSlots_eq_nil.mp hjobs, hidle⟩
    · exact h hrun
  · exact .of_run (s.setRun_mode _)

/-- PTS changed, and then every port evaluated (R152, R154). -/
theorem State.evaluated_sparesQuiet (pts : Pts) : s.SparesQuiet (settle (evaluateAll { s with pts := pts })) :=
  (State.SparesQuiet.of_same rfl rfl rfl).trans (evaluateAll_keeps { s with pts := pts }).sparesQuiet |>.settle

theorem setTimeAction_sparesQuiet : (setTimeAction p s).Leaves s.SparesQuiet := s.evaluated_sparesQuiet _

theorem setPatrolAction_sparesQuiet : (setPatrolAction p s).Leaves s.SparesQuiet := by
  simp only [setPatrolAction]
  split_ifs
  exacts [trivial, trivial, .refl s, s.evaluated_sparesQuiet _, .of_same rfl rfl rfl]

theorem convertAction_sparesQuiet : (convertAction p s).Leaves s.SparesQuiet := by
  simp only [convertAction]
  repeat' split
  exacts [trivial, trivial, trivial, .refl s, .refl s, trivial]

theorem portConfigAction_sparesQuiet : (portConfigAction p s).Leaves s.SparesQuiet := by
  unfold portConfigAction
  split
  exacts [trivial, .of_same rfl rfl rfl]

theorem portStatusAction_sparesQuiet : (portStatusAction p s).Leaves s.SparesQuiet := by
  unfold portStatusAction
  split
  exacts [trivial, .of_same rfl rfl rfl]

/-- Bringing a port back leaves RPU as it is. -/
theorem State.bringOnline_rpu (n : PortId) : (s.bringOnline n).rpu = s.rpu := by
  obtain ⟨-, -, -, -, hposted⟩ := State.post_frame (s.modPort n Port.broughtBack)
    (portEvent n .port ((s.modPort n Port.broughtBack).port n))
  rw [State.bringOnline_eq]
  split <;> exact hposted

theorem portOnlineAction_sparesQuiet : (portOnlineAction p s).Leaves s.SparesQuiet := by
  have hback : ∀ n, s.SparesQuiet (s.bringOnline n) := by
    intro n
    obtain ⟨-, hjobs, -, -, hmode⟩ := s.bringOnline_frame n
    exact .of_same hmode hjobs (by rw [s.bringOnline_rpu n])
  unfold portOnlineAction
  repeat' split
  exacts [trivial, .refl s, trivial, (hback _).settle]

theorem marginReadAction_sparesQuiet : (marginReadAction p s).Leaves s.SparesQuiet := by
  unfold marginReadAction
  split
  exacts [trivial, .refl s]

/-! ### Requests on the catalogue and on stores -/

theorem addReelAction_sparesQuiet : (addReelAction p s).Leaves s.SparesQuiet := by
  simp only [addReelAction]
  repeat' split
  exacts [trivial, trivial, trivial, trivial, .of_same rfl rfl rfl]

theorem editReelAction_sparesQuiet : (editReelAction p s).Leaves s.SparesQuiet := by
  simp only [editReelAction]
  repeat' split
  exacts [trivial, trivial, .of_same rfl rfl rfl]

theorem removeReelAction_sparesQuiet : (removeReelAction p s).Leaves s.SparesQuiet := by
  unfold removeReelAction
  split
  exacts [trivial, .of_same rfl rfl rfl]

theorem readReelAction_sparesQuiet : (readReelAction p s).Leaves s.SparesQuiet := by
  unfold readReelAction
  split
  exacts [trivial, .refl s]

theorem listReelsAction_sparesQuiet : (listReelsAction p s).Leaves s.SparesQuiet := by
  simp only [listReelsAction]
  split
  exacts [trivial, .refl s]

theorem freezeReelAction_sparesQuiet : (freezeReelAction p s).Leaves s.SparesQuiet := by
  unfold freezeReelAction
  repeat' split
  exacts [trivial, trivial, .of_same rfl rfl rfl]

theorem storeAction_sparesQuiet : (storeAction p s).Leaves s.SparesQuiet := by
  unfold storeAction
  split
  exacts [trivial, .of_same rfl rfl rfl]

/-- RESTORE_FACTORY leaves RPU as it is (R186). -/
theorem State.restored_rpu : s.restored.rpu = s.rpu := by
  unfold State.restored
  rw [State.mapPorts_frame]

theorem restoreFactoryAction_sparesQuiet : (restoreFactoryAction p s).Leaves s.SparesQuiet := by
  obtain ⟨-, -, hjobs, hmode, -⟩ := s.restored_frame
  unfold restoreFactoryAction
  split_ifs
  exacts [trivial, trivial, .of_same hmode hjobs (congrArg Rpu.phase s.restored_rpu)]

theorem lockAction_sparesQuiet (b : Bool) : (lockAction b p s).Leaves s.SparesQuiet := by
  unfold lockAction
  repeat' split
  exacts [trivial, .refl s, (s.lockReel_keeps _ b).sparesQuiet.settle]

theorem lockAllAction_sparesQuiet (b : Bool) : (lockAllAction b p s).Leaves s.SparesQuiet :=
  (s.lockEvery_keeps b).sparesQuiet.settle

/-! ### Requests on jobs -/

/-- A job created by a request (R88, R89), in RUN. -/
theorem State.startJob_sparesQuiet (hm : s.mode = .run) (i : SlotId) {j : Job} (hj : j.state = .queued) :
    s.SparesQuiet (s.startJob i j) :=
  ((s.createJob_keeps i j hm hj).trans (State.followUp_keeps _ _)).sparesQuiet.settle

theorem startScrubAction_sparesQuiet (hm : s.mode = .run) : (startScrubAction p s).Leaves s.SparesQuiet := by
  unfold startScrubAction
  repeat' split
  exacts [trivial, trivial, trivial, trivial, trivial, trivial,
    s.startJob_sparesQuiet hm _ (newJob_state _ _ _ _ _ _ _)]

theorem startVerifyAction_sparesQuiet (hm : s.mode = .run) : (startVerifyAction p s).Leaves s.SparesQuiet := by
  unfold startVerifyAction
  repeat' split
  exacts [trivial, trivial, trivial, trivial, s.startJob_sparesQuiet hm _ (newJob_state _ _ _ _ _ _ _)]

theorem suspendJobAction_sparesQuiet : (suspendJobAction p s).Leaves s.SparesQuiet := by
  unfold suspendJobAction
  split
  · trivial
  · next i j hj =>
    split_ifs with _ hrun
    · exact .refl s
    · trivial
    · trivial
    · have ha : s.ActiveAt i := ⟨j, State.jobNamed_slot hj, by rw [not_not.mp hrun]; rfl⟩
      exact (s.suspend_keeps i j ha).sparesQuiet.settle

theorem resumeJobAction_sparesQuiet : (resumeJobAction p s).Leaves s.SparesQuiet := by
  unfold resumeJobAction
  split
  · trivial
  · next i j hj =>
    split_ifs with hsuspended
    · trivial
    · have hl : s.LiveAt i := by
        intro k hk
        cases (State.jobNamed_slot hj).symm.trans hk
        rw [not_not.mp hsuspended]
        rfl
      exact (s.resume_keeps i j hl).sparesQuiet.settle

theorem abortJobAction_sparesQuiet : (abortJobAction p s).Leaves s.SparesQuiet := by
  unfold abortJobAction
  repeat' split
  exacts [trivial, trivial, (s.abort_keeps _ _).sparesQuiet.settle]

theorem jobStatusAction_sparesQuiet : (jobStatusAction p s).Leaves s.SparesQuiet := by
  unfold jobStatusAction
  split
  · trivial
  · next i j _ =>
    show s.SparesQuiet (if j.state.terminal then s.setSlot i none else s)
    split
    exacts [(s.freeSlot_keeps i).sparesQuiet, .refl s]

/-! ### Requests on the defect list -/

theorem readDefectsAction_sparesQuiet : (readDefectsAction p s).Leaves s.SparesQuiet := by
  simp only [readDefectsAction]
  split
  exacts [trivial, .refl s]

/-- A record dropped leaves all but the list, and admission and evaluation are units' work (R106, R110). -/
theorem State.removeRecord_sparesQuiet (r : Record) : s.SparesQuiet (s.removeRecord r) :=
  State.SparesQuiet.settle <| State.SparesQuiet.trans (t := s.dropRecord r.id) (.of_same rfl rfl rfl)
    ((State.admission_keeps _).trans (State.evaluate_keeps _ _)).sparesQuiet

theorem removeDefectAction_sparesQuiet : (removeDefectAction p s).Leaves s.SparesQuiet := by
  unfold removeDefectAction
  repeat' split
  exacts [trivial, s.removeRecord_sparesQuiet _, trivial]

theorem State.retryRecord_sparesQuiet (r : Record) : s.SparesQuiet (s.retryRecord r) := by
  have hput := s.modRecord_keeps r.id
    (fun x => { x with state := s.createdState r.place, attempts := 0, detail := none })
  simp only [State.retryRecord]
  split
  exacts [(hput.trans (rpuChoice_keeps _)).sparesQuiet.settle, hput.sparesQuiet.settle]

theorem retryDefectAction_sparesQuiet : (retryDefectAction p s).Leaves s.SparesQuiet := by
  unfold retryDefectAction
  repeat' split
  exacts [trivial, trivial, trivial, trivial, s.retryRecord_sparesQuiet _]

end actions

/-! ### Events of a drive port -/

section events

variable (s : State) (p : PortId)

theorem State.handOutcome_sparesQuiet (c : Option Claimant) (o : DriveOutcome) :
    s.SparesQuiet (s.handOutcome p c o) := by
  unfold State.handOutcome
  split
  · exact .refl s
  · exact (s.settleLabel_keeps p o).sparesQuiet
  · exact (s.rpuOutcome_keeps p o).sparesQuiet
  · split
    · exact .refl s
    · next i hi =>
      exact ((s.readOutcome_keeps i o (State.activeSlot_activeAt hi)).trans (State.followUp_keeps _ p)).sparesQuiet

theorem State.takeReply_sparesQuiet (o : Outstanding) (r : DriveReply) : s.SparesQuiet (s.takeReply p o r) := by
  unfold State.takeReply
  split
  · exact (s.portError_moves p).sparesQuiet
  · exact (s.portError_moves p).sparesQuiet
  · exact (((s.finish_moves p).trans (State.returnToNormal_moves _ p)).trans
      (State.feedReply_moves _ p _ _ _)).sparesQuiet.trans (State.handOutcome_sparesQuiet _ p _ _)

theorem execDriveReply_sparesQuiet (bytes : List Byte) :
    ∃ t, execDriveReply p bytes s = .next t ∧ s.SparesQuiet t := by
  refine ⟨_, rfl, ?_⟩
  unfold State.offerReply
  repeat' split
  exacts [.refl s, .refl s, (s.takeReply_sparesQuiet p _ _).settle, .refl s]

/-- The claimant of a cut command is told (R48): of the jobs only the active one of the port is touched. -/
theorem State.tellCut_sparesQuiet (o : Outstanding) : s.SparesQuiet (s.tellCut p o) := by
  unfold State.tellCut
  split
  · exact .refl s
  · split
    exacts [.of_same rfl rfl rfl, .refl s]
  · exact (s.rpuCut_keeps p _).sparesQuiet
  · split
    · exact .refl s
    · next i hi =>
      have ha := State.activeSlot_activeAt hi
      split
      · exact .refl s
      · split
        · exact ((s.modJob_keeps i (fun j => { j with state := .suspended })
            (fun k hk => Job.Tame.ofLive rfl (ha.live k hk) rfl)).trans (State.followUp_keeps _ p)).sparesQuiet
        · exact ((s.enterWaiting_active_keeps i _ ha).trans (State.followUp_keeps _ p)).sparesQuiet

theorem State.gntFallen_sparesQuiet : s.SparesQuiet (s.gntFallen p) := by
  have hlost : s.SparesQuiet (s.setPort p ({ s.port p with gnt := false }).loseGrant) := .of_same rfl rfl rfl
  simp only [State.gntFallen]
  split
  · exact hlost
  · split
    · refine State.SparesQuiet.trans ?_ (State.tellCut_sparesQuiet _ p _)
      exact .of_same rfl rfl rfl
    · exact hlost.trans (State.portError_moves _ p).sparesQuiet

theorem execGntFall_sparesQuiet : ∃ t, execGntFall p s = .next t ∧ s.SparesQuiet t := by
  refine ⟨_, rfl, ?_⟩
  split_ifs
  exacts [.refl s, (s.gntFallen_sparesQuiet p).settle, .of_same rfl rfl rfl]

/-- An event that comes to work on its port. -/
theorem State.ActsOn.sparesQuiet {o : Host.Outcome State Fault Refusal} (h : s.ActsOn p o) :
    ∃ t, o = .next t ∧ s.SparesQuiet t := by
  obtain ⟨u, hu, rfl | rfl⟩ := h
  exacts [⟨u, rfl, hu.moves.sparesQuiet⟩, ⟨settle u, rfl, hu.moves.sparesQuiet.settle⟩]

end events

/-! ### Resets, start-up and the timers -/

/-- Steps 2 to 4 of R187 leave the mode as it is. -/
theorem State.startUpLoad_mode (s : State) : s.startUpLoad.mode = s.mode := by
  simp only [State.startUpLoad]
  rw [State.mapPorts_frame]

/-- The part as steps 5 and 6 of R187 leave it before anything goes on in RUN: its mode entered, the minute timer
started, and STARTUP taken by the link. -/
def State.started (s : State) (link : Link) (freeCount : Nat) : State :=
  { s with mode := s.startMode, link := link, freeCount := freeCount, pts := { s.pts with timerRunning := true } }

section commands

variable (s : State)

/-- What STARTUP does is to the link alone, and what entering RUN brings comes after it (R177, R187). -/
theorem State.finishStartUp_eq : ∃ link freeCount, s.finishStartUp =
    if s.startMode = .run then enterRun (s.started link freeCount) else s.started link freeCount := by
  have hposted (u : State) (n : Notice) : ∃ link freeCount,
      takePosted (u.post n) = { u with link := link, freeCount := freeCount } := by
    refine ⟨(takePosted (u.post n)).link, (takePosted (u.post n)).freeCount, ?_⟩
    rw [takePosted_frame]
    unfold State.post
    split_ifs <;> rfl
  obtain ⟨link, freeCount, hstartup⟩ :=
    hposted { s with mode := s.startMode } (startUpNotice { s with mode := s.startMode })
  refine ⟨link, freeCount, ?_⟩
  simp only [State.finishStartUp, hstartup]
  rfl

theorem State.startUpLoad_sparesQuiet : s.SparesQuiet s.startUpLoad := .of_cleared rfl rfl

/-- The end of start-up enters RUN, or goes from one mode outside RUN to another. -/
theorem State.finishStartUp_sparesQuiet (hm : s.mode ≠ .run) : s.SparesQuiet s.finishStartUp := by
  obtain ⟨link, freeCount, hfinish⟩ := s.finishStartUp_eq
  rw [hfinish]
  split
  · next hrun => exact .of_run ((enterRun_keeps _).mode.trans hrun)
  · exact fun h _ => h hm

theorem execStartUpEnd_sparesQuiet : ∃ t, execStartUpEnd s = .next t ∧ s.SparesQuiet t := by
  refine ⟨_, rfl, ?_⟩
  split
  · next hstarting =>
    have hm : s.mode ≠ .run := by rw [hstarting.1]; decide
    refine State.SparesQuiet.settle ?_
    split
    · exact s.finishStartUp_sparesQuiet hm
    · exact s.startUpLoad_sparesQuiet.trans (State.finishStartUp_sparesQuiet _ (by rwa [s.startUpLoad_mode]))
  · exact .refl s

theorem execStoreEnds_sparesQuiet (finish : StoreFinish) :
    ∃ t, execStoreEnds finish s = .next t ∧ s.SparesQuiet t := by
  refine ⟨_, rfl, ?_⟩
  split
  · exact .refl s
  · next j _ =>
    refine State.SparesQuiet.settle (State.SparesQuiet.trans ?_ (State.post_keeps _ _).sparesQuiet)
    exact .of_same rfl rfl rfl

/-! ### Every command -/

/-- Every command keeps jobs terminal and RPU IDLE outside RUN (R178). -/
theorem exec_sparesQuiet (c : Instr) : ∃ t, exec c s = .next t ∧ s.SparesQuiet t := by
  have request : ∀ {k act}, (∀ r, s.Takes k r → (act r.payload s).Leaves s.SparesQuiet) →
      ∃ t, Host.Outcome.next (s.runRequest k act) = (.next t : Host.Outcome State Fault Refusal) ∧
        s.SparesQuiet t :=
    fun ha => ⟨_, rfl, State.runRequest_leaves (P := s.SparesQuiet) (fun _ _ _ h => h) (.refl s) ha⟩
  cases c with
  | powerOnResetAssert | resetPinAssert =>
    refine ⟨_, rfl, ?_⟩
    split
    exacts [.refl s, .of_cleared rfl rfl]
  | powerOnResetRelease | resetPinRelease => exact ⟨_, rfl, .of_same rfl rfl rfl⟩
  | frameSent =>
    refine ⟨_, rfl, ?_⟩
    split
    exacts [.of_cleared rfl rfl, .of_same rfl rfl rfl]
  | receiveFrame | badByteInHunt | gapTimerExpiry =>
    refine ⟨_, rfl, ?_⟩
    split
    exacts [.refl s, .of_same rfl rfl rfl]
  | unknownRequest =>
    refine ⟨_, rfl, ?_⟩
    repeat' split
    exacts [.refl s, .of_same rfl rfl rfl, .of_same rfl rfl rfl, .refl s]
  | startUpEnd => exact execStartUpEnd_sparesQuiet s
  | storeEnds finish => exact execStoreEnds_sparesQuiet s finish
  | minuteExpiry =>
    refine ⟨_, rfl, ?_⟩
    split
    exacts [s.evaluated_sparesQuiet _, .refl s]
  | identify | status | setNotices | reset => exact request fun _ _ => .of_same rfl rfl rfl
  | setMode => exact request fun _ _ => setModeAction_sparesQuiet _ s
  | setTime => exact request fun _ _ => setTimeAction_sparesQuiet _ s
  | setPatrol => exact request fun _ _ => setPatrolAction_sparesQuiet _ s
  | convert => exact request fun _ _ => convertAction_sparesQuiet _ s
  | portConfig => exact request fun _ _ => portConfigAction_sparesQuiet _ s
  | portStatus => exact request fun _ _ => portStatusAction_sparesQuiet _ s
  | portOnline => exact request fun _ _ => portOnlineAction_sparesQuiet _ s
  | marginRead => exact request fun _ _ => marginReadAction_sparesQuiet _ s
  | addReel => exact request fun _ _ => addReelAction_sparesQuiet _ s
  | editReel => exact request fun _ _ => editReelAction_sparesQuiet _ s
  | removeReel => exact request fun _ _ => removeReelAction_sparesQuiet _ s
  | readReel => exact request fun _ _ => readReelAction_sparesQuiet _ s
  | listReels => exact request fun _ _ => listReelsAction_sparesQuiet _ s
  | freezeReel => exact request fun _ _ => freezeReelAction_sparesQuiet _ s
  | store => exact request fun _ _ => storeAction_sparesQuiet _ s
  | restoreFactory => exact request fun _ _ => restoreFactoryAction_sparesQuiet _ s
  | lockReel | unlockReel => exact request fun _ _ => lockAction_sparesQuiet _ s _
  | lockAll | unlockAll => exact request fun r _ => lockAllAction_sparesQuiet r.payload s _
  | startScrub => exact request fun _ hr => startScrubAction_sparesQuiet _ s (hr.run (.inl rfl))
  | startVerify => exact request fun _ hr => startVerifyAction_sparesQuiet _ s (hr.run (.inr rfl))
  | suspendJob => exact request fun _ _ => suspendJobAction_sparesQuiet _ s
  | resumeJob => exact request fun _ _ => resumeJobAction_sparesQuiet _ s
  | abortJob => exact request fun _ _ => abortJobAction_sparesQuiet _ s
  | jobStatus => exact request fun _ _ => jobStatusAction_sparesQuiet _ s
  | readDefects => exact request fun _ _ => readDefectsAction_sparesQuiet _ s
  | removeDefect => exact request fun _ _ => removeDefectAction_sparesQuiet _ s
  | retryDefect => exact request fun _ _ => retryDefectAction_sparesQuiet _ s
  | driveReply p bytes => exact execDriveReply_sparesQuiet s p bytes
  | gntFall p => exact execGntFall_sparesQuiet s p
  | commandTimeout p => exact (execCommandTimeout_actsOn s p).sparesQuiet
  | readyRise p => exact (execReadyRise_actsOn s p).sparesQuiet
  | mediaRise p => exact (execMediaRise_actsOn s p).sparesQuiet
  | mediaFall p => exact (execMediaFall_actsOn s p).sparesQuiet
  | wprotFall p => exact (execWprotFall_actsOn s p).sparesQuiet
  | gntRise p => exact (execGntRise_actsOn s p).sparesQuiet
  | yldRise p => exact (execYldRise_actsOn s p).sparesQuiet
  | yldFall p => exact (execYldFall_actsOn s p).sparesQuiet
  | readyFall p => exact (s.lineChange_actsOn p .ready false (.refl p)).sparesQuiet
  | faultFall p => exact (s.lineChange_actsOn p .fault false (.refl p)).sparesQuiet
  | wprotRise p =>
    exact (s.lineChange_actsOn p .wprot true fun t => (t.clearHold_keeps p).toKeeps.worksOn p).sparesQuiet
  | faultRise p => exact (s.lineChange_actsOn p .fault true fun t => t.faultRisen_worksOn p).sparesQuiet

/-- A part that idles keeps it, be it that it takes steps 2 to 4 of R187 (log 4). -/
theorem idle_sparesQuiet : s.SparesQuiet (idle s) := by
  unfold idle
  split
  exacts [s.startUpLoad_sparesQuiet.settle, .refl s]

end commands

end Sys2Proof.Machine
end

section
open Sys2Proof Sys2Proof.Machine

/-- Settles O8: every command keeps jobs terminal and RPU IDLE outside RUN, and so does a part that idles. -/
theorem stepKeepsQuietOutsideRun : Obligations.StepKeepsQuietOutsideRun := by
  intro s t h ht
  unfold step at ht
  split at ht
  · cases ht
    exact idle_sparesQuiet s h
  · next c rest _ =>
    obtain ⟨u, hu, hquiet⟩ := exec_sparesQuiet { s with pending := rest } c
    cases hu.symm.trans ht
    exact hquiet h

end

section
/-! SUPPORT. What SET_MODE comes to (R179, R180): its checks one by one, and each change of mode. -/

namespace Sys2Proof.Machine

open Sys2Proof

/-- The auto-run value taken: 0 clears it, 1 sets it, any other value leaves it (R179). -/
theorem autoRunTaken_eq (n : Nat) (now : Bool) :
    autoRunTaken n now = if n = 0 then false else if n = 1 then true else now := by
  match n with
  | 0 | 1 => rfl
  | _ + 2 => simp [autoRunTaken]

section setMode

variable {p : List Byte} {s : State}

theorem setModeAction_noMode (h1 : field p 0 1 ≠ 1) (h2 : field p 0 1 ≠ 2) :
    setModeAction p s = .refuse .badArgument := by
  simp [setModeAction, h1, h2]

theorem setModeAction_noAutoRun (hm : field p 0 1 = 1 ∨ field p 0 1 = 2) (ha : 2 < field p 1 1) :
    setModeAction p s = .refuse .badArgument := by
  rcases hm with hm | hm <;> simp [setModeAction, hm, ha]

section setup

variable (hm : field p 0 1 = 1) (ha : field p 1 1 ≤ 2)
include hm ha

theorem setModeAction_busy (hrun : s.mode = .run) (hbusy : s.leavingRunBlocked = true) :
    setModeAction p s = .refuse .busy := by
  simp [setModeAction, hm, Nat.not_lt.mpr ha, hrun, hbusy]

theorem setModeAction_setup (hfree : s.mode = .run → s.leavingRunBlocked = false) :
    setModeAction p s = .perform { s with autoRun := autoRunTaken (field p 1 1) s.autoRun, mode := .setup } .ok
      (modeFields .setup (autoRunTaken (field p 1 1) s.autoRun)) := by
  have hgoes : ¬ (s.mode = .run ∧ s.leavingRunBlocked = true) := fun ⟨hrun, hbusy⟩ =>
    Bool.false_ne_true ((hfree hrun).symm.trans hbusy)
  simp only [setModeAction, hm, Nat.not_lt.mpr ha, hgoes]
  rfl

end setup

theorem setModeAction_run (hm : field p 0 1 = 2) (ha : field p 1 1 ≤ 2) :
    setModeAction p s = .perform (s.setRun (autoRunTaken (field p 1 1) s.autoRun)) .ok
      (modeFields .run (autoRunTaken (field p 1 1) s.autoRun)) := by
  simp only [setModeAction, hm, Nat.not_lt.mpr ha]
  rfl

/-- In RUN already, SET_MODE RUN sets auto-run alone. -/
theorem State.setRun_again (a : Bool) (h : s.mode = .run) : s.setRun a = { s with autoRun := a } := by
  rw [State.setRun, if_pos h, ← h]

/-- From SETUP, SET_MODE RUN brings what entering RUN brings (R180). -/
theorem State.setRun_enters (a : Bool) (h : s.mode ≠ .run) :
    s.setRun a = settle (enterRun { s with autoRun := a, mode := .run }) := if_neg h

/-- SETUP is refused in RUN with a non-terminal job or a repair (R179 step 3). -/
theorem State.leavingRunBlocked_eq_true :
    s.leavingRunBlocked = true ↔ s.liveSlots ≠ [] ∨ s.rpu.phase ≠ .idle := by
  simp [State.leavingRunBlocked]

end setMode

end Sys2Proof.Machine
end

section
/-! SUPPORT. The stored image among the slots (R183), and what a store does at its start and at its end (R184, R185). -/

namespace Sys2Proof.Machine

open Sys2Proof

/-! ### Generations (R183) -/

theorem generationAfter_eq (g : Nat) : generationAfter g = if g = 4294967295 then 1 else g + 1 := rfl

/-- Of two generations of the range, slot 1 is the newer where its own is the successor, or where neither is the
other's successor and its own is higher. -/
theorem slot1Newer_iff {g0 g1 : Nat} (h : 1 ≤ g1 ∧ g1 ≤ 4294967295) :
    slot1Newer g0 g1 = true ↔ (g1 = g0 + 1 ∨ (g0 = 4294967295 ∧ g1 = 1)) ∨
      (g0 < g1 ∧ ¬ (g1 = 4294967295 ∧ g0 = 1)) := by
  simp only [slot1Newer, generationAfter_eq]
  split_ifs <;> simp <;> omega

/-! ### The slot of the stored image (R183) -/

theorem SlotCondition.generation_valid (g : Nat) : (SlotCondition.valid g).generation = some g := rfl

theorem SlotCondition.generation_eq_none {c : SlotCondition} : c.generation = none ↔ ∀ g, c ≠ .valid g := by
  cases c <;> simp [SlotCondition.generation]

section storedSlot

variable {u : Siu}

theorem Siu.storedSlot_of_both {g0 g1 : Nat} (h0 : u.slots[0].condition = .valid g0)
    (h1 : u.slots[1].condition = .valid g1) : u.storedSlot = if slot1Newer g0 g1 then some 1 else some 0 := by
  simp only [Siu.storedSlot, h0, h1, SlotCondition.generation_valid]

theorem Siu.storedSlot_of_first {g : Nat} (h0 : u.slots[0].condition = .valid g)
    (h1 : ∀ g, u.slots[1].condition ≠ .valid g) : u.storedSlot = some 0 := by
  simp only [Siu.storedSlot, SlotCondition.generation_eq_none.mpr h1, h0, SlotCondition.generation_valid]

theorem Siu.storedSlot_of_second {g : Nat} (h1 : u.slots[1].condition = .valid g)
    (h0 : ∀ g, u.slots[0].condition ≠ .valid g) : u.storedSlot = some 1 := by
  simp only [Siu.storedSlot, SlotCondition.generation_eq_none.mpr h0, h1, SlotCondition.generation_valid]

theorem Siu.storedSlot_of_neither (h0 : ∀ g, u.slots[0].condition ≠ .valid g)
    (h1 : ∀ g, u.slots[1].condition ≠ .valid g) : u.storedSlot = none := by
  simp only [Siu.storedSlot, SlotCondition.generation_eq_none.mpr h0, SlotCondition.generation_eq_none.mpr h1]

/-- The one VALID slot holds the stored image. -/
theorem Siu.storedSlot_of_only {k i : Fin 2} {g : Nat} (hne : i ≠ k) (hk : u.slots[k].condition = .valid g)
    (hi : u.slots[i].condition = .invalid) : u.storedSlot = some k := by
  have hinvalid : ∀ g, u.slots[i].condition ≠ .valid g := fun g h => nomatch hi.symm.trans h
  match k, i, hne, hk, hinvalid with
  | 0, 0, hne, _, _ | 1, 1, hne, _, _ => exact absurd rfl hne
  | 0, 1, _, hk, hinvalid => exact Siu.storedSlot_of_first hk hinvalid
  | 1, 0, _, hk, hinvalid => exact Siu.storedSlot_of_second hk hinvalid

/-! ### The slot and the generation a store writes (R184 steps 2 and 3) -/

/-- A store spares the slot of the stored image. -/
theorem Siu.targetSlot_ne {k : Fin 2} (h : u.storedSlot = some k) : u.targetSlot ≠ k := by
  match k with
  | 0 | 1 => simp [Siu.targetSlot, h]

theorem Siu.targetSlot_of_none (h : u.storedSlot = none) : u.targetSlot = 0 := by
  simp [Siu.targetSlot, h]

theorem Siu.newGeneration_of_stored {k : Fin 2} {g : Nat} (h : u.storedSlot = some k)
    (hk : u.slots[k].condition = .valid g) : u.newGeneration = if g = 4294967295 then 1 else g + 1 := by
  simp only [Siu.newGeneration, h, hk, SlotCondition.generation_valid, Option.getD_some, generationAfter_eq]

theorem Siu.newGeneration_of_none (h : u.storedSlot = none) : u.newGeneration = 1 := by
  simp only [Siu.newGeneration, h]

end storedSlot

/-! ### A store begins (R184) -/

section store

variable (s : State)

/-- The settings of every port stand in the snapshot (Table 10-2). -/
theorem State.snapshot_settings (g : Nat) (p : PortId) : (s.snapshot g).settings[p] = (s.port p).settings := by
  match p with
  | 0 | 1 | 2 | 3 | 4 | 5 | 6 | 7 => simp [State.snapshot]

/-- The store in progress once a store has begun. -/
theorem State.startStore_store (cause : StoreCause) :
    (s.startStore cause).siu.store = some ⟨s.snapshot s.siu.newGeneration, s.siu.targetSlot, cause⟩ := rfl

/-- The target slot is INVALID while it is written (R184 step 4). -/
theorem State.startStore_target (cause : StoreCause) {k : Fin 2} (h : s.siu.targetSlot = k) :
    (s.startStore cause).siu.slots[k].condition = .invalid :=
  h ▸ s.startStore_siuSound cause _ rfl

/-- The other slot is as it was. -/
theorem State.startStore_other (cause : StoreCause) {k : Fin 2} (h : s.siu.targetSlot ≠ k) :
    (s.startStore cause).siu.slots[k] = s.siu.slots[k] :=
  Vector.getElem_set_ne s.siu.targetSlot.isLt k.isLt (Fin.val_ne_of_ne h)

/-- The slot of the stored image keeps its content and condition, and stays the stored image. -/
theorem State.startStore_spares (cause : StoreCause) {k : Fin 2} {g : Nat} (h : s.siu.storedSlot = some k)
    (hk : s.siu.slots[k].condition = .valid g) :
    (s.startStore cause).siu.slots[k] = s.siu.slots[k] ∧ (s.startStore cause).siu.storedSlot = some k := by
  have hother := Siu.targetSlot_ne h
  have hsame := s.startStore_other cause hother
  have hvalid := (congrArg ImageSlot.condition hsame).trans hk
  exact ⟨hsame, Siu.storedSlot_of_only hother hvalid (s.startStore_target cause rfl)⟩

/-! ### A store ends (R185) -/

/-- OK makes the target slot VALID with the snapshot. -/
theorem State.finishStore_ok (j : StoreJob) : s.finishStore j (.readBack true) = State.post
    { s with siu := { slots := s.siu.slots.set j.slot
                        ⟨.image j.snapshot j.snapshot.check, .valid j.snapshot.generation⟩
                      store := none } }
    (storeEndNotice j (.readBack true)) := rfl

/-- A store ends OK only where its read-back equals the snapshot. -/
theorem storeGood_eq_false {finish : StoreFinish} (h : finish ≠ .readBack true) : storeGood finish = false := by
  cases finish with
  | readBack equal => exact Bool.eq_false_iff.mpr fun he => h (congrArg StoreFinish.readBack he)
  | writeError => rfl

/-- Any other end leaves the slots as they are. -/
theorem State.finishStore_failed (j : StoreJob) {finish : StoreFinish} (h : finish ≠ .readBack true) :
    s.finishStore j finish = State.post { s with siu := { s.siu with store := none } } (storeEndNotice j finish) := by
  simp [State.finishStore, storeGood_eq_false h]

variable {s}

theorem exec_storeEnds_none (finish : StoreFinish) (h : s.siu.store = none) : exec (.storeEnds finish) s = .next s := by
  show execStoreEnds finish s = _
  rw [execStoreEnds, h]

theorem exec_storeEnds_some (finish : StoreFinish) {j : StoreJob} (h : s.siu.store = some j) :
    exec (.storeEnds finish) s = .next (settle (s.finishStore j finish)) := by
  show execStoreEnds finish s = _
  rw [execStoreEnds, h]

end store

end Sys2Proof.Machine
end

section
open Sys2Proof Sys2Proof.Machine

/-- Settles O19: SET_MODE's checks in their order; leaving RUN turns on the live jobs and RPU, and entering it on the
mode there was. -/
theorem setModeChecksAndMoves : Obligations.SetModeChecksAndMoves := by
  intro s r hr m a auto
  have hauto : autoRunTaken a s.autoRun = auto := autoRunTaken_eq a s.autoRun
  refine ⟨fun h1 h2 => exec_refuse rfl hr (setModeAction_noMode h1 h2),
    fun hm ha => exec_refuse rfl hr (setModeAction_noAutoRun hm ha),
    fun hm ha hrun hbusy => exec_refuse rfl hr
      (setModeAction_busy hm ha hrun (State.leavingRunBlocked_eq_true.mpr hbusy)),
    fun hm ha hfree => ?setup, fun hm ha hrun => ?again, fun hm ha hsetup => ?enters⟩
  case setup =>
    rw [← hauto]
    refine exec_perform rfl hr (setModeAction_setup hm ha fun hrun => ?_)
    rcases hfree with hsetup | hidle
    · cases hsetup.symm.trans hrun
    · exact State.leavingRunBlocked_eq_false.mpr hidle
  case again =>
    rw [← hauto, ← State.setRun_again _ hrun]
    exact exec_perform rfl hr (setModeAction_run hm ha)
  case enters =>
    have hne : s.mode ≠ .run := fun hrun => nomatch hsetup.symm.trans hrun
    have hrun := setModeAction_run (s := s) hm ha
    rw [State.setRun_enters _ hne] at hrun
    rw [← hauto]
    exact exec_perform rfl hr hrun

/-- Settles O30: the target of a store is never the slot of the stored image, and with the target INVALID that slot is
the only VALID one; of two VALID slots the generations decide. -/
theorem storedImageChosenAndSpared : Obligations.StoredImageChosenAndSpared := by
  refine ⟨fun s cause => ⟨fun k g h hk => ?spared, fun h => ?first,
      ⟨_, s.startStore_store cause, rfl, s.startStore_target cause rfl, rfl, s.snapshot_settings _, rfl, rfl, rfl, rfl,
        rfl⟩,
      rfl⟩,
    fun u => ⟨fun g0 g1 h0 h1 hmin0 hmax0 hmin1 hmax1 => ?both, fun g h0 h1 => Siu.storedSlot_of_first h0 h1,
      fun g h1 h0 => Siu.storedSlot_of_second h1 h0, Siu.storedSlot_of_neither⟩⟩
  case spared =>
    obtain ⟨hsame, hstays⟩ := s.startStore_spares cause h hk
    exact ⟨hsame, hstays, _, s.startStore_store cause, Siu.targetSlot_ne h, rfl, Siu.newGeneration_of_stored h hk⟩
  case first =>
    have htarget := Siu.targetSlot_of_none h
    exact ⟨_, s.startStore_store cause, htarget, Siu.newGeneration_of_none h, s.startStore_target cause htarget⟩
  case both =>
    have hnewer := slot1Newer_iff (g0 := g0) ⟨hmin1, hmax1⟩
    have hone (h : slot1Newer g0 g1 = true) : u.storedSlot = some 1 := (Siu.storedSlot_of_both h0 h1).trans (if_pos h)
    have hzero (h : ¬ slot1Newer g0 g1 = true) : u.storedSlot = some 0 :=
      (Siu.storedSlot_of_both h0 h1).trans (if_neg h)
    rw [hnewer] at hone hzero
    exact ⟨fun h => hone (by omega), fun h => hzero (by omega), fun h => hzero (by omega),
      fun h hw => hzero (by omega), fun h hw => hone (by omega)⟩

/-- Settles O31: the slots and the result of the notice turn on the one end that is OK. -/
theorem storeEnds : Obligations.StoreEnds := by
  refine fun s finish => ⟨exec_storeEnds_none finish, fun j hj => ⟨fun hok => ?ok, fun hfailed => ?failed⟩⟩
  case ok =>
    subst hok
    rw [exec_storeEnds_some _ hj, s.finishStore_ok]
    rfl
  case failed =>
    rw [exec_storeEnds_some _ hj, s.finishStore_failed j hfailed, storeEndNotice, storeGood_eq_false hfailed]
    rfl

/-- Settles O2: with no command waiting the step is `idle`, by whether start-up has set the ports. -/
theorem emptyQueueIdles : Obligations.EmptyQueueIdles := by
  intro s hempty
  have hstep : step s = .next (idle s) := by rw [step, hempty]
  rw [hstep, idle]
  refine ⟨fun h => congrArg _ (if_neg ?_), fun hm hr hp => congrArg _ (if_pos ⟨hm, hr, hp⟩)⟩
  rintro ⟨hm, hr, hp⟩
  rcases h with hother | hheld | hset
  · exact hother hm
  · cases hr.symm.trans hheld
  · cases hp.symm.trans hset

end

section
/-! SUPPORT. What a start-up leaves (R181, R187): no volume is mounted yet and no defect recorded, so entering RUN
starts nothing, and what was loaded stands as it is. -/

namespace Sys2Proof.Machine

open Sys2Proof

/-! ### Ports on which no volume is mounted -/

/-- No port has a volume mounted. -/
def State.Unmounted (s : State) : Prop :=
  ∀ p, (s.port p).volume = .noMedia ∨ (s.port p).volume = .labelRead ∨ (s.port p).volume = .unlabelled

/-- No copy is PRESENT on a port with no volume mounted (R26). -/
theorem presenceOn_ne_present {q : Port} (hv : q.volume = .noMedia ∨ q.volume = .labelRead ∨ q.volume = .unlabelled)
    (e : StoredEntry) (c : CopyDesc) : presenceOn q e c ≠ .present := by
  by_cases ho : q.state = .offline
  · simp [presenceOn_offline ho]
  · simp [presenceOn_unmounted ho hv]

section unmounted

variable {s : State}

/-- Patrol finds no copy to choose (R159). -/
theorem State.Unmounted.evaluate (h : s.Unmounted) (p : PortId) : s.evaluate p = s := by
  refine State.evaluate_without (.inl ((s.chosen_none_iff p).mpr fun d hd => ?_))
  obtain ⟨e, -, k, c, -, -, hpresent, -⟩ := (s.mem_candidates p d).mp hd
  exact presenceOn_ne_present (h p) _ _ hpresent

theorem State.Unmounted.evaluateAll (h : s.Unmounted) : evaluateAll s = s := by
  unfold Machine.evaluateAll
  induction allPorts with
  | nil => rfl
  | cons p rest ih => rw [List.foldl_cons, h.evaluate p, ih]

/-- With no record a choice takes none (R117). -/
theorem rpuChoice_of_no_records (h : s.dfl.records = []) : rpuChoice s = s := by
  unfold rpuChoice
  rw [h]
  exact ite_self s

/-- With no volume mounted and no record, nothing starts on entering RUN. -/
theorem State.Unmounted.enterRun (h : s.Unmounted) (hrecords : s.dfl.records = []) : enterRun s = s := by
  rw [Machine.enterRun, h.evaluateAll, rpuChoice_of_no_records hrecords]

end unmounted

/-! ### What start-up loads (R62, R187 steps 2 to 4) -/

section load

variable (s : State)

theorem State.startUpLoad_port (p : PortId) :
    s.startUpLoad.port p = (s.port p).startUp (startSettings s.siu.judged.storedImage p) :=
  s.port_mapPorts (fun p q => q.startUp (startSettings s.siu.judged.storedImage p)) p

/-- Start-up mounts no volume: it begins a label read at most (R62). -/
theorem State.startUpLoad_unmounted : s.startUpLoad.Unmounted := by
  intro p
  rw [s.startUpLoad_port p, Port.startUp_eq]
  cases (s.port p).readsLabel with
  | true => exact .inr (.inl rfl)
  | false => exact .inl rfl

theorem State.startUpLoad_settings (p : PortId) :
    (s.startUpLoad.port p).settings = startSettings s.siu.judged.storedImage p := by
  rw [s.startUpLoad_port p, Port.startUp_eq]
  rfl

/-- Every entry is loaded LOCKED (R39). -/
theorem startCatalogue_locked {img : Option Image} {e : Entry} (he : e ∈ startCatalogue img) : e.locked = true := by
  cases img with
  | none => cases he
  | some m =>
    obtain ⟨x, -, rfl⟩ := List.mem_map.mp ((mem_foldr_insertEntry _ _).mp he)
    rfl

/-- The entries of the image are loaded, and no other (R39). -/
theorem mem_startCatalogue (m : Image) (e : StoredEntry) :
    e ∈ (startCatalogue (some m)).map Entry.toStoredEntry ↔ e ∈ m.entries := by
  simp [startCatalogue, mem_foldr_insertEntry]

/-- What start-up loads from a stored image. -/
theorem State.startUpLoad_of_image {m : Image} (h : s.siu.judged.storedImage = some m) :
    s.startUpLoad.mask = m.mask ∧ s.startUpLoad.autoRun = m.autoRun ∧ s.startUpLoad.pts.enabled = m.patrolEnabled ∧
      ∀ e, e ∈ s.startUpLoad.cat.map Entry.toStoredEntry ↔ e ∈ m.entries := by
  have himg : ({ s.siu.judged with store := none } : Siu).storedImage = some m := h
  simp only [State.startUpLoad, himg, mem_startCatalogue, implies_true, and_self]

/-- What start-up loads with no stored image: the factory defaults (Table 10-3) and an empty catalogue. -/
theorem State.startUpLoad_of_none (h : s.siu.judged.storedImage = none) :
    s.startUpLoad.mask = 0xFF#8 ∧ s.startUpLoad.autoRun = false ∧ s.startUpLoad.pts.enabled = false ∧
      s.startUpLoad.cat = [] := by
  have himg : ({ s.siu.judged with store := none } : Siu).storedImage = none := h
  simp only [State.startUpLoad, himg, startCatalogue, and_self]

/-! ### The mode entered (R181) -/

/-- A start-up that finds a stored image reports it LOADED (R183). -/
theorem Siu.reason_of_storedImage {u : Siu} {m : Image} (h : u.storedImage = some m) : u.reason = .loaded := by
  unfold Siu.storedImage at h
  cases hk : u.storedSlot with
  | none => simp [hk] at h
  | some k => simp [Siu.reason, hk]

/-- RUN is entered for a loaded image with auto-run set. -/
theorem State.startMode_of_storedImage {m : Image} (h : s.siu.judged.storedImage = some m) :
    s.startUpLoad.startMode = if m.autoRun then .run else .setup := by
  have hreason : s.startUpLoad.siu.reason = .loaded := Siu.reason_of_storedImage (u := s.siu.judged) h
  obtain ⟨-, hauto, -⟩ := s.startUpLoad_of_image h
  simp [State.startMode, hreason, hauto]

theorem State.startMode_of_none (h : s.siu.judged.storedImage = none) : s.startUpLoad.startMode = .setup := by
  obtain ⟨-, hauto, -⟩ := s.startUpLoad_of_none h
  simp [State.startMode, hauto]

/-! ### The end of start-up (R187 steps 5 and 6) -/

/-- After steps 2 to 4 the end of start-up starts no job and no repair. -/
theorem State.finishStartUp_startUpLoad : ∃ link freeCount,
    s.startUpLoad.finishStartUp = s.startUpLoad.started link freeCount := by
  obtain ⟨link, freeCount, hfinish⟩ := s.startUpLoad.finishStartUp_eq
  have hunmounted : (s.startUpLoad.started link freeCount).Unmounted := s.startUpLoad_unmounted
  exact ⟨link, freeCount, by rw [hfinish, hunmounted.enterRun rfl, ite_self]⟩

/-- The mode is entered and the minute timer started, whatever goes on in RUN. -/
theorem State.finishStartUp_mode : s.finishStartUp.mode = s.startMode ∧ s.finishStartUp.pts.timerRunning = true := by
  obtain ⟨link, freeCount, hfinish⟩ := s.finishStartUp_eq
  rw [hfinish]
  split
  · have hk := enterRun_keeps (s.started link freeCount)
    exact ⟨hk.mode, congrArg Pts.timerRunning hk.pts⟩
  · exact ⟨rfl, rfl⟩

variable {s}

theorem exec_startUpEnd (hm : s.mode = .starting) (hr : s.resetHeld = false) :
    exec .startUpEnd s = .next (settle (if s.portsSet then s else s.startUpLoad).finishStartUp) :=
  congrArg _ (if_pos ⟨hm, hr⟩)

end load

end Sys2Proof.Machine
end

section
open Sys2Proof Sys2Proof.Machine

/-- Settles O33: what steps 2 to 4 load stands after steps 5 and 6, since no copy is PRESENT yet for entering RUN to
act on. -/
theorem startUpEnds : Obligations.StartUpEnds := by
  intro s hm hr
  have hexec := exec_startUpEnd hm hr
  refine ⟨fun hunset => ?loads, fun hset => ?loaded⟩
  case loads =>
    intro img
    obtain ⟨link, freeCount, hfinish⟩ := s.finishStartUp_startUpLoad
    rw [hunset, if_neg Bool.false_ne_true, hfinish] at hexec
    have hk := settle_settles (s.startUpLoad.started link freeCount)
    have hsettings (p : PortId) := ((hk.port p).settings).trans (s.startUpLoad_settings p)
    refine ⟨_, hexec, ?_⟩
    rw [hk.pts, hk.siu, hk.portsSet, hk.rpu, hk.cat, hk.mask, hk.autoRun, hk.mode]
    refine ⟨rfl, rfl, rfl, rfl, rfl, rfl, List.eq_nil_of_length_eq_zero hk.size, rfl, fun e => startCatalogue_locked,
      fun m himg => ?image, fun himg => ?defaults⟩
    case image =>
      obtain ⟨hmask, hauto, henabled, hcat⟩ := s.startUpLoad_of_image himg
      exact ⟨hmask, hauto, henabled, fun p => (hsettings p).trans (congrArg (startSettings · p) himg), hcat,
        s.startMode_of_storedImage himg⟩
    case defaults =>
      obtain ⟨hmask, hauto, henabled, hcat⟩ := s.startUpLoad_of_none himg
      exact ⟨hmask, hauto, henabled, hcat, fun p => (hsettings p).trans (congrArg (startSettings · p) himg),
        s.startMode_of_none himg⟩
  case loaded =>
    rw [hset, if_pos rfl] at hexec
    have hk := settle_settles s.finishStartUp
    obtain ⟨hmode, htimer⟩ := s.finishStartUp_mode
    exact ⟨_, hexec, (congrArg Pts.timerRunning hk.pts).trans htimer, hk.mode.trans hmode⟩

end

section
/-! SUPPORT. The queue of waiting commands under every command: units' work and the end of the step leave it as it is,
and so do resets, start-up and what each request does of its own. -/

namespace Sys2Proof.Machine

open Sys2Proof

/-! ### States with the same queue -/

/-- The queue of waiting commands as it was. -/
def State.SameQueue (s t : State) : Prop := t.pending = s.pending

namespace State.SameQueue

variable {s t u : State}

theorem trans (h : s.SameQueue t) (k : t.SameQueue u) : s.SameQueue u := Eq.trans k h

theorem settle (h : s.SameQueue t) : s.SameQueue (settle t) := h.trans (settle_settles t).pending

end State.SameQueue

theorem State.Keeps.sameQueue {s t : State} (h : s.Keeps t) : s.SameQueue t := h.pending

theorem State.KeepsJobs.sameQueue {s t : State} (h : s.KeepsJobs t) : s.SameQueue t := h.pending

theorem State.Moves.sameQueue {s t : State} (h : s.Moves t) : s.SameQueue t := h.pending

@[simp] theorem State.mapPorts_pending (s : State) (f : PortId → Port → Port) :
    (s.mapPorts f).pending = s.pending := by
  rw [State.mapPorts_frame]

section actions

variable (p : List Byte) (s : State)

/-! ### Requests on the part and its ports -/

theorem State.setRun_sameQueue (a : Bool) : s.SameQueue (s.setRun a) := by
  simp only [State.setRun]
  split
  exacts [rfl, (enterRun_keeps { s with autoRun := a, mode := .run }).sameQueue.settle]

theorem setModeAction_sameQueue : (setModeAction p s).Leaves s.SameQueue := by
  simp only [setModeAction]
  split_ifs
  exacts [trivial, trivial, trivial, rfl, s.setRun_sameQueue _]

theorem setTimeAction_sameQueue : (setTimeAction p s).Leaves s.SameQueue :=
  (evaluateAll_keeps (s.setClock (field p 0 4))).sameQueue.settle

theorem setPatrolAction_sameQueue : (setPatrolAction p s).Leaves s.SameQueue := by
  simp only [setPatrolAction]
  split_ifs
  exacts [trivial, trivial, rfl, (evaluateAll_keeps (s.setPatrol true)).sameQueue.settle, rfl]

theorem convertAction_sameQueue : (convertAction p s).Leaves s.SameQueue := by
  simp only [convertAction]
  repeat' split
  exacts [trivial, trivial, trivial, rfl, rfl, trivial]

theorem portConfigAction_sameQueue : (portConfigAction p s).Leaves s.SameQueue := by
  unfold portConfigAction
  split
  exacts [trivial, rfl]

theorem portStatusAction_sameQueue : (portStatusAction p s).Leaves s.SameQueue := by
  unfold portStatusAction
  split
  exacts [trivial, rfl]

/-- Bringing a port back changes that port and posts its PORT_EVENT (R55). -/
theorem State.bringOnline_sameQueue (n : PortId) : s.SameQueue (s.bringOnline n) := by
  have hback : s.SameQueue (s.broughtBack n) := (State.post_keeps (s.modPort n Port.broughtBack) _).sameQueue
  rw [State.bringOnline_eq]
  split <;> exact hback

theorem portOnlineAction_sameQueue : (portOnlineAction p s).Leaves s.SameQueue := by
  unfold portOnlineAction
  repeat' split
  exacts [trivial, rfl, trivial, (s.bringOnline_sameQueue _).settle]

theorem marginReadAction_sameQueue : (marginReadAction p s).Leaves s.SameQueue := by
  unfold marginReadAction
  split
  exacts [trivial, rfl]

/-! ### Requests on the catalogue and on stores -/

theorem addReelAction_sameQueue : (addReelAction p s).Leaves s.SameQueue := by
  simp only [addReelAction]
  repeat' split
  exacts [trivial, trivial, trivial, trivial, rfl]

theorem editReelAction_sameQueue : (editReelAction p s).Leaves s.SameQueue := by
  simp only [editReelAction]
  repeat' split
  exacts [trivial, trivial, rfl]

theorem removeReelAction_sameQueue : (removeReelAction p s).Leaves s.SameQueue := by
  unfold removeReelAction
  split
  exacts [trivial, rfl]

theorem readReelAction_sameQueue : (readReelAction p s).Leaves s.SameQueue := by
  unfold readReelAction
  split
  exacts [trivial, rfl]

theorem listReelsAction_sameQueue : (listReelsAction p s).Leaves s.SameQueue := by
  simp only [listReelsAction]
  split
  exacts [trivial, rfl]

theorem freezeReelAction_sameQueue : (freezeReelAction p s).Leaves s.SameQueue := by
  unfold freezeReelAction
  repeat' split
  exacts [trivial, trivial, rfl]

theorem storeAction_sameQueue : (storeAction p s).Leaves s.SameQueue := by
  unfold storeAction
  split
  exacts [trivial, rfl]

theorem State.restored_sameQueue : s.SameQueue s.restored := by
  simp only [State.SameQueue, State.restored, State.mapPorts_pending]

theorem restoreFactoryAction_sameQueue : (restoreFactoryAction p s).Leaves s.SameQueue := by
  unfold restoreFactoryAction
  split_ifs
  exacts [trivial, trivial, s.restored_sameQueue]

theorem lockAction_sameQueue (b : Bool) : (lockAction b p s).Leaves s.SameQueue := by
  unfold lockAction
  repeat' split
  exacts [trivial, rfl, (s.lockReel_keeps _ b).sameQueue.settle]

theorem lockAllAction_sameQueue (b : Bool) : (lockAllAction b p s).Leaves s.SameQueue :=
  (s.lockEvery_keeps b).sameQueue.settle

/-! ### Requests on jobs -/

/-- A job created by a request (R88, R89), in RUN. -/
theorem State.startJob_sameQueue (hm : s.mode = .run) (i : SlotId) {j : Job} (hj : j.state = .queued) :
    s.SameQueue (s.startJob i j) :=
  ((s.createJob_keeps i j hm hj).trans (State.followUp_keeps _ _)).sameQueue.settle

theorem startScrubAction_sameQueue (hm : s.mode = .run) : (startScrubAction p s).Leaves s.SameQueue := by
  unfold startScrubAction
  repeat' split
  exacts [trivial, trivial, trivial, trivial, trivial, trivial,
    s.startJob_sameQueue hm _ (newJob_state _ _ _ _ _ _ _)]

theorem startVerifyAction_sameQueue (hm : s.mode = .run) : (startVerifyAction p s).Leaves s.SameQueue := by
  unfold startVerifyAction
  repeat' split
  exacts [trivial, trivial, trivial, trivial, s.startJob_sameQueue hm _ (newJob_state _ _ _ _ _ _ _)]

theorem suspendJobAction_sameQueue : (suspendJobAction p s).Leaves s.SameQueue := by
  unfold suspendJobAction
  split
  · trivial
  · next i j hj =>
    split_ifs with _ hrun
    · rfl
    · trivial
    · trivial
    · have ha : s.ActiveAt i := ⟨j, State.jobNamed_slot hj, by rw [not_not.mp hrun]; rfl⟩
      exact (s.suspend_keeps i j ha).sameQueue.settle

theorem resumeJobAction_sameQueue : (resumeJobAction p s).Leaves s.SameQueue := by
  unfold resumeJobAction
  split
  · trivial
  · next i j hj =>
    split_ifs with hsuspended
    · trivial
    · have hl : s.LiveAt i := by
        intro k hk
        cases (State.jobNamed_slot hj).symm.trans hk
        rw [not_not.mp hsuspended]
        rfl
      exact (s.resume_keeps i j hl).sameQueue.settle

theorem abortJobAction_sameQueue : (abortJobAction p s).Leaves s.SameQueue := by
  unfold abortJobAction
  repeat' split
  exacts [trivial, trivial, (s.abort_keeps _ _).sameQueue.settle]

theorem jobStatusAction_sameQueue : (jobStatusAction p s).Leaves s.SameQueue := by
  unfold jobStatusAction
  split
  · trivial
  · next i j _ =>
    show s.SameQueue (if j.state.terminal then s.setSlot i none else s)
    split <;> rfl

/-! ### Requests on the defect list -/

theorem readDefectsAction_sameQueue : (readDefectsAction p s).Leaves s.SameQueue := by
  simp only [readDefectsAction]
  split
  exacts [trivial, rfl]

/-- A record dropped, admission and an evaluation leave the queue of commands (R106, R110). -/
theorem State.removeRecord_sameQueue (r : Record) : s.SameQueue (s.removeRecord r) :=
  ((s.dropRecord r.id).admission_keeps.trans (State.evaluate_keeps _ r.port)).sameQueue.settle

theorem removeDefectAction_sameQueue : (removeDefectAction p s).Leaves s.SameQueue := by
  unfold removeDefectAction
  repeat' split
  exacts [trivial, s.removeRecord_sameQueue _, trivial]

theorem State.retryRecord_sameQueue (r : Record) : s.SameQueue (s.retryRecord r) := by
  have hput := s.modRecord_keeps r.id
    (fun x => { x with state := s.createdState r.place, attempts := 0, detail := none })
  simp only [State.retryRecord]
  split
  exacts [(hput.trans (rpuChoice_keeps _)).sameQueue.settle, hput.sameQueue.settle]

theorem retryDefectAction_sameQueue : (retryDefectAction p s).Leaves s.SameQueue := by
  unfold retryDefectAction
  repeat' split
  exacts [trivial, trivial, trivial, trivial, s.retryRecord_sameQueue _]

end actions

/-! ### Events of a drive port -/

section events

variable (s : State) (p : PortId)

theorem State.handOutcome_sameQueue (c : Option Claimant) (o : DriveOutcome) :
    s.SameQueue (s.handOutcome p c o) := by
  unfold State.handOutcome
  split
  · rfl
  · exact (s.settleLabel_keeps p o).sameQueue
  · exact (s.rpuOutcome_keeps p o).sameQueue
  · split
    · rfl
    · next i hi =>
      exact ((s.readOutcome_keeps i o (State.activeSlot_activeAt hi)).trans (State.followUp_keeps _ p)).sameQueue

theorem State.takeReply_sameQueue (o : Outstanding) (r : DriveReply) : s.SameQueue (s.takeReply p o r) := by
  unfold State.takeReply
  split
  · exact (s.portError_moves p).sameQueue
  · exact (s.portError_moves p).sameQueue
  · exact (((s.finish_moves p).trans (State.returnToNormal_moves _ p)).trans
      (State.feedReply_moves _ p _ _ _)).sameQueue.trans (State.handOutcome_sameQueue _ p _ _)

theorem execDriveReply_sameQueue (bytes : List Byte) :
    ∃ t, execDriveReply p bytes s = .next t ∧ s.SameQueue t := by
  refine ⟨_, rfl, ?_⟩
  unfold State.offerReply
  repeat' split
  exacts [rfl, rfl, (s.takeReply_sameQueue p _ _).settle, rfl]

/-- The claimant of a cut command is told (R48). -/
theorem State.tellCut_sameQueue (o : Outstanding) : s.SameQueue (s.tellCut p o) := by
  unfold State.tellCut
  split
  · rfl
  · split <;> rfl
  · exact (s.rpuCut_keeps p _).sameQueue
  · split
    · rfl
    · next i hi =>
      split
      · rfl
      · split
        · exact (State.followUp_keeps (s.modJob i _) p).sameQueue
        · exact ((s.enterWaiting_active_keeps i _ (State.activeSlot_activeAt hi)).trans
            (State.followUp_keeps _ p)).sameQueue

theorem State.gntFallen_sameQueue : s.SameQueue (s.gntFallen p) := by
  simp only [State.gntFallen]
  split
  · rfl
  · split
    · exact State.tellCut_sameQueue (State.modPort _ p Port.finish) p _
    · exact (State.portError_moves (s.setPort p _) p).sameQueue

theorem execGntFall_sameQueue : ∃ t, execGntFall p s = .next t ∧ s.SameQueue t := by
  refine ⟨_, rfl, ?_⟩
  split_ifs
  exacts [rfl, (s.gntFallen_sameQueue p).settle, rfl]

/-- An event that comes to work on its port. -/
theorem State.ActsOn.sameQueue {o : Host.Outcome State Fault Refusal} (h : s.ActsOn p o) :
    ∃ t, o = .next t ∧ s.SameQueue t := by
  obtain ⟨u, hu, rfl | rfl⟩ := h
  exacts [⟨u, rfl, hu.moves.sameQueue⟩, ⟨settle u, rfl, hu.moves.sameQueue.settle⟩]

end events

section commands

variable (s : State)

/-! ### Resets, start-up and the timers -/

theorem State.resetBy_sameQueue (k : ResetKind) : s.SameQueue (s.resetBy k) := by
  simp only [State.SameQueue, State.resetBy, State.mapPorts_pending]

theorem State.startUpLoad_sameQueue : s.SameQueue s.startUpLoad := by
  simp only [State.SameQueue, State.startUpLoad, State.mapPorts_pending]

theorem State.finishStartUp_sameQueue : s.SameQueue s.finishStartUp := by
  obtain ⟨link, freeCount, hfinish⟩ := s.finishStartUp_eq
  rw [hfinish]
  split
  exacts [(enterRun_keeps (s.started link freeCount)).sameQueue, rfl]

theorem execStartUpEnd_sameQueue : ∃ t, execStartUpEnd s = .next t ∧ s.SameQueue t := by
  have hloaded : s.SameQueue (if s.portsSet then s else s.startUpLoad) := by
    split
    exacts [rfl, s.startUpLoad_sameQueue]
  refine ⟨_, rfl, ?_⟩
  split
  exacts [(hloaded.trans (State.finishStartUp_sameQueue _)).settle, rfl]

theorem execStoreEnds_sameQueue (finish : StoreFinish) : ∃ t, execStoreEnds finish s = .next t ∧ s.SameQueue t := by
  have hfinished : ∀ j, s.SameQueue (s.finishStore j finish) :=
    fun j => (State.post_keeps { s with siu := _ } _).sameQueue
  refine ⟨_, rfl, ?_⟩
  split
  exacts [rfl, (hfinished _).settle]

theorem execMinuteExpiry_sameQueue : ∃ t, execMinuteExpiry s = .next t ∧ s.SameQueue t := by
  refine ⟨_, rfl, ?_⟩
  split
  exacts [(evaluateAll_keeps { s with pts := s.pts.expire }).sameQueue.settle, rfl]

/-! ### Every command -/

/-- Every command answers a next state with the queue of waiting commands as it was (log 28). -/
theorem exec_sameQueue (c : Instr) : ∃ t, exec c s = .next t ∧ s.SameQueue t := by
  have request : ∀ {k act}, (∀ r, s.Takes k r → (act r.payload s).Leaves s.SameQueue) →
      ∃ t, Host.Outcome.next (s.runRequest k act) = (.next t : Host.Outcome State Fault Refusal) ∧ s.SameQueue t :=
    fun ha => ⟨_, rfl, State.runRequest_leaves (P := s.SameQueue) (fun _ _ _ h => h) rfl ha⟩
  cases c with
  | powerOnResetAssert =>
    refine ⟨_, rfl, ?_⟩
    split
    exacts [rfl, s.resetBy_sameQueue .powerOn]
  | resetPinAssert =>
    refine ⟨_, rfl, ?_⟩
    split
    exacts [rfl, s.resetBy_sameQueue .pin]
  | powerOnResetRelease | resetPinRelease => exact ⟨_, rfl, rfl⟩
  | frameSent =>
    refine ⟨_, rfl, ?_⟩
    split
    exacts [s.resetBy_sameQueue .request, rfl]
  | receiveFrame | badByteInHunt | gapTimerExpiry =>
    refine ⟨_, rfl, ?_⟩
    split <;> rfl
  | unknownRequest =>
    refine ⟨_, rfl, ?_⟩
    repeat' split
    exacts [rfl, rfl, rfl, rfl]
  | startUpEnd => exact execStartUpEnd_sameQueue s
  | storeEnds finish => exact execStoreEnds_sameQueue s finish
  | minuteExpiry => exact execMinuteExpiry_sameQueue s
  | identify | status | setNotices | reset => exact request fun _ _ => rfl
  | setMode => exact request fun _ _ => setModeAction_sameQueue _ s
  | setTime => exact request fun _ _ => setTimeAction_sameQueue _ s
  | setPatrol => exact request fun _ _ => setPatrolAction_sameQueue _ s
  | convert => exact request fun _ _ => convertAction_sameQueue _ s
  | portConfig => exact request fun _ _ => portConfigAction_sameQueue _ s
  | portStatus => exact request fun _ _ => portStatusAction_sameQueue _ s
  | portOnline => exact request fun _ _ => portOnlineAction_sameQueue _ s
  | marginRead => exact request fun _ _ => marginReadAction_sameQueue _ s
  | addReel => exact request fun _ _ => addReelAction_sameQueue _ s
  | editReel => exact request fun _ _ => editReelAction_sameQueue _ s
  | removeReel => exact request fun _ _ => removeReelAction_sameQueue _ s
  | readReel => exact request fun _ _ => readReelAction_sameQueue _ s
  | listReels => exact request fun _ _ => listReelsAction_sameQueue _ s
  | freezeReel => exact request fun _ _ => freezeReelAction_sameQueue _ s
  | store => exact request fun r _ => storeAction_sameQueue r.payload s
  | restoreFactory => exact request fun r _ => restoreFactoryAction_sameQueue r.payload s
  | lockReel | unlockReel => exact request fun _ _ => lockAction_sameQueue _ s _
  | lockAll | unlockAll => exact request fun r _ => lockAllAction_sameQueue r.payload s _
  | startScrub => exact request fun _ hr => startScrubAction_sameQueue _ s (hr.run (.inl rfl))
  | startVerify => exact request fun _ hr => startVerifyAction_sameQueue _ s (hr.run (.inr rfl))
  | suspendJob => exact request fun _ _ => suspendJobAction_sameQueue _ s
  | resumeJob => exact request fun _ _ => resumeJobAction_sameQueue _ s
  | abortJob => exact request fun _ _ => abortJobAction_sameQueue _ s
  | jobStatus => exact request fun _ _ => jobStatusAction_sameQueue _ s
  | readDefects => exact request fun _ _ => readDefectsAction_sameQueue _ s
  | removeDefect => exact request fun _ _ => removeDefectAction_sameQueue _ s
  | retryDefect => exact request fun _ _ => retryDefectAction_sameQueue _ s
  | driveReply p bytes => exact execDriveReply_sameQueue s p bytes
  | gntFall p => exact execGntFall_sameQueue s p
  | commandTimeout p => exact (execCommandTimeout_actsOn s p).sameQueue
  | readyRise p => exact (execReadyRise_actsOn s p).sameQueue
  | mediaRise p => exact (execMediaRise_actsOn s p).sameQueue
  | mediaFall p => exact (execMediaFall_actsOn s p).sameQueue
  | wprotFall p => exact (execWprotFall_actsOn s p).sameQueue
  | gntRise p => exact (execGntRise_actsOn s p).sameQueue
  | yldRise p => exact (execYldRise_actsOn s p).sameQueue
  | yldFall p => exact (execYldFall_actsOn s p).sameQueue
  | readyFall p => exact (s.lineChange_actsOn p .ready false (.refl p)).sameQueue
  | faultFall p => exact (s.lineChange_actsOn p .fault false (.refl p)).sameQueue
  | wprotRise p =>
    exact (s.lineChange_actsOn p .wprot true fun t => (t.clearHold_keeps p).toKeeps.worksOn p).sameQueue
  | faultRise p => exact (s.lineChange_actsOn p .fault true fun t => t.faultRisen_worksOn p).sameQueue

end commands

end Sys2Proof.Machine
end

section
open Sys2Proof Sys2Proof.Machine

/-- Settles O1: the front of the queue is the command that `step` matches. -/
theorem stepRunsFrontCommand : Obligations.StepRunsFrontCommand := fun _ _ _ => rfl

/-- Settles O3: no arm of `exec` stops, and each leaves the queue of commands alone. -/
theorem everyCommandAnswers : Obligations.EveryCommandAnswers := fun c s => exec_sameQueue s c

end
